-- ==== Sys2Proof/Word.lean ====
section
/-! DEFINITION. The word types and their plainest arithmetic. Values that the manual shifts, masks or shows to software
as a word are bit vectors; counts, indexes and addresses of memory cells are natural numbers. -/

namespace Sys2Proof

/-- A 64-bit register or memory word. -/
abbrev Word := BitVec 64

/-- One byte of storage. -/
abbrev Byte := BitVec 8

/-- A 512-bit vector register (R13). -/
abbrev VecReg := BitVec 512

/-- `1` for true, `0` for false, as a word. -/
def Word.ofBool (b : Bool) : Word := if b then 1 else 0

/-- The bits `lo + w - 1 … lo` of a natural number. -/
def natBits (x lo w : Nat) : Nat := x / 2 ^ lo % 2 ^ w

/-- The bit `n` of a natural number. -/
def natBit (x n : Nat) : Bool := x / 2 ^ n % 2 == 1

/-- The `w`-bit two's complement reading of a natural number. -/
def natSigned (w x : Nat) : Int :=
  if x % 2 ^ w < 2 ^ (w - 1) then (x % 2 ^ w : Nat) else ((x % 2 ^ w : Nat) : Int) - (2 ^ w : Nat)

/-- An integer modulo `2^w`, as a natural number. -/
def intMod (w : Nat) (i : Int) : Nat := (i % (2 ^ w : Nat)).toNat

end Sys2Proof
end

