-- ==== Sys2Proof/Syntax.lean ====
section
/-! DEFINITION. The instructions as syntax: one constructor of `Instr` for each row of spec/opcode_table.json, the 240
instructions of R78 first and then the 99 events of 95_what_each_step_holds.md. Operand types hold exactly the values
that an encoding can name, so that the length of an instruction follows from its operands. -/

namespace Sys2Proof

/-- The four context-scope instances of a core (R13). -/
inductive CtxId where
  | main | work | msgL | msgH
  deriving DecidableEq, Repr

/-- A context-scope instance of the coordinate domain: a node number and a context. Nodes are numbered
`2048 * package + n`, with `n = die * 256 + y * 16 + x` for compute cores and `n = 1024 + die * 16 + y` for Caldera cores
(R353). -/
structure Inst where
  node : Nat
  ctx  : CtxId
  deriving DecidableEq, Repr

/-- A register number of the s, v, p, d, h files (R73). -/
abbrev SReg := Fin 64
abbrev VReg := Fin 32
abbrev PReg := Fin 8
abbrev DReg := Fin 7
abbrev HReg := Fin 16
/-- An accumulator tile (R34). -/
abbrev Tile := Fin 4

/-- Operand b of format A: a scalar register, or the 64-bit literal of R74. -/
inductive Opnd where
  | reg (r : SReg)
  | lit (w : Word)
  deriving DecidableEq, Repr

/-- An immediate, offset or displacement of `n` bits, or the literal that replaces it (R74). -/
inductive Imm (n : Nat) where
  | short (i : BitVec n)
  | lit (w : Word)
  deriving DecidableEq, Repr

/-- Rounding modes (R55). -/
inductive RMode where
  | rne | rtz | rup | rdn | rsr
  deriving DecidableEq, Repr

/-- The precision bit of FPS (R101). -/
inductive Prec where
  | f64 | f32
  deriving DecidableEq, Repr

/-- The lane formats of VFP and of the float compares (R205). -/
inductive VFmt where
  | f64 | f32 | f16 | bf16
  deriving DecidableEq, Repr

/-- Element formats, the codes of FMTA and FMTB (R75). -/
inductive Fmt where
  | f64 | f32 | f16 | bf16 | w8 | i8 | i32
  deriving DecidableEq, Repr

/-- Address modes (R30). -/
inductive Mode where
  | as | loc | cli
  deriving DecidableEq, Repr

/-- Access and element sizes (R75). -/
inductive Sz where
  | b | h | w | d
  deriving DecidableEq, Repr

/-- Memory scopes (R75, R144). -/
inductive Scope where
  | core | clu | die | pkg | dom | sys
  deriving DecidableEq, Repr

/-- An ordering annotation with its scope (R133). -/
inductive Ann where
  | none
  | acq (sc : Scope)
  | rel (sc : Scope)
  deriving DecidableEq, Repr

/-- The conditions of BRC (R106). -/
inductive Cond where
  | eq | ne | lt | ge | ltu | geu
  deriving DecidableEq, Repr

/-- Integer types of FTOI and ITOF (R105). -/
structure IntTy where
  uns : Bool
  sz  : Sz
  deriving DecidableEq, Repr

/-- Operands `d, a, b` of a format A instruction whose b operand is a scalar register or the literal (R93). -/
structure Rrr where
  d : SReg
  a : SReg
  b : Opnd
  deriving DecidableEq, Repr

/-- Operands of a format I instruction with an `n`-bit immediate (R96). -/
structure Rri (n : Nat) where
  d : SReg
  a : SReg
  i : Imm n
  deriving DecidableEq, Repr

/-- Operands of an immediate shift (R97). -/
structure Shi where
  d : SReg
  a : SReg
  n : Fin 64
  deriving DecidableEq, Repr

/-- Operands of CLZ, CTZ, POPC (R93). -/
structure Rr where
  d : SReg
  a : SReg
  deriving DecidableEq, Repr

/-- Operands of a two-operand FPS instruction; `rm` is the mode of an extended form (R101). -/
structure F2 where
  p  : Prec
  d  : SReg
  a  : SReg
  b  : Opnd
  rm : Option RMode
  deriving DecidableEq, Repr

/-- Operands of FMIN, FMAX, FEQ, FLT, FLE; `x` tells the extended forms (R103). -/
structure F2s where
  p  : Prec
  d  : SReg
  a  : SReg
  b  : Opnd
  x  : Bool
  deriving DecidableEq, Repr

/-- Operands of FSQRT (R102). -/
structure F1 where
  p  : Prec
  d  : SReg
  a  : SReg
  rm : Option RMode
  deriving DecidableEq, Repr

/-- Operands of FCLASS, FNEG, FABS; `x` tells the extended form (R102, R103). -/
structure F1s where
  p  : Prec
  d  : SReg
  a  : SReg
  x  : Bool
  deriving DecidableEq, Repr

/-- Operands of FMA (R104). -/
structure F3 where
  p  : Prec
  d  : SReg
  a  : SReg
  b  : Opnd
  c  : SReg
  rm : RMode
  deriving DecidableEq, Repr

/-- Operands of FCVT: formats among the floats (R105). -/
structure FCvt where
  d  : SReg
  a  : SReg
  fa : Fmt
  fb : Fmt
  rm : RMode
  deriving DecidableEq, Repr

/-- Operands of FTOI and ITOF (R105). -/
structure FInt where
  d  : SReg
  a  : SReg
  f  : Fmt
  ty : IntTy
  rm : RMode
  deriving DecidableEq, Repr

/-- Operands of BRC: the displacement is XIMM or the literal (R106). -/
structure BrcOp where
  cond : Cond
  c    : SReg
  e    : SReg
  disp : Imm 24
  deriving DecidableEq, Repr

/-- Operands of a zero branch (R106). -/
structure BzOp where
  a    : SReg
  disp : Imm 16
  deriving DecidableEq, Repr

/-- Operands of LOOP and LOOPI in form B: displacement in words; in form L a byte displacement (LOOP) (R110). -/
structure LoopOp where
  a    : SReg
  disp : Imm 16
  deriving DecidableEq, Repr

/-- Operands of LOOPI: a count of 0–63, or a 32-bit literal count (R110). -/
inductive LoopCount where
  | short (n : Fin 64)
  | lit (n : BitVec 32)
  deriving DecidableEq, Repr

structure LoopiOp where
  n    : LoopCount
  disp : BitVec 16
  deriving DecidableEq, Repr

/-- The extension fields of LD and LDX (R136). -/
structure LdX where
  sx  : Bool
  sz  : Sz
  acq : Option Scope
  deriving DecidableEq, Repr

/-- The extension fields of ST and STX (R136). -/
structure StX where
  sz  : Sz
  rel : Option Scope
  deriving DecidableEq, Repr

structure LdOp where
  d    : SReg
  a    : SReg
  mode : Mode
  off  : Imm 10
  x    : Option LdX
  deriving DecidableEq, Repr

structure StOp where
  d    : SReg
  a    : SReg
  mode : Mode
  off  : Imm 10
  x    : Option StX
  deriving DecidableEq, Repr

structure LdxOp where
  d    : SReg
  a    : SReg
  mode : Mode
  c    : SReg
  x    : LdX
  deriving DecidableEq, Repr

structure StxOp where
  d    : SReg
  a    : SReg
  mode : Mode
  c    : SReg
  x    : StX
  deriving DecidableEq, Repr

/-- Operands of an FE operation; `x` holds the annotation of an extended form (R139). -/
structure FeOpnds where
  d    : SReg
  a    : SReg
  b    : Opnd
  mode : Mode
  x    : Option (Option Scope)
  deriving DecidableEq, Repr

/-- Operands of FECLR, whose rd field is zero (R139). -/
structure FeClr where
  a    : SReg
  b    : Opnd
  mode : Mode
  x    : Option (Option Scope)
  deriving DecidableEq, Repr

/-- Sizes an atomic admits (R144). -/
inductive ASz where
  | w | d
  deriving DecidableEq, Repr

structure AtomX where
  sz  : ASz
  ann : Ann
  deriving DecidableEq, Repr

structure AtomOp where
  d    : SReg
  a    : SReg
  b    : Opnd
  mode : Mode
  x    : Option AtomX
  deriving DecidableEq, Repr

structure CasOp where
  d    : SReg
  a    : SReg
  b    : Opnd
  mode : Mode
  c    : SReg
  x    : AtomX
  deriving DecidableEq, Repr

structure AfaddX where
  p   : Prec
  rm  : RMode
  ann : Ann
  deriving DecidableEq, Repr

structure AfaddOp where
  d    : SReg
  a    : SReg
  b    : Opnd
  mode : Mode
  x    : Option AfaddX
  deriving DecidableEq, Repr

/-- Operands of SEND, SENDH, MIGR (R165). -/
structure SendOp where
  w8 : Bool
  a  : SReg
  b  : Opnd
  n  : Fin 9
  deriving DecidableEq, Repr

/-- Operands of COPY (R151). -/
structure CopyOp where
  ch    : Fin 4
  mode  : Mode
  shape : Bool
  d     : SReg
  a     : SReg
  b     : Opnd
  deriving DecidableEq, Repr

/-- The count of HADV and HREL: 0–63, or a literal (R155). -/
structure HAdvOp where
  h : HReg
  n : Imm 6
  deriving DecidableEq, Repr

/-- Destination of TLD: a tile offset in an s register, or a ring handle (R159). -/
inductive TldDst where
  | tile (d : SReg)
  | ring (h : HReg)
  deriving DecidableEq, Repr

structure TldOp where
  ch  : Fin 4
  loc : Bool
  dst : TldDst
  a   : SReg
  b   : Opnd
  deriving DecidableEq, Repr

structure TstOp where
  ch  : Fin 4
  loc : Bool
  d   : SReg
  a   : SReg
  b   : Opnd
  deriving DecidableEq, Repr

/-- DMOV in its two directions, with the literal of form XL, which replaces nothing (R159). -/
inductive DmovOp where
  | toD (d : DReg) (a : SReg) (lit : Option Word)
  | toS (d : SReg) (a : DReg) (lit : Option Word)
  deriving DecidableEq, Repr

structure DincOp where
  d : SReg
  b : Opnd
  k : Fin 8
  deriving DecidableEq, Repr

/-- The extension fields of the vector loads (R210). -/
structure VldX where
  sz   : Sz
  acq  : Option Scope
  pm   : PReg
  zm   : Bool
  ximm : BitVec 24
  deriving DecidableEq, Repr

/-- The extension fields of the vector stores (R210). -/
structure VstX where
  sz   : Sz
  rel  : Option Scope
  pm   : PReg
  ximm : BitVec 24
  deriving DecidableEq, Repr

structure VldOp where
  d    : VReg
  a    : SReg
  b    : Opnd
  mode : Mode
  x    : Option VldX
  deriving DecidableEq, Repr

structure VstOp where
  d    : VReg
  a    : SReg
  b    : Opnd
  mode : Mode
  x    : Option VstX
  deriving DecidableEq, Repr

structure VgaOp where
  d    : VReg
  a    : SReg
  b    : VReg
  mode : Mode
  x    : Option VldX
  deriving DecidableEq, Repr

structure VscOp where
  d    : VReg
  a    : SReg
  b    : VReg
  mode : Mode
  x    : Option VstX
  deriving DecidableEq, Repr

/-- Governing predicate and inactive-lane rule of an extended vector form (R207). -/
structure PmZm where
  pm : PReg
  zm : Bool
  deriving DecidableEq, Repr

/-- Operand b of a lane instruction: a vector, or in form X a scalar register (R214). -/
inductive VB where
  | v (r : VReg) (x : Option PmZm)
  | s (r : SReg) (x : PmZm)
  deriving DecidableEq, Repr

/-- Operands of the integer lane instructions (R214). -/
structure VInt where
  w : Sz
  d : VReg
  a : VReg
  b : VB
  deriving DecidableEq, Repr

/-- Extension fields of a rounding lane instruction (R216). -/
structure FX where
  rm : RMode
  pm : PReg
  zm : Bool
  deriving DecidableEq, Repr

/-- Operand b of a rounding lane instruction (R216). -/
inductive VFB where
  | v (r : VReg) (x : Option FX)
  | s (r : SReg) (x : FX)
  deriving DecidableEq, Repr

structure VF2 where
  f : VFmt
  d : VReg
  a : VReg
  b : VFB
  deriving DecidableEq, Repr

/-- Operands of VFMIN and VFMAX, which do not round (R217). -/
structure VF2s where
  f : VFmt
  d : VReg
  a : VReg
  b : VB
  deriving DecidableEq, Repr

/-- Operands of VFSQRT (R217). -/
structure VF1 where
  f : VFmt
  d : VReg
  a : VReg
  x : Option FX
  deriving DecidableEq, Repr

/-- Operands of VFNEG and VFABS (R217). -/
structure VF1s where
  f : VFmt
  d : VReg
  a : VReg
  x : Option PmZm
  deriving DecidableEq, Repr

structure VF3 where
  f : VFmt
  d : VReg
  a : VReg
  b : VReg
  c : VReg
  x : FX
  deriving DecidableEq, Repr

/-- The format pairs of the dot products (R64), with the mode of the pairs that round. -/
inductive DotPair where
  | f64 (rm : RMode) | f32 (rm : RMode) | f16 (rm : RMode) | bf16 (rm : RMode) | w8 (rm : RMode) | i8
  deriving DecidableEq, Repr

structure VDot where
  d  : VReg
  a  : VReg
  b  : VReg
  p  : DotPair
  pm : PReg
  deriving DecidableEq, Repr

/-- Operands of VSCACC: the source is FP32, or INT32 when `int` (R220). -/
structure VScacc where
  d   : VReg
  a   : VReg
  b   : SReg
  int : Bool
  x   : FX
  deriving DecidableEq, Repr

/-- Operands of VCVT (R222). -/
structure VCvt where
  d  : VReg
  a  : VReg
  fa : Fmt
  fb : Fmt
  q  : Fin 8
  x  : FX
  deriving DecidableEq, Repr

/-- Operands of VSEL, whose extension has no ZM (R223). -/
structure VSel where
  w : Sz
  d : VReg
  a : VReg
  b : VReg
  x : Option PReg
  deriving DecidableEq, Repr

structure VPermOp where
  w : Sz
  d : VReg
  a : VReg
  b : VReg
  x : Option PmZm
  deriving DecidableEq, Repr

structure VBc where
  w : Sz
  d : VReg
  a : SReg
  x : Option PmZm
  deriving DecidableEq, Repr

/-- Operands of VINS; `x` tells the extended form, whose fields are all zero (R223). -/
structure VInsOp where
  w : Sz
  d : VReg
  a : SReg
  b : SReg
  x : Bool
  deriving DecidableEq, Repr

/-- Operands of VEXT; `x` holds XFN[0] of an extended form (R223). -/
structure VExtOp where
  w : Sz
  d : SReg
  a : VReg
  b : SReg
  x : Option Bool
  deriving DecidableEq, Repr

structure VSlOp where
  w : Sz
  d : VReg
  a : VReg
  b : SReg
  x : Option PmZm
  deriving DecidableEq, Repr

structure VMovOp where
  w : Sz
  d : VReg
  a : VReg
  x : Option PmZm
  deriving DecidableEq, Repr

/-- Operands of the reductions (R224). -/
structure VRed where
  w : Sz
  d : SReg
  a : VReg
  x : Option PReg
  deriving DecidableEq, Repr

/-- Operands of VRFADD (R224). -/
structure VRf where
  p : Prec
  d : SReg
  a : VReg
  x : Option (RMode × PReg)
  deriving DecidableEq, Repr

/-- Operands of the integer compares (R225). -/
structure VCmp where
  w : Sz
  d : PReg
  a : VReg
  b : VB
  deriving DecidableEq, Repr

/-- Operands of the float compares (R225). -/
structure VFCmp where
  f : VFmt
  d : PReg
  a : VReg
  b : VB
  deriving DecidableEq, Repr

/-- Operands of PAND, POR, PXOR; `x` tells the extended form, whose fields are all zero (R226). -/
structure P3 where
  d : PReg
  a : PReg
  b : PReg
  x : Bool
  deriving DecidableEq, Repr

structure P2 where
  d : PReg
  a : PReg
  x : Bool
  deriving DecidableEq, Repr

structure PS where
  d : SReg
  a : PReg
  x : Bool
  deriving DecidableEq, Repr

structure PSetOp where
  d : PReg
  a : SReg
  x : Bool
  deriving DecidableEq, Repr

structure GmmaOp where
  t : Tile
  a : SReg
  b : SReg
  p : DotPair
  deriving DecidableEq, Repr

/-- AZERO: base form, or extended with FMTB FP32 (`some false`) or FP64 (`some true`) (R193). -/
structure AzeroOp where
  t : Tile
  x : Option Bool
  deriving DecidableEq, Repr

structure AldtOp where
  t : Tile
  a : SReg
  x : Option Fmt
  deriving DecidableEq, Repr

/-- The accumulator views (R193). -/
inductive View where
  | f64 | f32 | i32
  deriving DecidableEq, Repr

structure AsttOp where
  t : Tile
  a : SReg
  x : Option (View × Fmt × RMode)
  deriving DecidableEq, Repr

/-- ACVT: the destination format is any but INT8 (R193). -/
structure AcvtOp where
  d : Tile
  t : Tile
  x : Option (View × Fmt × RMode)
  deriving DecidableEq, Repr

/-- ASCALE: in form X the view of p is INT32 when the Bool is true (R194). -/
structure AscaleOp where
  c : Tile
  p : Tile
  b : SReg
  x : Option (Bool × RMode)
  deriving DecidableEq, Repr

/-- AMOVV: tile to vector in form B or X, vector to tile in form X (R192). -/
inductive AmovvOp where
  | toV (d : VReg) (t : Tile) (b : SReg) (x : Bool)
  | toT (t : Tile) (a : VReg) (b : SReg)
  deriving DecidableEq, Repr

/-- AFLAG; `x` tells the extended form, whose fields are all zero (R192). -/
structure AflagOp where
  d    : SReg
  mask : Fin 16
  x    : Bool
  deriving DecidableEq, Repr

/-- GRAD: class and BF16 of an extended form (R198). -/
structure GradOp where
  a : SReg
  b : VReg
  x : Option (Fin 4 × Bool)
  deriving DecidableEq, Repr

/-- GRADQ, PRSTAT; `x` tells the extended form, whose fields are all zero (R198). -/
structure RecQ where
  d : SReg
  a : SReg
  x : Bool
  deriving DecidableEq, Repr

structure PrldOp where
  d : VReg
  a : SReg
  b : SReg
  x : Option (Fin 4)
  deriving DecidableEq, Repr

structure PrstOp where
  a    : SReg
  skip : Bool
  x    : Bool
  deriving DecidableEq, Repr

structure PrsetOp where
  a : SReg
  b : VReg
  x : Option (Fin 4)
  deriving DecidableEq, Repr

/-- A CSR number: ten bits in form B, twelve in form X (R246). -/
inductive CsrNo where
  | short (n : BitVec 10)
  | ext (n : BitVec 12)
  deriving DecidableEq, Repr

structure CsrOp where
  d : SReg
  a : SReg
  n : CsrNo
  deriving DecidableEq, Repr

/-- The core that CORE_RETIRE retires, and the words whose read fails in the images that are stored, by core of the group, partition and
word of the scratchpad or window (R402). -/
structure Retired where
  core : Nat
  bad  : List (Nat × Nat × Nat)
  deriving DecidableEq, Repr

/-- One constructor per row of spec/opcode_table.json. Events carry what their agent chooses: a message, an instance, a
node, a package with a queue, a partition or a value read by a sensor. -/
inductive Instr where
  -- SYS (R114, R234)
  | ill | nop | align (n : Fin 64) | trap (code : BitVec 8) | brk (code : BitVec 8) | sysc (code : BitVec 8)
  | eret | upret (a : SReg) | wfi (a : SReg) | shoot (a b : SReg) | tlbil (a b : SReg)
  | savex (a : SReg) | loadx (a : SReg) | perfr (d : SReg) (n : Fin 64) | tmark (a : SReg) (tag : Fin 64)
  -- ALU (R94)
  | add (o : Rrr) | sub (o : Rrr) | and (o : Rrr) | or (o : Rrr) | xor (o : Rrr) | andn (o : Rrr)
  | sll (o : Rrr) | srl (o : Rrr) | sra (o : Rrr) | slt (o : Rrr) | sltu (o : Rrr) | seq (o : Rrr)
  | min (o : Rrr) | max (o : Rrr) | minu (o : Rrr) | maxu (o : Rrr)
  | clz (o : Rr) | ctz (o : Rr) | popc (o : Rr)
  | bfx (o : Rrr) | bfxu (o : Rrr) | bfi (o : Rrr) | adds (o : Rrr) | subs (o : Rrr)
  | caddr (o : Rrr) | crel (o : Rrr)
  -- immediates (R97)
  | addi (o : Rri 12) | andi (o : Rri 12) | ori (o : Rri 12) | xori (o : Rri 12)
  | slli (o : Shi) | srli (o : Shi) | srai (o : Shi)
  | slti (o : Rri 10) | sltiu (o : Rri 10) | seqi (o : Rri 10)
  -- CMOV, MULDIV (R98, R99)
  | cmovnz (o : Rrr) | cmovz (o : Rrr)
  | mul (o : Rrr) | mulh (o : Rrr) | mulhu (o : Rrr) | mulhsu (o : Rrr)
  | div (o : Rrr) | divu (o : Rrr) | rem (o : Rrr) | remu (o : Rrr)
  -- FPS (R102 to R105)
  | fadd (o : F2) | fsub (o : F2) | fmul (o : F2) | fdiv (o : F2) | fsqrt (o : F1)
  | fmin (o : F2s) | fmax (o : F2s) | feq (o : F2s) | flt (o : F2s) | fle (o : F2s) | fclass (o : F1s)
  | fneg (o : F1s) | fabs (o : F1s) | fma (o : F3) | fcvt (o : FCvt) | ftoi (o : FInt) | itof (o : FInt)
  -- branches (R107, R108), loops (R110)
  | br (disp : Imm 24) | brc (o : BrcOp) | brz (o : BzOp) | brnz (o : BzOp) | brlz (o : BzOp) | brgez (o : BzOp)
  | call (disp : Imm 24) | jr (a : SReg) | callr (a : SReg) | ret | jt (a b : SReg)
  | loop (o : LoopOp) | loopi (o : LoopiOp)
  -- loads and stores (R136)
  | ld (o : LdOp) | st (o : StOp) | ldx (o : LdxOp) | stx (o : StxOp)
  -- full/empty (R139)
  | ldf (o : FeOpnds) | take (o : FeOpnds) | putf (o : FeOpnds) | stf (o : FeOpnds) | ste (o : FeOpnds)
  | feqFe (o : FeOpnds) | feclr (o : FeClr)
  -- atomics (R144)
  | aadd (o : AtomOp) | aand (o : AtomOp) | aor (o : AtomOp) | axor (o : AtomOp)
  | amin (o : AtomOp) | amax (o : AtomOp) | aminu (o : AtomOp) | amaxu (o : AtomOp) | aswp (o : AtomOp)
  | acas (o : CasOp) | afadd (o : AfaddOp)
  -- ordering (R146)
  | fence (sc : Scope) | flush (a : SReg) | phase | quiet (sc : Scope) | gbar (sc : Scope)
  -- formulas (R117)
  | fld (slot : Fin 64) (a : SReg) | bind (d : SReg) (slot : Fin 64) | unbind (d : SReg) | unbinda
  | bindq (d a : SReg) | fhold (slot : Fin 64) | frun (slot : Fin 64) | feval (slot : Fin 64)
  -- messages (R165, R172 to R174)
  | send (o : SendOp) | sendh (o : SendOp) | migr (o : SendOp) | spawn (d : SReg) (b : Opnd) | done | msgq (d : SReg)
  -- nets (R176)
  | pop (d : SReg) | pushp (a b : SReg) | nalloc (d : SReg) | nfree (a : SReg) | link (a b : SReg) | rule
  | nsym (d a : SReg) | steal (d : SReg)
  -- channels (R151)
  | copy (o : CopyOp) | cwait (n : Fin 64) | cstat (d : SReg) (n : Fin 64) | qfence (mask : Fin 64) | cabort (n : Fin 64)
  -- rings (R155)
  | hset (h : HReg) (a : SReg) (tie : Fin 64) | hwait (d : SReg) (h : HReg) (n : Fin 64)
  | hspace (d : SReg) (h : HReg) (n : Fin 64) | hadv (o : HAdvOp) | hrel (o : HAdvOp) | hq (d : SReg) (h : HReg)
  -- tensors (R159)
  | tshp (b : Opnd) | tld (o : TldOp) | tst (o : TstOp) | dmov (o : DmovOp) | dinc (o : DincOp)
  -- vector memory (R210)
  | vld (o : VldOp) | vst (o : VstOp) | vlds (o : VldOp) | vsts (o : VstOp) | vgath (o : VgaOp) | vscat (o : VscOp)
  | vldbc (o : VldOp)
  -- integer lanes (R215)
  | vadd (o : VInt) | vsub (o : VInt) | vmul (o : VInt) | vmulh (o : VInt) | vand (o : VInt) | vor (o : VInt)
  | vxor (o : VInt) | vsll (o : VInt) | vsrl (o : VInt) | vsra (o : VInt) | vmin (o : VInt) | vmax (o : VInt)
  | vminu (o : VInt) | vmaxu (o : VInt) | vadds (o : VInt) | vsubs (o : VInt)
  -- float lanes (R217 to R220)
  | vfadd (o : VF2) | vfsub (o : VF2) | vfmul (o : VF2) | vfdiv (o : VF2) | vfsqrt (o : VF1)
  | vfmin (o : VF2s) | vfmax (o : VF2s) | vfma (o : VF3) | vfneg (o : VF1s) | vfabs (o : VF1s)
  | vdot (o : VDot) | vscacc (o : VScacc)
  -- conversions, moves, reductions (R222 to R224)
  | vcvt (o : VCvt) | vsel (o : VSel) | vperm (o : VPermOp) | vbcast (o : VBc) | vins (o : VInsOp) | vext (o : VExtOp)
  | vslup (o : VSlOp) | vsldn (o : VSlOp)
  | vradd (o : VRed) | vrmin (o : VRed) | vrmax (o : VRed) | vrminu (o : VRed) | vrmaxu (o : VRed) | vrfadd (o : VRf)
  | vmov (o : VMovOp)
  -- predicates (R225, R226)
  | vceq (o : VCmp) | vcne (o : VCmp) | vclt (o : VCmp) | vcle (o : VCmp) | vcltu (o : VCmp) | vcleu (o : VCmp)
  | vfceq (o : VFCmp) | vfclt (o : VFCmp) | vfcle (o : VFCmp)
  | pand (o : P3) | por (o : P3) | pxor (o : P3) | pnot (o : P2) | pcnt (o : PS) | pfirst (o : PS) | psetw (o : PSetOp)
  -- matrix and accumulators (R186, R192)
  | gmma (o : GmmaOp)
  | azero (o : AzeroOp) | aldt (o : AldtOp) | astt (o : AsttOp) | acvt (o : AcvtOp) | ascale (o : AscaleOp)
  | amovv (o : AmovvOp) | aflag (o : AflagOp)
  -- records (R198)
  | grad (o : GradOp) | gradq (o : RecQ) | prld (o : PrldOp) | prst (o : PrstOp) | prset (o : PrsetOp) | prstat (o : RecQ)
  -- CSR (R246)
  | csrr (o : CsrOp) | csrw (o : CsrOp) | csrs (o : CsrOp) | csrc (o : CsrOp)
  -- events of the memory system: the message they act on
  | memoryRequest (m : Nat) | negativeAcknowledgement (m : Nat) | feRequest (m : Nat) | waiterRetry (m : Nat)
  | atomicRequest (m : Nat) | replyArrival (m : Nat) (poison : Bool) | acknowledgement (m : Nat)
  | deferredFault (i : Inst) | flushProbe (m : Nat)
  -- events of one instance or node
  | boundaryEvaluation (i : Inst) | formulaCheck (i : Inst) | alignTimeout (i : Inst) | quietWave (i : Inst)
  | gbarComplete (i : Inst) | wfiWake (i : Inst) | interrupt (node : Nat) | watchpointMatch (i : Inst)
  | channelGroup (node : Nat) (ch : Fin 4) | channelComplete (node : Nat) (ch : Fin 4)
  | channelFault (node : Nat) (ch : Fin 4) (uncorrectable : Bool)
  | chordClose (node : Nat) | gmmaStart (node : Nat) | gmmaComplete (node : Nat)
  | parcelArrival (m : Nat) | parcelResend (m : Nat) | handlerStart (node : Nat) | handlerWatchdog (i : Inst)
  | gradContribution (m : Nat) | recordRuleStart (node : Nat) | prldServe (m : Nat) | prldRetry (m : Nat)
  | prsetServe (m : Nat) | prstatServe (m : Nat) | coreGate (node : Nat)
  -- events of the host link, the scheduler and the partitions: the package first
  | doorbell (p q : Nat) (v : BitVec 32) | registerWrite (p off : Nat) (v : Word)
  | alloc (p part : Nat) | free (p part : Nat) | reside (p part : Nat) | store (p part : Nat)
  | hostint (p : Nat) (v : Word) | queueNop (p q : Nat) | launch (p q : Nat) | wait (p q : Nat) | signal (p q : Nat)
  | cancel (p q n : Nat) | entryCompletion (p q n : Nat) | slotAssignment (p q : Nat)
  | grainPlacement (p l n core : Nat) | launchShare (p l dest : Nat) | sliceWarning (p part : Nat) | sliceEnd (p part : Nat)
  | partitionSwap (p part next : Nat)
  | shootCluster (p part cluster : Nat) | shootMailbox (p part node : Nat) | shootHomeCache (p part home : Nat)
  | shootTephra (p part : Nat) | shootAcknowledgement (p part : Nat)
  -- events of Tephra and the debugger
  | traceRecord (p : Nat) | periodicSync (node : Nat) | sampleMark (i : Inst) | monitorSample (p : Nat)
  | tctl (p : Nat) (secure : Bool) (v : Word) | mon (p : Nat) (secure : Bool) (n : Nat) (v : Word)
  | stopCore (p : Nat) (secure : Bool) | stopPartition (p : Nat) (secure : Bool) | resume (p : Nat) (secure : Bool)
  | stepInstruction (p : Nat) (secure : Bool) | stepActivation (p : Nat) (secure : Bool)
  -- events of boot, firmware and the fleet
  | boot (p : Nat) | recoveryFetch (p : Nat) | quote (p : Nat) (nonce : BitVec 256) | firmwareUpdate (p : Nat)
  | timeFlit (p : Nat) | laneFailure (p l : Nat) (out : Bool) | telemetryRefresh (p n unit : Nat) (v : Nat)
  | errorLogMove (p : Nat) | dramScrubError (p addr : Nat) | coreRetire (p : Nat) (core : Retired) | rowSpare (p chan bank row : Nat)
  | bankSpare (p chan bank : Nat) | mcFirmwareUpdate (p : Nat) | currentCheck (p die amps : Nat)
  | powerWindow (p die watts : Nat) | thermalStep (p die t : Nat) | thermalClamp (p die t : Nat) | thermalTrip (p die t : Nat)
  | setPl (p pl ceil : Nat) | setPcap (p part cap ceil : Nat) | deviceReset (p : Nat) (secure : Bool)
  | linksReset (p : Nat) (secure : Bool) | gatedCoreWake (node : Nat) | powerLoss (p : Nat) | mililoLinkDown (p l : Nat)
  | mililoLinkUp (p l : Nat) | partcmdComplete (p : Nat) | mcRestartComplete (p : Nat) | queueEntryBadKind (p q : Nat)
  | illegalInstruction
  deriving DecidableEq, Repr

end Sys2Proof
end

