-- ==== Sys2Proof/WellFormed.lean ====
section
/-! DEFINITION. Which instruction terms an encoding of R72 to R78 can name. The operand types already hold most limits;
what is left are the limits that join two fields or restrict a value. -/

namespace Sys2Proof

/-- A float format (R105). -/
def Fmt.isFloat : Fmt → Bool
  | .f64 | .f32 | .f16 | .bf16 | .w8 => true
  | .i8 | .i32 => false

/-- The byte size of an element (R205). -/
def Fmt.bytes : Fmt → Nat
  | .f64 => 8
  | .f32 | .i32 => 4
  | .f16 | .bf16 => 2
  | .w8 | .i8 => 1

/-- A literal displacement counts bytes and is a multiple of 4 (R74). -/
def Imm.aligned {n : Nat} : Imm n → Bool
  | .short _ => true
  | .lit w => w.toNat % 4 == 0

/-- The signed value of a displacement in bytes (R70, R74). -/
def Imm.dispBytes {n : Nat} : Imm n → Int
  | .short i => i.toInt * 4
  | .lit w => w.toInt

/-- The parts that a VCVT of these formats has, `max(Ls, Ld) / n` (R222). -/
def VCvt.parts (fa fb : Fmt) : Nat :=
  Nat.max fa.bytes fb.bytes / Nat.min fa.bytes fb.bytes

/-- The terms that an encoding names. Every event is well formed: it has no encoding. -/
def Instr.wf : Instr → Bool
  | .br disp | .call disp => disp.aligned
  | .brc o => o.disp.aligned
  | .brz o | .brnz o | .brlz o | .brgez o => o.disp.aligned
  | .loop o => o.disp.aligned && decide (0 < o.disp.dispBytes)
  | .loopi o => decide (0 < o.disp.toInt)
  | .csrr o => o.a == 0
  | .fcvt o => o.fa.isFloat && o.fb.isFloat
  | .ftoi o | .itof o => o.f.isFloat
  | .ld o => match o.x with
    | some x => !(x.sx && x.sz == .d)
    | none => true
  | .ldx o => !(o.x.sx && o.x.sz == .d)
  | .vcvt o => o.fa != o.fb && decide (o.q.val < VCvt.parts o.fa o.fb)
  | .acvt o => match o.x with
    | some (_, f, _) => f != .i8
    | none => true
  | _ => true

/-- `i` is an instruction that an encoding of R72 to R78 names. -/
abbrev Instr.WellFormed (i : Instr) : Prop := i.wf = true

end Sys2Proof
end

