-- ==== Sys2Proof/Decode.lean ====
section
/-! DEFINITION. Instruction words to instructions and back: the formats of R72, the literal and extended forms of R74 and
R75, the majors of R77, the functions of R78, and the rejection, by name, of every pattern of R79. The encoder after the
decoder is written from the same tables. -/

namespace Sys2Proof

/-- Why a word pattern is not an instruction: the cases of R79. -/
inductive Reject where
  /-- Fewer bytes than the instruction's length. -/
  | truncated
  /-- Major 0x24–0x3F. -/
  | reservedMajor
  /-- A form that the major or the instruction does not accept. -/
  | form
  /-- A function, sub, op or XFN value not listed in R78. -/
  | function
  /-- A field that the instruction does not use is not zero (R76). -/
  | unusedField
  /-- An illegal code in RM, SZ, ANN, SCOPE, FMTA, FMTB or mode. -/
  | code
  /-- A register number beyond the named file. -/
  | register
  /-- An immediate, offset or displacement outside its range. -/
  | range
  deriving DecidableEq, Repr

/-- The five six-bit fields of a base word below its length bits: format A of R72, of which the others are regroupings. -/
structure Base where
  major : Fin 64
  rd : Fin 64
  ra : Fin 64
  rb : Fin 64
  fn : Fin 64
  deriving DecidableEq, Repr

/-- The extension word (R75). -/
structure Ext where
  xfn   : Fin 256 := 0
  rc    : Fin 64 := 0
  re    : Fin 64 := 0
  rm    : Fin 8 := 0
  pm    : Fin 8 := 0
  sz    : Fin 4 := 0
  ann   : Fin 4 := 0
  scope : Fin 8 := 0
  fmta  : Fin 8 := 0
  fmtb  : Fin 8 := 0
  zm    : Fin 2 := 0
  ximm  : BitVec 24 := 0
  deriving DecidableEq, Repr

/-- An instruction cut into its words: the base word, the extension and the literal. -/
structure Enc where
  base : Base
  ext  : Option Ext
  lit  : Option Word
  deriving DecidableEq, Repr

/-! ### Words -/

/-- The length bits [31:30] of R69. -/
def Enc.lenCode (e : Enc) : Nat :=
  match e.ext, e.lit with
  | none, none => 0
  | none, some _ => 1
  | some _, none => 2
  | some _, some _ => 3

/-- The base word as a number. -/
def Enc.baseWord (e : Enc) : Nat :=
  e.lenCode * 2 ^ 30 + e.base.major.val * 2 ^ 24 + e.base.rd.val * 2 ^ 18 + e.base.ra.val * 2 ^ 12
    + e.base.rb.val * 2 ^ 6 + e.base.fn.val

/-- The fields of a base word. -/
def Base.ofWord (w : Nat) : Base where
  major := Fin.ofNat 64 (w / 2 ^ 24)
  rd := Fin.ofNat 64 (w / 2 ^ 18)
  ra := Fin.ofNat 64 (w / 2 ^ 12)
  rb := Fin.ofNat 64 (w / 2 ^ 6)
  fn := Fin.ofNat 64 w

/-- The extension word as a number. -/
def Ext.word (x : Ext) : Nat :=
  x.xfn.val * 2 ^ 56 + x.rc.val * 2 ^ 50 + x.re.val * 2 ^ 44 + x.rm.val * 2 ^ 41 + x.pm.val * 2 ^ 38
    + x.sz.val * 2 ^ 36 + x.ann.val * 2 ^ 34 + x.scope.val * 2 ^ 31 + x.fmta.val * 2 ^ 28 + x.fmtb.val * 2 ^ 25
    + x.zm.val * 2 ^ 24 + x.ximm.toNat

/-- The fields of an extension word. -/
def Ext.ofWord (w : Nat) : Ext where
  xfn := Fin.ofNat 256 (w / 2 ^ 56)
  rc := Fin.ofNat 64 (w / 2 ^ 50)
  re := Fin.ofNat 64 (w / 2 ^ 44)
  rm := Fin.ofNat 8 (w / 2 ^ 41)
  pm := Fin.ofNat 8 (w / 2 ^ 38)
  sz := Fin.ofNat 4 (w / 2 ^ 36)
  ann := Fin.ofNat 4 (w / 2 ^ 34)
  scope := Fin.ofNat 8 (w / 2 ^ 31)
  fmta := Fin.ofNat 8 (w / 2 ^ 28)
  fmtb := Fin.ofNat 8 (w / 2 ^ 25)
  zm := Fin.ofNat 2 (w / 2 ^ 24)
  ximm := BitVec.ofNat 24 w

/-- The length in bytes that the length bits give (R69). -/
def lenOfBase (w : Nat) : Nat :=
  match w / 2 ^ 30 % 4 with
  | 0 => 4
  | 1 => 12
  | 2 => 12
  | _ => 20

/-- A number read from `n` bytes, the least significant first. -/
def leNat : List Byte → Nat
  | [] => 0
  | b :: bs => b.toNat + 256 * leNat bs

/-- The `n` bytes of a number, the least significant first. -/
def leBytes : Nat → Nat → List Byte
  | 0, _ => []
  | n + 1, x => BitVec.ofNat 8 x :: leBytes n (x / 256)

/-- The words of an instruction from its base word and the 16 bytes after it (R69). -/
def Enc.ofWords (base q1 q2 : Nat) : Enc :=
  match base / 2 ^ 30 % 4 with
  | 0 => ⟨Base.ofWord base, none, none⟩
  | 1 => ⟨Base.ofWord base, none, some (BitVec.ofNat 64 q1)⟩
  | 2 => ⟨Base.ofWord base, some (Ext.ofWord q1), none⟩
  | _ => ⟨Base.ofWord base, some (Ext.ofWord q1), some (BitVec.ofNat 64 q2)⟩

/-- The bytes of an instruction, in fetch order (R69). -/
def Enc.bytes (e : Enc) : List Byte :=
  leBytes 4 e.baseWord
    ++ (match e.ext with | some x => leBytes 8 x.word | none => [])
    ++ (match e.lit with | some w => leBytes 8 w.toNat | none => [])

/-! ### Field codes -/

def Opnd.rb : Opnd → Fin 64
  | .reg r => r
  | .lit _ => 0

def Opnd.litw : Opnd → Option Word
  | .reg _ => none
  | .lit w => some w

def RMode.code : RMode → Fin 8
  | .rne => 0 | .rtz => 1 | .rup => 2 | .rdn => 3 | .rsr => 4

def RMode.ofCode (c : Fin 8) : Except Reject RMode :=
  match c.val with
  | 0 => .ok .rne | 1 => .ok .rtz | 2 => .ok .rup | 3 => .ok .rdn | 4 => .ok .rsr
  | _ => .error .code

def Sz.code : Sz → Fin 4
  | .b => 0 | .h => 1 | .w => 2 | .d => 3

def Sz.ofCode (n : Nat) : Sz :=
  match n % 4 with
  | 0 => .b | 1 => .h | 2 => .w | _ => .d

def VFmt.code : VFmt → Fin 4
  | .f64 => 0 | .f32 => 1 | .f16 => 2 | .bf16 => 3

def VFmt.ofCode (n : Nat) : VFmt :=
  match n % 4 with
  | 0 => .f64 | 1 => .f32 | 2 => .f16 | _ => .bf16

def Scope.code : Scope → Fin 8
  | .core => 0 | .clu => 1 | .die => 2 | .pkg => 3 | .dom => 4 | .sys => 5

def Scope.ofCode (n : Nat) : Except Reject Scope :=
  match n with
  | 0 => .ok .core | 1 => .ok .clu | 2 => .ok .die | 3 => .ok .pkg | 4 => .ok .dom | 5 => .ok .sys
  | _ => .error .code

def Fmt.code : Fmt → Fin 8
  | .f64 => 0 | .f32 => 1 | .f16 => 2 | .bf16 => 3 | .w8 => 4 | .i8 => 5 | .i32 => 6

def Fmt.ofCode (c : Fin 8) : Except Reject Fmt :=
  match c.val with
  | 0 => .ok .f64 | 1 => .ok .f32 | 2 => .ok .f16 | 3 => .ok .bf16 | 4 => .ok .w8 | 5 => .ok .i8 | 6 => .ok .i32
  | _ => .error .code

def Mode.code : Mode → Nat
  | .as => 0 | .loc => 1 | .cli => 2

def Mode.ofCode (n : Nat) : Except Reject Mode :=
  match n with
  | 0 => .ok .as | 1 => .ok .loc | 2 => .ok .cli
  | _ => .error .code

def Cond.code : Cond → Fin 256
  | .eq => 0 | .ne => 1 | .lt => 2 | .ge => 3 | .ltu => 4 | .geu => 5

def Cond.ofCode (c : Fin 256) : Except Reject Cond :=
  match c.val with
  | 0 => .ok .eq | 1 => .ok .ne | 2 => .ok .lt | 3 => .ok .ge | 4 => .ok .ltu | 5 => .ok .geu
  | _ => .error .function

def Prec.code : Prec → Nat
  | .f64 => 0 | .f32 => 1

def Prec.ofBit (n : Nat) : Prec := if n = 0 then .f64 else .f32

def View.fmt : View → Fmt
  | .f64 => .f64 | .f32 => .f32 | .i32 => .i32

def View.ofFmt : Fmt → Except Reject View
  | .f64 => .ok .f64 | .f32 => .ok .f32 | .i32 => .ok .i32
  | _ => .error .code

def Ann.codes : Ann → Fin 4 × Fin 8
  | .none => (0, 0)
  | .acq sc => (1, sc.code)
  | .rel sc => (2, sc.code)

/-- The annotation that ANN and SCOPE give; SCOPE is zero without an annotation (R133). -/
def Ann.ofCodes (ann : Fin 4) (scope : Fin 8) : Except Reject Ann :=
  match ann.val with
  | 0 => if scope = 0 then .ok .none else .error .unusedField
  | 1 => (Scope.ofCode scope.val).map .acq
  | 2 => (Scope.ofCode scope.val).map .rel
  | _ => .error .code

def acqAnn : Option Scope → Ann
  | none => .none
  | some sc => .acq sc

def relAnn : Option Scope → Ann
  | none => .none
  | some sc => .rel sc

/-- An annotation that may only be `.acq`. -/
def Ann.onlyAcq : Ann → Except Reject (Option Scope)
  | .none => .ok Option.none
  | .acq sc => .ok (some sc)
  | .rel _ => .error .code

/-- An annotation that may only be `.rel`. -/
def Ann.onlyRel : Ann → Except Reject (Option Scope)
  | .none => .ok Option.none
  | .rel sc => .ok (some sc)
  | .acq _ => .error .code

/-- Pair codes of R64: FMTA, FMTB and RM. -/
def DotPair.codes : DotPair → Fin 8 × Fin 8 × Fin 8
  | .f64 rm => (0, 0, rm.code)
  | .f32 rm => (1, 1, rm.code)
  | .f16 rm => (2, 1, rm.code)
  | .bf16 rm => (3, 1, rm.code)
  | .w8 rm => (4, 1, rm.code)
  | .i8 => (5, 6, 0)

def DotPair.ofCodes (fa fb rm : Fin 8) : Except Reject DotPair :=
  match fa.val, fb.val with
  | 0, 0 => (RMode.ofCode rm).map .f64
  | 1, 1 => (RMode.ofCode rm).map .f32
  | 2, 1 => (RMode.ofCode rm).map .f16
  | 3, 1 => (RMode.ofCode rm).map .bf16
  | 4, 1 => (RMode.ofCode rm).map .w8
  | 5, 6 => if rm = 0 then .ok .i8 else .error .code
  | _, _ => .error .code

/-- The formats a pair multiplies and accumulates in (R64). -/
def DotPair.src : DotPair → Fmt
  | .f64 _ => .f64 | .f32 _ => .f32 | .f16 _ => .f16 | .bf16 _ => .bf16 | .w8 _ => .w8 | .i8 => .i8

def DotPair.acc : DotPair → Fmt
  | .f64 _ => .f64 | .f32 _ | .f16 _ | .bf16 _ | .w8 _ => .f32 | .i8 => .i32

def DotPair.rm : DotPair → RMode
  | .f64 rm | .f32 rm | .f16 rm | .bf16 rm | .w8 rm => rm
  | .i8 => .rne

/-- Continue when a condition holds, otherwise reject. -/
def need (c : Bool) (r : Reject) (k : Except Reject Instr) : Except Reject Instr :=
  if c then k else .error r

/-- Every extension field is zero once the used ones are cleared (R76). -/
def Ext.isZero (x : Ext) : Bool := x == {}

def vregOf (f : Fin 64) : Except Reject VReg :=
  if h : f.val < 32 then .ok ⟨f.val, h⟩ else .error .register
def pregOf (f : Fin 64) : Except Reject PReg :=
  if h : f.val < 8 then .ok ⟨f.val, h⟩ else .error .register
def dregOf (f : Fin 64) : Except Reject DReg :=
  if h : f.val < 7 then .ok ⟨f.val, h⟩ else .error .register
def hregOf (f : Fin 64) : Except Reject HReg :=
  if h : f.val < 16 then .ok ⟨f.val, h⟩ else .error .register
def tileOf (f : Fin 64) : Except Reject Tile :=
  if h : f.val < 4 then .ok ⟨f.val, h⟩ else .error .register

/-- Operand b: the register, or the literal when the rb field is zero (R74). -/
def Enc.opnd (e : Enc) : Except Reject Opnd :=
  match e.lit with
  | none => .ok (.reg e.base.rb)
  | some w => if e.base.rb = 0 then .ok (.lit w) else .error .unusedField

/-- imm12 of format I. -/
def Base.imm12 (b : Base) : Nat := b.rb.val * 64 + b.fn.val
/-- disp24 of format B24. -/
def Base.disp24 (b : Base) : Nat := b.rd.val * 2 ^ 18 + b.ra.val * 2 ^ 12 + b.rb.val * 2 ^ 6 + b.fn.val
/-- disp16 of format B18. -/
def Base.disp16 (b : Base) : Nat := b.ra.val % 16 * 2 ^ 12 + b.rb.val * 2 ^ 6 + b.fn.val
/-- offset10 of format M, the low ten bits of imm12. -/
def Base.low10 (b : Base) : Nat := b.rb.val % 16 * 64 + b.fn.val

/-- A short immediate, or the literal that replaces a field that is then zero (R74). -/
def immOf (n field : Nat) (lit : Option Word) : Except Reject (Imm n) :=
  match lit with
  | none => .ok (.short (BitVec.ofNat n field))
  | some w => if field = 0 then .ok (.lit w) else .error .unusedField

/-- A displacement literal is a multiple of 4 (R74). -/
def dispOf (n field : Nat) (lit : Option Word) : Except Reject (Imm n) :=
  match immOf n field lit with
  | .ok i => if i.aligned then .ok i else .error .range
  | .error r => .error r

/-! ### Decoding by shape -/

/-- Fields that an instruction does not use (R76). -/
def z (f : Fin 64) : Bool := f == 0

/-- Forms B and L of a format A instruction with operand b (R93). -/
def dRrr (k : Rrr → Instr) (e : Enc) : Except Reject Instr :=
  need e.ext.isNone .form do return k ⟨e.base.rd, e.base.ra, ← e.opnd⟩

/-- Form B only. -/
def dB (e : Enc) (k : Except Reject Instr) : Except Reject Instr :=
  need (e.ext.isNone && e.lit.isNone) .form k

def dRr (k : Rr → Instr) (e : Enc) : Except Reject Instr :=
  dB e (need (z e.base.rb) .unusedField (.ok (k ⟨e.base.rd, e.base.ra⟩)))

/-- Format I, forms B and L (R96). -/
def dRri (k : Rri 12 → Instr) (e : Enc) : Except Reject Instr :=
  need e.ext.isNone .form do return k ⟨e.base.rd, e.base.ra, ← immOf 12 e.base.imm12 e.lit⟩

def decodeAlu (e : Enc) : Except Reject Instr :=
  match e.base.fn.val with
  | 0x00 => dRrr .add e | 0x01 => dRrr .sub e | 0x02 => dRrr .and e | 0x03 => dRrr .or e
  | 0x04 => dRrr .xor e | 0x05 => dRrr .andn e | 0x06 => dRrr .sll e | 0x07 => dRrr .srl e
  | 0x08 => dRrr .sra e | 0x09 => dRrr .slt e | 0x0A => dRrr .sltu e | 0x0B => dRrr .seq e
  | 0x0C => dRrr .min e | 0x0D => dRrr .max e | 0x0E => dRrr .minu e | 0x0F => dRrr .maxu e
  | 0x10 => dRr .clz e | 0x11 => dRr .ctz e | 0x12 => dRr .popc e
  | 0x13 => dRrr .bfx e | 0x14 => dRrr .bfxu e | 0x15 => dRrr .bfi e
  | 0x16 => dRrr .adds e | 0x17 => dRrr .subs e | 0x18 => dRrr .caddr e | 0x19 => dRrr .crel e
  | _ => .error .function

def decodeShift (e : Enc) : Except Reject Instr :=
  dB e (need (e.base.rb.val / 4 == 0) .unusedField
    (match e.base.rb.val % 4 with
      | 0 => .ok (.slli ⟨e.base.rd, e.base.ra, e.base.fn⟩)
      | 1 => .ok (.srli ⟨e.base.rd, e.base.ra, e.base.fn⟩)
      | 2 => .ok (.srai ⟨e.base.rd, e.base.ra, e.base.fn⟩)
      | _ => .error .function))

def decodeSlti (e : Enc) : Except Reject Instr :=
  need e.ext.isNone .form do
    let i ← immOf 10 e.base.low10 e.lit
    match e.base.rb.val / 16 with
    | 0 => return .slti ⟨e.base.rd, e.base.ra, i⟩
    | 1 => return .sltiu ⟨e.base.rd, e.base.ra, i⟩
    | 2 => return .seqi ⟨e.base.rd, e.base.ra, i⟩
    | _ => .error .function

def decodeCmov (e : Enc) : Except Reject Instr :=
  match e.base.fn.val with
  | 0 => dRrr .cmovnz e | 1 => dRrr .cmovz e
  | _ => .error .function

def decodeMuldiv (e : Enc) : Except Reject Instr :=
  match e.base.fn.val with
  | 0 => dRrr .mul e | 1 => dRrr .mulh e | 2 => dRrr .mulhu e | 3 => dRrr .mulhsu e
  | 4 => dRrr .div e | 5 => dRrr .divu e | 6 => dRrr .rem e | 7 => dRrr .remu e
  | _ => .error .function

/-- The rounding mode of an extension whose only field is RM. -/
def rmOnly (x : Option Ext) : Except Reject (Option RMode) :=
  match x with
  | none => .ok none
  | some x => if ({x with rm := 0}).isZero then (RMode.ofCode x.rm).map some else .error .unusedField

/-- An extension with no used field. -/
def noExt (x : Option Ext) : Except Reject Bool :=
  match x with
  | none => .ok false
  | some x => if x.isZero then .ok true else .error .unusedField

def decodeFps (e : Enc) : Except Reject Instr :=
  let p := Prec.ofBit (e.base.fn.val / 32)
  let d := e.base.rd
  let a := e.base.ra
  let two (k : F2 → Instr) : Except Reject Instr := do return k ⟨p, d, a, ← e.opnd, ← rmOnly e.ext⟩
  let sel (k : F2s → Instr) : Except Reject Instr := do return k ⟨p, d, a, ← e.opnd, ← noExt e.ext⟩
  let one (k : F1s → Instr) : Except Reject Instr :=
    need e.lit.isNone .form (need (z e.base.rb) .unusedField do return k ⟨p, d, a, ← noExt e.ext⟩)
  match e.base.fn.val % 32 with
  | 0x00 => two .fadd | 0x01 => two .fsub | 0x02 => two .fmul | 0x03 => two .fdiv
  | 0x04 => need e.lit.isNone .form (need (z e.base.rb) .unusedField do return .fsqrt ⟨p, d, a, ← rmOnly e.ext⟩)
  | 0x05 => sel .fmin | 0x06 => sel .fmax | 0x07 => sel .feq | 0x08 => sel .flt | 0x09 => sel .fle
  | 0x0A => one .fclass | 0x0B => one .fneg | 0x0C => one .fabs
  | 0x0D =>
    match e.ext with
    | none => .error .form
    | some x => need ({x with rm := 0, rc := 0}).isZero .unusedField
        do return .fma ⟨p, d, a, ← e.opnd, x.rc, ← RMode.ofCode x.rm⟩
  | 0x0E =>
    match e.ext with
    | none => .error .form
    | some x => need e.lit.isNone .form (need (p == .f64) .function (need (z e.base.rb) .unusedField
        (need ({x with rm := 0, fmta := 0, fmtb := 0}).isZero .unusedField do
          let fa ← Fmt.ofCode x.fmta
          let fb ← Fmt.ofCode x.fmtb
          let rm ← RMode.ofCode x.rm
          need (fa.isFloat && fb.isFloat) .code (.ok (.fcvt ⟨d, a, fa, fb, rm⟩)))))
  | 0x0F =>
    match e.ext with
    | none => .error .form
    | some x => need e.lit.isNone .form (need (p == .f64) .function (need (z e.base.rb) .unusedField
        (need ({x with rm := 0, fmta := 0, xfn := 0}).isZero .unusedField (need (x.xfn.val < 8) .function do
          let fa ← Fmt.ofCode x.fmta
          let rm ← RMode.ofCode x.rm
          need fa.isFloat .code (.ok (.ftoi ⟨d, a, fa, ⟨x.xfn.val / 4 == 1, Sz.ofCode x.xfn.val⟩, rm⟩))))))
  | 0x10 =>
    match e.ext with
    | none => .error .form
    | some x => need e.lit.isNone .form (need (p == .f64) .function (need (z e.base.rb) .unusedField
        (need ({x with rm := 0, fmtb := 0, xfn := 0}).isZero .unusedField (need (x.xfn.val < 8) .function do
          let fb ← Fmt.ofCode x.fmtb
          let rm ← RMode.ofCode x.rm
          need fb.isFloat .code (.ok (.itof ⟨d, a, fb, ⟨x.xfn.val / 4 == 1, Sz.ofCode x.xfn.val⟩, rm⟩))))))
  | _ => .error .function

def decodeBr (e : Enc) : Except Reject Instr :=
  match e.ext with
  | none => do return .br (← dispOf 24 e.base.disp24 e.lit)
  | some x =>
    need (e.base.disp24 == 0) .unusedField
      (need ({x with xfn := 0, rc := 0, re := 0, ximm := 0}).isZero .unusedField do
        let c ← Cond.ofCode x.xfn
        let disp ← dispOf 24 x.ximm.toNat e.lit
        return .brc ⟨c, x.rc, x.re, disp⟩)

def decodeBz (e : Enc) : Except Reject Instr :=
  need e.ext.isNone .form do
    let disp ← dispOf 16 e.base.disp16 e.lit
    match e.base.ra.val / 16 with
    | 0 => return .brz ⟨e.base.rd, disp⟩
    | 1 => return .brnz ⟨e.base.rd, disp⟩
    | 2 => return .brlz ⟨e.base.rd, disp⟩
    | _ => return .brgez ⟨e.base.rd, disp⟩

def decodeCall (e : Enc) : Except Reject Instr :=
  need e.ext.isNone .form do return .call (← dispOf 24 e.base.disp24 e.lit)

def decodeJmp (e : Enc) : Except Reject Instr :=
  dB e (need (z e.base.rd) .unusedField
    (match e.base.fn.val with
      | 0 => need (z e.base.rb) .unusedField (.ok (.jr e.base.ra))
      | 1 => need (z e.base.rb) .unusedField (.ok (.callr e.base.ra))
      | 2 => need (z e.base.ra && z e.base.rb) .unusedField (.ok .ret)
      | 3 => .ok (.jt e.base.ra e.base.rb)
      | _ => .error .function))

/-- LOOP and LOOPI: a displacement of zero or less is illegal (R110). -/
def decodeLoop (e : Enc) : Except Reject Instr :=
  need e.ext.isNone .form
    (match e.base.ra.val / 16 with
      | 0 => do
        let disp ← dispOf 16 e.base.disp16 e.lit
        need (decide (0 < disp.dispBytes)) .range (.ok (.loop ⟨e.base.rd, disp⟩))
      | 1 =>
        let disp := BitVec.ofNat 16 e.base.disp16
        need (decide (0 < disp.toInt)) .range
          (match e.lit with
            | none => .ok (.loopi ⟨.short e.base.rd, disp⟩)
            | some w => need (z e.base.rd) .unusedField (need (w.toNat / 2 ^ 32 == 0) .range
                (.ok (.loopi ⟨.lit (BitVec.ofNat 32 w.toNat), disp⟩))))
      | _ => .error .function)

def decodeLd (e : Enc) : Except Reject Instr := do
  let mode ← Mode.ofCode (e.base.rb.val / 16)
  match e.ext with
  | none => return .ld ⟨e.base.rd, e.base.ra, mode, ← immOf 10 e.base.low10 e.lit, none⟩
  | some x =>
    need (x.xfn.val < 4) .function
      (need ({x with xfn := 0, rc := 0, sz := 0, ann := 0, scope := 0}).isZero .unusedField do
        let acq ← (← Ann.ofCodes x.ann x.scope).onlyAcq
        let lx : LdX := ⟨x.xfn.val % 2 == 1, Sz.ofCode x.sz.val, acq⟩
        need (!(lx.sx && lx.sz == .d)) .code
          (if x.xfn.val / 2 = 1 then
            need e.lit.isNone .form (need (e.base.low10 == 0) .unusedField
              (.ok (.ldx ⟨e.base.rd, e.base.ra, mode, x.rc, lx⟩)))
          else
            need (z x.rc) .unusedField do
              return .ld ⟨e.base.rd, e.base.ra, mode, ← immOf 10 e.base.low10 e.lit, some lx⟩))

def decodeSt (e : Enc) : Except Reject Instr := do
  let mode ← Mode.ofCode (e.base.rb.val / 16)
  match e.ext with
  | none => return .st ⟨e.base.rd, e.base.ra, mode, ← immOf 10 e.base.low10 e.lit, none⟩
  | some x =>
    need (x.xfn.val == 0 || x.xfn.val == 2) .function
      (need ({x with xfn := 0, rc := 0, sz := 0, ann := 0, scope := 0}).isZero .unusedField do
        let rel ← (← Ann.ofCodes x.ann x.scope).onlyRel
        let sx : StX := ⟨Sz.ofCode x.sz.val, rel⟩
        if x.xfn.val = 2 then
          need e.lit.isNone .form (need (e.base.low10 == 0) .unusedField
            (.ok (.stx ⟨e.base.rd, e.base.ra, mode, x.rc, sx⟩)))
        else
          need (z x.rc) .unusedField do
            return .st ⟨e.base.rd, e.base.ra, mode, ← immOf 10 e.base.low10 e.lit, some sx⟩)

def decodeFe (e : Enc) : Except Reject Instr := do
  let mode ← Mode.ofCode (e.base.fn.val / 16)
  let b ← e.opnd
  let ann (only : Ann → Except Reject (Option Scope)) : Except Reject (Option (Option Scope)) :=
    match e.ext with
    | none => .ok none
    | some x =>
      if ({x with sz := 0, ann := 0, scope := 0}).isZero then
        if x.sz = 3 then do return some (← only (← Ann.ofCodes x.ann x.scope)) else .error .code
      else .error .unusedField
  match e.base.fn.val % 16 with
  | 0 => return .ldf ⟨e.base.rd, e.base.ra, b, mode, ← ann Ann.onlyAcq⟩
  | 1 => return .take ⟨e.base.rd, e.base.ra, b, mode, ← ann Ann.onlyAcq⟩
  | 2 => return .putf ⟨e.base.rd, e.base.ra, b, mode, ← ann Ann.onlyRel⟩
  | 3 => return .stf ⟨e.base.rd, e.base.ra, b, mode, ← ann Ann.onlyRel⟩
  | 4 => return .ste ⟨e.base.rd, e.base.ra, b, mode, ← ann Ann.onlyRel⟩
  | 5 => return .feqFe ⟨e.base.rd, e.base.ra, b, mode, ← ann Ann.onlyAcq⟩
  | 6 => need (z e.base.rd) .unusedField do return .feclr ⟨e.base.ra, b, mode, ← ann Ann.onlyRel⟩
  | _ => .error .function

def decodeAtom (e : Enc) : Except Reject Instr := do
  let mode ← Mode.ofCode (e.base.fn.val / 16)
  let b ← e.opnd
  let atomX (x : Ext) : Except Reject AtomX := do
    let ann ← Ann.ofCodes x.ann x.scope
    match x.sz.val with
    | 2 => return ⟨.w, ann⟩
    | 3 => return ⟨.d, ann⟩
    | _ => .error .code
  let plain (k : AtomOp → Instr) : Except Reject Instr :=
    match e.ext with
    | none => .ok (k ⟨e.base.rd, e.base.ra, b, mode, none⟩)
    | some x => need ({x with sz := 0, ann := 0, scope := 0}).isZero .unusedField
        do return k ⟨e.base.rd, e.base.ra, b, mode, some (← atomX x)⟩
  match e.base.fn.val % 16 with
  | 0 => plain .aadd | 1 => plain .aand | 2 => plain .aor | 3 => plain .axor | 4 => plain .amin
  | 5 => plain .amax | 6 => plain .aminu | 7 => plain .amaxu | 8 => plain .aswp
  | 9 =>
    match e.ext with
    | none => .error .form
    | some x =>
      need ({x with sz := 0, ann := 0, scope := 0, rc := 0}).isZero .unusedField
        (do return .acas ⟨e.base.rd, e.base.ra, b, mode, x.rc, ← atomX x⟩)
  | 0xA =>
    match e.ext with
    | none => .ok (.afadd ⟨e.base.rd, e.base.ra, b, mode, none⟩)
    | some x => need ({x with sz := 0, ann := 0, scope := 0, fmta := 0, rm := 0}).isZero .unusedField do
        let ann ← Ann.ofCodes x.ann x.scope
        let rm ← RMode.ofCode x.rm
        match x.sz.val, x.fmta.val with
        | 3, 0 => return .afadd ⟨e.base.rd, e.base.ra, b, mode, some ⟨.f64, rm, ann⟩⟩
        | 2, 1 => return .afadd ⟨e.base.rd, e.base.ra, b, mode, some ⟨.f32, rm, ann⟩⟩
        | _, _ => .error .code
  | _ => .error .function

def decodeOrd (e : Enc) : Except Reject Instr :=
  dB e (need (z e.base.rd && z e.base.rb) .unusedField
    (match e.base.fn.val / 8 with
      | 0 => need (z e.base.ra) .unusedField do return .fence (← Scope.ofCode (e.base.fn.val % 8))
      | 1 => need (e.base.fn.val % 8 == 0) .code (.ok (.flush e.base.ra))
      | 2 => need (z e.base.ra) .unusedField (need (e.base.fn.val % 8 == 0) .code (.ok .phase))
      | 3 => need (z e.base.ra) .unusedField do return .quiet (← Scope.ofCode (e.base.fn.val % 8))
      | 4 => need (z e.base.ra) .unusedField do return .gbar (← Scope.ofCode (e.base.fn.val % 8))
      | _ => .error .function))

def decodeForm (e : Enc) : Except Reject Instr :=
  let b := e.base
  dB e (match b.fn.val with
    | 0 => need (z b.rb) .unusedField (.ok (.fld b.rd b.ra))
    | 1 => need (z b.ra) .unusedField (.ok (.bind b.rd b.rb))
    | 2 => need (z b.ra && z b.rb) .unusedField (.ok (.unbind b.rd))
    | 3 => need (z b.rd && z b.ra && z b.rb) .unusedField (.ok .unbinda)
    | 4 => need (z b.rb) .unusedField (.ok (.bindq b.rd b.ra))
    | 5 => need (z b.rd && z b.ra) .unusedField (.ok (.fhold b.rb))
    | 6 => need (z b.rd && z b.ra) .unusedField (.ok (.frun b.rb))
    | 7 => need (z b.rd && z b.ra) .unusedField (.ok (.feval b.rb))
    | _ => .error .function)

def decodeMsg (e : Enc) : Except Reject Instr :=
  let b := e.base
  let snd (k : SendOp → Instr) : Except Reject Instr :=
    need (b.rd.val / 2 == 0) .unusedField
      (if h : b.fn.val % 16 < 9 then do return k ⟨b.rd.val % 2 == 1, b.ra, ← e.opnd, ⟨b.fn.val % 16, h⟩⟩
       else .error .range)
  need e.ext.isNone .form
    (match b.fn.val / 16 with
      | 0 => snd .send
      | 1 => snd .sendh
      | 2 => snd .migr
      | _ =>
        match b.fn.val % 16 with
        | 0 => need (z b.ra) .unusedField do return .spawn b.rd (← e.opnd)
        | 1 => dB e (need (z b.rd && z b.ra && z b.rb) .unusedField (.ok .done))
        | 2 => dB e (need (z b.ra && z b.rb) .unusedField (.ok (.msgq b.rd)))
        | _ => .error .function)

def decodeNet (e : Enc) : Except Reject Instr :=
  let b := e.base
  dB e (match b.fn.val with
    | 0 => need (z b.ra && z b.rb) .unusedField (.ok (.pop b.rd))
    | 1 => need (z b.rd) .unusedField (.ok (.pushp b.ra b.rb))
    | 2 => need (z b.ra && z b.rb) .unusedField (.ok (.nalloc b.rd))
    | 3 => need (z b.rd && z b.rb) .unusedField (.ok (.nfree b.ra))
    | 4 => need (z b.rd) .unusedField (.ok (.link b.ra b.rb))
    | 5 => need (z b.rd && z b.ra && z b.rb) .unusedField (.ok .rule)
    | 6 => need (z b.rb) .unusedField (.ok (.nsym b.rd b.ra))
    | 7 => need (z b.ra && z b.rb) .unusedField (.ok (.steal b.rd))
    | _ => .error .function)

def decodeCopy (e : Enc) : Except Reject Instr :=
  let b := e.base
  match b.fn.val with
  | 0 =>
    match e.ext with
    | none => .error .form
    | some x => need (x.xfn.val < 32) .function (need ({x with xfn := 0}).isZero .unusedField do
        let mode ← Mode.ofCode (x.xfn.val / 4 % 4)
        return .copy ⟨Fin.ofNat 4 x.xfn.val, mode, x.xfn.val / 16 == 1, b.rd, b.ra, ← e.opnd⟩)
  | 1 => dB e (need (z b.rd && z b.ra) .unusedField (.ok (.cwait b.rb)))
  | 2 => dB e (need (z b.ra) .unusedField (.ok (.cstat b.rd b.rb)))
  | 3 => dB e (need (z b.rd && z b.ra) .unusedField (.ok (.qfence b.rb)))
  | 4 => dB e (need (z b.rd && z b.ra) .unusedField (.ok (.cabort b.rb)))
  | _ => .error .function

def decodeRing (e : Enc) : Except Reject Instr :=
  let b := e.base
  need e.ext.isNone .form
    (match b.fn.val with
      | 0 => dB e do return .hset (← hregOf b.rd) b.ra b.rb
      | 1 => dB e do return .hwait b.rd (← hregOf b.ra) b.rb
      | 2 => dB e do return .hspace b.rd (← hregOf b.ra) b.rb
      | 3 => need (z b.rd) .unusedField do return .hadv ⟨← hregOf b.ra, ← immOf 6 b.rb.val e.lit⟩
      | 4 => need (z b.rd) .unusedField do return .hrel ⟨← hregOf b.ra, ← immOf 6 b.rb.val e.lit⟩
      | 5 => dB e (need (z b.rb) .unusedField do return .hq b.rd (← hregOf b.ra))
      | _ => .error .function)

def decodeTen (e : Enc) : Except Reject Instr :=
  let b := e.base
  match e.ext with
  | none => .error .form
  | some x =>
    match b.fn.val with
    | 0 => need (z b.rd && z b.ra && x.isZero) .unusedField do return .tshp (← e.opnd)
    | 1 => need (x.xfn.val < 32) .function (need ({x with xfn := 0}).isZero .unusedField
        (need (x.xfn.val / 8 % 2 == 0) .code do
          let dst ← if x.xfn.val / 16 = 1 then (hregOf b.rd).map TldDst.ring else .ok (TldDst.tile b.rd)
          return .tld ⟨Fin.ofNat 4 x.xfn.val, x.xfn.val / 4 % 2 == 1, dst, b.ra, ← e.opnd⟩))
    | 2 => need (x.xfn.val < 16) .function (need ({x with xfn := 0}).isZero .unusedField
        (need (x.xfn.val / 8 % 2 == 0) .code do
          return .tst ⟨Fin.ofNat 4 x.xfn.val, x.xfn.val / 4 % 2 == 1, b.rd, b.ra, ← e.opnd⟩))
    | 3 => need (z b.rb && ({x with xfn := 0}).isZero) .unusedField
        (match x.xfn.val with
          | 0 => do return .dmov (.toD (← dregOf b.rd) b.ra e.lit)
          | 1 => do return .dmov (.toS b.rd (← dregOf b.ra) e.lit)
          | _ => .error .function)
    | 4 => need (z b.ra && ({x with ximm := 0}).isZero) .unusedField (need (x.ximm.toNat < 8) .range do
        return .dinc ⟨b.rd, ← e.opnd, Fin.ofNat 8 x.ximm.toNat⟩)
    | _ => .error .function

/-- The extension of a vector load (R210). -/
def vldX (x : Ext) : Except Reject VldX :=
  if ({x with sz := 0, ann := 0, scope := 0, pm := 0, zm := 0, ximm := 0}).isZero then do
    return ⟨Sz.ofCode x.sz.val, ← (← Ann.ofCodes x.ann x.scope).onlyAcq, x.pm, x.zm == 1, x.ximm⟩
  else .error .unusedField

/-- The extension of a vector store (R210). -/
def vstX (x : Ext) : Except Reject VstX :=
  if ({x with sz := 0, ann := 0, scope := 0, pm := 0, ximm := 0}).isZero then do
    return ⟨Sz.ofCode x.sz.val, ← (← Ann.ofCodes x.ann x.scope).onlyRel, x.pm, x.ximm⟩
  else .error .unusedField

def optM {α β : Type} (x : Option α) (f : α → Except Reject β) : Except Reject (Option β) :=
  match x with
  | none => .ok none
  | some a => (f a).map some

def decodeVmem (e : Enc) : Except Reject Instr := do
  let b := e.base
  let mode ← Mode.ofCode (b.fn.val / 16)
  let d ← vregOf b.rd
  let lds (k : VldOp → Instr) : Except Reject Instr := do return k ⟨d, b.ra, ← e.opnd, mode, ← optM e.ext vldX⟩
  let sts (k : VstOp → Instr) : Except Reject Instr := do return k ⟨d, b.ra, ← e.opnd, mode, ← optM e.ext vstX⟩
  match b.fn.val % 16 with
  | 0 => lds .vld
  | 1 => sts .vst
  | 2 => lds .vlds
  | 3 => sts .vsts
  | 4 => need e.lit.isNone .form do return .vgath ⟨d, b.ra, ← vregOf b.rb, mode, ← optM e.ext vldX⟩
  | 5 => need e.lit.isNone .form do return .vscat ⟨d, b.ra, ← vregOf b.rb, mode, ← optM e.ext vstX⟩
  | 6 => lds .vldbc
  | _ => .error .function

/-- PM and ZM of an extension that uses nothing else. -/
def pmZm (x : Ext) : Except Reject PmZm :=
  if ({x with pm := 0, zm := 0}).isZero then .ok ⟨x.pm, x.zm == 1⟩ else .error .unusedField

/-- PM of an extension that uses nothing else. -/
def pmOnly (x : Ext) : Except Reject PReg :=
  if ({x with pm := 0}).isZero then .ok x.pm else .error .unusedField

/-- RM, PM and ZM of an extension that uses nothing else. -/
def fxOf (x : Ext) : Except Reject FX :=
  if ({x with pm := 0, zm := 0, rm := 0}).isZero then do return ⟨← RMode.ofCode x.rm, x.pm, x.zm == 1⟩
  else .error .unusedField

/-- Operand b of a lane instruction, vector or scalar (R214). -/
def Enc.vb (e : Enc) : Except Reject VB :=
  match e.ext with
  | none => do return .v (← vregOf e.base.rb) none
  | some x =>
    match x.xfn.val with
    | 0 => do return .v (← vregOf e.base.rb) (some (← pmZm x))
    | 1 => if e.base.rb = 0 then do return .s x.rc (← pmZm {x with xfn := 0, rc := 0}) else .error .unusedField
    | _ => .error .function

/-- Operand b of a rounding lane instruction, vector or scalar (R216). -/
def Enc.vfb (e : Enc) : Except Reject VFB :=
  match e.ext with
  | none => do return .v (← vregOf e.base.rb) none
  | some x =>
    match x.xfn.val with
    | 0 => do return .v (← vregOf e.base.rb) (some (← fxOf x))
    | 1 => if e.base.rb = 0 then do return .s x.rc (← fxOf {x with xfn := 0, rc := 0}) else .error .unusedField
    | _ => .error .function

def decodeVint (e : Enc) : Except Reject Instr :=
  let go (k : VInt → Instr) : Except Reject Instr := do
    return k ⟨Sz.ofCode (e.base.fn.val / 16), ← vregOf e.base.rd, ← vregOf e.base.ra, ← e.vb⟩
  need e.lit.isNone .form
    (match e.base.fn.val % 16 with
      | 0 => go .vadd | 1 => go .vsub | 2 => go .vmul | 3 => go .vmulh | 4 => go .vand | 5 => go .vor | 6 => go .vxor
      | 7 => go .vsll | 8 => go .vsrl | 9 => go .vsra | 0xA => go .vmin | 0xB => go .vmax | 0xC => go .vminu
      | 0xD => go .vmaxu | 0xE => go .vadds | _ => go .vsubs)

/-- VFP. In form X, RM is a field of an operation that rounds: on VFMIN, VFMAX, VFNEG and VFABS it is unused and must be 0 (R79, R216,
DEDUCED, log 9). -/
def decodeVfp (e : Enc) : Except Reject Instr :=
  let b := e.base
  let f := VFmt.ofCode (b.fn.val / 16)
  let two (k : VF2 → Instr) : Except Reject Instr := do return k ⟨f, ← vregOf b.rd, ← vregOf b.ra, ← e.vfb⟩
  let sel (k : VF2s → Instr) : Except Reject Instr := do return k ⟨f, ← vregOf b.rd, ← vregOf b.ra, ← e.vb⟩
  let one (k : VF1s → Instr) : Except Reject Instr :=
    need (z b.rb) .unusedField do return k ⟨f, ← vregOf b.rd, ← vregOf b.ra, ← optM e.ext pmZm⟩
  need e.lit.isNone .form
    (match b.fn.val % 16 with
      | 0 => two .vfadd | 1 => two .vfsub | 2 => two .vfmul | 3 => two .vfdiv
      | 4 => need (z b.rb) .unusedField do return .vfsqrt ⟨f, ← vregOf b.rd, ← vregOf b.ra, ← optM e.ext fxOf⟩
      | 5 => sel .vfmin | 6 => sel .vfmax
      | 7 =>
        match e.ext with
        | none => .error .form
        | some x => do
          return .vfma ⟨f, ← vregOf b.rd, ← vregOf b.ra, ← vregOf b.rb, ← vregOf x.rc, ← fxOf {x with rc := 0}⟩
      | 8 => one .vfneg | 9 => one .vfabs
      | 0xA =>
        match e.ext with
        | none => .error .form
        | some x => need (b.fn.val / 16 == 0) .function
            (need ({x with rm := 0, pm := 0, fmta := 0, fmtb := 0}).isZero .unusedField do
              return .vdot ⟨← vregOf b.rd, ← vregOf b.ra, ← vregOf b.rb, ← DotPair.ofCodes x.fmta x.fmtb x.rm, x.pm⟩)
      | 0xB =>
        match e.ext with
        | none => .error .form
        | some x => need (b.fn.val / 16 == 1) .function do
            let d ← vregOf b.rd
            let a ← vregOf b.ra
            let fx ← fxOf {x with fmta := 0}
            match x.fmta.val with
            | 1 => return .vscacc ⟨d, a, b.rb, false, fx⟩
            | 6 => return .vscacc ⟨d, a, b.rb, true, fx⟩
            | _ => .error .code
      | _ => .error .function)

/-- VMISC. VINS has no predicated lanes: in form X its PM and ZM are unused and must be 0 (R79, R221, R223, DEDUCED, log 9). -/
def decodeVmisc (e : Enc) : Except Reject Instr :=
  let b := e.base
  let wd := Sz.ofCode (b.fn.val / 16)
  let red (k : VRed → Instr) : Except Reject Instr :=
    need (z b.rb) .unusedField do return k ⟨wd, b.rd, ← vregOf b.ra, ← optM e.ext pmOnly⟩
  need e.lit.isNone .form
    (match b.fn.val % 16 with
      | 0 =>
        match e.ext with
        | none => .error .form
        | some x => need (b.fn.val / 16 == 0) .function (need (z b.rb) .unusedField (need (x.xfn.val < 8) .function do
            let fa ← Fmt.ofCode x.fmta
            let fb ← Fmt.ofCode x.fmtb
            let fx ← fxOf {x with xfn := 0, fmta := 0, fmtb := 0}
            let q := Fin.ofNat 8 x.xfn.val
            let d ← vregOf b.rd
            let a ← vregOf b.ra
            need (fa != fb && decide (q.val < VCvt.parts fa fb)) .code (.ok (.vcvt ⟨d, a, fa, fb, q, fx⟩))))
      | 1 => do return .vsel ⟨wd, ← vregOf b.rd, ← vregOf b.ra, ← vregOf b.rb, ← optM e.ext pmOnly⟩
      | 2 => do return .vperm ⟨wd, ← vregOf b.rd, ← vregOf b.ra, ← vregOf b.rb, ← optM e.ext pmZm⟩
      | 3 => need (z b.rb) .unusedField do return .vbcast ⟨wd, ← vregOf b.rd, b.ra, ← optM e.ext pmZm⟩
      | 4 => do return .vins ⟨wd, ← vregOf b.rd, b.ra, b.rb, ← noExt e.ext⟩
      | 5 => do
        let a ← vregOf b.ra
        let x ← optM e.ext fun x =>
          if ({x with xfn := 0}).isZero then
            match x.xfn.val with
            | 0 => .ok false
            | 1 => .ok true
            | _ => .error .function
          else .error .unusedField
        return .vext ⟨wd, b.rd, a, b.rb, x⟩
      | 6 => do return .vslup ⟨wd, ← vregOf b.rd, ← vregOf b.ra, b.rb, ← optM e.ext pmZm⟩
      | 7 => do return .vsldn ⟨wd, ← vregOf b.rd, ← vregOf b.ra, b.rb, ← optM e.ext pmZm⟩
      | 8 => red .vradd | 9 => red .vrmin | 0xA => red .vrmax | 0xB => red .vrminu | 0xC => red .vrmaxu
      | 0xD => need (z b.rb) .unusedField do
          let p ← match wd with
            | .d => Except.ok Prec.f64
            | .w => .ok Prec.f32
            | _ => .error .function
          let x ← optM e.ext fun x =>
            if ({x with rm := 0, pm := 0}).isZero then do return (← RMode.ofCode x.rm, x.pm) else .error .unusedField
          return .vrfadd ⟨p, b.rd, ← vregOf b.ra, x⟩
      | 0xE => need (z b.rb) .unusedField do return .vmov ⟨wd, ← vregOf b.rd, ← vregOf b.ra, ← optM e.ext pmZm⟩
      | _ => .error .function)

def decodePred (e : Enc) : Except Reject Instr :=
  let b := e.base
  let wd := Sz.ofCode (b.fn.val / 16)
  let f := VFmt.ofCode (b.fn.val / 16)
  let cmp (k : VCmp → Instr) : Except Reject Instr := do return k ⟨wd, ← pregOf b.rd, ← vregOf b.ra, ← e.vb⟩
  let fcmp (k : VFCmp → Instr) : Except Reject Instr := do return k ⟨f, ← pregOf b.rd, ← vregOf b.ra, ← e.vb⟩
  let p3 (k : P3 → Instr) : Except Reject Instr :=
    need (b.fn.val / 16 == 0) .function
      do return k ⟨← pregOf b.rd, ← pregOf b.ra, ← pregOf b.rb, ← noExt e.ext⟩
  need e.lit.isNone .form
    (match b.fn.val % 16 with
      | 0 => cmp .vceq | 1 => cmp .vcne | 2 => cmp .vclt | 3 => cmp .vcle | 4 => cmp .vcltu | 5 => cmp .vcleu
      | 6 => fcmp .vfceq | 7 => fcmp .vfclt | 8 => fcmp .vfcle
      | 9 => p3 .pand | 0xA => p3 .por | 0xB => p3 .pxor
      | 0xC => need (b.fn.val / 16 == 0) .function (need (z b.rb) .unusedField
          do return .pnot ⟨← pregOf b.rd, ← pregOf b.ra, ← noExt e.ext⟩)
      | 0xD => need (b.fn.val / 16 == 0) .function (need (z b.rb) .unusedField
          do return .pcnt ⟨b.rd, ← pregOf b.ra, ← noExt e.ext⟩)
      | 0xE => need (b.fn.val / 16 == 0) .function (need (z b.rb) .unusedField
          do return .pfirst ⟨b.rd, ← pregOf b.ra, ← noExt e.ext⟩)
      | _ => need (b.fn.val / 16 == 0) .function (need (z b.rb) .unusedField
          do return .psetw ⟨← pregOf b.rd, b.ra, ← noExt e.ext⟩))

def decodeMat (e : Enc) : Except Reject Instr :=
  match e.ext with
  | none => .error .form
  | some x => need e.lit.isNone .form (need (e.base.fn.val == 0) .function
      (need ({x with rm := 0, fmta := 0, fmtb := 0}).isZero .unusedField do
        return .gmma ⟨← tileOf e.base.rd, e.base.ra, e.base.rb, ← DotPair.ofCodes x.fmta x.fmtb x.rm⟩))

/-- FMTA, FMTB and RM of ASTT and ACVT (R193). -/
def accX (x : Ext) : Except Reject (View × Fmt × RMode) :=
  if ({x with rm := 0, fmta := 0, fmtb := 0}).isZero then do
    return (← View.ofFmt (← Fmt.ofCode x.fmta), ← Fmt.ofCode x.fmtb, ← RMode.ofCode x.rm)
  else .error .unusedField

def decodeAcc (e : Enc) : Except Reject Instr :=
  let b := e.base
  need e.lit.isNone .form
    (match b.fn.val with
      | 0 => need (z b.ra && z b.rb) .unusedField do
          let t ← tileOf b.rd
          let x ← optM e.ext fun x =>
            if ({x with fmtb := 0}).isZero then
              match x.fmtb.val with
              | 0 => .ok true
              | 1 => .ok false
              | _ => .error .code
            else .error .unusedField
          return .azero ⟨t, x⟩
      | 1 => need (z b.rb) .unusedField do
          let t ← tileOf b.rd
          let x ← optM e.ext fun x =>
            if ({x with fmta := 0}).isZero then Fmt.ofCode x.fmta else .error .unusedField
          return .aldt ⟨t, b.ra, x⟩
      | 2 => need (z b.rb) .unusedField do return .astt ⟨← tileOf b.rd, b.ra, ← optM e.ext accX⟩
      | 3 => need (z b.rb) .unusedField do
          let d ← tileOf b.rd
          let t ← tileOf b.ra
          match ← optM e.ext accX with
          | none => return .acvt ⟨d, t, none⟩
          | some (v, f, rm) => need (f != .i8) .code (.ok (.acvt ⟨d, t, some (v, f, rm)⟩))
      | 4 => do
          let c ← tileOf b.rd
          let p ← tileOf b.ra
          let x ← optM e.ext fun x =>
            if ({x with rm := 0, fmta := 0}).isZero then
              match x.fmta.val with
              | 1 => do return (false, ← RMode.ofCode x.rm)
              | 6 => do return (true, ← RMode.ofCode x.rm)
              | _ => .error .code
            else .error .unusedField
          return .ascale ⟨c, p, b.rb, x⟩
      | 5 =>
        match e.ext with
        | none => do return .amovv (.toV (← vregOf b.rd) (← tileOf b.ra) b.rb false)
        | some x => need ({x with xfn := 0}).isZero .unusedField
            (match x.xfn.val with
              | 0 => do return .amovv (.toV (← vregOf b.rd) (← tileOf b.ra) b.rb true)
              | 1 => do return .amovv (.toT (← tileOf b.rd) (← vregOf b.ra) b.rb)
              | _ => .error .function)
      | 6 => need (z b.ra) .unusedField
          (if h : b.rb.val < 16 then do return .aflag ⟨b.rd, ⟨b.rb.val, h⟩, ← noExt e.ext⟩ else .error .range)
      | _ => .error .function)

/-- XFN[1:0] of an extension that uses nothing else: a class or a field number (R198). -/
def recField (x : Ext) : Except Reject (Fin 4) :=
  if ({x with xfn := 0}).isZero then
    if h : x.xfn.val < 4 then .ok ⟨x.xfn.val, h⟩ else .error .function
  else .error .unusedField

def decodeRec (e : Enc) : Except Reject Instr :=
  let b := e.base
  need e.lit.isNone .form
    (match b.fn.val with
      | 0 => need (z b.rd) .unusedField do
          let x ← optM e.ext fun x => do
            let c ← recField {x with fmta := 0}
            match x.fmta.val with
            | 1 => return (c, false)
            | 3 => return (c, true)
            | _ => .error .code
          return .grad ⟨b.ra, ← vregOf b.rb, x⟩
      | 1 => need (z b.rb) .unusedField do return .gradq ⟨b.rd, b.ra, ← noExt e.ext⟩
      | 2 => do return .prld ⟨← vregOf b.rd, b.ra, b.rb, ← optM e.ext recField⟩
      | 3 => need (z b.rd) .unusedField (need (b.rb.val < 2) .range
          do return .prst ⟨b.ra, b.rb.val == 1, ← noExt e.ext⟩)
      | 4 => need (z b.rd) .unusedField do return .prset ⟨b.ra, ← vregOf b.rb, ← optM e.ext recField⟩
      | 5 => need (z b.rb) .unusedField do return .prstat ⟨b.rd, b.ra, ← noExt e.ext⟩
      | _ => .error .function)

/-- The CSR instruction of an op (R73). -/
def csrOp (op : Nat) (o : CsrOp) : Except Reject Instr :=
  match op with
  | 0 => need (z o.a) .unusedField (.ok (.csrr o))
  | 1 => .ok (.csrw o)
  | 2 => .ok (.csrs o)
  | _ => .ok (.csrc o)

def decodeCsr (e : Enc) : Except Reject Instr :=
  let b := e.base
  need e.lit.isNone .form
    (match e.ext with
      | none => csrOp (b.rb.val / 16) ⟨b.rd, b.ra, .short (BitVec.ofNat 10 b.low10)⟩
      | some x => need (b.imm12 == 0 && ({x with xfn := 0, ximm := 0}).isZero) .unusedField
          (need (x.xfn.val < 4) .function (need (x.ximm.toNat < 4096) .unusedField
            (csrOp x.xfn.val ⟨b.rd, b.ra, .ext (BitVec.ofNat 12 x.ximm.toNat)⟩))))

/-- TRAP, BRK and SYSC hold their code in bits [13:6] (R114, R234). -/
def dCode (k : BitVec 8 → Instr) (b : Base) : Except Reject Instr :=
  need (z b.rd && b.ra.val / 4 == 0) .unusedField (.ok (k (BitVec.ofNat 8 (b.ra.val % 4 * 64 + b.rb.val))))

def decodeSys (e : Enc) : Except Reject Instr :=
  let b := e.base
  dB e (match b.fn.val with
    | 0x00 => need (z b.rd && z b.ra && z b.rb) .unusedField (.ok .ill)
    | 0x01 => need (z b.rd && z b.ra && z b.rb) .unusedField (.ok .nop)
    | 0x02 => need (z b.rd && z b.ra) .unusedField (.ok (.align b.rb))
    | 0x03 => dCode .trap b
    | 0x04 => dCode .brk b
    | 0x05 => dCode .sysc b
    | 0x06 => need (z b.rd && z b.ra && z b.rb) .unusedField (.ok .eret)
    | 0x07 => need (z b.rd && z b.rb) .unusedField (.ok (.upret b.ra))
    | 0x08 => need (z b.rd && z b.rb) .unusedField (.ok (.wfi b.ra))
    | 0x09 => need (z b.rd) .unusedField (.ok (.shoot b.ra b.rb))
    | 0x0A => need (z b.rd) .unusedField (.ok (.tlbil b.ra b.rb))
    | 0x0B => need (z b.rd && z b.rb) .unusedField (.ok (.savex b.ra))
    | 0x0C => need (z b.rd && z b.rb) .unusedField (.ok (.loadx b.ra))
    | 0x0D => need (z b.ra) .unusedField (.ok (.perfr b.rd b.rb))
    | 0x0E => need (z b.rd) .unusedField (.ok (.tmark b.ra b.rb))
    | _ => .error .function)

/-- The instruction of a word pattern, by its major (R77). -/
def Enc.decode (e : Enc) : Except Reject Instr :=
  match e.base.major.val with
  | 0x00 => decodeSys e | 0x01 => decodeAlu e
  | 0x02 => dRri .addi e | 0x03 => dRri .andi e | 0x04 => dRri .ori e | 0x05 => dRri .xori e
  | 0x06 => decodeShift e | 0x07 => decodeSlti e | 0x08 => decodeCmov e | 0x09 => decodeMuldiv e | 0x0A => decodeFps e
  | 0x0B => decodeBr e | 0x0C => decodeBz e | 0x0D => decodeCall e | 0x0E => decodeJmp e | 0x0F => decodeLoop e
  | 0x10 => decodeLd e | 0x11 => decodeSt e | 0x12 => decodeFe e | 0x13 => decodeAtom e | 0x14 => decodeOrd e
  | 0x15 => decodeForm e | 0x16 => decodeMsg e | 0x17 => decodeNet e | 0x18 => decodeCopy e | 0x19 => decodeRing e
  | 0x1A => decodeTen e | 0x1B => decodeVmem e | 0x1C => decodeVint e | 0x1D => decodeVfp e | 0x1E => decodeVmisc e
  | 0x1F => decodePred e | 0x20 => decodeMat e | 0x21 => decodeAcc e | 0x22 => decodeRec e | 0x23 => decodeCsr e
  | _ => .error .reservedMajor

/-- A major of 0x24 or above raises its trap before any further word is fetched (R71). -/
def reservedMajor (base : Nat) : Bool := 0x24 ≤ base / 2 ^ 24 % 64

/-- The instruction of a base word and the 16 bytes after it. -/
def decodeWords (base q1 q2 : Nat) : Except Reject Instr := (Enc.ofWords base q1 q2).decode

/-- Decode one instruction from bytes, with the bytes that follow it. -/
def decode (bs : List Byte) : Except Reject (Instr × List Byte) :=
  if bs.length < 4 then .error .truncated
  else
    let base := leNat (bs.take 4)
    if reservedMajor base then .error .reservedMajor
    else if bs.length < lenOfBase base then .error .truncated
    else
      match decodeWords base (leNat ((bs.drop 4).take 8)) (leNat ((bs.drop 12).take 8)) with
      | .ok i => .ok (i, bs.drop (lenOfBase base))
      | .error r => .error r

/-- The instruction that the decoder reads from an opcode-table word: the first `nbits` bits, and zeros above them. -/
def decodeTableWord (nbits w : Nat) : Option Instr :=
  match decode (leBytes 20 (w % 2 ^ nbits)) with
  | .ok (i, _) => some i
  | .error _ => none

/-! ### Encoding -/

def Imm.field {n : Nat} : Imm n → Nat
  | .short i => i.toNat
  | .lit _ => 0

def Imm.litw {n : Nat} : Imm n → Option Word
  | .short _ => none
  | .lit w => some w

/-- A field of a smaller register file in a six-bit register field. -/
def up {n : Nat} (h : n ≤ 64) (f : Fin n) : Fin 64 := f.castLE h
def vf (r : VReg) : Fin 64 := up (by decide) r
def pf (r : PReg) : Fin 64 := up (by decide) r
def df (r : DReg) : Fin 64 := up (by decide) r
def hf (r : HReg) : Fin 64 := up (by decide) r
def tf (r : Tile) : Fin 64 := up (by decide) r

def bit2 (b : Bool) : Fin 2 := if b then 1 else 0

/-- A base-form word. -/
def eB (major rd ra rb fn : Fin 64) : Enc := ⟨⟨major, rd, ra, rb, fn⟩, none, none⟩

def eRrr (major fn : Fin 64) (o : Rrr) : Enc := ⟨⟨major, o.d, o.a, o.b.rb, fn⟩, none, o.b.litw⟩

/-- Format I: the twelve immediate bits split over the rb and fn fields. -/
def eI (major rd ra : Fin 64) (imm12 : Nat) (ext : Option Ext) (lit : Option Word) : Enc :=
  ⟨⟨major, rd, ra, Fin.ofNat 64 (imm12 / 64), Fin.ofNat 64 imm12⟩, ext, lit⟩

def eRri (major : Fin 64) (o : Rri 12) : Enc := eI major o.d o.a o.i.field none o.i.litw
def eSlti (op : Nat) (o : Rri 10) : Enc := eI 0x07 o.d o.a (op * 1024 + o.i.field) none o.i.litw

/-- Format B24. -/
def eB24 (major : Fin 64) (field : Nat) (ext : Option Ext) (lit : Option Word) : Enc :=
  ⟨⟨major, Fin.ofNat 64 (field / 2 ^ 18), Fin.ofNat 64 (field / 2 ^ 12), Fin.ofNat 64 (field / 64), Fin.ofNat 64 field⟩,
    ext, lit⟩

/-- Format B18. -/
def eB18 (major ra : Fin 64) (sub field : Nat) (lit : Option Word) : Enc :=
  ⟨⟨major, ra, Fin.ofNat 64 (sub * 16 + field / 2 ^ 12), Fin.ofNat 64 (field / 64), Fin.ofNat 64 field⟩, none, lit⟩

def eF2 (op : Nat) (o : F2) : Enc :=
  ⟨⟨0x0A, o.d, o.a, o.b.rb, Fin.ofNat 64 (o.p.code * 32 + op)⟩, o.rm.map fun rm => {rm := rm.code}, o.b.litw⟩
def eF2s (op : Nat) (o : F2s) : Enc :=
  ⟨⟨0x0A, o.d, o.a, o.b.rb, Fin.ofNat 64 (o.p.code * 32 + op)⟩, if o.x then some {} else none, o.b.litw⟩
def eF1s (op : Nat) (o : F1s) : Enc :=
  ⟨⟨0x0A, o.d, o.a, 0, Fin.ofNat 64 (o.p.code * 32 + op)⟩, if o.x then some {} else none, none⟩

def IntTy.code (t : IntTy) : Fin 256 := Fin.ofNat 256 ((if t.uns then 4 else 0) + t.sz.code.val)

def Ext.withAnn (x : Ext) (a : Ann) : Ext := {x with ann := a.codes.1, scope := a.codes.2}

def eFe (op : Nat) (rd ra : SReg) (b : Opnd) (mode : Mode) (x : Option Ann) : Enc :=
  ⟨⟨0x12, rd, ra, b.rb, Fin.ofNat 64 (mode.code * 16 + op)⟩, x.map fun a => ({sz := 3} : Ext).withAnn a, b.litw⟩

def ASz.code : ASz → Fin 4
  | .w => 2 | .d => 3

def AtomX.ext (x : AtomX) : Ext := ({sz := x.sz.code} : Ext).withAnn x.ann

def eAtom (op : Nat) (o : AtomOp) : Enc :=
  ⟨⟨0x13, o.d, o.a, o.b.rb, Fin.ofNat 64 (o.mode.code * 16 + op)⟩, o.x.map AtomX.ext, o.b.litw⟩

def eSend (kind : Nat) (o : SendOp) : Enc :=
  ⟨⟨0x16, if o.w8 then 1 else 0, o.a, o.b.rb, Fin.ofNat 64 (kind * 16 + o.n.val)⟩, none, o.b.litw⟩

def VldX.ext (x : VldX) : Ext :=
  ({sz := x.sz.code, pm := x.pm, zm := bit2 x.zm, ximm := x.ximm} : Ext).withAnn (acqAnn x.acq)
def VstX.ext (x : VstX) : Ext :=
  ({sz := x.sz.code, pm := x.pm, ximm := x.ximm} : Ext).withAnn (relAnn x.rel)

def eVld (op : Nat) (o : VldOp) : Enc :=
  ⟨⟨0x1B, vf o.d, o.a, o.b.rb, Fin.ofNat 64 (o.mode.code * 16 + op)⟩, o.x.map VldX.ext, o.b.litw⟩
def eVst (op : Nat) (o : VstOp) : Enc :=
  ⟨⟨0x1B, vf o.d, o.a, o.b.rb, Fin.ofNat 64 (o.mode.code * 16 + op)⟩, o.x.map VstX.ext, o.b.litw⟩

def PmZm.ext (x : PmZm) : Ext := {pm := x.pm, zm := bit2 x.zm}
def FX.ext (x : FX) : Ext := {pm := x.pm, zm := bit2 x.zm, rm := x.rm.code}

/-- The rb field and the extension of operand b of a lane instruction. -/
def VB.enc : VB → Fin 64 × Option Ext
  | .v r x => (vf r, x.map PmZm.ext)
  | .s r x => (0, some {x.ext with xfn := 1, rc := r})
def VFB.enc : VFB → Fin 64 × Option Ext
  | .v r x => (vf r, x.map FX.ext)
  | .s r x => (0, some {x.ext with xfn := 1, rc := r})

/-- The fn field of a vector major: the width or format code above the op. -/
def vfn (code : Fin 4) (op : Nat) : Fin 64 := Fin.ofNat 64 (code.val * 16 + op)

def eVint (op : Nat) (o : VInt) : Enc := ⟨⟨0x1C, vf o.d, vf o.a, o.b.enc.1, vfn o.w.code op⟩, o.b.enc.2, none⟩
def eVf2 (op : Nat) (o : VF2) : Enc := ⟨⟨0x1D, vf o.d, vf o.a, o.b.enc.1, vfn o.f.code op⟩, o.b.enc.2, none⟩
def eVf2s (op : Nat) (o : VF2s) : Enc := ⟨⟨0x1D, vf o.d, vf o.a, o.b.enc.1, vfn o.f.code op⟩, o.b.enc.2, none⟩
def eVf1s (op : Nat) (o : VF1s) : Enc := ⟨⟨0x1D, vf o.d, vf o.a, 0, vfn o.f.code op⟩, o.x.map PmZm.ext, none⟩
def eVred (op : Nat) (o : VRed) : Enc := ⟨⟨0x1E, o.d, vf o.a, 0, vfn o.w.code op⟩, o.x.map fun pm => {pm := pm}, none⟩
def eVcmp (op : Nat) (o : VCmp) : Enc := ⟨⟨0x1F, pf o.d, vf o.a, o.b.enc.1, vfn o.w.code op⟩, o.b.enc.2, none⟩
def eVfcmp (op : Nat) (o : VFCmp) : Enc := ⟨⟨0x1F, pf o.d, vf o.a, o.b.enc.1, vfn o.f.code op⟩, o.b.enc.2, none⟩

def xBool (x : Bool) : Option Ext := if x then some {} else none

def accXExt : View × Fmt × RMode → Ext
  | (v, f, rm) => {fmta := v.fmt.code, fmtb := f.code, rm := rm.code}

def fieldExt (f : Fin 4) : Ext := {xfn := Fin.ofNat 256 f.val}

def eCsr (op : Nat) (o : CsrOp) : Enc :=
  match o.n with
  | .short n => eI 0x23 o.d o.a (op * 1024 + n.toNat) none none
  | .ext n => eI 0x23 o.d o.a 0 (some {xfn := Fin.ofNat 256 op, ximm := BitVec.ofNat 24 n.toNat}) none

def eCode (fn : Fin 64) (c : BitVec 8) : Enc :=
  eB 0 0 (Fin.ofNat 64 (c.toNat / 64)) (Fin.ofNat 64 c.toNat) fn

/-- The words of an instruction; an event has none (DEDUCED, log 9). -/
def Instr.enc : Instr → Option Enc
  | .ill => some (eB 0 0 0 0 0x00)
  | .nop => some (eB 0 0 0 0 0x01)
  | .align n => some (eB 0 0 0 n 0x02)
  | .trap c => some (eCode 0x03 c)
  | .brk c => some (eCode 0x04 c)
  | .sysc c => some (eCode 0x05 c)
  | .eret => some (eB 0 0 0 0 0x06)
  | .upret a => some (eB 0 0 a 0 0x07)
  | .wfi a => some (eB 0 0 a 0 0x08)
  | .shoot a b => some (eB 0 0 a b 0x09)
  | .tlbil a b => some (eB 0 0 a b 0x0A)
  | .savex a => some (eB 0 0 a 0 0x0B)
  | .loadx a => some (eB 0 0 a 0 0x0C)
  | .perfr d n => some (eB 0 d 0 n 0x0D)
  | .tmark a tag => some (eB 0 0 a tag 0x0E)
  | .add o => some (eRrr 0x01 0x00 o)
  | .sub o => some (eRrr 0x01 0x01 o)
  | .and o => some (eRrr 0x01 0x02 o)
  | .or o => some (eRrr 0x01 0x03 o)
  | .xor o => some (eRrr 0x01 0x04 o)
  | .andn o => some (eRrr 0x01 0x05 o)
  | .sll o => some (eRrr 0x01 0x06 o)
  | .srl o => some (eRrr 0x01 0x07 o)
  | .sra o => some (eRrr 0x01 0x08 o)
  | .slt o => some (eRrr 0x01 0x09 o)
  | .sltu o => some (eRrr 0x01 0x0A o)
  | .seq o => some (eRrr 0x01 0x0B o)
  | .min o => some (eRrr 0x01 0x0C o)
  | .max o => some (eRrr 0x01 0x0D o)
  | .minu o => some (eRrr 0x01 0x0E o)
  | .maxu o => some (eRrr 0x01 0x0F o)
  | .clz o => some (eB 0x01 o.d o.a 0 0x10)
  | .ctz o => some (eB 0x01 o.d o.a 0 0x11)
  | .popc o => some (eB 0x01 o.d o.a 0 0x12)
  | .bfx o => some (eRrr 0x01 0x13 o)
  | .bfxu o => some (eRrr 0x01 0x14 o)
  | .bfi o => some (eRrr 0x01 0x15 o)
  | .adds o => some (eRrr 0x01 0x16 o)
  | .subs o => some (eRrr 0x01 0x17 o)
  | .caddr o => some (eRrr 0x01 0x18 o)
  | .crel o => some (eRrr 0x01 0x19 o)
  | .addi o => some (eRri 0x02 o)
  | .andi o => some (eRri 0x03 o)
  | .ori o => some (eRri 0x04 o)
  | .xori o => some (eRri 0x05 o)
  | .slli o => some (eB 0x06 o.d o.a 0 o.n)
  | .srli o => some (eB 0x06 o.d o.a 1 o.n)
  | .srai o => some (eB 0x06 o.d o.a 2 o.n)
  | .slti o => some (eSlti 0 o)
  | .sltiu o => some (eSlti 1 o)
  | .seqi o => some (eSlti 2 o)
  | .cmovnz o => some (eRrr 0x08 0 o)
  | .cmovz o => some (eRrr 0x08 1 o)
  | .mul o => some (eRrr 0x09 0 o)
  | .mulh o => some (eRrr 0x09 1 o)
  | .mulhu o => some (eRrr 0x09 2 o)
  | .mulhsu o => some (eRrr 0x09 3 o)
  | .div o => some (eRrr 0x09 4 o)
  | .divu o => some (eRrr 0x09 5 o)
  | .rem o => some (eRrr 0x09 6 o)
  | .remu o => some (eRrr 0x09 7 o)
  | .fadd o => some (eF2 0x00 o)
  | .fsub o => some (eF2 0x01 o)
  | .fmul o => some (eF2 0x02 o)
  | .fdiv o => some (eF2 0x03 o)
  | .fsqrt o => some ⟨⟨0x0A, o.d, o.a, 0, Fin.ofNat 64 (o.p.code * 32 + 4)⟩, o.rm.map fun rm => {rm := rm.code}, none⟩
  | .fmin o => some (eF2s 0x05 o)
  | .fmax o => some (eF2s 0x06 o)
  | .feq o => some (eF2s 0x07 o)
  | .flt o => some (eF2s 0x08 o)
  | .fle o => some (eF2s 0x09 o)
  | .fclass o => some (eF1s 0x0A o)
  | .fneg o => some (eF1s 0x0B o)
  | .fabs o => some (eF1s 0x0C o)
  | .fma o => some ⟨⟨0x0A, o.d, o.a, o.b.rb, Fin.ofNat 64 (o.p.code * 32 + 0x0D)⟩, some {rc := o.c, rm := o.rm.code}, o.b.litw⟩
  | .fcvt o => some ⟨⟨0x0A, o.d, o.a, 0, 0x0E⟩, some {fmta := o.fa.code, fmtb := o.fb.code, rm := o.rm.code}, none⟩
  | .ftoi o => some ⟨⟨0x0A, o.d, o.a, 0, 0x0F⟩, some {xfn := o.ty.code, fmta := o.f.code, rm := o.rm.code}, none⟩
  | .itof o => some ⟨⟨0x0A, o.d, o.a, 0, 0x10⟩, some {xfn := o.ty.code, fmtb := o.f.code, rm := o.rm.code}, none⟩
  | .br disp => some (eB24 0x0B disp.field none disp.litw)
  | .brc o => some (eB24 0x0B 0 (some {xfn := o.cond.code, rc := o.c, re := o.e, ximm := BitVec.ofNat 24 o.disp.field}) o.disp.litw)
  | .brz o => some (eB18 0x0C o.a 0 o.disp.field o.disp.litw)
  | .brnz o => some (eB18 0x0C o.a 1 o.disp.field o.disp.litw)
  | .brlz o => some (eB18 0x0C o.a 2 o.disp.field o.disp.litw)
  | .brgez o => some (eB18 0x0C o.a 3 o.disp.field o.disp.litw)
  | .call disp => some (eB24 0x0D disp.field none disp.litw)
  | .jr a => some (eB 0x0E 0 a 0 0)
  | .callr a => some (eB 0x0E 0 a 0 1)
  | .ret => some (eB 0x0E 0 0 0 2)
  | .jt a b => some (eB 0x0E 0 a b 3)
  | .loop o => some (eB18 0x0F o.a 0 o.disp.field o.disp.litw)
  | .loopi o =>
    match o.n with
    | .short n => some (eB18 0x0F n 1 o.disp.toNat none)
    | .lit n => some (eB18 0x0F 0 1 o.disp.toNat (some (BitVec.ofNat 64 n.toNat)))
  | .ld o => some (eI 0x10 o.d o.a (o.mode.code * 1024 + o.off.field)
      (o.x.map fun x => ({xfn := if x.sx then 1 else 0, sz := x.sz.code} : Ext).withAnn (acqAnn x.acq)) o.off.litw)
  | .st o => some (eI 0x11 o.d o.a (o.mode.code * 1024 + o.off.field)
      (o.x.map fun x => ({sz := x.sz.code} : Ext).withAnn (relAnn x.rel)) o.off.litw)
  | .ldx o => some (eI 0x10 o.d o.a (o.mode.code * 1024)
      (some (({xfn := if o.x.sx then 3 else 2, rc := o.c, sz := o.x.sz.code} : Ext).withAnn (acqAnn o.x.acq))) none)
  | .stx o => some (eI 0x11 o.d o.a (o.mode.code * 1024)
      (some (({xfn := 2, rc := o.c, sz := o.x.sz.code} : Ext).withAnn (relAnn o.x.rel))) none)
  | .ldf o => some (eFe 0 o.d o.a o.b o.mode (o.x.map acqAnn))
  | .take o => some (eFe 1 o.d o.a o.b o.mode (o.x.map acqAnn))
  | .putf o => some (eFe 2 o.d o.a o.b o.mode (o.x.map relAnn))
  | .stf o => some (eFe 3 o.d o.a o.b o.mode (o.x.map relAnn))
  | .ste o => some (eFe 4 o.d o.a o.b o.mode (o.x.map relAnn))
  | .feqFe o => some (eFe 5 o.d o.a o.b o.mode (o.x.map acqAnn))
  | .feclr o => some (eFe 6 0 o.a o.b o.mode (o.x.map relAnn))
  | .aadd o => some (eAtom 0 o)
  | .aand o => some (eAtom 1 o)
  | .aor o => some (eAtom 2 o)
  | .axor o => some (eAtom 3 o)
  | .amin o => some (eAtom 4 o)
  | .amax o => some (eAtom 5 o)
  | .aminu o => some (eAtom 6 o)
  | .amaxu o => some (eAtom 7 o)
  | .aswp o => some (eAtom 8 o)
  | .acas o => some ⟨⟨0x13, o.d, o.a, o.b.rb, Fin.ofNat 64 (o.mode.code * 16 + 9)⟩, some {o.x.ext with rc := o.c}, o.b.litw⟩
  | .afadd o => some ⟨⟨0x13, o.d, o.a, o.b.rb, Fin.ofNat 64 (o.mode.code * 16 + 0xA)⟩,
      o.x.map fun x => ({sz := if x.p = .f64 then 3 else 2, fmta := if x.p = .f64 then 0 else 1, rm := x.rm.code} : Ext).withAnn x.ann,
      o.b.litw⟩
  | .fence sc => some (eB 0x14 0 0 0 (Fin.ofNat 64 sc.code.val))
  | .flush a => some (eB 0x14 0 a 0 8)
  | .phase => some (eB 0x14 0 0 0 16)
  | .quiet sc => some (eB 0x14 0 0 0 (Fin.ofNat 64 (24 + sc.code.val)))
  | .gbar sc => some (eB 0x14 0 0 0 (Fin.ofNat 64 (32 + sc.code.val)))
  | .fld slot a => some (eB 0x15 slot a 0 0)
  | .bind d slot => some (eB 0x15 d 0 slot 1)
  | .unbind d => some (eB 0x15 d 0 0 2)
  | .unbinda => some (eB 0x15 0 0 0 3)
  | .bindq d a => some (eB 0x15 d a 0 4)
  | .fhold slot => some (eB 0x15 0 0 slot 5)
  | .frun slot => some (eB 0x15 0 0 slot 6)
  | .feval slot => some (eB 0x15 0 0 slot 7)
  | .send o => some (eSend 0 o)
  | .sendh o => some (eSend 1 o)
  | .migr o => some (eSend 2 o)
  | .spawn d b => some ⟨⟨0x16, d, 0, b.rb, 0x30⟩, none, b.litw⟩
  | .done => some (eB 0x16 0 0 0 0x31)
  | .msgq d => some (eB 0x16 d 0 0 0x32)
  | .pop d => some (eB 0x17 d 0 0 0)
  | .pushp a b => some (eB 0x17 0 a b 1)
  | .nalloc d => some (eB 0x17 d 0 0 2)
  | .nfree a => some (eB 0x17 0 a 0 3)
  | .link a b => some (eB 0x17 0 a b 4)
  | .rule => some (eB 0x17 0 0 0 5)
  | .nsym d a => some (eB 0x17 d a 0 6)
  | .steal d => some (eB 0x17 d 0 0 7)
  | .copy o => some ⟨⟨0x18, o.d, o.a, o.b.rb, 0⟩,
      some {xfn := Fin.ofNat 256 (o.ch.val + 4 * o.mode.code + if o.shape then 16 else 0)}, o.b.litw⟩
  | .cwait n => some (eB 0x18 0 0 n 1)
  | .cstat d n => some (eB 0x18 d 0 n 2)
  | .qfence m => some (eB 0x18 0 0 m 3)
  | .cabort n => some (eB 0x18 0 0 n 4)
  | .hset h a tie => some (eB 0x19 (hf h) a tie 0)
  | .hwait d h n => some (eB 0x19 d (hf h) n 1)
  | .hspace d h n => some (eB 0x19 d (hf h) n 2)
  | .hadv o => some ⟨⟨0x19, 0, hf o.h, Fin.ofNat 64 o.n.field, 3⟩, none, o.n.litw⟩
  | .hrel o => some ⟨⟨0x19, 0, hf o.h, Fin.ofNat 64 o.n.field, 4⟩, none, o.n.litw⟩
  | .hq d h => some (eB 0x19 d (hf h) 0 5)
  | .tshp b => some ⟨⟨0x1A, 0, 0, b.rb, 0⟩, some {}, b.litw⟩
  | .tld o =>
    match o.dst with
    | .tile d => some ⟨⟨0x1A, d, o.a, o.b.rb, 1⟩, some {xfn := Fin.ofNat 256 (o.ch.val + if o.loc then 4 else 0)}, o.b.litw⟩
    | .ring h => some ⟨⟨0x1A, hf h, o.a, o.b.rb, 1⟩, some {xfn := Fin.ofNat 256 (16 + o.ch.val + if o.loc then 4 else 0)}, o.b.litw⟩
  | .tst o => some ⟨⟨0x1A, o.d, o.a, o.b.rb, 2⟩, some {xfn := Fin.ofNat 256 (o.ch.val + if o.loc then 4 else 0)}, o.b.litw⟩
  | .dmov (.toD d a l) => some ⟨⟨0x1A, df d, a, 0, 3⟩, some {}, l⟩
  | .dmov (.toS d a l) => some ⟨⟨0x1A, d, df a, 0, 3⟩, some {xfn := 1}, l⟩
  | .dinc o => some ⟨⟨0x1A, o.d, 0, o.b.rb, 4⟩, some {ximm := BitVec.ofNat 24 o.k.val}, o.b.litw⟩
  | .vld o => some (eVld 0 o)
  | .vst o => some (eVst 1 o)
  | .vlds o => some (eVld 2 o)
  | .vsts o => some (eVst 3 o)
  | .vgath o => some ⟨⟨0x1B, vf o.d, o.a, vf o.b, Fin.ofNat 64 (o.mode.code * 16 + 4)⟩, o.x.map VldX.ext, none⟩
  | .vscat o => some ⟨⟨0x1B, vf o.d, o.a, vf o.b, Fin.ofNat 64 (o.mode.code * 16 + 5)⟩, o.x.map VstX.ext, none⟩
  | .vldbc o => some (eVld 6 o)
  | .vadd o => some (eVint 0 o)
  | .vsub o => some (eVint 1 o)
  | .vmul o => some (eVint 2 o)
  | .vmulh o => some (eVint 3 o)
  | .vand o => some (eVint 4 o)
  | .vor o => some (eVint 5 o)
  | .vxor o => some (eVint 6 o)
  | .vsll o => some (eVint 7 o)
  | .vsrl o => some (eVint 8 o)
  | .vsra o => some (eVint 9 o)
  | .vmin o => some (eVint 0xA o)
  | .vmax o => some (eVint 0xB o)
  | .vminu o => some (eVint 0xC o)
  | .vmaxu o => some (eVint 0xD o)
  | .vadds o => some (eVint 0xE o)
  | .vsubs o => some (eVint 0xF o)
  | .vfadd o => some (eVf2 0 o)
  | .vfsub o => some (eVf2 1 o)
  | .vfmul o => some (eVf2 2 o)
  | .vfdiv o => some (eVf2 3 o)
  | .vfsqrt o => some ⟨⟨0x1D, vf o.d, vf o.a, 0, vfn o.f.code 4⟩, o.x.map FX.ext, none⟩
  | .vfmin o => some (eVf2s 5 o)
  | .vfmax o => some (eVf2s 6 o)
  | .vfma o => some ⟨⟨0x1D, vf o.d, vf o.a, vf o.b, vfn o.f.code 7⟩, some {o.x.ext with rc := vf o.c}, none⟩
  | .vfneg o => some (eVf1s 8 o)
  | .vfabs o => some (eVf1s 9 o)
  | .vdot o => some ⟨⟨0x1D, vf o.d, vf o.a, vf o.b, 0x0A⟩,
      some {fmta := o.p.codes.1, fmtb := o.p.codes.2.1, rm := o.p.codes.2.2, pm := o.pm}, none⟩
  | .vscacc o => some ⟨⟨0x1D, vf o.d, vf o.a, o.b, 0x1B⟩, some {o.x.ext with fmta := if o.int then 6 else 1}, none⟩
  | .vcvt o => some ⟨⟨0x1E, vf o.d, vf o.a, 0, 0⟩,
      some {o.x.ext with xfn := Fin.ofNat 256 o.q.val, fmta := o.fa.code, fmtb := o.fb.code}, none⟩
  | .vsel o => some ⟨⟨0x1E, vf o.d, vf o.a, vf o.b, vfn o.w.code 1⟩, o.x.map fun pm => {pm := pm}, none⟩
  | .vperm o => some ⟨⟨0x1E, vf o.d, vf o.a, vf o.b, vfn o.w.code 2⟩, o.x.map PmZm.ext, none⟩
  | .vbcast o => some ⟨⟨0x1E, vf o.d, o.a, 0, vfn o.w.code 3⟩, o.x.map PmZm.ext, none⟩
  | .vins o => some ⟨⟨0x1E, vf o.d, o.a, o.b, vfn o.w.code 4⟩, xBool o.x, none⟩
  | .vext o => some ⟨⟨0x1E, o.d, vf o.a, o.b, vfn o.w.code 5⟩, o.x.map fun sx => {xfn := if sx then 1 else 0}, none⟩
  | .vslup o => some ⟨⟨0x1E, vf o.d, vf o.a, o.b, vfn o.w.code 6⟩, o.x.map PmZm.ext, none⟩
  | .vsldn o => some ⟨⟨0x1E, vf o.d, vf o.a, o.b, vfn o.w.code 7⟩, o.x.map PmZm.ext, none⟩
  | .vradd o => some (eVred 8 o)
  | .vrmin o => some (eVred 9 o)
  | .vrmax o => some (eVred 0xA o)
  | .vrminu o => some (eVred 0xB o)
  | .vrmaxu o => some (eVred 0xC o)
  | .vrfadd o => some ⟨⟨0x1E, o.d, vf o.a, 0, vfn (if o.p = .f64 then 3 else 2) 0xD⟩,
      o.x.map fun x => {rm := x.1.code, pm := x.2}, none⟩
  | .vmov o => some ⟨⟨0x1E, vf o.d, vf o.a, 0, vfn o.w.code 0xE⟩, o.x.map PmZm.ext, none⟩
  | .vceq o => some (eVcmp 0 o)
  | .vcne o => some (eVcmp 1 o)
  | .vclt o => some (eVcmp 2 o)
  | .vcle o => some (eVcmp 3 o)
  | .vcltu o => some (eVcmp 4 o)
  | .vcleu o => some (eVcmp 5 o)
  | .vfceq o => some (eVfcmp 6 o)
  | .vfclt o => some (eVfcmp 7 o)
  | .vfcle o => some (eVfcmp 8 o)
  | .pand o => some ⟨⟨0x1F, pf o.d, pf o.a, pf o.b, 9⟩, xBool o.x, none⟩
  | .por o => some ⟨⟨0x1F, pf o.d, pf o.a, pf o.b, 0xA⟩, xBool o.x, none⟩
  | .pxor o => some ⟨⟨0x1F, pf o.d, pf o.a, pf o.b, 0xB⟩, xBool o.x, none⟩
  | .pnot o => some ⟨⟨0x1F, pf o.d, pf o.a, 0, 0xC⟩, xBool o.x, none⟩
  | .pcnt o => some ⟨⟨0x1F, o.d, pf o.a, 0, 0xD⟩, xBool o.x, none⟩
  | .pfirst o => some ⟨⟨0x1F, o.d, pf o.a, 0, 0xE⟩, xBool o.x, none⟩
  | .psetw o => some ⟨⟨0x1F, pf o.d, o.a, 0, 0xF⟩, xBool o.x, none⟩
  | .gmma o => some ⟨⟨0x20, tf o.t, o.a, o.b, 0⟩,
      some {fmta := o.p.codes.1, fmtb := o.p.codes.2.1, rm := o.p.codes.2.2}, none⟩
  | .azero o => some ⟨⟨0x21, tf o.t, 0, 0, 0⟩, o.x.map fun f64 => {fmtb := if f64 then 0 else 1}, none⟩
  | .aldt o => some ⟨⟨0x21, tf o.t, o.a, 0, 1⟩, o.x.map fun f => {fmta := f.code}, none⟩
  | .astt o => some ⟨⟨0x21, tf o.t, o.a, 0, 2⟩, o.x.map accXExt, none⟩
  | .acvt o => some ⟨⟨0x21, tf o.d, tf o.t, 0, 3⟩, o.x.map accXExt, none⟩
  | .ascale o => some ⟨⟨0x21, tf o.c, tf o.p, o.b, 4⟩, o.x.map fun x => {fmta := if x.1 then 6 else 1, rm := x.2.code}, none⟩
  | .amovv (.toV d t b x) => some ⟨⟨0x21, vf d, tf t, b, 5⟩, xBool x, none⟩
  | .amovv (.toT t a b) => some ⟨⟨0x21, tf t, vf a, b, 5⟩, some {xfn := 1}, none⟩
  | .aflag o => some ⟨⟨0x21, o.d, 0, Fin.ofNat 64 o.mask.val, 6⟩, xBool o.x, none⟩
  | .grad o => some ⟨⟨0x22, 0, o.a, vf o.b, 0⟩,
      o.x.map fun x => {xfn := Fin.ofNat 256 x.1.val, fmta := if x.2 then 3 else 1}, none⟩
  | .gradq o => some ⟨⟨0x22, o.d, o.a, 0, 1⟩, xBool o.x, none⟩
  | .prld o => some ⟨⟨0x22, vf o.d, o.a, o.b, 2⟩, o.x.map fieldExt, none⟩
  | .prst o => some ⟨⟨0x22, 0, o.a, if o.skip then 1 else 0, 3⟩, xBool o.x, none⟩
  | .prset o => some ⟨⟨0x22, 0, o.a, vf o.b, 4⟩, o.x.map fieldExt, none⟩
  | .prstat o => some ⟨⟨0x22, o.d, o.a, 0, 5⟩, xBool o.x, none⟩
  | .csrr o => some (eCsr 0 o)
  | .csrw o => some (eCsr 1 o)
  | .csrs o => some (eCsr 2 o)
  | .csrc o => some (eCsr 3 o)
  | _ => none

/-- The length in bytes that the words of an encoding take (R69). -/
def Enc.len (e : Enc) : Nat := 4 + (if e.ext.isSome then 8 else 0) + (if e.lit.isSome then 8 else 0)

/-- The length of an instruction in bytes (R69); 0 for an event. -/
def Instr.len (i : Instr) : Nat :=
  match i.enc with
  | some e => e.len
  | none => 0

/-- The bytes of an instruction in fetch order; none for an event. -/
def encode (i : Instr) : List Byte :=
  match i.enc with
  | some e => e.bytes
  | none => []

end Sys2Proof
end

