-- ==== Sys2Proof/Config.lean ====
section
/-! DEFINITION. What the manual leaves to the boot firmware or leaves open: constants without a body, so that no
proof can use a value of them (DESIGN CHOICE, logs 7 and 15). -/

namespace Sys2Proof.Config

/-- The boot ROM's vector of a core outside every partition (R228). -/
opaque bootVector : Word

/-- The record unit's service code, fixed by the boot firmware (R201). -/
opaque serviceCode : Word

/-- The worlds that the boot firmware gives the nodes, by node number: non-secure or not (R396). -/
opaque bootWorld : Nat → Bool

/-- The worlds that the boot firmware gives copy channels (by `node * 4 + channel`), queue slots and Mililo links (by
`package * 2048 + slot` and `package * 8 + link`): non-secure or not (R396). -/
opaque bootChannelWorld : Nat → Bool
opaque bootSlotWorld : Nat → Bool
opaque bootLinkWorld : Nat → Bool

/-- The stepping of a package, in DEVID (R340). -/
opaque stepping : Nat → BitVec 8

/-- The digests that a quote carries: of the boot ROM, and of firmware and management firmware by version (R398). -/
opaque romDigest : BitVec 256
opaque firmwareDigest : Nat → BitVec 256
opaque managementDigest : Nat → BitVec 256

/-- The DRAM region descriptors that the boot firmware writes, by `package * 256 + die * 64 + index` (R396). -/
opaque bootRegion : Nat → Word

/-- The bank and the row of a channel that hold a word of bonded DRAM, by word number (R403). -/
opaque dramRow : Nat → Nat × Nat

/-- The boot firmware's policy lets a non-secure session reset the device (R408). -/
opaque nsReset : Bool

/-- The signature of a firmware image verifies, and its version (R397): the images are not part of the manual. -/
opaque verifies : List Byte → Bool
opaque imageVersion : List Byte → Nat

/-- An element of a GMMA operand that is written while the operation runs is read new: by the number of the reading and of the element
(R191). -/
opaque readsNew : Nat → Nat → Bool

/-- What a formula slot takes for a reserved operation code, source code or selector, which only LOADX can put there (R121, R241):
by the code and, for an operation, its operands (DESIGN CHOICE, log 67). -/
opaque reservedOp : Nat → Word → Word → Word → Word
opaque reservedSource : Nat → Word
opaque reservedSelector : Nat → Word

/-- Free values, one for each number: what the manual does not fix and the machine goes on with (DESIGN CHOICE, log 15). -/
opaque freeValue : Nat → Word

end Sys2Proof.Config
end

