-- ==== Sys2Proof/Machine/Flags.lean ====
section
/-! DEFINITION. The sticky IEEE flags of FSTAT (R21) as five-bit sets. -/

namespace Sys2Proof.Machine

/-- A set of IEEE flags, laid out as FSTAT (R21). -/
abbrev FFlags := BitVec 5

/-- Invalid operation. -/
def FFlags.nv : FFlags := 0b10000
/-- Division by zero. -/
def FFlags.dz : FFlags := 0b01000
/-- Overflow, which comes with NX (R56). -/
def FFlags.ovf : FFlags := 0b00101
/-- Underflow. -/
def FFlags.uf : FFlags := 0b00010
/-- Inexact. -/
def FFlags.nx : FFlags := 0b00001

/-- A flag set when a condition holds. -/
def FFlags.iff (c : Bool) (f : FFlags) : FFlags := if c then f else 0

end Sys2Proof.Machine
end

