-- ==== Sys2Proof/Machine/Tables.lean ====
section
/-! DEFINITION. Finite maps from natural numbers as sorted lists, and byte memory in its canonical form: addresses strictly
rising and no entry equal to what an unlisted address reads as. -/

namespace Sys2Proof.Machine

/-- A finite map from numbers; an absent key reads as a default that the reader names. -/
abbrev Table (α : Type) := List (Nat × α)

/-- The value at a key. -/
def Table.get {α : Type} (d : α) : Table α → Nat → α
  | [], _ => d
  | (k', v) :: t, k => if k' = k then v else Table.get d t k

/-- Put a value at a key, keeping the keys in rising order. -/
def Table.put {α : Type} : Table α → Nat → α → Table α
  | [], k, v => [(k, v)]
  | (k', v') :: t, k, v =>
    if k < k' then (k, v) :: (k', v') :: t
    else if k' = k then (k, v) :: t
    else (k', v') :: Table.put t k v

/-- Remove a key. -/
def Table.erase {α : Type} : Table α → Nat → Table α
  | [], _ => []
  | (k', v') :: t, k => if k' = k then Table.erase t k else (k', v') :: Table.erase t k

/-- Set a value, dropping the entry when the value is the default. -/
def Table.set {α : Type} [DecidableEq α] (d : α) (t : Table α) (k : Nat) (v : α) : Table α :=
  if v = d then t.erase k else t.put k v

/-- Keys strictly rising. -/
def Table.rising {α : Type} : Table α → Bool
  | [] => true
  | [_] => true
  | (k, _) :: (k', v') :: t => decide (k < k') && Table.rising ((k', v') :: t)

/-- Byte memory; an unlisted address reads as zero (DESIGN CHOICE, log 3). -/
abbrev Memory := List Host.Cell

/-- What an unlisted address reads as (DESIGN CHOICE, log 3). -/
def Memory.blank : Byte := 0

/-- One byte. -/
def Memory.read (m : Memory) (a : Nat) : Byte := Table.get Memory.blank m a

/-- Write one byte. -/
def Memory.write (m : Memory) (a : Nat) (b : Byte) : Memory := Table.set Memory.blank m a b

/-- The canonical form: addresses strictly rising, no entry that reads as an unlisted address does. -/
def Memory.wf (m : Memory) : Bool := Table.rising m && m.all fun c => decide (c.2 ≠ Memory.blank)

/-- The little-endian value of the `n` bytes at `a` (01_state, opening). -/
def Memory.readNat (m : Memory) (a : Nat) : Nat → Nat
  | 0 => 0
  | n + 1 => (m.read a).toNat + 256 * Memory.readNat m (a + 1) n

/-- Write the `n` bytes of a value at `a`, little-endian. -/
def Memory.writeNat (m : Memory) (a : Nat) : Nat → Nat → Memory
  | 0, _ => m
  | n + 1, x => Memory.writeNat (m.write a (BitVec.ofNat 8 x)) (a + 1) n (x / 256)

/-- The 64-bit word at `a`. -/
def Memory.readWord (m : Memory) (a : Nat) : Word := BitVec.ofNat 64 (m.readNat a 8)

/-- A bit per word, empty (false) where nothing is listed. -/
abbrev FeBits := Table Bool

def FeBits.full (t : FeBits) (w : Nat) : Bool := Table.get false t w
def FeBits.write (t : FeBits) (w : Nat) (b : Bool) : FeBits := Table.set false t w b

end Sys2Proof.Machine
end

