-- ==== Sys2Proof/Machine/State.lean ====
section
/-! DEFINITION. The state of a coordinate domain of Fliben packages as plain data: every piece of state that the manual
names (INVENTORY.md, State), the requests in flight, and fields of the model's own (`cur`, `agenda`, `rotor`, `split`,
`nextId`, `fresh`). Nodes are numbered as in `Inst`. -/

namespace Sys2Proof.Machine

/-- Reasons for which a step stops: there is none. Every instruction that the manual lists has an effect or raises a trap,
and what the manual calls a fault is a trap that the machine takes. -/
inductive Fault where
  deriving DecidableEq, Repr

/-- Reasons for which an instruction has no meaning. -/
inductive Refusal where
  /-- The instruction is not modelled yet; raised only by `exec`'s arms. Safe. -/
  | notModelled (mnemonic : String)
  deriving DecidableEq, Repr

/-! ### Traps -/

/-- The trap classes of R229. -/
inductive Cause where
  | illegalInstruction | illegalSequence | loopDepth | privilege | bindingCycle | boundWrite | formulaCheck | alignment
  | kind | protection | pageNotPresent | permission | operandFormat | formatMode | watchdog | machineCheck | debug
  | trap | sysc | interrupt
  deriving DecidableEq, Repr

/-- What a fault record says of the access (R378). -/
structure Access where
  vec  : Bool := false
  lane : Nat := 0
  size : Nat := 8
  acc  : Nat := 1
  data : Word := 0
  opb  : Word := 0
  epc  : Word := 0
  deriving DecidableEq, Repr

/-- A trap before it is taken: its class and the fields of R24. -/
structure Trap where
  cause  : Cause
  eaddr  : Word := 0
  code   : Nat := 0
  remote : Bool := false
  fslot  : Option Nat := none
  access : Access := {}
  /-- A machine-check that was logged when it was met, since it is taken later (R382). -/
  logged : Bool := false
  deriving DecidableEq, Repr

/-! ### Registers of an instance -/

/-- A register of an instance, by file (R73). -/
inductive Reg where
  | s (n : Nat) | v (n : Nat) | p (n : Nat) | d (n : Nat) | h (n : Nat)
  deriving DecidableEq, Repr

/-- A formula source that is not a register: WP0–WP3, VENTN, and the tied FILL of a ring handle (R25, R118). -/
inductive Src where
  | wp (n : Nat) | ventn | fill (h : Nat)
  deriving DecidableEq, Repr

/-- A formula slot (R38). `desc` is the descriptor as FLD loaded it, 0 for a slot never loaded (R239). -/
structure Slot where
  desc  : BitVec 256 := 0
  accum : Word := 0
  dest  : Nat := 0
  depth : Nat := 0
  held  : Bool := false
  valid : Bool := false
  deriving DecidableEq, Repr

/-- The accesses of one instruction that have not all been answered. A group with a register makes it pending (R135).
`left` counts the answers outstanding, `buf` collects a vector load, `bad` the refused lanes (R212), `poison` is the address
of data with an uncorrectable error (R233). -/
structure Group where
  id   : Nat
  reg  : Option Reg
  pc   : Word
  left : Nat
  buf  : VecReg := 0
  bad  : List (Nat × Trap) := []
  poison : Option Word := none
  deriving DecidableEq, Repr

/-- A pending formula-check (R125): the first failing slot, and the triggering instruction when there is one. -/
structure FCheck where
  slot : Nat
  at?  : Option Word
  deriving DecidableEq, Repr

/-- A parcel (R165): entry, payload, sender coordinate and time, tag, W8 with WTOP, and the sender's partition and world. -/
structure Parcel where
  entry  : Word
  pay    : List Word
  sender : Word
  sent   : Word
  tag    : Bool
  w8     : Bool
  wtop   : Bool
  part   : Option Nat
  ns     : Bool
  came   : Word := 0
  deriving DecidableEq, Repr

/-- What an instance is running (R281, R172, R341). -/
inductive Activity where
  /-- Nothing: the context does not issue. -/
  | idle
  /-- A grain: the launch and the grain's linear index. -/
  | grain (launch index : Nat)
  /-- The Vent loop of a WORK context, or code started outside the launch machinery. -/
  | loop
  /-- A rule or task taken by POP, by the kind of R384 (3 rule, 4 task; 6 a pair before its RULE), the node that pushed it, and the tag
  under which it was sent and retires (R149). -/
  | work (kind by_ : Nat) (tag : Bool)
  /-- The record rule of the record at this physical address key of its home. -/
  | rule (record : Nat) (prst : Bool)
  /-- A message handler. -/
  | handler (p : Parcel)
  /-- An interrupt activation of a MAIN without a grain (R341). -/
  | irq
  deriving DecidableEq, Repr

/-- Waits that an instruction records, and their release (R356, R359). -/
inductive Wait where
  | none
  /-- ALIGN at an address, with its timeout and the cycle at which it began (R115). -/
  | align (pc : Word) (n : Nat) (since : Nat)
  /-- GBAR: arrived; the scope (R150). -/
  | gbar (sc : Scope)
  /-- QUIET: the scope, the awaited tag and the sums of the last wave (R149). -/
  | quiet (sc : Scope) (tag : Bool) (last : Option (Nat × Nat))
  /-- FLUSH: the probe's message (R148). -/
  | flush (m : Nat)
  /-- WFI with its deadline (R238). -/
  | wfi (deadline : Word)
  /-- POP of a pair: its two TAKEs are one group (R178). -/
  | pop (g : Nat)
  /-- SHOOT sent to the root (R242). -/
  | shoot (part : Nat)
  /-- SAVEX with its next word (R240). -/
  | savex (next : Nat)
  /-- The wait has ended; the instruction completes at its next issue. -/
  | ended
  /-- Halted in WFI: its image resumes at the instruction after it (R238, R356). -/
  | halted
  /-- HWAIT for filled slots, HSPACE for free ones (R158). -/
  | hwait
  | hspace
  /-- JT between its two reads: the table's word 0 (R247). -/
  | jt (l : Word)
  /-- FLD, UPRET, RULE or LOADX between its reads: the words read, and the addresses of those with an uncorrectable error (R247). -/
  | words (ws : List Word) (bad : List Word)
  /-- FENCE, or a FLUSH that an open acquire holds back (R133, R147). -/
  | fence
  /-- GBAR in its FENCE part, its arrival not made yet (R150, R359). -/
  | gfence
  /-- STEAL between two looks: the next (R179). -/
  | steal (k : Nat)
  /-- GMMA that waits for its operands or the matrix unit, with GANGW and GSTAG as at its issue (R25, R189). -/
  | gmma (gangw gstag : Nat)
  /-- A full channel queue or GRAD window (R152, R199). -/
  | room
  /-- Any other instruction that has issued and waits: CWAIT, DONE, SHOOT, the matrix unit (R283). -/
  | busy
  deriving DecidableEq, Repr

/-- One context-scope instance (R13, R18, R239). -/
structure Ctx where
  s      : Table Word := []
  v      : Table VecReg := []
  p      : Table (BitVec 16) := []
  d      : Table (BitVec 32) := []
  h      : Table (BitVec 128) := []
  /-- Partial-slot progress of tied handles (R157). -/
  part   : Table Nat := []
  slots  : Table Slot := []
  lc0    : BitVec 32 := 0
  lc1    : BitVec 32 := 0
  lbeg0  : Word := 0
  lend0  : Word := 0
  lbeg1  : Word := 0
  lend1  : Word := 0
  fstat  : BitVec 5 := 0
  wtop   : Bool := false
  srseed : BitVec 32 := 0
  vovf   : BitVec 32 := 0
  ictr   : Word := 0
  priv   : Bool := true
  ie     : Bool := false
  upact  : Bool := false
  upvec  : Word := 0
  upinfo : Word := 0
  epc    : Word := 0
  ecause : Word := 0
  eaddr  : Word := 0
  einfo  : Word := 0
  btarget : Word := 0
  lreq   : Word := 0
  rreq   : Word := 0
  osc    : Nat := 0
  /-- Phase tag (R149). -/
  tag    : Bool := false
  /-- Fault-record count (R378). -/
  seq    : Word := 0
  pc     : Word := 0
  /-- `some t` while the next instruction is a delay slot after which execution continues at `t` (R80). -/
  dslot  : Option Word := none
  act    : Activity := .idle
  wait   : Wait := .none
  /-- The instruction that has issued and waits: it is not fetched again (R227). -/
  insn   : Option Instr := none
  groups : List Group := []
  /-- Poisoned registers with the address their data came from (R233). -/
  poison : List (Reg × Word) := []
  deferred : List Trap := []
  fcheck : Option FCheck := none
  mcheck : List Trap := []
  /-- Watchpoint matches not yet taken, oldest first (R393): the trap of ACT 2, or a stop when the flag is set. -/
  watch  : List (Bool × Trap) := []
  /-- The registers that the last attempt to issue found pending and waits for (R92, R244). -/
  stalled : List Reg := []
  /-- The next instruction is not fetched yet (R283). -/
  late   : Bool := false
  changed : List Src := []
  /-- HWDOG as captured and the cycles counted (R171). -/
  hwdog  : Nat := 0
  hcount : Nat := 0
  perf   : Table Word := []
  /-- The partition of an activation on a Caldera core (R357). -/
  apart  : Option Nat := none
  /-- Activations started, instructions retired before the last start (R384), s2 at the start (R393) and CYCLE at the start
  (R390). -/
  acts   : Nat := 0
  ret0   : Word := 0
  s2at   : Word := 0
  born   : Word := 0
  /-- The trace records and the stop of the breakpoints at this pc are made (R393). -/
  bpDone : Bool := false
  deriving DecidableEq, Repr

/-! ### Core state -/

/-- A Vent entry (R175): its kind, its tag and when it was pushed by which core (R390). -/
inductive VentItem where
  | pair (a b : Word)
  | task (entry s1 s2 s3 s4 : Word)
  deriving DecidableEq, Repr

structure VentEntry where
  item : VentItem
  tag  : Bool
  by_  : Nat
  sent : Word
  /-- CYCLE of the thief that stole it (R390). -/
  began : Option Word := none
  deriving DecidableEq, Repr

/-- A shape record (R160): dimension d is `(EXT, SSTR, DSTR)`. -/
structure Shape where
  esz   : Nat
  trows : Nat
  tcols : Nat
  dims  : List (Nat × Int × Int)
  deriving DecidableEq, Repr

/-- What a channel entry transfers (R152, R163). -/
inductive Xfer where
  | bytes (dst src : Word) (mode : Mode) (n : Nat)
  | shaped (dst src : Word) (mode : Mode) (sh : Shape)
  | tld (tile : Nat) (base : Word) (loc : Bool) (sh : Shape) (d : List Int) (total : Nat)
  | tst (tile : Nat) (base : Word) (loc : Bool) (sh : Shape) (d : List Int)
  deriving DecidableEq, Repr

/-- A channel queue item: an entry with its issuer, the message number at its issue and the address of its instruction (R378), or the
join of a QFENCE (R154). -/
inductive ChanItem where
  | entry (x : Xfer) (ctx : CtxId) (user : Bool) (after : Nat) (ring : Option Nat) (pc : Word)
  | join (id mask : Nat)
  deriving DecidableEq, Repr

/-- A copy channel (R151 to R153). `prog` counts the bytes of the running entry that are done. -/
structure Chan where
  queue   : List ChanItem := []
  prog    : Nat := 0
  /-- Lines already counted of the running entry, `2 * line + 1` for a line written (R20). -/
  seen    : List Nat := []
  wp      : Word := 0
  stopped : Option Trap := none
  /-- The bytes read of the group that is next to be written (R152, R247). -/
  buf     : Option (List Nat) := none
  deriving DecidableEq, Repr

/-- Where a GMMA operand comes from (R187). -/
inductive GSrc where
  | tile (off : Nat) | ring (h off : Nat) | acc (t : Tile)
  deriving DecidableEq, Repr

/-- How far a GMMA has come (R189, R191). -/
inductive GPhase where
  | arrived
  | closed (start : Nat)
  /-- Started, with the codes that its slice of A and its B hold then: until they are read an element may be written (R191). -/
  | reading (stop : Nat) (a b : List Nat)
  /-- Running until a cycle, with the flags and tile overflows that completion raises. -/
  | running (stop : Nat) (flags : BitVec 5) (ovf : BitVec 4)
  deriving DecidableEq, Repr

/-- The GMMA of a core, as captured at issue (R189, R359). -/
structure Gmma where
  ctx   : CtxId
  pair  : DotPair
  tile  : Tile
  gangw : Nat
  gstag : Nat
  a     : GSrc
  b     : GSrc
  aOrd  : Bool
  bOrd  : Bool
  env   : Bool × BitVec 32 × Word
  phase : GPhase
  deriving DecidableEq, Repr

/-- A core's partition image (R355, R358): contexts, storage, Vent, queues, channels and core-scope registers. -/
structure Img where
  part  : Option Nat := none
  main  : Ctx := {}
  work  : Ctx := {}
  msgL  : Ctx := {}
  msgH  : Ctx := {}
  /-- Scratchpad and accumulator window, by offset (R29, R34). -/
  spm   : Memory := []
  fe    : FeBits := []
  /-- The 4 KiB regions written since ALLOC (R358). -/
  dirty : List Nat := []
  ovf   : BitVec 4 := 0
  gangw : BitVec 2 := 0
  gstag : BitVec 4 := 0
  qspill : Nat := 64
  stealwin : Nat := 1
  hwdog : BitVec 32 := 1000000
  npool : Word := 0
  nfreehd : Word := 0
  prb   : Table Word := []
  prl   : Table Word := []
  stealStart : Nat := 0
  /-- The Vent, newest entry first (R175). -/
  vent  : List VentEntry := []
  qL    : List Parcel := []
  qLover : List Parcel := []
  qH    : List Parcel := []
  ch0   : Chan := {}
  ch1   : Chan := {}
  ch2   : Chan := {}
  ch3   : Chan := {}
  gmma  : Option Gmma := none
  /-- The launches whose data image was loaded here (R350). -/
  loaded : List Nat := []
  /-- GT at which it was last live (R354). -/
  lastLive : Nat := 0
  deriving DecidableEq, Repr

/-- A route TLB or second-level entry (R369): page address and size, partition and the leaf's fields. -/
structure TlbEntry where
  page : Nat
  size : Nat
  part : Nat
  leaf : Nat
  deriving DecidableEq, Repr

/-- A delay account entry (R391). -/
structure Delay where
  sender  : Word
  count   : Nat
  transit : Nat
  run     : Nat
  wait    : Nat
  deriving DecidableEq, Repr

/-- Debug controls of one instance (R393). -/
structure Dbg where
  bpa : Table Word := []
  bpc : Table Word := []
  wpb : Table Word := []
  wpl : Table Word := []
  wpc : Table Word := []
  deriving DecidableEq, Repr

/-- A debug stop (R394, R395): the reason of DSTAT, and whether WORK, the MSG bank that matched, or MAIN before an instruction that
matched has halted. Else MAIN halts at its next boundary. -/
structure Stop where
  reason : Nat
  work   : Bool
  msg    : Bool
  main   : Bool := false
  deriving DecidableEq, Repr

/-- What a record unit keeps of a record beside its bytes (R200, R357). -/
structure Rec where
  /-- Exact running sums (R200). -/
  sums  : List Int := []
  /-- The bound partition (R357). -/
  bound : Option Nat := none
  /-- A page-mapped address of the record, for the rule (R201), and the tag of the completing contribution (R149). -/
  va    : Word := 0
  tag   : Bool := false
  deriving DecidableEq, Repr

/-- A node: a compute core or a Caldera core. -/
structure Node where
  live    : Img := {}
  shadows : List Img := []
  stored  : List Img := []
  /-- Interrupt pending bits of each partition, source 0 and source 1 (R341). -/
  irq0    : List Nat := []
  irq1    : List Nat := []
  cycle   : Word := 0
  /-- Parts of a cycle beyond CYCLE, 1/2500 each, and whether the core has issued in this cycle (R283). -/
  frac    : Nat := 0
  issued  : Bool := false
  ptr     : CtxId := .main
  ns      : Bool := false
  gated   : Bool := false
  waking  : Bool := false
  /-- GT by which a core that has been woken issues again (R287). -/
  wakeAt  : Nat := 0
  marked  : Bool := false
  stop    : Option Stop := none
  stepping : Option (CtxId × Bool) := none
  tlb     : List TlbEntry := []
  /-- The copy channels of the non-secure world (R396). -/
  chNs    : BitVec 4 := 0
  /-- Messages sent and retired, by partition and phase tag (R149, R328). -/
  sent    : Table Nat := []
  retired : Table Nat := []
  /-- GRAD windows by home node (R199). -/
  window  : Table Nat := []
  delays  : List Delay := []
  /-- Sampling: fetches until the next mark, the marked instance and its stage counts (R387). -/
  sample  : Nat := 0
  mark    : Option (Inst × Word) := none
  /-- The clock is stopped (R386). -/
  clkOff  : Bool := true
  /-- CYCLE at the last periodic SYNC record (R386). -/
  syncAt  : Word := 0
  -- Caldera cores
  recs    : Table Rec := []
  lock    : List Nat := []
  deriving DecidableEq, Repr

/-! ### Messages -/

inductive FeOp where
  | ldf | take | putf | stf | ste | feq | feclr
  deriving DecidableEq, Repr

inductive AtomFn where
  | add | and | or | xor | min | max | minu | maxu | swp | cas | fadd
  deriving DecidableEq, Repr

/-- The rounding environment of an instance as it stands at issue: WTOP, SRSEED, ICTR (R53, R59). -/
structure REnv where
  wtop : Bool
  seed : Nat
  ctr  : Nat
  deriving DecidableEq, Repr

/-- What a request asks of its target. -/
inductive Req where
  | load (n : Nat)
  | store (n : Nat) (data : Word)
  | fe (op : FeOp) (data : Word)
  | atom (f : AtomFn) (n : Nat) (b c : Word) (rm : RMode) (env : REnv)
  | flush
  | parcel (p : Parcel)
  | grad (cls : Nat) (x : List Nat) (bf16 ovf : Bool)
  | prld (field : Nat) (step : Word)
  | prset (field : Nat) (data : VecReg)
  | prstat
  deriving DecidableEq, Repr

/-- The memory unit that a global virtual address reaches (R368). -/
inductive Home where
  | mem (pkg die chan : Nat)
  | cxl (pkg : Nat)
  | host (pkg : Nat)
  deriving DecidableEq, Repr

/-- Where a request goes: a node and offset, or the home of a virtual address. -/
inductive Target where
  | node (g off : Nat)
  | home (h : Home)
  deriving DecidableEq, Repr

/-- Where the answer goes: nowhere, an s register (sign-extended from `n` bytes when `sx`), the symbol of NSYM, lanes of a
vector register, a whole vector register, or the TAKEs of POP. -/
inductive Dst where
  | none
  | s (r n : Nat) (sx : Bool)
  | sym (r : Nat)
  | lanes (r esz : Nat) (ls : List Nat)
  | vec (r : Nat)
  | pop
  deriving DecidableEq, Repr

/-- Where bytes are held: a node's scratchpad or window in one partition's image, bonded DRAM, CXL or host memory. -/
inductive Place where
  | spm (g : Nat) (part : Option Nat) (off : Nat)
  | dram (a : Nat)
  | cxl (a : Nat)
  | host (a : Nat)
  deriving DecidableEq, Repr

/-- How far a message has come. -/
inductive Phase where
  /-- Sent, not yet performed. -/
  | req
  /-- An FE request or a PRLD held in a waiter entry, with its arrival number; a GRAD or PRSET held at the home. -/
  | waiting (stamp : Nat)
  /-- Refused for want of an entry or queue space; repeated after 64 cycles. -/
  | retry
  /-- Performed: the answer is on its way, with the data read, the flags raised and whether the data has an uncorrectable
  error (R233). -/
  | ok (data : Nat) (flags : BitVec 5) (bad : Bool)
  /-- Refused by the target (R135). -/
  | refused (t : Trap)
  /-- Negative acknowledgement (R371). -/
  | nack
  deriving DecidableEq, Repr

/-- A message in flight. -/
structure Msg where
  id   : Nat
  src  : Inst
  part : Option Nat
  ns   : Bool
  user : Bool
  tag  : Bool
  pc   : Word
  va   : Word
  tgt  : Target
  /-- Travels on the ordered class (R132). -/
  ordered : Bool
  /-- Of kind SO through a virtual address (R250, item 2). -/
  so   : Bool
  req  : Req
  dst  : Dst
  grp  : Nat
  lane : Nat
  vec  : Bool
  /-- Counts in OSC until its acknowledgement (R20). -/
  osc  : Bool
  acq  : Bool
  rel  : Option Scope
  phase : Phase
  /-- Where a waiting FE request waits (R140). -/
  at_  : Option Place := none
  /-- Its context has been discarded: the answer is dropped (R346, R354). -/
  orphan : Bool := false
  /-- The home whose window a GRAD has opened (R199). -/
  win    : Option Nat := none
  /-- The partition live at the target node when it was sent (R356). -/
  aim    : Option Nat := none
  deriving DecidableEq, Repr

/-! ### Package state -/

/-- A queue entry the scheduler has taken (R344, R345). -/
structure QEntry where
  pos     : Nat
  kind    : Nat
  tag     : Nat
  intr    : Bool
  barrier : Bool
  status  : Word
  w2      : Word
  w3      : Word
  launch  : Option Nat := none
  /-- Its completion code, once complete. -/
  code    : Option Nat := none
  written : Bool := false
  deriving DecidableEq, Repr

/-- A user queue as the scheduler sees it (R342, R343). -/
structure Queue where
  taken   : List QEntry := []
  slot    : Bool := false
  bad     : Bool := false
  waiting : Option Nat := none
  /-- When the queue became idle; none while it is not (R343). -/
  idleSince : Option Nat := none
  deriving DecidableEq, Repr

/-- Where a grain stands: on a core, or done. -/
inductive GrainSt where
  | unplaced | on (g : Nat) | done
  deriving DecidableEq, Repr

/-- The turn of a group's live partition (R355): GT at which its slice began, the warning given, and the slice over. -/
structure Turn where
  began  : Nat := 0
  warned : Bool := false
  spent   : Bool := false
  deriving DecidableEq, Repr

/-- A launch (R347 to R349): its levels are `(EXTENT, DOMAIN, SCOPE)`. -/
structure Launch where
  id     : Nat
  queue  : Nat
  part   : Nat
  entry  : Word
  data   : Word
  dlen   : Nat
  arg    : Word
  levels : List (Nat × Nat × Nat)
  grains : Table GrainSt := []
  /-- Units given to hardware-level instances: instance key to unit (R349). -/
  units  : Table Nat := []
  /-- Grains of other packages, by package: their share was sent (R363). -/
  shares : List Nat := []
  /-- S software of a grain has ended it with a fault (R345). -/
  fault  : Bool := false
  deriving DecidableEq, Repr

/-- A shoot-down at the root (R374). -/
structure Shoot where
  part     : Nat
  size     : Nat
  addr     : Nat
  issuer   : Inst
  ipart    : Option Nat
  clusters : List Nat
  mail     : List (Nat × Nat)
  homes    : List Nat
  tephra   : Bool
  /-- The entries that home caches have invalidated, with the home's number: larger ones reach beyond the selector (R374). -/
  gone     : List (Nat × TlbEntry) := []
  deriving DecidableEq, Repr

/-- A monitor of Tephra (R392). -/
structure Monitor where
  ctl  : Word := 0
  lo   : Nat := 0
  hi   : Nat := 0
  any  : Bool := false
  bins : Table Nat := []
  /-- CYCLE of the watched core at the last sample of a level. -/
  last : Word := 0
  deriving DecidableEq, Repr

/-- A trace record: its four words (R384). One of TYPE 0 in flight, a type that is never written, holds the place of the records of the
message that word 1 names (R385). -/
structure TraceRec where
  w0 : Word
  w1 : Word
  w2 : Word
  w3 : Word
  deriving DecidableEq, Repr

/-- Tephra (R383 to R392). -/
structure Tephra where
  tctl  : Word := 10 <<< 8
  tbase : Word := 0
  tsize : Nat := 1
  /-- The bytes placed since EN was last set: TWP is their number modulo the buffer's size (R383). -/
  placed : Nat := 0
  tloss : Nat := 0
  sper  : Nat := 256
  tsel  : Word := 0
  mons  : Table Monitor := []
  flight : List TraceRec := []
  drops : Nat := 0
  pages : List TlbEntry := []
  deriving DecidableEq, Repr

/-- An error log entry (R401). -/
structure LogEntry where
  /-- The die whose buffer takes the entry first; 4 for the I/O die. -/
  die   : Nat
  gt    : Word
  cls   : Nat
  part  : Nat
  where_ : Word
  addr  : Word
  deriving DecidableEq, Repr

/-- A Mililo link (R362, R404): up, the far package, its world, and the spare lanes and the data lanes that work of each direction. It
runs on 16 lanes or, with fewer, on 8. -/
structure Link where
  up     : Bool := false
  far    : Option Nat := none
  ns     : Bool := false
  spareIn  : Nat := 2
  spareOut : Nat := 2
  lanesIn  : Nat := 16
  lanesOut : Nat := 16
  deriving DecidableEq, Repr

/-- A signed quote (R398): its nonce, the alias generation and index it was signed with, the identity index that certifies the
alias key, the digests of boot ROM, firmware and management firmware, and the world table. -/
structure Quote where
  nonce  : BitVec 256
  gen    : Nat
  index  : Nat
  cert   : Nat
  rom    : BitVec 256
  fw     : BitVec 256
  mc     : BitVec 256
  worlds : List (Nat × Nat)
  regions : Table Word
  deriving DecidableEq, Repr

/-- Boot, identity and firmware (R397 to R399, R405). An image is known by its version and whether its signature verifies. -/
structure Firmware where
  version   : Nat := 0
  /-- The version of the verified image that runs since the last boot (R398, R399). -/
  running   : Nat := 0
  signed    : Bool := true
  rollback  : Nat := 0
  identity  : Nat := 0
  alias_    : Nat := 0
  aliasUses : Nat := 0
  recovery  : Bool := false
  /-- A verified image that is being written to flash, by its version (R399). -/
  flashing  : Option Nat := none
  booted    : Bool := false
  mboxAddr  : Word := 0
  mboxLen   : Word := 0
  mcVersion : Nat := 0
  mcRollback : Nat := 0
  /-- Results of updates that were reported over the sideband (R399), newest last: the version written, or none for a refused
  image. -/
  reports   : List (Option Nat) := []
  quotes    : List Quote := []
  deriving DecidableEq, Repr

/-- Power, thermal and clock state of a die (R406, R407, R410). -/
structure DiePower where
  mhz    : Nat := 2500
  trip   : Bool := false
  tj     : Nat := 0
  deriving DecidableEq, Repr

/-- A package. -/
structure Pkg where
  gt      : Word := 0
  /-- Fifths of a nanosecond beyond GT: one cycle is 0.4 ns at the nominal clock (R3). -/
  gtFrac  : Nat := 0
  tsync   : Bool := false
  mask    : Nat := 0
  links   : Table Link := []
  lroute  : Table Nat := []
  qtbase  : Word := 0
  ptbase  : Word := 0
  sched   : Bool := false
  defslice : Nat := 100
  partBusy : Option (Nat × Nat) := none
  partResult : Nat := 0
  queues  : Table Queue := []
  launches : List Launch := []
  /-- The turn of each group, by the lowest cluster of its set. -/
  turns   : Table Turn := []
  msix    : List (Nat × Nat) := []
  l2      : Table (List TlbEntry) := []
  homes   : Table (List TlbEntry) := []
  shoots  : List Shoot := []
  regions : Table Word := []
  tephra  : Tephra := {}
  dbg     : Table Dbg := []
  fw      : Firmware := {}
  telem   : Table Nat := []
  log     : List LogEntry := []
  lost    : Nat := 0
  dieBuf  : List LogEntry := []
  spares  : List Nat := []
  rowSpares : Table Nat := []
  bankSpares : List Nat := []
  dies    : Table DiePower := []
  pl      : Nat := 2000
  ceil    : Nat := 2500
  pcap    : Table (Nat × Nat) := []
  coolIn  : Nat := 250
  coolFlow : Nat := 200
  mcDown  : Bool := false
  sessions : Bool := true
  powered : Bool := true
  /-- The queue slots of the non-secure world (R396). -/
  slotNs  : List Nat := []
  deriving DecidableEq, Repr

/-! ### The whole state -/

/-- What the next step does: a core issues for one of its instances, an event happens, or time passes, in units of 0.4 ns
(DESIGN CHOICE, log 5). -/
inductive Choice where
  | issue (i : Inst)
  /-- An uncorrectable error arises in a word of a scratchpad, a window, or of CXL or host memory (R233, R402). -/
  | upset (p : Place)
  /-- As `issue`; the instruction's accesses to its own core, and the reads of FLD, JT, UPRET and LOADX, are granted one by one
  (R247). -/
  | split (i : Inst)
  /-- The next instruction of the instance is not fetched yet: until the instance is named again, it is not ready (R283). -/
  | late (i : Inst)
  | event (e : Instr)
  | lapse (n : Nat)
  deriving DecidableEq, Repr

structure State where
  nodes : Table Node
  pkgs  : Table Pkg
  /-- Bonded DRAM by `package * 2^37 + DPA`, its FE bits by word (R130, R365). -/
  dram  : Memory
  dramFe : FeBits
  /-- Bonded-DRAM words that hold an uncorrectable error (R233, R382). -/
  dramBad : List Nat
  /-- The same for words of scratchpads, windows, CXL and host memory (R233, R402). -/
  wordBad : List Place
  /-- CXL memory by `package * 2^42 + address` (R368). -/
  cxl   : Memory
  /-- Host memory by `package * 2^64 + bus address` (R368). -/
  host  : Memory
  /-- Messages in flight, oldest first. -/
  net   : List Msg
  /-- Arrival numbers given by the units. -/
  stamp : Nat
  /-- The model's own: the instance an instruction runs for, the choices to take next, the default order's position, whether
  the accesses of the instruction that issues are granted one by one (DEDUCED, log 18), and the counters that number
  messages and free values. -/
  cur    : Inst
  agenda : List Choice
  rotor  : Nat
  split  : Bool
  nextId : Nat
  fresh  : Nat
  deriving DecidableEq, Repr

/-- A package at reset. Package 0 alone is present and is its own coordinate domain (DESIGN CHOICE, log 8). -/
def Pkg.reset : Pkg := { mask := 1 }

/-- The machine right after reset: every node, context and image as R43 gives it, DRAM zero and empty (R408), nothing in
flight. Registers to which the manual gives no value are as logs 1, 2, 6 and 8 say (DESIGN CHOICE). -/
def State.reset : State where
  nodes := []
  pkgs := [(0, Pkg.reset)]
  dram := []
  dramFe := []
  dramBad := []
  wordBad := []
  cxl := []
  host := []
  net := []
  stamp := 0
  cur := ⟨0, .main⟩
  agenda := []
  rotor := 0
  split := false
  nextId := 1
  fresh := 0

end Sys2Proof.Machine
end

