-- ==== Sys2Proof/Machine/Numbers.lean ====
section
/-! DEFINITION. Number formats, exact values and the one rounding (02_numbers): values are held exactly as a sign, a natural
mantissa and a power of two, operations are computed exactly, and `roundNum` narrows at the end. -/

namespace Sys2Proof

open Sys2Proof.Machine

/-- An exact value: a NaN (signalling or not), an infinity, or `(-1)^neg · m · 2^e`. -/
inductive XNum where
  | nan (sig : Bool)
  | inf (neg : Bool)
  | fin (neg : Bool) (m : Nat) (e : Int)
  deriving DecidableEq, Repr

def XNum.zero : XNum := .fin false 0 0

def XNum.isNan : XNum → Bool
  | .nan _ => true
  | _ => false

def XNum.isSig : XNum → Bool
  | .nan s => s
  | _ => false

def XNum.ofInt (i : Int) : XNum := .fin (decide (i < 0)) i.natAbs 0

/-- The exact value of an integer times a power of two. -/
def XNum.ofScaled (i e : Int) : XNum := .fin (decide (i < 0)) i.natAbs e

/-! ### Formats -/

/-- An IEEE binary format by exponent and fraction bits (R47). -/
structure Ieee where
  eb : Nat
  fb : Nat

def Ieee.bits (f : Ieee) : Nat := 1 + f.eb + f.fb
/-- The exponent of the smallest subnormal. -/
def Ieee.qmin (f : Ieee) : Int := 2 - (2 : Int) ^ (f.eb - 1) - f.fb
/-- The code of +∞. -/
def Ieee.infCode (f : Ieee) : Nat := (2 ^ f.eb - 1) * 2 ^ f.fb
/-- The canonical NaN (R47, R48). -/
def Ieee.nanCode (f : Ieee) : Nat := f.infCode + 2 ^ (f.fb - 1)

def fp64 : Ieee := ⟨11, 52⟩
def fp32 : Ieee := ⟨8, 23⟩
def fp16 : Ieee := ⟨5, 10⟩
def bfp16 : Ieee := ⟨8, 7⟩

/-- The value of a code (R47, R48). -/
def Ieee.num (f : Ieee) (x : Nat) : XNum :=
  let neg := natBit x (f.eb + f.fb)
  let ex := natBits x f.fb f.eb
  let fr := x % 2 ^ f.fb
  if ex = 2 ^ f.eb - 1 then
    if fr = 0 then .inf neg else .nan (!natBit fr (f.fb - 1))
  else if ex = 0 then .fin neg fr f.qmin
  else .fin neg (2 ^ f.fb + fr) (f.qmin + ex - 1)

/-- The exponent E and the fraction width of a Wedge8 magnitude code (R52). -/
def w8Exp (m : Nat) : Int × Nat :=
  if m < 2 then (-20, 0)
  else if m < 4 then (-19 + (m - 2 : Int), 0)
  else if m < 8 then (-17 + (m - 4 : Int), 0)
  else if m < 16 then (-13 + ((m - 8) / 2 : Nat), 1)
  else if m < 32 then (-9 + ((m - 16) / 4 : Nat), 2)
  else if m < 64 then (-5 + ((m - 32) / 8 : Nat), 3)
  else (-1 + ((m - 64) / 16 : Nat), 4)

/-- The value of a Wedge8 code under WTOP (R51 to R53). -/
def w8Num (wtop : Bool) (x : Nat) : XNum :=
  let m := x % 128
  let neg := natBit x 7
  if m = 0 then (if neg then .nan false else .zero)
  else if m = 127 && wtop then .inf neg
  else
    let (e, fw) := w8Exp m
    .fin neg (2 ^ fw + m % 2 ^ fw) (e - fw)

/-- The value of the low bits of a register or lane, read in a format. -/
def Fmt.num (f : Fmt) (wtop : Bool) (x : Nat) : XNum :=
  match f with
  | .f64 => fp64.num (x % 2 ^ 64)
  | .f32 => fp32.num (x % 2 ^ 32)
  | .f16 => fp16.num (x % 2 ^ 16)
  | .bf16 => bfp16.num (x % 2 ^ 16)
  | .w8 => w8Num wtop (x % 2 ^ 8)
  | .i8 => .ofInt (natSigned 8 x)
  | .i32 => .ofInt (natSigned 32 x)

/-! ### The stochastic draw -/

/-- The 16-bit draw of R59 for element `e`. -/
def draw (seed ctr e : Nat) : Nat :=
  let h := Nat.xor (Nat.xor (seed % 2 ^ 32) (e * 0x9E3779B1 % 2 ^ 32)) (ctr * 0x85EBCA77 % 2 ^ 32)
  let h := Nat.xor h (h / 2 ^ 15)
  let h := h * 0x2C1B3C6D % 2 ^ 32
  let h := Nat.xor h (h / 2 ^ 12)
  h / 2 ^ 16

/-! ### Rounding -/

/-- The number of bits of a natural number. -/
def bitLen (m : Nat) : Nat := if m = 0 then 0 else Nat.log2 m + 1

/-- A magnitude between two grid codes: the lower code, and the part `r / d` of the interval above it; `sticky` says that
the true magnitude lies strictly above `r / d` by less than any grid measure. -/
structure Between where
  lo : Nat
  r  : Nat
  d  : Nat
  sticky : Bool

def Between.exact (b : Between) : Bool := b.r == 0 && !b.sticky

/-- `m · 2^e` in units of `2^q`: the floor and the remainder. -/
def splitAt (m : Nat) (e q : Int) : Nat × Nat × Nat :=
  if q ≤ e then (m * 2 ^ (e - q).toNat, 0, 1)
  else
    let d := 2 ^ (q - e).toNat
    (m / d, m % d, d)

/-- The place of a non-zero magnitude on an IEEE grid with unbounded exponent (R55). -/
def Ieee.place (f : Ieee) (m : Nat) (e : Int) (sticky : Bool) : Between :=
  let q := max (Nat.log2 m + e - f.fb) f.qmin
  let (n, r, d) := splitAt m e q
  ⟨(q - f.qmin).toNat * 2 ^ f.fb + n, r, d, sticky⟩

/-- The magnitude code at which exponent E starts (R52). -/
def w8Base (e : Int) : Nat × Nat :=
  if e ≤ -14 then ((e + 21).toNat, 0)
  else if e ≤ -10 then ((8 + 2 * (e + 13)).toNat, 1)
  else if e ≤ -6 then ((16 + 4 * (e + 9)).toNat, 2)
  else if e ≤ -2 then ((32 + 8 * (e + 5)).toNat, 3)
  else ((64 + 16 * (e + 1)).toNat, 4)

/-- The place of a non-zero magnitude on the Wedge8 grid, whose code 0x80 stands for 8.0 (R58). -/
def w8Place (m : Nat) (e : Int) (sticky : Bool) : Between :=
  let ex := Nat.log2 m + e
  if ex < -20 then
    let (_, r, d) := splitAt m e (-20)
    ⟨0, r, d, sticky⟩
  else
    let (base, fw) := w8Base ex
    let (n, r, d) := splitAt m e (ex - fw)
    ⟨base + n - 2 ^ fw, r, d, sticky⟩

/-- The code that a mode chooses (R55, R59). -/
def Between.pick (b : Between) (mode : RMode) (neg : Bool) (rnd : Nat) : Nat :=
  if b.exact then b.lo
  else
    let up : Bool :=
      match mode with
      | .rne => decide (2 * b.r > b.d) || (2 * b.r == b.d && (b.sticky || b.lo % 2 == 1))
      | .rtz => false
      | .rup => !neg
      | .rdn => neg
      | .rsr => decide (65536 * b.r / b.d > rnd)
    if up then b.lo + 1 else b.lo

/-- A rounded result: its code, the flags raised, and whether a Wedge8 overflow under WTOP = 0 occurred (R58). -/
structure Rounded where
  bits  : Nat
  flags : FFlags
  ovf   : Bool := false
  deriving DecidableEq, Repr

/-- Modes that go to an infinity when an overflow lies on their side (R57). -/
def RMode.toInf (mode : RMode) (neg : Bool) : Bool :=
  match mode with
  | .rne | .rsr => true
  | .rtz => false
  | .rup => !neg
  | .rdn => neg

/-- Round a finite magnitude into an IEEE format (R55 to R57). -/
def Ieee.roundFin (f : Ieee) (mode : RMode) (neg : Bool) (m : Nat) (e : Int) (sticky : Bool) (rnd : Nat) : Rounded :=
  let s := if neg then 2 ^ (f.eb + f.fb) else 0
  if m = 0 then ⟨s, 0, false⟩
  else
    let b := f.place m e sticky
    let c := b.pick mode neg rnd
    if c ≥ f.infCode then ⟨s + (if mode.toInf neg then f.infCode else f.infCode - 1), FFlags.ovf, false⟩
    else
      let tiny := decide (Nat.log2 m + e < f.qmin + f.fb)
      ⟨s + c, FFlags.iff (!b.exact) FFlags.nx ||| FFlags.iff (tiny && !b.exact) FFlags.uf, false⟩

/-- Round a finite magnitude into Wedge8 (R56 to R58). -/
def w8RoundFin (wtop : Bool) (mode : RMode) (neg : Bool) (m : Nat) (e : Int) (sticky : Bool) (rnd : Nat) : Rounded :=
  if m = 0 then ⟨0, 0, false⟩
  else
    let b := w8Place m e sticky
    let c := b.pick mode neg rnd
    let s := if neg then 128 else 0
    if wtop then
      if c ≥ 127 then ⟨s + (if mode.toInf neg then 127 else 126), FFlags.ovf, false⟩
      else
        let tiny := decide (Nat.log2 m + e < -20)
        ⟨if c = 0 then 0 else s + c, FFlags.iff (!b.exact) FFlags.nx ||| FFlags.iff (tiny && !b.exact) FFlags.uf, false⟩
    else if c ≥ 128 then ⟨128, FFlags.ovf, true⟩
    else
      let tiny := decide (Nat.log2 m + e < -20)
      ⟨if c = 0 then 0 else s + c, FFlags.iff (!b.exact) FFlags.nx ||| FFlags.iff (tiny && !b.exact) FFlags.uf, false⟩

/-- Round an exact value into an IEEE format; a NaN becomes the canonical NaN (R48, R57). -/
def Ieee.round (f : Ieee) (mode : RMode) (x : XNum) (sticky : Bool) (rnd : Nat) : Rounded :=
  match x with
  | .nan sig => ⟨f.nanCode, FFlags.iff sig FFlags.nv, false⟩
  | .inf neg => ⟨(if neg then 2 ^ (f.eb + f.fb) else 0) + f.infCode, 0, false⟩
  | .fin neg m e => f.roundFin mode neg m e sticky rnd

/-- Round an exact value into Wedge8 (R57, R58). -/
def w8Round (wtop : Bool) (mode : RMode) (x : XNum) (sticky : Bool) (rnd : Nat) : Rounded :=
  match x with
  | .nan sig => ⟨128, FFlags.iff sig FFlags.nv, false⟩
  | .inf neg => if wtop then ⟨if neg then 255 else 127, 0, false⟩ else ⟨128, FFlags.ovf, true⟩
  | .fin neg m e => w8RoundFin wtop mode neg m e sticky rnd

/-- Round to the integer neighbours (R62, action T): the magnitude. -/
def roundMag (mode : RMode) (neg : Bool) (m : Nat) (e : Int) (rnd : Nat) : Nat × Bool :=
  let (n, r, d) := splitAt m e 0
  let b : Between := ⟨n, r, d, false⟩
  (b.pick mode neg rnd, b.exact)

/-- An exact value into an integer of `w` bits, saturating (R62, action T, DEDUCED, log 16). -/
def toIntRound (uns : Bool) (w : Nat) (mode : RMode) (x : XNum) (rnd : Nat) : Rounded :=
  let lo : Int := if uns then 0 else -(2 : Int) ^ (w - 1)
  let hi : Int := if uns then 2 ^ w - 1 else 2 ^ (w - 1) - 1
  match x with
  | .nan _ => ⟨0, FFlags.nv, false⟩
  | .inf neg => ⟨intMod w (if neg then lo else hi), FFlags.nv, false⟩
  | .fin neg m e =>
    let (n, exact) := roundMag mode neg m e rnd
    let i : Int := if neg then -(n : Int) else n
    if i < lo then ⟨intMod w lo, FFlags.nv, false⟩
    else if i > hi then ⟨intMod w hi, FFlags.nv, false⟩
    else ⟨intMod w i, FFlags.iff (!exact) FFlags.nx, false⟩

/-- An integer into an integer of `w` bits, saturating, with no flag (R62, action Z). -/
def intSat (uns : Bool) (w : Nat) (i : Int) : Nat :=
  let lo : Int := if uns then 0 else -(2 : Int) ^ (w - 1)
  let hi : Int := if uns then 2 ^ w - 1 else 2 ^ (w - 1) - 1
  intMod w (if i < lo then lo else if i > hi then hi else i)

/-- `round_to` of R45 into any format: integer destinations follow action T. -/
def Fmt.round (f : Fmt) (wtop : Bool) (mode : RMode) (x : XNum) (sticky : Bool) (rnd : Nat) : Rounded :=
  match f with
  | .f64 => fp64.round mode x sticky rnd
  | .f32 => fp32.round mode x sticky rnd
  | .f16 => fp16.round mode x sticky rnd
  | .bf16 => bfp16.round mode x sticky rnd
  | .w8 => w8Round wtop mode x sticky rnd
  | .i8 => toIntRound false 8 mode x rnd
  | .i32 => toIntRound false 32 mode x rnd

/-- The draw of element `e` in a rounding environment; used only under RSR. -/
def envRnd (env : REnv) (e : Nat) : Nat := draw env.seed env.ctr e

/-- `round_to(f, mode, x)` in an environment, for element `e`. -/
def roundTo (f : Fmt) (env : REnv) (mode : RMode) (e : Nat) (x : XNum) : Rounded :=
  f.round env.wtop mode x false (envRnd env e)

/-- The conversion of a value between formats (R61, R62). -/
def convert (fa fb : Fmt) (env : REnv) (mode : RMode) (e x : Nat) : Rounded :=
  if fa = fb then ⟨x % 2 ^ (8 * fa.bytes), 0, false⟩
  else
    match fa, fb with
    | .i8, .i32 => ⟨intSat false 32 (natSigned 8 x), 0, false⟩
    | .i32, .i8 => ⟨intSat false 8 (natSigned 32 x), 0, false⟩
    | _, _ => roundTo fb env mode e (fa.num env.wtop x)

/-! ### Exact arithmetic -/

/-- The exact product of two values; ∞ × 0 counts as an invalid operation (R65, R104). -/
def XNum.mul (a b : XNum) : XNum :=
  match a, b with
  | .nan s, .nan t => .nan (s || t)
  | .nan s, _ => .nan s
  | _, .nan t => .nan t
  | .inf s, .inf t => .inf (s != t)
  | .inf s, .fin t m _ => if m = 0 then .nan true else .inf (s != t)
  | .fin s m _, .inf t => if m = 0 then .nan true else .inf (s != t)
  | .fin s m e, .fin t n f => .fin (s != t) (m * n) (e + f)

def XNum.neg : XNum → XNum
  | .nan s => .nan s
  | .inf s => .inf (!s)
  | .fin s m e => .fin (!s) m e

def XNum.abs : XNum → XNum
  | .fin _ m e => .fin false m e
  | .inf _ => .inf false
  | x => x

/-- A running exact sum with what R65 asks of its terms. -/
structure Sum where
  nan  : Bool := false
  sig  : Bool := false
  pinf : Bool := false
  ninf : Bool := false
  n    : Int := 0
  e    : Int := 0
  allP : Bool := true
  allN : Bool := true

/-- Add one exact term. -/
def Sum.add (s : Sum) (x : XNum) : Sum :=
  match x with
  | .nan sig => { s with nan := true, sig := s.sig || sig }
  | .inf neg => if neg then { s with ninf := true } else { s with pinf := true }
  | .fin neg m f =>
    let v : Int := if neg then -(m : Int) else m
    let e := min s.e f
    { s with
      n := s.n * 2 ^ (s.e - e).toNat + v * 2 ^ (f - e).toNat
      e := e
      allP := s.allP && m == 0 && !neg
      allN := s.allN && m == 0 && neg }

/-- The exact value of a sum, its sign of zero, and NV (R65). -/
def Sum.result (s : Sum) (mode : RMode) : XNum × FFlags :=
  if s.nan then (.nan false, FFlags.iff (s.sig || (s.pinf && s.ninf)) FFlags.nv)
  else if s.pinf && s.ninf then (.nan false, FFlags.nv)
  else if s.pinf then (.inf false, 0)
  else if s.ninf then (.inf true, 0)
  else if s.n = 0 then
    (.fin (if s.allP then false else if s.allN then true else mode == .rdn) 0 0, 0)
  else (.fin (decide (s.n < 0)) s.n.natAbs s.e, 0)

/-- Round the exact sum of terms once (R63 to R66, R102). -/
def sumRound (f : Fmt) (env : REnv) (mode : RMode) (e : Nat) (terms : List XNum) : Rounded :=
  let (x, fl) := (terms.foldl Sum.add {}).result mode
  let r := roundTo f env mode e x
  ⟨r.bits, r.flags ||| fl, r.ovf⟩

/-- The exact quotient, as a value with a sticky remainder, and the flags of the special cases (R102). -/
def XNum.div (a b : XNum) : XNum × Bool × FFlags :=
  match a, b with
  | .nan s, .nan t => (.nan (s || t), false, 0)
  | .nan s, _ => (.nan s, false, 0)
  | _, .nan t => (.nan t, false, 0)
  | .inf _, .inf _ => (.nan true, false, 0)
  | .inf s, .fin t _ _ => (.inf (s != t), false, 0)
  | .fin s _ _, .inf t => (.fin (s != t) 0 0, false, 0)
  | .fin s m e, .fin t n f =>
    if n = 0 then
      if m = 0 then (.nan true, false, 0) else (.inf (s != t), false, FFlags.dz)
    else
      let k := 130 + Nat.log2 n
      let x := m * 2 ^ k
      (.fin (s != t) (x / n) (e - f - k), x % n != 0, 0)

/-- The integer square root, bit by bit from the top. -/
def isqrt : Nat → Nat → Nat → Nat
  | 0, r, _ => r
  | b + 1, r, m =>
    let c := r + 2 ^ b
    if c * c ≤ m then isqrt b c m else isqrt b r m

/-- The exact square root, as a value with a sticky remainder (R102). -/
def XNum.sqrt (a : XNum) : XNum × Bool :=
  match a with
  | .nan s => (.nan s, false)
  | .inf neg => if neg then (.nan true, false) else (.inf false, false)
  | .fin neg m e =>
    if m = 0 then (.fin neg 0 0, false)
    else if neg then (.nan true, false)
    else
      let odd := (e % 2).toNat
      let m' := m * 2 ^ (260 + odd)
      let r := isqrt (Nat.log2 m' / 2 + 1) 0 m'
      (.fin false r ((e - 260 - odd) / 2), r * r != m')

/-- Compare two values; nothing when one is a NaN. +0 equals −0 (R103). -/
def XNum.cmp (a b : XNum) : Option Ordering :=
  match a, b with
  | .nan _, _ => none
  | _, .nan _ => none
  | .inf s, .inf t => some (if s = t then .eq else if s then .lt else .gt)
  | .inf s, .fin _ _ _ => some (if s then .lt else .gt)
  | .fin _ _ _, .inf t => some (if t then .gt else .lt)
  | .fin s m e, .fin t n f =>
    let g := min e f
    let x : Int := (if s then -1 else 1) * (m * 2 ^ (e - g).toNat : Nat)
    let y : Int := (if t then -1 else 1) * (n * 2 ^ (f - g).toNat : Nat)
    some (compare x y)

/-! ### Lane and scalar operations on codes -/

def Fmt.addBits (f : Fmt) (env : REnv) (mode : RMode) (e a b : Nat) : Rounded :=
  sumRound f env mode e [f.num env.wtop a, f.num env.wtop b]
def Fmt.subBits (f : Fmt) (env : REnv) (mode : RMode) (e a b : Nat) : Rounded :=
  sumRound f env mode e [f.num env.wtop a, (f.num env.wtop b).neg]
/-- FMUL: the product keeps the sign of a zero (R102). -/
def Fmt.mulBits (f : Fmt) (env : REnv) (mode : RMode) (e a b : Nat) : Rounded :=
  roundTo f env mode e ((f.num env.wtop a).mul (f.num env.wtop b))
def Fmt.divBits (f : Fmt) (env : REnv) (mode : RMode) (e a b : Nat) : Rounded :=
  let (x, sticky, fl) := (f.num env.wtop a).div (f.num env.wtop b)
  let r := f.round env.wtop mode x sticky (envRnd env e)
  ⟨r.bits, r.flags ||| fl, r.ovf⟩
def Fmt.sqrtBits (f : Fmt) (env : REnv) (mode : RMode) (e a : Nat) : Rounded :=
  let (x, sticky) := (f.num env.wtop a).sqrt
  f.round env.wtop mode x sticky (envRnd env e)
/-- FMA: one rounding of a × b + c (R104). -/
def Fmt.fmaBits (f : Fmt) (env : REnv) (mode : RMode) (e a b c : Nat) : Rounded :=
  sumRound f env mode e [(f.num env.wtop a).mul (f.num env.wtop b), f.num env.wtop c]

/-- The IEEE format of a lane or scalar float format; Wedge8 and integers have none. -/
def Fmt.ieee : Fmt → Ieee
  | .f64 => fp64
  | .f32 => fp32
  | .f16 => fp16
  | _ => bfp16

/-- Order with −0 below +0, for FMIN and FMAX (R103). -/
def numLess (a b : XNum) : Bool :=
  match a.cmp b with
  | some .lt => true
  | some .eq =>
    match a, b with
    | .fin s m _, .fin t _ _ => m == 0 && s && !t
    | _, _ => false
  | _ => false

/-- FMIN and FMAX (R103). -/
def Fmt.minmaxBits (f : Fmt) (isMax : Bool) (a b : Nat) : Rounded :=
  let x := f.num false a
  let y := f.num false b
  let fl := FFlags.iff (x.isSig || y.isSig) FFlags.nv
  let w := 2 ^ (8 * f.bytes)
  match x.isNan, y.isNan with
  | true, true => ⟨f.ieee.nanCode, fl, false⟩
  | true, false => ⟨b % w, fl, false⟩
  | false, true => ⟨a % w, fl, false⟩
  | false, false =>
    let takeB := if isMax then numLess x y else numLess y x
    ⟨(if takeB then b else a) % w, fl, false⟩

/-- FEQ (R103). -/
def Fmt.eqBits (f : Fmt) (a b : Nat) : Bool × FFlags :=
  let x := f.num false a
  let y := f.num false b
  (x.cmp y == some .eq, FFlags.iff (x.isSig || y.isSig) FFlags.nv)

/-- FLT (R103). -/
def Fmt.ltBits (f : Fmt) (a b : Nat) : Bool × FFlags :=
  let x := f.num false a
  let y := f.num false b
  (x.cmp y == some .lt, FFlags.iff (x.isNan || y.isNan) FFlags.nv)

/-- FLE (R103). -/
def Fmt.leBits (f : Fmt) (a b : Nat) : Bool × FFlags :=
  let x := f.num false a
  let y := f.num false b
  (x.cmp y == some .lt || x.cmp y == some .eq, FFlags.iff (x.isNan || y.isNan) FFlags.nv)

/-- FNEG and FABS change the sign bit alone (R102). -/
def Fmt.negBits (f : Fmt) (a : Nat) : Nat :=
  let s := 2 ^ (8 * f.bytes - 1)
  if natBit a (8 * f.bytes - 1) then a % s else a % s + s
def Fmt.absBits (f : Fmt) (a : Nat) : Nat := a % 2 ^ (8 * f.bytes - 1)

/-- The class mask of FCLASS (R103). -/
def Fmt.classBits (f : Fmt) (a : Nat) : Nat :=
  match f.num false a with
  | .nan sig => if sig then 2 ^ 8 else 2 ^ 9
  | .inf neg => if neg then 2 ^ 0 else 2 ^ 7
  | .fin neg m _ =>
    if m = 0 then (if neg then 2 ^ 3 else 2 ^ 4)
    else if m < 2 ^ f.ieee.fb then (if neg then 2 ^ 2 else 2 ^ 5)
    else (if neg then 2 ^ 1 else 2 ^ 6)

/-! ### Dot products -/

/-- One group of R63 in a float accumulator. -/
def dotGroup (src acc : Fmt) (env : REnv) (mode : RMode) (e c : Nat) (ab : List (Nat × Nat)) : Rounded :=
  sumRound acc env mode e
    (acc.num env.wtop c :: ab.map fun p => (src.num env.wtop p.1).mul (src.num env.wtop p.2))

/-- One group of a pair; an INT8 group saturates (R64). -/
def dotStep (p : DotPair) (env : REnv) (e c : Nat) (g : List (Nat × Nat)) : Nat × FFlags :=
  match p with
  | .i8 => (intSat false 32 (g.foldl (fun s q => s + natSigned 8 q.1 * natSigned 8 q.2) (natSigned 32 c)), 0)
  | _ =>
    let r := dotGroup p.src p.acc env p.rm e c g
    (r.bits, r.flags)

/-- Groups of sixteen products in ascending k (R63); an inactive lane gives no product (`none`) and keeps its place
(R65, R219). -/
def dotProduct (p : DotPair) (env : REnv) (e : Nat) : Nat → Nat → List (Option (Nat × Nat)) → Nat × FFlags
  | 0, c, _ => (c, 0)
  | fuel + 1, c, ab =>
    match ab with
    | [] => (c, 0)
    | _ =>
      let (c', fl) := dotStep p env e c ((ab.take 16).filterMap id)
      let (c'', fl') := dotProduct p env e fuel c' (ab.drop 16)
      (c'', fl ||| fl')

/-- The scaled accumulation c + p × s of R66, with p exact. -/
def scaleAdd (env : REnv) (mode : RMode) (e : Nat) (c : Nat) (p : XNum) (s : Nat) : Rounded :=
  sumRound .f32 env mode e [Fmt.f32.num env.wtop c, p.mul (Fmt.f32.num env.wtop s)]

/-- The FX32 conversion of R50: the integer, and whether OVF is set. -/
def toFx32 (gscale : Int) (x : XNum) : Int × Bool :=
  match x with
  | .nan _ => (0, true)
  | .inf neg => (if neg then -(2 : Int) ^ 31 else 2 ^ 31 - 1, true)
  | .fin neg m e =>
    let (n, _) := roundMag .rne neg m (e - gscale) 0
    let i : Int := if neg then -(n : Int) else n
    if i < -(2 : Int) ^ 31 then (-(2 : Int) ^ 31, true)
    else if i > 2 ^ 31 - 1 then (2 ^ 31 - 1, true)
    else (i, false)

end Sys2Proof
end

