-- ==== Sys2Proof/Machine/Topo.lean ====
section
/-! DEFINITION. Node numbers, coordinates and clusters (R4, R13, R26, R27, R353, R365). -/

namespace Sys2Proof

/-- The code of PSTAT.CTX (R22). -/
def CtxId.code : CtxId → Nat
  | .main => 0 | .work => 1 | .msgL => 2 | .msgH => 3

/-- The number of an instance, for tables keyed by instance. -/
def Inst.key (i : Inst) : Nat := i.node * 4 + i.ctx.code

/-- A message bank. -/
def CtxId.isMsg : CtxId → Bool
  | .msgL | .msgH => true
  | _ => false

end Sys2Proof

namespace Sys2Proof.Machine

/-- The package of a node. -/
def pkgOf (g : Nat) : Nat := g / 2048
/-- A node's number within its package. -/
def locOf (g : Nat) : Nat := g % 2048
def isCaldera (g : Nat) : Bool := 1024 ≤ locOf g
def dieOf (g : Nat) : Nat := if isCaldera g then (locOf g - 1024) / 16 % 4 else locOf g / 256
def xOf (g : Nat) : Nat := if isCaldera g then 16 else locOf g % 16
def yOf (g : Nat) : Nat := if isCaldera g then (locOf g - 1024) % 16 else locOf g / 16 % 16

/-- The node at a place of the domain; `x = 16` is the Caldera column. -/
def nodeAt (pkg die x y : Nat) : Nat :=
  if x < 16 then pkg * 2048 + die * 256 + y * 16 + x else pkg * 2048 + 1024 + die * 16 + y

/-- The cluster number of a compute core (R353). -/
def clusterOf (g : Nat) : Nat := dieOf g * 32 + yOf g * 2 + xOf g / 8

/-- The first column of a compute core's cluster. -/
def col0 (g : Nat) : Nat := xOf g / 8 * 8

/-- The cores of cluster `n` of a package, in ascending column. -/
def coresOfCluster (pkg n : Nat) : List Nat :=
  (List.range 8).map fun k => nodeAt pkg (n / 32) (n % 2 * 8 + k) (n % 32 / 2)

/-- The quadrant of a compute core within its die (R7). -/
def quadOf (g : Nat) : Nat := yOf g / 8 * 2 + xOf g / 8

/-- The ABS coordinate of a node at an offset (R26). -/
def absCoord (g off : Nat) : Word :=
  BitVec.ofNat 64 (2 ^ 63 + pkgOf g % 16 * 2 ^ 57 + dieOf g * 2 ^ 55 + xOf g * 2 ^ 50 + yOf g * 2 ^ 46 + off)

/-- DRAM key of a device physical address of a package. -/
def dramKey (pkg dpa : Nat) : Nat := pkg * 2 ^ 37 + dpa % 2 ^ 37

end Sys2Proof.Machine
end

