-- ==== Sys2Proof/Machine/Access.lean ====
section
/-! DEFINITION. Reading and writing the parts of the state: nodes, packages, contexts, partition images, registers, and the
bytes and FE bits of the places where data is held (R13, R14, R31, R33, R130, R356). -/

namespace Sys2Proof.Machine

/-! ### Nodes, packages, contexts -/

def State.node (s : State) (g : Nat) : Node := Table.get {} s.nodes g
def State.setNode (s : State) (g : Nat) (n : Node) : State := { s with nodes := s.nodes.put g n }
def State.modNode (s : State) (g : Nat) (f : Node → Node) : State := s.setNode g (f (s.node g))

def State.pkg (s : State) (p : Nat) : Pkg := Table.get {} s.pkgs p
def State.setPkg (s : State) (p : Nat) (k : Pkg) : State := { s with pkgs := s.pkgs.put p k }
def State.modPkg (s : State) (p : Nat) (f : Pkg → Pkg) : State := s.setPkg p (f (s.pkg p))

def Img.ctx (m : Img) : CtxId → Ctx
  | .main => m.main
  | .work => m.work
  | .msgL => m.msgL
  | .msgH => m.msgH

def Img.setCtx (m : Img) (k : CtxId) (c : Ctx) : Img :=
  match k with
  | .main => { m with main := c }
  | .work => { m with work := c }
  | .msgL => { m with msgL := c }
  | .msgH => { m with msgH := c }

def Img.chan (m : Img) : Nat → Chan
  | 0 => m.ch0
  | 1 => m.ch1
  | 2 => m.ch2
  | _ => m.ch3

def Img.setChan (m : Img) (k : Nat) (c : Chan) : Img :=
  match k with
  | 0 => { m with ch0 := c }
  | 1 => { m with ch1 := c }
  | 2 => { m with ch2 := c }
  | _ => { m with ch3 := c }

/-- The live image of a node. -/
def State.live (s : State) (g : Nat) : Img := (s.node g).live
def State.setLive (s : State) (g : Nat) (m : Img) : State := s.modNode g fun n => { n with live := m }
def State.modLive (s : State) (g : Nat) (f : Img → Img) : State := s.setLive g (f (s.live g))

/-- The context of an instance: only live contexts run. -/
def State.ctx (s : State) (i : Inst) : Ctx := (s.live i.node).ctx i.ctx
def State.setCtx (s : State) (i : Inst) (c : Ctx) : State := s.setLive i.node ((s.live i.node).setCtx i.ctx c)
def State.modCtx (s : State) (i : Inst) (f : Ctx → Ctx) : State := s.setCtx i (f (s.ctx i))

/-- The partition in which an instance runs (R353, R357). -/
def State.partOf (s : State) (i : Inst) : Option Nat :=
  if isCaldera i.node then (s.ctx i).apart else (s.live i.node).part

/-- Which image of a node belongs to a partition; a Caldera core has one image for all (R355, R357). -/
inductive Held where
  | live | shadow | stored | none
  deriving DecidableEq, Repr

def Node.held (n : Node) (g : Nat) (part : Option Nat) : Held :=
  if isCaldera g || n.live.part == part then .live
  else if n.shadows.any (fun m => m.part == part) then .shadow
  else if n.stored.any (fun m => m.part == part) then .stored
  else .none

/-- The first image of a list that belongs to a partition. -/
def findImg (l : List Img) (part : Option Nat) : Img := (l.find? fun m => m.part == part).getD {}
def modImg (l : List Img) (part : Option Nat) (f : Img → Img) : List Img :=
  l.map fun m => if m.part == part then f m else m

/-- The image of a partition at a node, the live one where the node holds none. -/
def State.img (s : State) (g : Nat) (part : Option Nat) : Img :=
  let n := s.node g
  match n.held g part with
  | .live | .none => n.live
  | .shadow => findImg n.shadows part
  | .stored => findImg n.stored part

def State.modImg (s : State) (g : Nat) (part : Option Nat) (f : Img → Img) : State :=
  s.modNode g fun n =>
    match n.held g part with
    | .live | .none => { n with live := f n.live }
    | .shadow => { n with shadows := Machine.modImg n.shadows part f }
    | .stored => { n with stored := Machine.modImg n.stored part f }

/-- Change the context that an answer for an instance of a partition reaches (R142, R359). -/
def State.modOwner (s : State) (i : Inst) (part : Option Nat) (f : Ctx → Ctx) : State :=
  s.modImg i.node part fun m => m.setCtx i.ctx (f (m.ctx i.ctx))

/-- A package runs: booted, and no die tripped (R396, R407). -/
def State.up (s : State) (p : Nat) : Bool := (s.pkg p).powered && (s.pkg p).fw.booted && (s.pkg p).dies.all fun d => !d.2.trip

/-! ### Registers -/

/-- The registers that exist in a context (R13, R15). -/
def regOk (k : CtxId) : Reg → Bool
  | .s n => if k.isMsg then n < 16 else n < 64
  | .v n => match k with
    | .main => n < 32
    | .work => n < 16
    | _ => false
  | .p n => !k.isMsg && n < 8
  | .d n => k == .main && n < 7
  | .h n => k == .main && n < 16

/-- s0 reads zero (R14). -/
def Ctx.sr (c : Ctx) (n : Nat) : Word := if n = 0 then 0 else Table.get 0 c.s n
/-- Writes of s0 are discarded (R14). -/
def Ctx.setS (c : Ctx) (n : Nat) (x : Word) : Ctx := if n = 0 then c else { c with s := Table.set 0 c.s n x }
def Ctx.vr (c : Ctx) (n : Nat) : VecReg := Table.get 0 c.v n
def Ctx.setV (c : Ctx) (n : Nat) (x : VecReg) : Ctx := { c with v := Table.set 0 c.v n x }
/-- p0 reads as all ones (R14). -/
def Ctx.pr (c : Ctx) (n : Nat) : BitVec 16 := if n = 0 then BitVec.allOnes 16 else Table.get 0 c.p n
def Ctx.setP (c : Ctx) (n : Nat) (x : BitVec 16) : Ctx := if n = 0 then c else { c with p := Table.set 0 c.p n x }
def Ctx.dr (c : Ctx) (n : Nat) : BitVec 32 := Table.get 0 c.d n
def Ctx.setD (c : Ctx) (n : Nat) (x : BitVec 32) : Ctx := { c with d := Table.set 0 c.d n x }
def Ctx.hr (c : Ctx) (n : Nat) : BitVec 128 := Table.get 0 c.h n
def Ctx.setH (c : Ctx) (n : Nat) (x : BitVec 128) : Ctx := { c with h := Table.set 0 c.h n x }
def Ctx.slot (c : Ctx) (n : Nat) : Slot := Table.get {} c.slots n
def Ctx.setSlot (c : Ctx) (n : Nat) (x : Slot) : Ctx := { c with slots := Table.set {} c.slots n x }
def Ctx.opnd (c : Ctx) : Opnd → Word
  | .reg r => c.sr r
  | .lit w => w

/-- The registers an operand reads. -/
def opndRegs : Opnd → List Reg
  | .reg r => [.s r]
  | .lit _ => []

/-- Raise flags in FSTAT (R21). -/
def Ctx.raise (c : Ctx) (f : FFlags) : Ctx := { c with fstat := c.fstat ||| f }
/-- Set the sticky overflow flag of vn (R20). -/
def Ctx.raiseOvf (c : Ctx) (n : Nat) (o : Bool) : Ctx :=
  if o then { c with vovf := c.vovf ||| BitVec.ofNat 32 (2 ^ n) } else c

/-- The rounding environment of the next instruction (R17, R53, R59). -/
def Ctx.env (c : Ctx) : REnv := ⟨c.wtop, c.srseed.toNat, c.ictr.toNat⟩

/-- Count in one of PERFR's counters (R244). Beside those that PERFR names, 0 has the instructions retired, 10 those that trapped,
and 11 the traps taken. -/
def Ctx.countBy (c : Ctx) (n k : Nat) : Ctx := { c with perf := Table.set 0 c.perf n (Table.get 0 c.perf n + BitVec.ofNat 64 k) }
def Ctx.count (c : Ctx) (n : Nat) : Ctx := c.countBy n 1

/-- The VALID slot whose DEST is a register, if any (R122). -/
def Ctx.boundSlot (c : Ctx) (n : Nat) : Option Nat :=
  (List.range 16).find? fun k => (c.slot k).valid && (c.slot k).dest == n

def Ctx.isBound (c : Ctx) : Reg → Bool
  | .s n => (c.boundSlot n).isSome
  | _ => false

/-! ### Lanes -/

/-- Lane `l` of a vector register at `e` bytes a lane (R205). -/
def lane (x : VecReg) (e l : Nat) : Nat := natBits x.toNat (8 * e * l) (8 * e)

/-- A vector register from its lanes, lane 0 first. -/
def ofLanes (e : Nat) (ls : List Nat) : VecReg :=
  BitVec.ofNat 512 (ls.foldr (fun x acc => x % 2 ^ (8 * e) + 2 ^ (8 * e) * acc) 0)

/-- The lanes of a vector register. -/
def lanesOf (x : VecReg) (e : Nat) : List Nat := (List.range (64 / e)).map (lane x e)

/-! ### Places -/

/-- Mark the regions of `n` bytes at an offset as written (R358). -/
def markDirty (l : List Nat) (off n : Nat) : List Nat :=
  if n = 0 then l
  else ((List.range ((off + n - 1) / 4096 + 1 - off / 4096)).map (off / 4096 + ·)).foldl
    (fun l r => if l.contains r then l else r :: l) l

/-- Write bytes of an image's scratchpad or window. -/
def Img.wr (m : Img) (off n x : Nat) : Img := { m with spm := m.spm.writeNat off n x, dirty := markDirty m.dirty off n }

/-- The bytes of a place, as a number. -/
def State.readPlace (s : State) (p : Place) (n : Nat) : Nat :=
  match p with
  | .spm g part off => (s.img g part).spm.readNat off n
  | .dram a => s.dram.readNat a n
  | .cxl a => s.cxl.readNat a n
  | .host a => s.host.readNat a n

/-- The place of a word of memory that is not bonded DRAM, and whether `n` bytes from a place on cover it. -/
def Place.covers (p : Place) (n : Nat) (w : Place) : Bool :=
  match p, w with
  | .spm g q a, .spm h r b => g == h && q == r && a ≤ b && b + 8 ≤ a + n
  | .cxl a, .cxl b => a ≤ b && b + 8 ≤ a + n
  | .host a, .host b => a ≤ b && b + 8 ≤ a + n
  | _, _ => false

/-- Write the `n` bytes of a place. An uncorrectable error of a word goes when the whole word is written (R233, DEDUCED, log 50). -/
def State.writePlace (s : State) (p : Place) (n x : Nat) : State :=
  let s := { s with wordBad := s.wordBad.filter fun w => !p.covers n w }
  match p with
  | .spm g part off => s.modImg g part fun m => m.wr off n x
  | .dram a => { s with dram := s.dram.writeNat a n x, dramBad := s.dramBad.filter fun w => !(a ≤ 8 * w && 8 * w + 8 ≤ a + n) }
  | .cxl a => { s with cxl := s.cxl.writeNat a n x }
  | .host a => { s with host := s.host.writeNat a n x }

/-- The FE bit of the word of a place; CXL and host words have none. -/
def State.full (s : State) (p : Place) : Bool :=
  match p with
  | .spm g part off => (s.img g part).fe.full (off / 8)
  | .dram a => s.dramFe.full (a / 8)
  | _ => false

def State.setFull (s : State) (p : Place) (b : Bool) : State :=
  match p with
  | .spm g part off => s.modImg g part fun m => { m with fe := m.fe.write (off / 8) b, dirty := markDirty m.dirty off 8 }
  | .dram a => { s with dramFe := s.dramFe.write (a / 8) b }
  | _ => s


/-- Some word of `n` bytes at an offset lies in the bank of some word of `k` bytes at another: bank offset[7:3], of the scratchpad or
of the accumulator window, whose banks are apart (R31, R34). -/
def sameBank (a n b k : Nat) : Bool :=
  let meet (a a' b b' : Nat) : Bool := a < a' && b < b' &&
    ((b / 8 + 32 - a / 8 % 32) % 32 ≤ (a' - 1) / 8 - a / 8 || (a / 8 + 32 - b / 8 % 32) % 32 ≤ (b' - 1) / 8 - b / 8)
  let w := 0x80000
  meet a (min (a + n) w) b (min (b + k) w) || meet (max a w) (a + n) (max b w) (b + k)

/-- The word of a place. -/
def Place.word : Place → Place
  | .spm g q off => .spm g q (off / 8 * 8)
  | .dram a => .dram (a / 8 * 8)
  | .cxl a => .cxl (a / 8 * 8)
  | .host a => .host (a / 8 * 8)

/-- `n` bytes at a place and `k` at another share a byte. -/
def Place.meets (p : Place) (n : Nat) (q : Place) (k : Nat) : Bool :=
  let meet (a b : Nat) : Bool := a < b + k && b < a + n
  match p, q with
  | .spm g x a, .spm h y b => g == h && x == y && meet a b
  | .dram a, .dram b => meet a b
  | .cxl a, .cxl b => meet a b
  | .host a, .host b => meet a b
  | _, _ => false

/-- An uncorrectable error stands in the word of a place (R233). -/
def State.bad (s : State) (p : Place) : Bool :=
  match p with
  | .dram a => s.dramBad.contains (a / 8)
  | p => s.wordBad.contains p.word

/-- An uncorrectable error arises in a word outside bonded DRAM, whose errors the scrubber and its channel find (R382, R402, R403). -/
def State.upset (s : State) (p : Place) : State :=
  match p with
  | .dram _ => s
  | p => if s.wordBad.contains p.word then s else { s with wordBad := s.wordBad ++ [p.word] }

/-- The errors in words of images leave with the images: those of a node, and of a partition or of all (R402). -/
def State.dropBad (s : State) (gone : Nat → Option Nat → Bool) : State :=
  { s with wordBad := s.wordBad.filter fun w => match w with
    | .spm g q _ => !gone g q
    | _ => true }

/-- The offsets that a node backs (R29). -/
def backed (g off : Nat) : Bool := if isCaldera g then off < 0x40000 else off < 0x90000

/-- Own scratchpad bytes as the hardware reads them for a descriptor or record: no checks, FE bits ignored. -/
def State.ownNat (s : State) (i : Inst) (off n : Nat) : Nat := (s.live i.node).spm.readNat off n

/-! ### Numbering -/

/-- A fresh number for a message, group or launch. -/
def State.newId (s : State) : Nat × State := (s.nextId, { s with nextId := s.nextId + 1 })

/-- A free value (DESIGN CHOICE, log 15). -/
def State.free (s : State) : Word × State := (Config.freeValue s.fresh, { s with fresh := s.fresh + 1 })

/-- The number of a partition in tables; 128 stands for none. -/
def partKey (part : Option Nat) : Nat := part.getD 128

/-- Count a message of a partition sent from, or retired at, a node, by its phase tag (R149). The counts of one partition are
kept apart from another's, as its image holds them (R328, DESIGN CHOICE, log 12). -/
def tagKey (part : Option Nat) (tag : Bool) : Nat := 2 * partKey part + if tag then 1 else 0
def State.sent (s : State) (g : Nat) (part : Option Nat) (tag : Bool) : State :=
  s.modNode g fun n => { n with sent := n.sent.put (tagKey part tag) (Table.get 0 n.sent (tagKey part tag) + 1) }
def State.retired (s : State) (g : Nat) (part : Option Nat) (tag : Bool) : State :=
  s.modNode g fun n => { n with retired := n.retired.put (tagKey part tag) (Table.get 0 n.retired (tagKey part tag) + 1) }

/-- Fill `n` words of bonded DRAM with free values: bytes to which the manual gives no layout (DESIGN CHOICE, logs 14 and 15). -/
def State.scribble (s : State) (a : Nat) : Nat → State
  | 0 => s
  | n + 1 =>
    let r := s.free
    State.scribble (r.2.writePlace (.dram a) 8 r.1.toNat) (a + 8) n

end Sys2Proof.Machine
end

