-- ==== Sys2Proof/Machine/Formula.lean ====
section
/-! DEFINITION. Formula descriptors, their checks, and the Locus unit's evaluation (R45, R46, R118 to R125). -/

namespace Sys2Proof.Machine

/-- A descriptor's fields by number (R118). -/
def fSrc (d j : Nat) : Nat := natBits d (7 * j) 7
def fOps (d : Nat) : Nat := natBits d 22 2 + 1
def fOp (d k : Nat) : Nat := natBits d (24 + 17 * k) 17
def opOpc (o : Nat) : Nat := natBits o 12 5
def opSel (o j : Nat) : Nat := natBits o (8 - 4 * j) 4
/-- Constants K0 to K3, the short ones sign-extended. -/
def fK (d k : Nat) : Word :=
  match k with
  | 0 => BitVec.ofNat 64 (natBits d 128 64)
  | 1 => BitVec.ofNat 64 (natBits d 192 64)
  | 2 => BitVec.ofInt 64 (natSigned 16 (natBits d 96 16))
  | _ => BitVec.ofInt 64 (natSigned 16 (natBits d 112 16))

/-- Arity of an operation code; 0 for a reserved one (R119). -/
def opArity (c : Nat) : Nat :=
  if c = 0 then 0 else if c ≤ 0x0B then 2 else if c ≤ 0x0F then 3 else if c ≤ 0x13 then 1 else 0

def opStateful (c : Nat) : Bool := 0x10 ≤ c && c ≤ 0x13

/-- A source code that exists: s0–s63, WP0–WP3, VENTN, none (R118). -/
def srcOk (c : Nat) : Bool := c ≤ 0x44 || c == 0x7F

/-- A selector that operation `k` may use (R120). -/
def selOk (d k s : Nat) : Bool :=
  if s = 0 then true
  else if s ≤ 3 then fSrc d (s - 1) != 0x7F
  else if s ≤ 7 then true
  else s ≤ 10 && s - 8 < k

/-- The checks of R120 on one operation. -/
def opOk (d k : Nat) : Bool :=
  let o := fOp d k
  if k < fOps d then
    let a := opArity (opOpc o)
    a != 0 && (opStateful (opOpc o) → k + 1 = fOps d) &&
      (List.range 3).all fun j => if j < a then selOk d k (opSel o j) else opSel o j == 0
  else o == 0

/-- The checks of R120 on a descriptor. -/
def descOk (d : Nat) : Bool :=
  natBits d 21 1 == 0 && natBits d 92 4 == 0 &&
    (List.range 3).all (fun j => srcOk (fSrc d j)) && (List.range 4).all (opOk d)

/-- The descriptor ends in a stateful operation. -/
def descStateful (d : Nat) : Bool := opStateful (opOpc (fOp d (fOps d - 1)))

/-- The running value that FLD sets (R124). -/
def initialAccum (d : Nat) : Word :=
  match opOpc (fOp d (fOps d - 1)) with
  | 0x11 => BitVec.ofNat 64 (2 ^ 63)
  | 0x12 => BitVec.ofNat 64 (2 ^ 63 - 1)
  | _ => 0

/-- The slot's OPS hold an operation: some OP field is not zero (R118, R121). -/
def Slot.hasOps (k : Slot) : Bool := natBits k.desc.toNat 24 68 != 0
/-- The s registers and other sources that a slot reads; one that holds no operation has none (R121). -/
def Slot.srcs (k : Slot) : List Nat :=
  if k.hasOps then ((List.range 3).map (fSrc k.desc.toNat)).filter (· != 0x7F) else []

/-- The value of a source: a register, WP0–WP3 or VENTN (R118). A reserved code, or none, in a descriptor that LOADX loaded without
checks is a free value (DESIGN CHOICE, log 67). -/
def srcVal (m : Img) (c : Ctx) (code : Nat) : Word :=
  if code < 64 then c.sr code
  else if code < 68 then (m.chan (code - 64)).wp
  else if code = 68 then BitVec.ofNat 64 m.vent.length
  else Config.reservedSource code

/-- Whether a source code is among what changed. -/
def srcDirty (regs : List Nat) (xs : List Src) (code : Nat) : Bool :=
  if code < 64 then regs.contains code
  else if code < 68 then xs.contains (.wp (code - 64))
  else code == 68 && xs.contains .ventn

def smin (a b : Word) : Word := if a.slt b then a else b
def smax (a b : Word) : Word := if a.slt b then b else a

/-- The result of an operation code of arity 2 or 3 (R119); of a reserved one a free value (DESIGN CHOICE, log 67). -/
def opVal (opc : Nat) (a b c : Word) : Word :=
  match opc with
  | 0x01 => a + b
  | 0x02 => a - b
  | 0x03 => a * b
  | 0x04 => a <<< (b.toNat % 64)
  | 0x05 => a.sshiftRight (b.toNat % 64)
  | 0x06 => a &&& b
  | 0x07 => a ||| b
  | 0x08 => smin a b
  | 0x09 => smax a b
  | 0x0A => Word.ofBool (a.slt b)
  | 0x0B => Word.ofBool (a.ult b)
  | 0x0C => if a ≠ 0 then b else c
  | 0x0D => smin (smax a b) c
  | 0x0E => Word.ofBool (b.sle a && a.sle c)
  | 0x0F => a
  | n => Config.reservedOp n a b c

/-- The next running value of a stateful operation (R124). -/
def accumStep (opc : Nat) (acc x : Word) : Word :=
  match opc with
  | 0x10 => acc + x
  | 0x11 => smax acc x
  | 0x12 => smin acc x
  | _ => if x ≠ 0 then acc + 1 else acc

/-- The operations of a formula in order: their results, the running value and whether a check failed (R119, R125). A reserved selector,
or that of an operation not yet evaluated, picks a free value (DESIGN CHOICE, log 67). -/
def runOps (m : Img) (c : Ctx) (d : Nat) : Nat → Nat → List Word → Word → Bool → Word × Word × Bool
  | 0, _, rs, acc, bad => (rs.getLast?.getD 0, acc, bad)
  | n + 1, k, rs, acc, bad =>
    let o := fOp d k
    let sel (s : Nat) : Word :=
      if s = 0 then 0
      else if s ≤ 3 then srcVal m c (fSrc d (s - 1))
      else if s ≤ 7 then fK d (s - 4)
      else rs.getD (s - 8) (Config.reservedSelector s)
    let x := sel (opSel o 0)
    let y := sel (opSel o 1)
    let z := sel (opSel o 2)
    if opStateful (opOpc o) then
      let acc' := accumStep (opOpc o) acc x
      runOps m c d n (k + 1) (rs ++ [acc']) acc' bad
    else
      let fails := opOpc o == 0x0F && !(y.sle x && x.sle z)
      runOps m c d n (k + 1) (rs ++ [opVal (opOpc o) x y z]) acc (bad || fails)

/-- The value of a slot, its new running value and whether a check failed. -/
def Slot.eval (k : Slot) (m : Img) (c : Ctx) : Word × Word × Bool :=
  runOps m c k.desc.toNat (fOps k.desc.toNat) 0 [] k.accum false

/-- The slots that take part in evaluation. -/
def Ctx.active (c : Ctx) : List Nat := (List.range 16).filter fun k => (c.slot k).valid && !(c.slot k).held

/-- The lowest slot of a list whose sources no other slot of the list still produces (R123). -/
def Ctx.firstReady (c : Ctx) (todo : List Nat) : Option Nat :=
  todo.find? fun k => (c.slot k).srcs.all fun r => todo.all fun j => (c.slot j).dest != r || j == k

/-- What an evaluation carries: the context, the dirty registers and the first failing slot. -/
structure Eval where
  ctx   : Ctx
  dirty : List Nat
  bad   : Option Nat

/-- Evaluate one slot if a source of it is dirty (R45, R124). -/
def Eval.visit (v : Eval) (m : Img) (xs : List Src) (k : Nat) : Eval :=
  let sl := v.ctx.slot k
  if sl.srcs.any (srcDirty v.dirty xs) then
    let (x, acc, fails) := sl.eval m v.ctx
    ⟨((v.ctx.setSlot k { sl with accum := acc }).setS sl.dest x), v.dirty ++ [sl.dest],
      if fails then some (v.bad.getD k) else v.bad⟩
  else v

/-- Visit the active slots in topological order, ties in ascending number (R45, R123). -/
def Eval.go (m : Img) (xs : List Src) : Nat → List Nat → Eval → Eval
  | 0, _, v => v
  | n + 1, todo, v =>
    match v.ctx.firstReady todo with
    | none => v
    | some k => Eval.go m xs n (todo.filter (· != k)) (v.visit m xs k)

/-- A register written loses its poison (R233). -/
def Ctx.unpoison (c : Ctx) (rs : List Reg) : Ctx := { c with poison := c.poison.filter fun p => !rs.contains p.1 }

/-- `eval_bindings` of R45 after registers were written or WPk and VENTN changed; a check failure becomes pending with its
trigger, unless one of an earlier evaluation is pending still: that one stays and the later one is not recorded (R125, DEDUCED,
log 27). -/
def evalBindings (m : Img) (c : Ctx) (regs : List Nat) (xs : List Src) (trigger : Option Word) : Ctx :=
  if regs.isEmpty && xs.isEmpty then c
  else
    let v := Eval.go m xs 16 c.active ⟨c, regs, none⟩
    let c := v.ctx.unpoison ((v.dirty.drop regs.length).map .s)
    match v.bad, c.fcheck with
    | some k, none => { c with fcheck := some ⟨k, trigger⟩ }
    | _, _ => c

/-- The chain depth of a slot (R121), by fuel over the acyclic links. -/
def Ctx.depthOf (c : Ctx) : Nat → Nat → Nat
  | 0, _ => 17
  | n + 1, k =>
    (List.range 16).foldl (fun d j =>
      let sj := c.slot j
      if sj.valid && (c.slot k).srcs.contains sj.dest then max d (1 + c.depthOf n j) else d) 1

/-- Recompute DEPTH of every VALID slot (R121, R126). -/
def Ctx.redepth (c : Ctx) : Ctx :=
  (List.range 16).foldl (fun acc k =>
    if (c.slot k).valid then acc.setSlot k { acc.slot k with depth := c.depthOf 17 k } else acc) c

/-- The registers reached from a register through VALID slots, itself included, by fuel. -/
def Ctx.downstream (c : Ctx) (heldToo : Bool) : Nat → List Nat → List Nat
  | 0, rs => rs
  | n + 1, rs =>
    let more := (List.range 16).filterMap fun k =>
      let sl := c.slot k
      if sl.valid && (heldToo || !sl.held) && sl.srcs.any rs.contains && !rs.contains sl.dest then some sl.dest else none
    if more.isEmpty then rs else c.downstream heldToo n (rs ++ more.eraseDups)

/-- The registers that await an answer, s0 like any other (DEDUCED, log 11), and those that formulas will write when it comes (R14,
R92, R123, R135). -/
def Ctx.awaited (c : Ctx) : List Reg := c.groups.filterMap (·.reg)
def Ctx.pendingRegs (c : Ctx) : List Reg :=
  let ss := (c.groups.filterMap (·.reg)).filterMap fun r => match r with
    | .s n => some n
    | _ => none
  if ss.isEmpty then c.awaited else c.awaited ++ (c.downstream false 16 ss).map .s

end Sys2Proof.Machine
end

