-- ==== Sys2Proof/Machine/Translate.lean ====
section
/-! DEFINITION. Partition descriptors, page walks, homes, the three translation caches, coordinate addresses and protection
regions (R26 to R30, R41, R353, R365 to R371, R396). -/

namespace Sys2Proof.Machine

/-! ### Partition descriptors and DRAM regions -/

/-- The word at a device physical address of a package. -/
def State.dramWord (s : State) (p dpa : Nat) : Word := s.dram.readWord (dramKey p dpa)
def State.setDramWord (s : State) (p dpa : Nat) (x : Word) : State := s.writePlace (.dram (dramKey p dpa)) 8 x.toNat

/-- Word `w` of a partition descriptor (R353). -/
def State.partWord (s : State) (p part w : Nat) : Word := s.dramWord p ((s.pkg p).ptbase.toNat + 256 * part + 8 * w)
def State.partNs (s : State) (p part : Nat) : Bool := natBit (s.partWord p part 2).toNat 62
def State.partValid (s : State) (p part : Nat) : Bool := natBit (s.partWord p part 2).toNat 63
def State.cmask (s : State) (p part : Nat) : Nat := (s.partWord p part 0).toNat + 2 ^ 64 * (s.partWord p part 1).toNat

/-- The clusters of a partition. -/
def State.clustersOf (s : State) (p part : Nat) : List Nat := (List.range 128).filter (natBit (s.cmask p part))
/-- The compute cores of a partition in a package. -/
def State.coresOf (s : State) (p part : Nat) : List Nat := (s.clustersOf p part).flatMap (coresOfCluster p)

/-- The packages that a partition spans (R353, R363). -/
def State.span (s : State) (p part : Nat) : List Nat :=
  let d := (s.partWord p part 12).toNat % 65536
  if d = 0 then [p] else (List.range 16).filter (natBit d)

/-- The region check of R396 on a request of a world to a device physical address. -/
def State.dramOk (s : State) (p : Nat) (ns : Bool) (dpa : Nat) : Bool :=
  !ns ||
    let die := dpa / 2 ^ 35 % 4
    let u := dpa % 2 ^ 35 / 2 ^ 18
    let rs := (List.range 64).map fun k => (Table.get 0 (s.pkg p).regions (die * 64 + k)).toNat
    match rs.find? fun r => natBit r 63 && natBits r 1 17 ≤ u && u ≤ natBits r 18 17 with
    | some r => natBit r 62
    | none => false

/-! ### Walks -/

/-- The fields of a leaf (R366). -/
def leafKind (e : Nat) : Nat := natBits e 6 2
def leafPlace (e : Nat) : Nat := natBits e 8 2
def leafFrame (e : Nat) : Nat := natBits e 12 40

/-- What a walk finds (R367). -/
inductive Walk where
  | leaf (e size : Nat)
  | absent
  | malformed
  | error
  deriving DecidableEq, Repr

/-- A table entry without a reserved bit (R366). -/
def tableOk (e : Nat) : Bool := natBits e 52 11 == 0 && natBits e 37 15 == 0 && natBits e 1 11 == 0

/-- A leaf that is not malformed at its size (R367, R368). -/
def leafOk (mask : Nat) (e size : Nat) : Bool :=
  natBits e 57 6 == 0 && leafFrame e * 4096 % size == 0 &&
    (match leafPlace e with
      | 0 | 1 => natBits e 35 17 == 0
      | 2 => natBits e 42 10 == 0
      | _ => true) &&
    (!natBit e 56 || natBit mask (natBits e 52 4))

/-- The levels of a walk, `n` left, from the table at `t` (R367). -/
def State.walkFrom (s : State) (p part va : Nat) : Nat → Nat → Walk
  | 0, _ => .malformed
  | n + 1, t =>
    let dpa := t + 8 * natBits va (12 + 9 * n) 9
    if !s.dramOk p (s.partNs p part) dpa then .malformed
    else if s.dramBad.contains (dramKey p dpa / 8) then .error
    else
      let e := (s.dramWord p dpa).toNat
      if e % 2 = 0 then .absent
      else if natBit e 63 then
        if n = 0 || !tableOk e then .malformed else s.walkFrom p part va n (natBits e 12 25 * 4096)
      else
        let size := 2 ^ (12 + 9 * n)
        if n = 3 || !leafOk (s.pkg p).mask e size then .malformed else .leaf e size

/-- A walk of a virtual address for a partition (R367); outside every partition nothing is mapped. -/
def State.walk (s : State) (p : Nat) (part : Option Nat) (va : Nat) : Walk :=
  match part with
  | none => .absent
  | some q => if va ≥ 2 ^ 48 then .absent else s.walkFrom p q va 4 (s.partWord p q 11).toNat

/-! ### Homes -/

/-- The home of an access from a package to a leaf (R368). -/
def homeOf (p leaf va : Nat) : Home :=
  let q := if natBit leaf 56 then natBits leaf 52 4 else p
  match leafPlace leaf with
  | 0 => .mem q (Nat.xor (Nat.xor (natBits va 12 2) (natBits va 16 2)) (natBits va 20 2)) (natBits va 8 4)
  | 1 => .mem q (natBits leaf 10 2) (natBits va 8 4)
  | 2 => .cxl p
  | _ => .host p

/-- Which place of a home a leaf and an address give (R368). R3 leaves open how much CXL memory, up to 4 TiB, is attached and what an
access beyond it does: here all 4 TiB of every package are there (DESIGN CHOICE, log 58). -/
def framePlace (h : Home) (leaf size va : Nat) : Place :=
  let a := leafFrame leaf * 4096 + va % size
  match h with
  | .mem q die _ => .dram (dramKey q (die * 2 ^ 35 + a % 2 ^ 35))
  | .cxl q => .cxl (q * 2 ^ 42 + a % 2 ^ 42)
  | .host q => .host (q * 2 ^ 64 + a)

def Home.pkg : Home → Nat
  | .mem q _ _ => q
  | .cxl q => q
  | .host q => q

/-- The number of a home's translation cache within its package. -/
def Home.key : Home → Nat
  | .mem _ die chan => die * 16 + chan
  | .cxl _ => 64
  | .host _ => 65

/-- The node at which messages to a home retire (R149); the I/O die counts as number 2047. -/
def Home.node : Home → Nat
  | .mem q die chan => nodeAt q die 16 chan
  | .cxl q => q * 2048 + 2047
  | .host q => q * 2048 + 2047

/-- `some true` for a home on a node's own die, `some false` for another (R20). -/
def Home.near (h : Home) (g : Nat) : Bool :=
  match h with
  | .mem q die _ => q == pkgOf g && die == dieOf g
  | _ => false

/-! ### Caches (R369) -/

def TlbEntry.hits (e : TlbEntry) (part va : Nat) : Bool := e.part == part && e.page == va / e.size * e.size

/-- Insert an entry, the oldest leaving a full cache (DESIGN CHOICE, log 21). -/
def tlbInsert (cap : Nat) (l : List TlbEntry) (e : TlbEntry) : List TlbEntry :=
  ((e :: l.filter fun x => !(x.part == e.part && x.page == e.page && x.size == e.size))).take cap

/-- The entries of a selector: SIZE 3 is every page of the partition (R242). -/
def tlbSelected (part size addr : Nat) (e : TlbEntry) : Bool :=
  e.part == part &&
    (size == 3 ||
      let n := 2 ^ (12 + 9 * size)
      (e.page < addr + n && addr < e.page + e.size))

/-- Remove the route TLB and second-level entries of a page. -/
def State.dropPage (s : State) (g : Nat) (part : Option Nat) (va : Nat) : State :=
  let keep := fun e : TlbEntry => !e.hits (partKey part) va
  let s := s.modNode g fun n => { n with tlb := n.tlb.filter keep }
  if isCaldera g then s
  else s.modPkg (pkgOf g) fun k => { k with l2 := k.l2.put (clusterOf g) ((Table.get [] k.l2 (clusterOf g)).filter keep) }

/-- Fill the caches of a core from a walk. -/
def State.fillPage (s : State) (g : Nat) (e : TlbEntry) : State :=
  let s := s.modNode g fun n => { n with tlb := tlbInsert 128 n.tlb e }
  if isCaldera g then s
  else s.modPkg (pkgOf g) fun k =>
    { k with l2 := k.l2.put (clusterOf g) (tlbInsert 2048 (Table.get [] k.l2 (clusterOf g)) e) }

/-- A cached leaf with its page size: the route TLB first, then the cluster's second level. -/
def State.cachedPage (s : State) (g : Nat) (part : Option Nat) (va : Nat) : Option (TlbEntry × Bool) :=
  match (s.node g).tlb.find? fun e => e.hits (partKey part) va with
  | some e => some (e, true)
  | none =>
    if isCaldera g then none
    else
      match (Table.get [] (s.pkg (pkgOf g)).l2 (clusterOf g)).find? fun e => e.hits (partKey part) va with
      | some e => some (e, false)
      | none => none

/-- Walk afresh, fill the caches, and check the entry. -/
def State.walkPage (s : State) (g : Nat) (part : Option Nat) (va : Nat) (chk : Nat → Option Cause) :
    State × Except (Cause × Nat) (Nat × Nat) :=
  let s := s.dropPage g part va
  match s.walk (pkgOf g) part va with
  | .absent => (s, .error (.pageNotPresent, 0))
  | .malformed => (s, .error (.machineCheck, 6))
  | .error => (s, .error (.machineCheck, 5))
  | .leaf e size =>
    let s := s.fillPage g ⟨va / size * size, size, partKey part, e⟩
    match chk e with
    | none => (s, .ok (e, size))
    | some c => (s, .error (c, 0))

/-- The translation of R369: a cached entry that admits the access, else a fresh walk, which alone may fault. -/
def State.translate (s : State) (g : Nat) (part : Option Nat) (va : Nat) (chk : Nat → Option Cause) :
    State × Except (Cause × Nat) (Nat × Nat) :=
  match s.cachedPage g part va with
  | some (e, first) =>
    match chk e.leaf with
    | none =>
      if first then (s, .ok (e.leaf, e.size))
      else (s.modNode g fun n => { n with tlb := tlbInsert 128 n.tlb e }, .ok (e.leaf, e.size))
    | some _ => s.walkPage g part va chk
  | none => s.walkPage g part va chk

/-- What a home answers for an address (R371). -/
inductive HomeAns where
  | place (p : Place)
  | nack
  /-- Its walk met a malformed entry or an uncorrectable error (R382). -/
  | error
  deriving DecidableEq, Repr

/-- The home's own translation: its cache, or a walk, for a requester of package `p` (R371). -/
def State.homePlace (s : State) (h : Home) (p : Nat) (part : Option Nat) (va : Nat) : State × HomeAns :=
  let cache := Table.get [] (s.pkg h.pkg).homes h.key
  match cache.find? fun e => e.hits (partKey part) va with
  | some e => (s, .place (framePlace h e.leaf e.size va))
  | none =>
    match s.walk h.pkg part va with
    | .leaf e size =>
      if homeOf p e va = h then
        (s.modPkg h.pkg fun k =>
          { k with homes := k.homes.put h.key (tlbInsert 16384 cache ⟨va / size * size, size, partKey part, e⟩) },
          .place (framePlace h e size va))
      else (s, .nack)
    | .absent => (s, .nack)
    | _ => (s, .error)

/-! ### What an access needs -/

/-- The permissions that an access needs in a page and in a region, the placements it admits, and its ACC code
(R41, R132, R370, R378). -/
structure Need where
  r    : Bool := false
  w    : Bool := false
  x    : Bool := false
  rd   : Bool := false
  wr   : Bool := false
  host : Bool := true
  cxl  : Bool := true
  /-- Reaches parameter records instead of plain memory (R132, R198). -/
  rec_ : Bool := false
  acc  : Nat := 7
  deriving DecidableEq, Repr

def Need.fetch : Need := { x := true, acc := 0 }
def Need.load : Need := { r := true, rd := true, acc := 1 }
def Need.read : Need := { r := true, rd := true, acc := 7 }
def Need.store : Need := { w := true, wr := true, acc := 2 }
def Need.atomic : Need := { r := true, w := true, rd := true, wr := true, host := false, acc := 3 }
def Need.chRead : Need := { r := true, rd := true, acc := 5 }
def Need.chWrite : Need := { w := true, wr := true, acc := 6 }
def Need.fe (op : FeOp) : Need :=
  { r := true, w := true, host := false, cxl := false, acc := 4
    rd := match op with
      | .ldf | .take | .feq => true
      | _ => false
    wr := match op with
      | .ldf | .feq => false
      | _ => true }

/-- The issuer's check of a page entry: kind, then permission (R132, R198, R230 item 8, R367, R370). -/
def pageCheck (n : Need) (user ns : Bool) (e : Nat) : Option Cause :=
  let pr := leafKind e == 3
  let pl := leafPlace e
  if (if n.x then pr && 2 ≤ pl else if n.rec_ then !pr || 2 ≤ pl else pr || (!n.host && pl == 3) || (!n.cxl && pl == 2)) then some .kind
  else if (n.x && !natBit e 3) || (n.r && !natBit e 1) || (n.w && !natBit e 2) || (user && !natBit e 4) ||
    (ns && !natBit e 5) then some .permission
  else none

/-! ### Coordinate addresses and modes (R26 to R30) -/

/-- Where an address lies: the issuer's own core, another node, or a global virtual address. -/
inductive Where where
  | own (off : Nat)
  | far (g off : Nat)
  | virt
  deriving DecidableEq, Repr

/-- A coordinate address, with the issuer's cases of R28. -/
def State.coord (s : State) (g v : Nat) : Option Where :=
  let off := v % 2 ^ 20
  let x := natBits v 50 5
  let y := natBits v 46 4
  let pick (t : Nat) : Option Where := some (if t = g then .own off else .far t off)
  if natBits v 20 26 ≠ 0 then none
  else
    match natBits v 61 2 with
    | 0 =>
      let p := natBits v 57 4
      if !natBit (s.pkg (pkgOf g)).mask p || 16 < x then none else pick (nodeAt p (natBits v 55 2) x y)
    | 1 =>
      if natBits v 55 6 ≠ 0 || isCaldera g then none
      else pick (nodeAt (pkgOf g) (dieOf g) ((xOf g + x) % 16) ((yOf g + y) % 16))
    | _ => none

/-- The location that a mode gives an address; `none` is the protection fault of the issuer (R28, R30). An address on the
issuer's own core must be backed. -/
def State.locate (s : State) (g : Nat) (mode : Mode) (v : Nat) : Option Where :=
  let w : Option Where := match mode with
    | .as => if v < 2 ^ 63 then some .virt else s.coord g v
    | .loc => some (.own (v % 2 ^ 20))
    | .cli =>
      if isCaldera g then none
      else
        let w := natBits v 3 19
        let t := nodeAt (pkgOf g) (dieOf g) (col0 g + w % 8) (yOf g)
        let off := w / 8 * 8 + v % 8
        some (if t = g then .own off else .far t off)
  match w with
  | some (.own off) => if backed g off then w else none
  | _ => w

/-! ### Protection regions (R41) -/

/-- The lowest enabled region that holds an offset. -/
def Img.region (m : Img) (off : Nat) : Option (Nat × Nat) :=
  ((List.range 16).map fun k => ((Table.get 0 m.prb k).toNat, (Table.get 0 m.prl k).toNat)).find? fun r =>
    natBit r.1 31 && natBits r.1 6 14 ≤ off / 64 && off / 64 ≤ natBits r.2 6 14

/-- The kind of an access that regions admit, or `none` for the protection fault (R41). `mine`: the requester is of the
owner's partition; `ns`, `nodeNs`: its world and the node's. -/
def Img.regionKind (m : Img) (mine ns nodeNs : Bool) (need : Need) (off n : Nat) : Option Nat :=
  match m.region off with
  | none => if mine && ns == nodeNs then some 1 else none
  | some (b, l) =>
    let kind := natBits b 28 2
    if (natBits l 6 14 + 1) * 64 < off + n || (ns && !natBit b 30) || (need.rd && !natBit b 27) || (need.wr && !natBit b 26)
      || (natBit b 25 && !mine) || kind == 3 then none
    else some kind

/-- The image of a node that a requester reaches: its partition's own where the node holds one live or shadow, refused
where it is stored. A request of a partition that the node does not hold reaches the image that was live when it was sent (`aim`),
live or as a shadow, and is refused while that is stored; where the node has dropped it, or none was live, the live image, else the
first shadow, and it is refused where all are stored (R41, R356, DEDUCED, log 10). -/
def State.reach (s : State) (g : Nat) (part aim : Option Nat) : Option (Option Nat) :=
  let n := s.node g
  let other : Option (Option Nat) := match n.live.part, n.shadows with
    | some q, _ => some (some q)
    | none, m :: _ => some m.part
    | none, [] => if n.stored.isEmpty then some none else none
  let at_ (q : Option Nat) (k : Option (Option Nat)) : Option (Option Nat) := match n.held g q with
    | .live => some n.live.part
    | .shadow => some q
    | .stored => none
    | .none => k
  at_ part (if aim.isSome then at_ aim other else other)

/-- The target's check of a request from another node: the place reached, or `none` for protection (R28, R29, R41). -/
def State.farPlace (s : State) (g off n : Nat) (part aim : Option Nat) (ns : Bool) (need : Need) : Option Place :=
  match s.reach g part aim with
  | none => none
  | some q =>
    let mine := !isCaldera g && q == part
    if !backed g off || !backed g (off + n - 1) then none
    else
      match (s.img g q).regionKind mine ns (s.node g).ns need off n with
      | some _ => some (.spm g q off)
      | none => none

/-- The links of a package that may carry traffic toward another and are up, lowest first (R362). -/
def State.routes (s : State) (p q : Nat) : List Nat :=
  let k := s.pkg p
  (List.range 8).filter fun l => natBit (Table.get 0 k.lroute q) l && (Table.get ({} : Link) k.links l).up

/-- Traffic reaches a package by the lowest-numbered link at the source and at every package in between; `n` bounds the
packages on the way (R362). -/
def State.carried (s : State) (q : Nat) : Nat → Nat → Bool
  | 0, _ => false
  | n + 1, p => p == q || (match s.routes p q with
    | l :: _ => (match (Table.get ({} : Link) (s.pkg p).links l).far with
      | some r => s.carried q n r
      | none => false)
    | [] => false)

/-- Traffic between two packages can be carried. The source alone refuses for want of a link; a request for which a package
in between has none is refused too (R362, DEDUCED, log 43). -/
def State.linked (s : State) (p q : Nat) : Bool := s.carried q 17 p

end Sys2Proof.Machine
end

