-- ==== Sys2Proof/Machine/Ops.lean ====
section
/-! DEFINITION. The shared operations of every instruction: fetching, issuing with its checks and interlocks, retiring with
formula evaluation and the loop-end test, taking a trap or an upcall, and returning from one (R45, R80 to R82, R92, R112,
R122, R227 to R237, R378). -/

namespace Sys2Proof.Machine

/-! ### Error log -/

/-- An error noticed at a node goes to its die's buffer, which drops it when full (R401). -/
def State.logError (s : State) (g cls : Nat) (part : Option Nat) (addr : Word) : State :=
  s.modPkg (pkgOf g) fun k =>
    let die := if locOf g = 2047 then 4 else dieOf g
    if (k.dieBuf.filter fun e => e.die == die).length < 64 then
      { k with dieBuf := k.dieBuf ++ [⟨die, k.gt, cls, part.getD 0x7F, absCoord g 0, addr⟩] }
    else { k with lost := k.lost + 1 }

/-- The home's translation of an access; an error that its walk meets is logged there (R371, R382). -/
def State.homeLogged (s : State) (h : Home) (p : Nat) (part : Option Nat) (va : Nat) : State × HomeAns :=
  match s.homePlace h p part va with
  | (s, .error) => (s.logError h.node 0x11 part (BitVec.ofNat 64 va), .error)
  | r => r

/-- A machine-check of a walk that no trap reports is logged alone, with the class of its sub-cause (R367, R401). -/
def State.logWalk (s : State) (g : Nat) (part : Option Nat) (va : Nat) (e : Cause × Nat) : State :=
  if e.1 = .machineCheck then s.logError g (e.2 + 1) part (BitVec.ofNat 64 va) else s

/-- A trap that is kept for later: a machine-check is logged when it is met (R382). -/
def State.logKept (s : State) (g : Nat) (part : Option Nat) (t : Trap) : State × Trap :=
  (s.logWalk g part t.eaddr.toNat (t.cause, t.code), { t with logged := decide (t.cause = .machineCheck) })

/-! ### Places at once -/

/-- The world check of a request at bonded DRAM (R396). -/
def State.worldOk (s : State) (ns : Bool) (p : Place) : Bool :=
  match p with
  | .dram a => s.dramOk (a / 2 ^ 37) ns (a % 2 ^ 37)
  | _ => true

/-- The translation for an instance, which counts its misses (R244). -/
def State.translateFor (s : State) (i : Inst) (va : Nat) (chk : Nat → Option Cause) :
    State × Except (Cause × Nat) (Nat × Nat) :=
  let s : State := match s.cachedPage i.node (s.partOf i) va with
    | some (_, true) => s
    | some (_, false) => s.modCtx i fun c => c.count 5
    | none => s.modCtx i fun c => if isCaldera i.node then c.count 5 else (c.count 5).count 6
  s.translate i.node (s.partOf i) va chk

/-- What an access that belongs to its instruction meets: a value; a fault with its sub-cause, and whether the target refused
it; or a home that cannot translate now, whose error is logged and delivered to no core, so that the access waits (R24, R135,
R382, DEDUCED, log 54). -/
inductive Got (α : Type) where
  | ok (x : α)
  | error (c : Cause) (code : Nat) (remote : Bool)
  | held

/-- The place that a home gives an access which its issuer admits, or its refusal (R371, R382, R396). -/
def State.atHome (s : State) (g : Nat) (part : Option Nat) (ns : Bool) (leaf v : Nat) : State × Option (Got Place) :=
  let h := homeOf (pkgOf g) leaf v
  if !s.linked (pkgOf g) h.pkg then (s, some (.error .protection 0 true))
  else
    match s.homeLogged h (pkgOf g) part v with
    | (s, .place p) => (s, some (if s.worldOk ns p then .ok p else .error .protection 0 true))
    | (s, .nack) => (s, none)
    | (s, .error) => (s, some .held)

/-- The place that an access at an address reaches, for accesses that belong to their instruction: fetch, walks through
tables, context blocks, net pools and fault records. Every check of the issuer and of the target is made here. A negative
acknowledgement makes the issuer walk once more; while the home still declines, the access waits (R28 to R30, R41, R132, R362,
R367 to R371, R396). -/
def State.reachAs (s : State) (i : Inst) (ns user : Bool) (mode : Mode) (need : Need) (v n : Nat) : State × Got Place :=
  let g := i.node
  let part := s.partOf i
  match s.locate g mode v with
  | none => (s, .error .protection 0 false)
  | some (.own off) =>
    match (s.live g).regionKind true ns (s.node g).ns need off n with
    | some _ => (s, .ok (.spm g (s.live g).part off))
    | none => (s, .error .protection 0 false)
  | some (.far t off) =>
    if !s.linked (pkgOf g) (pkgOf t) then (s, .error .protection 0 true)
    else
      match s.farPlace t off n part (s.live t).part ns need with
      | some p => (s, .ok p)
      | none => (s, .error .protection 0 true)
  | some .virt =>
    let chk := pageCheck need user ns
    match s.translateFor i v chk with
    | (s, .error e) => (s, .error e.1 e.2 false)
    | (s, .ok (leaf, _)) =>
      match s.atHome g part ns leaf v with
      | (s, some r) => (s, r)
      | (s, none) =>
        match s.walkPage g part v chk with
        | (s, .error e) => (s, .error e.1 e.2 (e.1 != .machineCheck))
        | (s, .ok (leaf, _)) =>
          match s.atHome g part ns leaf v with
          | (s, some r) => (s, r)
          | (s, none) => (s, .held)

/-- As `reachAs`, in the world of the node. -/
def State.reachNow (s : State) (i : Inst) (user : Bool) (mode : Mode) (need : Need) (v n : Nat) : State × Got Place :=
  s.reachAs i (s.node i.node).ns user mode need v n

/-- The first word of a place reached: what `readOk` compares. -/
def Got.place? : Got Place → Option Place
  | .ok p => some p
  | _ => none

/-! ### Messages of an instance -/

/-- The phase tag of what an instance sends: its parcel's for a handler, else its own (R149, R178). -/
def Ctx.sendTag (c : Ctx) : Bool :=
  match c.act with
  | .handler p => p.tag
  | _ => c.tag

/-- Not performed yet: its place in program order to its location still stands (R134). -/
def Msg.unperformed (m : Msg) : Bool :=
  match m.phase with
  | .req | .waiting _ | .retry | .nack => true
  | .ok _ _ _ | .refused _ => false

/-- The messages in flight of an instance's present partition, oldest first. -/
def State.mine (s : State) (i : Inst) : List Msg := s.net.filter fun m => m.src == i && m.part == s.partOf i

/-- No later memory access is made before a message: an acquire that has not been answered (R133), or a PRSTAT that has not been
served (R250, item 5). -/
def Msg.gates (m : Msg) : Bool :=
  m.acq || (m.unperformed && match m.req with
    | .prstat => true
    | _ => false)

/-- An acquire or a PRSTAT of the instance is open (R133, R250). -/
def State.acqOpen (s : State) (i : Inst) : Bool := (s.mine i).any (·.gates)

/-- Two ranges of bytes share one. -/
def overlaps (a n b k : Nat) : Bool := a < b + k && b < a + n

def Req.bytes : Req → Nat
  | .load n => n
  | .store n _ => n
  | .atom _ n _ _ _ _ => n
  | _ => 8

/-- An access to bytes or FE bits, as against a parcel, a probe or a record request. -/
def Req.isMem : Req → Bool
  | .load _ | .store _ _ | .fe _ _ | .atom _ _ _ _ _ _ => true
  | _ => false

/-- Messages to one node or one home. -/
def sameDest : Target → Target → Bool
  | .node a _, .node b _ => a == b
  | .home a, .home b => a == b
  | _, _ => false

/-- The place that a memory request reaches, when it can be told: its target's own view. -/
def State.placeOf (s : State) (m : Msg) : Option Place :=
  match m.at_, m.tgt with
  | some p, _ => some p
  | none, .node t off => (s.reach t m.part m.aim).map fun q => .spm t q off
  | none, .home h =>
    match (s.homePlace h (pkgOf m.src.node) m.part m.va.toNat).2 with
    | .place p => some p
    | _ => none

def Target.isHome : Target → Bool
  | .home _ => true
  | .node _ _ => false

/-- Two memory requests reach a common byte: by their places where both can be told, else by their addresses (R247). -/
def meetsAt (p : Option Place) (t : Target) (va n : Nat) (q : Option Place) (u : Target) (vb k : Nat) : Bool :=
  match p, q with
  | some p, some q => p.meets n q k
  | _, _ => (t == u || (t.isHome && u.isHome)) && overlaps va n vb k

/-- Count a request by its home (R20). -/
def Ctx.countHome (c : Ctx) (near : Option Bool) : Ctx :=
  match near with
  | some true => { c with lreq := c.lreq + 1 }
  | some false => { c with rreq := c.rreq + 1 }
  | none => c

/-! ### Traps (R24, R227 to R231, R378) -/

/-- The cause code of a class (R229). -/
def Cause.code : Cause → Nat
  | .illegalInstruction => 0x01
  | .illegalSequence => 0x02
  | .loopDepth => 0x03
  | .privilege => 0x04
  | .bindingCycle => 0x05
  | .boundWrite => 0x06
  | .formulaCheck => 0x07
  | .alignment => 0x08
  | .kind => 0x09
  | .protection => 0x0A
  | .pageNotPresent => 0x0B
  | .permission => 0x0C
  | .operandFormat => 0x0D
  | .formatMode => 0x0E
  | .watchdog => 0x0F
  | .machineCheck => 0x10
  | .debug => 0x11
  | .trap => 0x12
  | .sysc => 0x13
  | .interrupt => 0x14

/-- The classes delivered as upcalls (R229). -/
def Trap.isUpcall (t : Trap) : Bool :=
  match t.cause with
  | .formulaCheck | .pageNotPresent => true
  | .trap => t.code < 128
  | _ => false

/-- The S vector of an instance (R228). -/
def State.svec (s : State) (i : Inst) : Word :=
  match s.partOf i with
  | some q => s.partWord (pkgOf i.node) q 3
  | none => Config.bootVector

/-- The EINFO of a trap (R24). -/
def Trap.einfo (t : Trap) (i : Inst) (dsb : Bool) : Word :=
  BitVec.ofNat 64 ((if t.remote then 2 ^ 17 else 0) + i.ctx.code * 2 ^ 14 + t.code % 256 * 2 ^ 6 +
    (match t.fslot with
      | some k => k % 16 * 4 + 2
      | none => 0) + (if dsb then 1 else 0))

/-- The address of the next fault record of an instance (R378). -/
def recordAddr (i : Inst) (seq : Word) : Nat :=
  (if isCaldera i.node then 0x0000FFFFFF400000 + 0x1000 * (locOf i.node - 1024) else 0x0000FFFFFF000000 + 0x1000 * locOf i.node)
    + 0x400 * i.ctx.code + 64 * (seq.toNat % 16)

/-- log2 of an access size. -/
def sizeLog (n : Nat) : Nat := Nat.log2 n

/-- The eight words of a fault record (R378). -/
def recordWords (s : State) (i : Inst) (c : Ctx) (t : Trap) : List Word :=
  let a := t.access
  [t.eaddr,
   BitVec.ofNat 64 ((if a.vec then 2 ^ 31 else 0) + (s.partOf i).getD 0 % 128 * 2 ^ 24 + a.lane % 64 * 2 ^ 18 +
     (if t.remote then 2 ^ 17 else 0) + i.ctx.code * 2 ^ 15 + sizeLog a.size % 4 * 2 ^ 13 + a.acc % 8 * 2 ^ 10 + t.cause.code),
   a.epc, a.data, a.opb, (s.pkg (pkgOf i.node)).gt, c.seq, absCoord i.node 0]

/-- Words in memory order as one number. -/
def wordsNat (ws : List Word) : Nat := ws.foldr (fun w acc => w.toNat + 2 ^ 64 * acc) 0

/-- Write the fault record at S privilege with plain stores and advance SEQ; its address, or nothing when a store would fault: then the
walks alone stand, and an error in them is logged (R367, R369, R378). -/
def State.writeRecord (s : State) (i : Inst) (t : Trap) : State × Option Word :=
  let c := s.ctx i
  let a := recordAddr i c.seq
  match s.reachNow i false .as .store a 64 with
  | (s, .ok p) =>
    let s := s.writePlace p 64 (wordsNat (recordWords s i c t))
    (s.modCtx i fun c => { c with seq := c.seq + 1 }, some (BitVec.ofNat 64 a))
  | (s, .error k code _) => (s.logWalk i.node (s.partOf i) a (k, code), none)
  | (s, .held) => (s, none)

/-- Taking a trap or an upcall: the trap record, UPINFO, PRIV or UPACT, and the vector (R24, R45, R228, R235, R378). An upcall
writes no PRIV, as in R45's pseudocode: one that is taken at S level goes on at UPVEC with PRIV still 1, although R45 says
that an upcall is delivered at U level (DEDUCED, log 55). -/
def State.takeTrap (s : State) (i : Inst) (t : Trap) : State :=
  let s : State := match t.cause with
    | .machineCheck => if t.logged then s else s.logError i.node (t.code + 1) (s.partOf i) t.eaddr
    | _ => s
  let r : State × Option Word := if t.cause = Cause.pageNotPresent then s.writeRecord i t else (s, some 0)
  let s : State := r.1
  let c : Ctx := s.ctx i
  let sysc := decide (t.cause = .sysc)
  let dsb := c.dslot.isSome && !sysc
  let c : Ctx := { c with
    epc := if sysc then c.dslot.getD (c.pc + 4) else c.pc
    ecause := BitVec.ofNat 64 t.cause.code
    eaddr := t.eaddr
    einfo := t.einfo i dsb
    btarget := if dsb then c.dslot.getD 0 else 0
    dslot := none
    wait := .none
    stalled := []
    bpDone := false
    perf := (c.count 11).perf }
  let up : Bool := t.isUpcall && r.2.isSome && decide (c.upvec ≠ 0) && !c.upact
  let upinfo : Word :=
    if t.cause = Cause.pageNotPresent then r.2.getD c.upinfo
    else if up then (if t.cause = Cause.trap then BitVec.ofNat 64 t.code else 0)
    else c.upinfo
  let c := { c with upinfo := upinfo }
  s.setCtx i (if up then { c with upact := true, pc := c.upvec } else { c with priv := true, pc := s.svec i })

/-- A trap at the address that an access failed at. -/
def Ctx.trapOf (c : Ctx) (e : Cause × Nat) (v : Nat) (a : Access) : Trap :=
  { cause := e.1, eaddr := BitVec.ofNat 64 v, code := e.2, access := { a with epc := c.pc } }

/-! ### Fetch (R69 to R71) -/

/-- What a read inside an instruction gives: a value, a trap, or nothing yet. -/
inductive Read (α : Type) where
  | ok (x : α)
  | error (t : Trap)
  | held

/-- Four bytes of code (R71, R370). Code lies at global virtual addresses: a coordinate address is refused (DEDUCED, log 20). -/
def State.fetch (s : State) (i : Inst) (a : Word) : State × Read Nat :=
  let c := s.ctx i
  let bad (k : Cause) (code : Nat) : Trap := c.trapOf (k, code) a.toNat { size := 4, acc := 0 }
  if 2 ^ 63 ≤ a.toNat then (s, .error (bad .protection 0))
  else
    match s.reachNow i (!c.priv) .as .fetch a.toNat 4 with
    | (s, .error k code r) => (s, .error { bad k code with remote := r })
    | (s, .held) => (s, .held)
    | (s, .ok p) => if s.bad p then (s, .error (bad .machineCheck 1)) else (s, .ok (s.readPlace p 4))

/-- `n` words of code from an address, as one number. Where two of them meet different faults, that of the lower address is reported
(R71, R230, DESIGN CHOICE, log 68). -/
def State.fetchWords (s : State) (i : Inst) (a : Word) : Nat → State × Read Nat
  | 0 => (s, .ok 0)
  | n + 1 =>
    match s.fetch i a with
    | (s, .ok w) =>
      match s.fetchWords i (a + 4) n with
      | (s, .ok x) => (s, .ok (w + 2 ^ 32 * x))
      | r => r
    | r => r

/-- The delay slot's length, read from its base word; a fetch fault there is the branch's (R80, R82). -/
def State.slotLen (s : State) (i : Inst) (a : Word) : State × Read Nat :=
  match s.fetch i a with
  | (s, .ok w) => (s, .ok (lenOfBase w))
  | r => r

/-- The home class of a virtual address whose page a core has just used, as LREQ and RREQ count it (R20). -/
def State.nearOf (s : State) (g : Nat) (part : Option Nat) (mode : Mode) (v : Nat) : Option Bool :=
  if mode = .as && v < 2 ^ 63 then
    (s.cachedPage g part v).map fun e => (homeOf (pkgOf g) e.1.leaf v).near g
  else none

/-! ### Issue and retirement -/

/-- What an instruction declares before its effect: the registers it reads and writes (R15, R92, R122, R233) and where it
may stand (R81, R91, R234). -/
structure Use where
  reads   : List Reg := []
  writes  : List Reg := []
  /-- Needs S level. -/
  priv    : Bool := false
  /-- Contexts that have the instruction. -/
  ctxs    : List CtxId := [.main, .work, .msgL, .msgH]
  noSlot  : Bool := false
  noEnd   : Bool := false
  /-- An operand field that raises illegal-instruction, with EADDR where the manual states one (R229). -/
  illegal : Bool := false
  at_     : Word := 0

/-- Where execution continues. -/
inductive Flow where
  | seq
  /-- As `seq`, with ICTR as the instruction left it (R17). -/
  | keep
  | goto (t : Word)
  /-- The delay slot is next, then `t` (R80). -/
  | slot (t : Word)
  /-- Resume at `p`, as a delay slot before `t` when there is one (R236, R237). -/
  | resume (p : Word) (t : Option Word)
  /-- LOADX: no loop-end test; ICTR kept when loaded (R241). -/
  | loaded (kept : Bool)

/-- The outcome of an instruction's own effect. -/
inductive Out where
  /-- Not issued: something it needs is still in use. -/
  | stall (s : State)
  /-- Issued, and waiting. -/
  | wait (s : State) (w : Wait)
  /-- A trap: the instruction has no effect. -/
  | trap (t : Trap)
  /-- As `trap`; of the state given, translation caches and error log stand (R369). -/
  | trapAt (s : State) (t : Trap)
  /-- Completed, with the registers written. -/
  | done (s : State) (ws : List Reg) (f : Flow)

/-- An instruction stands at the address of an active LENDn. -/
def Ctx.atEnd (c : Ctx) : Bool := (c.lc0 != 0 && c.lend0 == c.pc) || (c.lc1 != 0 && c.lend1 == c.pc)

def trapped (k : Cause) : Trap := { cause := k }

/-- The checks before the effect, in the order of R230: operands that exist, privilege, position, bound registers. -/
def State.precheck (s : State) (u : Use) : Option Trap :=
  let i := s.cur
  let c := s.ctx i
  if u.illegal || !u.ctxs.contains i.ctx || !(u.reads ++ u.writes).all (regOk i.ctx) then
    some { cause := .illegalInstruction, eaddr := if u.illegal then u.at_ else 0 }
  else if u.priv && !c.priv then some (trapped .privilege)
  else if (c.dslot.isSome && (u.noSlot || c.atEnd)) || (u.noEnd && c.atEnd) then some (trapped .illegalSequence)
  else if u.writes.any c.isBound then some (trapped .boundWrite)
  else none

/-- A register that the instruction itself reads or writes is pending, one that a formula will write included. Other sources
of a formula that its writes trigger do not hold it: the formula is evaluated with the values held (R92, R123, DEDUCED, log 11). -/
def Ctx.interlocked (c : Ctx) (u : Use) : Bool :=
  let p := c.pendingRegs
  (u.reads ++ u.writes).any p.contains

/-- The pending registers among those an instruction uses. -/
def Ctx.pendingOf (c : Ctx) (u : Use) : List Reg :=
  let p := c.pendingRegs
  (u.reads ++ u.writes).filter p.contains

/-- The first poisoned register that the instruction reads, by the address of its data (R233). -/
def Ctx.poisonedAt (c : Ctx) (rs : List Reg) : Option Word :=
  (rs.findSome? fun r => c.poison.find? fun p => p.1 == r).map (·.2)

/-- The loop-end test, inner level first (R112). -/
def Ctx.loopEnd (c : Ctx) (next : Word) : Ctx :=
  let outer (c : Ctx) : Ctx :=
    if c.lc0 ≠ 0 ∧ c.pc = c.lend0 then
      let c' := { c with lc0 := c.lc0 - 1 }
      if c'.lc0 ≠ 0 then { c' with pc := c'.lbeg0 } else { c' with pc := next }
    else { c with pc := next }
  if c.lc1 ≠ 0 ∧ c.pc = c.lend1 then
    let c' := { c with lc1 := c.lc1 - 1 }
    if c'.lc1 ≠ 0 then { c' with pc := c'.lbeg1 } else outer c'
  else outer c

/-- The program counter after an instruction of `len` bytes (R70, R80, R112). -/
def Ctx.advance (c : Ctx) (len : Nat) (f : Flow) : Ctx :=
  let after := c.pc + BitVec.ofNat 64 len
  match f with
  | .seq | .keep => { c.loopEnd (c.dslot.getD after) with dslot := none }
  | .goto t => { c.loopEnd t with dslot := none }
  | .slot t => { c with pc := after, dslot := some t }
  | .resume p t => { c with pc := p, dslot := t }
  | .loaded _ => { c with pc := after }

/-- The s registers of a list. -/
def sNums (rs : List Reg) : List Nat :=
  rs.filterMap fun r => match r with
    | .s n => some n
    | _ => none

def Flow.keepsIctr : Flow → Bool
  | .keep => true
  | .loaded k => k
  | _ => false

/-- Retirement in a context: the written registers lose their poison, formulas are evaluated, ICTR counts, and execution
continues (R17, R45, R90, R112). -/
def Ctx.retire (c : Ctx) (m : Img) (len : Nat) (ws : List Reg) (f : Flow) : Ctx :=
  let c := evalBindings m (c.unpoison ws) (sNums ws) [] (some c.pc)
  let c := { c with ictr := if f.keepsIctr then c.ictr else c.ictr + 1, wait := .none, stalled := [], bpDone := false }
  (c.advance len f).count 0

def State.retire (s : State) (len : Nat) (ws : List Reg) (f : Flow) : State :=
  s.modCtx s.cur fun c => c.retire (s.live s.cur.node) len ws f

/-- The counts of misses of another state of a context (R244). -/
def Ctx.keepMisses (c d : Ctx) : Ctx :=
  { c with perf := Table.set 0 (Table.set 0 c.perf 5 (Table.get 0 d.perf 5)) 6 (Table.get 0 d.perf 6) }

/-- The translation caches, counts of misses and error logs of another state. -/
def State.keepWalks (s t : State) (i : Inst) : State :=
  { (s.modNode i.node fun n => { n with tlb := (t.node i.node).tlb }).modCtx i fun c => c.keepMisses (t.ctx i) with
    pkgs := s.pkgs.map fun p =>
      let k := t.pkg p.1
      (p.1, { p.2 with l2 := k.l2, homes := k.homes, dieBuf := k.dieBuf, lost := k.lost }) }

/-- A trap that an instruction raises by design (R230, item 11). -/
def Cause.designed : Cause → Bool
  | .trap | .sysc | .debug => true
  | _ => false

/-- The trap that stands first in R230 where a poisoned register is read: machine-check comes before a designed trap. -/
def Ctx.firstTrap (c : Ctx) (u : Use) (t : Trap) : Trap :=
  match c.poisonedAt u.reads with
  | some a => if t.cause.designed then { cause := .machineCheck, eaddr := a } else t
  | none => t

/-- Issue an instruction of `len` bytes for the current instance. -/
def State.issue (s : State) (len : Nat) (u : Use) (k : State → Out) : State :=
  let c := s.ctx s.cur
  match s.precheck u with
  | some t => s.takeTrap s.cur t
  | none =>
    if c.interlocked u then s.modCtx s.cur fun c => { c with stalled := c.pendingOf u }
    else
      match k s with
      | .stall s' => s'
      | .trap t => s.takeTrap s.cur (c.firstTrap u t)
      | .trapAt s' t => (s.keepWalks s' s.cur).takeTrap s.cur (c.firstTrap u t)
      | .wait s' w =>
        match c.poisonedAt u.reads with
        | some a => s.takeTrap s.cur { cause := .machineCheck, eaddr := a }
        | none => s'.modCtx s'.cur fun c => { c with wait := w }
      | .done s' ws f =>
        match c.poisonedAt u.reads with
        | some a => s.takeTrap s.cur { cause := .machineCheck, eaddr := a }
        | none => s'.retire len ws f

/-- An instruction's meaning from its uses and its effect. -/
def run (x : Instr) (u : Use) (s : State) (k : State → Out) : Host.Outcome State Fault Refusal :=
  .next (s.issue x.len u k)

/-- An effect on the issuing context alone. -/
def local_ (s : State) (f : Ctx → Ctx × List Reg) : Out :=
  let r := f (s.ctx s.cur)
  .done (s.setCtx s.cur r.1) r.2 .seq

/-- An effect that writes one s register. -/
def writeS (s : State) (d : Nat) (x : Word) : Out := .done (s.modCtx s.cur fun c => c.setS d x) [.s d] .seq

end Sys2Proof.Machine
end

