-- ==== Sys2Proof/Machine/Fps.lean ====
section
/-! DEFINITION. Scalar floating point (R101 to R105). -/

namespace Sys2Proof

/-- The format of a precision bit. -/
def Prec.fmt : Prec → Fmt
  | .f64 => .f64
  | .f32 => .f32

/-- Bytes of a size. -/
def Sz.bytes : Sz → Nat
  | .b => 1
  | .h => 2
  | .w => 4
  | .d => 8

end Sys2Proof

namespace Sys2Proof.Machine

/-! ### Shared forms -/

/-- Write a rounded result and raise its flags (R21, R56). -/
def writeF (s : State) (d : Nat) (r : Rounded) : Out :=
  .done (s.modCtx s.cur fun c => (c.raise r.flags).setS d (BitVec.ofNat 64 r.bits)) [.s d] .seq

/-- A rounding operation of two operands (R102). -/
def fps2 (x : Instr) (o : F2) (s : State) (f : Fmt → REnv → RMode → Nat → Nat → Nat → Rounded) :
    Host.Outcome State Fault Refusal :=
  run x { reads := .s o.a :: opndRegs o.b, writes := [.s o.d] } s fun s =>
    let c := s.ctx s.cur
    writeF s o.d (f o.p.fmt c.env (o.rm.getD .rne) 0 (c.sr o.a).toNat (c.opnd o.b).toNat)

/-- A selection or compare of two operands (R103). -/
def fps2s (x : Instr) (o : F2s) (s : State) (f : Fmt → Nat → Nat → Rounded) : Host.Outcome State Fault Refusal :=
  run x { reads := .s o.a :: opndRegs o.b, writes := [.s o.d] } s fun s =>
    let c := s.ctx s.cur
    writeF s o.d (f o.p.fmt (c.sr o.a).toNat (c.opnd o.b).toNat)

/-- An operation of one operand that does not round (R102, R103). -/
def fps1s (x : Instr) (o : F1s) (s : State) (f : Fmt → Nat → Nat) : Host.Outcome State Fault Refusal :=
  run x { reads := [.s o.a], writes := [.s o.d] } s fun s =>
    writeS s o.d (BitVec.ofNat 64 (f o.p.fmt ((s.ctx s.cur).sr o.a).toNat))

/-- A compare's result and flags. -/
def boolRes (r : Bool × FFlags) : Rounded := ⟨if r.1 then 1 else 0, r.2, false⟩

/-! ### Meanings -/

def execFadd (o : F2) (s : State) : Host.Outcome State Fault Refusal := fps2 (.fadd o) o s Fmt.addBits
def execFsub (o : F2) (s : State) : Host.Outcome State Fault Refusal := fps2 (.fsub o) o s Fmt.subBits
def execFmul (o : F2) (s : State) : Host.Outcome State Fault Refusal := fps2 (.fmul o) o s Fmt.mulBits
def execFdiv (o : F2) (s : State) : Host.Outcome State Fault Refusal := fps2 (.fdiv o) o s Fmt.divBits
def execFsqrt (o : F1) (s : State) : Host.Outcome State Fault Refusal :=
  run (.fsqrt o) { reads := [.s o.a], writes := [.s o.d] } s fun s =>
    let c := s.ctx s.cur
    writeF s o.d (o.p.fmt.sqrtBits c.env (o.rm.getD .rne) 0 (c.sr o.a).toNat)
def execFmin (o : F2s) (s : State) : Host.Outcome State Fault Refusal := fps2s (.fmin o) o s fun f a b => f.minmaxBits false a b
def execFmax (o : F2s) (s : State) : Host.Outcome State Fault Refusal := fps2s (.fmax o) o s fun f a b => f.minmaxBits true a b
def execFeq (o : F2s) (s : State) : Host.Outcome State Fault Refusal := fps2s (.feq o) o s fun f a b => boolRes (f.eqBits a b)
def execFlt (o : F2s) (s : State) : Host.Outcome State Fault Refusal := fps2s (.flt o) o s fun f a b => boolRes (f.ltBits a b)
def execFle (o : F2s) (s : State) : Host.Outcome State Fault Refusal := fps2s (.fle o) o s fun f a b => boolRes (f.leBits a b)
def execFclass (o : F1s) (s : State) : Host.Outcome State Fault Refusal := fps1s (.fclass o) o s Fmt.classBits
def execFneg (o : F1s) (s : State) : Host.Outcome State Fault Refusal := fps1s (.fneg o) o s Fmt.negBits
def execFabs (o : F1s) (s : State) : Host.Outcome State Fault Refusal := fps1s (.fabs o) o s Fmt.absBits
/-- One rounding of ra × b + RC (R104). -/
def execFma (o : F3) (s : State) : Host.Outcome State Fault Refusal :=
  run (.fma o) { reads := .s o.a :: .s o.c :: opndRegs o.b, writes := [.s o.d] } s fun s =>
    let c := s.ctx s.cur
    writeF s o.d (o.p.fmt.fmaBits c.env o.rm 0 (c.sr o.a).toNat (c.opnd o.b).toNat (c.sr o.c).toNat)
/-- A conversion between float formats (R105). -/
def execFcvt (o : FCvt) (s : State) : Host.Outcome State Fault Refusal :=
  run (.fcvt o) { reads := [.s o.a], writes := [.s o.d] } s fun s =>
    let c := s.ctx s.cur
    writeF s o.d (convert o.fa o.fb c.env o.rm 0 (c.sr o.a).toNat)
/-- Float to integer, the result extended by its type (R49, R105). -/
def execFtoi (o : FInt) (s : State) : Host.Outcome State Fault Refusal :=
  run (.ftoi o) { reads := [.s o.a], writes := [.s o.d] } s fun s =>
    let c := s.ctx s.cur
    let w := 8 * o.ty.sz.bytes
    let r := toIntRound o.ty.uns w o.rm (o.f.num c.wtop (c.sr o.a).toNat) (envRnd c.env 0)
    writeF s o.d { r with bits := if o.ty.uns then r.bits else intMod 64 (natSigned w r.bits) }
/-- Integer to float (R105). -/
def execItof (o : FInt) (s : State) : Host.Outcome State Fault Refusal :=
  run (.itof o) { reads := [.s o.a], writes := [.s o.d] } s fun s =>
    let c := s.ctx s.cur
    let w := 8 * o.ty.sz.bytes
    let x := (c.sr o.a).toNat % 2 ^ w
    writeF s o.d (roundTo o.f c.env o.rm 0 (.ofInt (if o.ty.uns then x else natSigned w x)))

end Sys2Proof.Machine
end

