-- ==== Sys2Proof/Machine/Trace.lean ====
section
/-! DEFINITION. Trace records, activations and their accounts, the Vent, wake events and the grains of a launch: what the
system, message and net instructions share with the events (R115, R175, R238, R384 to R392). -/

namespace Sys2Proof.Machine

/-! ### Trace records (R384, R385) -/

/-- Word 0 of a record of an instance. -/
def traceWord (s : State) (i : Inst) (ty : Nat) : Word :=
  let g := i.node
  BitVec.ofNat 64 ((s.node g).cycle.toNat % 2 ^ 32 * 2 ^ 32 + pkgOf g % 16 * 2 ^ 28 + dieOf g * 2 ^ 26 + xOf g * 2 ^ 21 +
    yOf g * 2 ^ 17 + i.ctx.code * 2 ^ 15 + ty)

def satAdd (n a b : Nat) : Nat := min (a + b) (2 ^ n - 1)

/-- A record enters the 64 KiB in flight, or is dropped and counted; with tracing off nothing is made (R385). -/
def Tephra.add (t : Tephra) (r : TraceRec) : Tephra :=
  if !t.tctl.getLsbD 0 then t
  else if t.flight.length < 2048 then { t with flight := t.flight ++ [r] }
  else { t with tloss := satAdd 32 t.tloss 1, drops := t.drops + 1 }

/-- A record holds the place of a message's records. -/
def TraceRec.holds (r : TraceRec) (m : Nat) : Bool := natBits r.w0.toNat 0 8 == 0 && r.w1.toNat == m

/-- A record that comes of a message's access takes the place that its instruction's retirement has kept; with none it is the newest
(R385). -/
def Tephra.addFor (t : Tephra) (m : Option Nat) (r : TraceRec) : Tephra :=
  match m with
  | none => t.add r
  | some m =>
    if !t.tctl.getLsbD 0 || 2048 < t.flight.length || !t.flight.any (·.holds m) then t.add r
    else { t with flight := t.flight.takeWhile (fun x => !x.holds m) ++ r :: t.flight.dropWhile fun x => !x.holds m }

/-- A record of an instance; `m` names the message whose access it shows. -/
def State.emitFor (s : State) (m : Option Nat) (i : Inst) (ty : Nat) (w1 w2 w3 : Word) : State :=
  let r : TraceRec := ⟨traceWord s i ty, w1, w2, w3⟩
  s.modPkg (pkgOf i.node) fun k => { k with tephra := k.tephra.addFor m r }

def State.emit (s : State) (i : Inst) (ty : Nat) (w1 w2 w3 : Word) : State := s.emitFor none i ty w1 w2 w3

/-- Records of channel, Chord and FE-barrier events need CHEV (R384). -/
def State.emitChev (s : State) (m : Option Nat) (i : Inst) (ty : Nat) (w1 w2 w3 : Word) : State :=
  if (s.pkg (pkgOf i.node)).tephra.tctl.getLsbD 3 then s.emitFor m i ty w1 w2 w3 else s

/-- A SYNC record of a core (R386); its instance field is MAIN. -/
def State.sync (s : State) (g reason : Nat) : State :=
  let mhz := (Table.get ({} : DiePower) (s.pkg (pkgOf g)).dies (dieOf g)).mhz
  s.emit ⟨g, .main⟩ 5 (s.node g).cycle (s.pkg (pkgOf g)).gt (BitVec.ofNat 64 (reason * 2 ^ 16 + mhz % 2 ^ 16))

/-! ### Clocks (R238, R287, R386, R394) -/

/-- The instance stands between two instructions: no delay slot is open and no instruction waits. -/
def Ctx.betweens (c : Ctx) : Bool := c.dslot.isNone && c.wait == .none

/-- The contexts that a debug stop has halted do not issue (R394); a step lets the selected one go on (R395). -/
def State.stopped (s : State) (i : Inst) : Bool :=
  match (s.node i.node).stop with
  | none => false
  | some t =>
    (s.node i.node).stepping.map (·.1) != some i.ctx &&
      (match i.ctx with
        | .main => t.main || (s.ctx i).betweens
        | .work => t.work
        | _ => t.msg)

/-- The matrix unit needs no clock: nothing runs in it, or a stop holds an arrival open (R394). -/
def Node.matrixRests (n : Node) : Bool :=
  match n.live.gmma with
  | none => true
  | some x => n.stop.isSome && x.phase == .arrived

/-- The clock of a node stops while nothing on it may issue (R238, R287, R386, R394). -/
def State.clockStops (s : State) (g : Nat) : Bool :=
  let n := s.node g
  let m := n.live
  let rests (c : Ctx) : Bool := c.act == .idle || (match c.wait with
    | .wfi _ => true
    | _ => false)
  n.gated ||
    (n.matrixRests && (rests m.main || s.stopped ⟨g, .main⟩) && (rests m.work || s.stopped ⟨g, .work⟩) &&
      ((m.msgL.act == .idle && m.msgH.act == .idle && (n.stop.isSome || (m.qL.isEmpty && m.qLover.isEmpty && m.qH.isEmpty))) ||
        s.stopped ⟨g, .msgL⟩ || s.stopped ⟨g, .msgH⟩))

/-- SYNC records where the clock has stopped or started (R386). -/
def State.clockCheck (s : State) (g : Nat) : State :=
  let off := s.clockStops g
  if off = (s.node g).clkOff then s
  else (s.modNode g fun n => { n with clkOff := off }).sync g (if off then 2 else 3)

/-- The instruction that an instance fetches next is marked (R387). -/
def State.mark (s : State) (i : Inst) : State :=
  s.modNode i.node fun n => { n with mark := some (i, (s.ctx i).pc), sample := 0 }

/-- A mark on the instruction that an instance would issue next is gone: a trap comes before it, or a breakpoint (R387, R393). -/
def State.unmarked (s : State) (i : Inst) : State :=
  s.modNode i.node fun n => if n.mark = some (i, (s.ctx i).pc) then { n with mark := none } else n

/-- Marks on instances whose code leaves the core are gone (R387). -/
def Node.unmark (n : Node) (gone : CtxId → Bool) : Node := { n with mark := n.mark.filter fun x => !gone x.1.ctx }

/-! ### Monitors and delay accounts (R390 to R392) -/

/-- A monitor's core field for a node. -/
def monCore (g : Nat) : Nat := pkgOf g % 16 * 2048 + dieOf g * 512 + xOf g * 16 + yOf g

/-- A value enters a monitor. -/
def Monitor.see (m : Monitor) (v : Nat) : Monitor :=
  let base := natBits m.ctl.toNat 16 8
  let bin := min 15 ((v - base) / 2 ^ natBits m.ctl.toNat 12 4)
  let v := min v (2 ^ 32 - 1)
  { m with any := true, lo := if m.any then min m.lo v else v, hi := if m.any then max m.hi v else v
           bins := m.bins.put bin (satAdd 32 (Table.get 0 m.bins bin) 1) }

/-- A value of a source at a core enters the monitors that watch it. -/
def State.watchVal (s : State) (g src v : Nat) : State :=
  s.modPkg (pkgOf g) fun k => { k with tephra := { k.tephra with
    mons := k.tephra.mons.map fun m =>
      if natBits m.2.ctl.toNat 8 4 == src && natBits m.2.ctl.toNat 24 20 == monCore g then (m.1, m.2.see v) else m } }

/-- The table entry of a sender: its own, the next free one, or entry 63 (R391, DEDUCED, log 34). -/
def delayIndex (l : List Delay) (sender : Word) : Nat :=
  min 63 (((l.take 63).findIdx? fun d => d.sender == sender).getD l.length)

/-- Change the account of a sender at a core. -/
def State.account (s : State) (g : Nat) (sender : Word) (f : Delay → Delay) : State :=
  s.modNode g fun n =>
    let k := delayIndex n.delays sender
    { n with delays := if k < n.delays.length then n.delays.modify k f else n.delays ++ [f ⟨sender, 0, 0, 0, 0⟩] }

/-- Transit of a parcel accepted now; never negative (R364, R390). -/
def State.noteTransit (s : State) (g : Nat) (sender sent : Word) : State :=
  let v := (s.pkg (pkgOf g)).gt.toNat - sent.toNat
  (s.account g sender fun d => { d with transit := satAdd 64 d.transit v }).watchVal g 1 v

/-- Wait of an activation that starts now; it counts the activation (R391). -/
def State.noteWait (s : State) (g : Nat) (sender came : Word) : State :=
  let v := (s.pkg (pkgOf g)).gt.toNat - came.toNat
  (s.account g sender fun d => { d with count := satAdd 64 d.count 1, wait := satAdd 32 d.wait v }).watchVal g 2 v

/-- Run of an activation that ends now, in cycles. -/
def State.noteRun (s : State) (g : Nat) (sender born : Word) : State :=
  let v := ((s.node g).cycle - born).toNat
  (s.account g sender fun d => { d with run := satAdd 32 d.run v }).watchVal g 3 v

/-! ### Activations (R384) -/

/-- The CLASS of an activation; a service or interrupt activation has none. -/
def actClass (k : CtxId) : Activity → Option Nat
  | .grain _ _ => some 0
  | .handler _ => some (if k = .msgL then 1 else 2)
  | .work c _ _ => if c = 6 then none else some c
  | .rule _ _ => some 5
  | .idle | .loop | .irq => none

/-- An activation starts: its counts, and its ACT record with the entry and the routing tag (DEDUCED, log 35). -/
def State.startAct (s : State) (i : Inst) (act : Activity) (born entry route : Word) : State :=
  let s := s.modCtx i fun c => { c with act := act, acts := c.acts + 1, ret0 := Table.get 0 c.perf 0, s2at := c.sr 2, born := born }
  let c := s.ctx i
  match actClass i.ctx act with
  | some k =>
    s.emit i 1 entry route (BitVec.ofNat 64 (k + (if c.sendTag then 8 else 0) + c.acts % 2 ^ 32 * 2 ^ 32))
  | none => s

/-- An activation ends with the instruction that is retiring: its END record. -/
def State.endAct (s : State) (i : Inst) : State :=
  let c := s.ctx i
  match actClass i.ctx c.act with
  | some _ => s.emit i 2 (Table.get 0 c.perf 0 + 1 - c.ret0) (c.ictr + 1) 0
  | none => s

/-! ### Debug matches and stops (R393, R394) -/

/-- A debug stop halts WORK at DONE and in WFI. -/
def State.haltWork (s : State) (g : Nat) : State :=
  match (s.node g).stop with
  | some t => s.modNode g fun n => { n with stop := some { t with work := true } }
  | none => s

/-- The debug controls of an instance. -/
def State.dbg (s : State) (i : Inst) : Dbg := Table.get {} (s.pkg (pkgOf i.node)).dbg i.key

/-- A control register is enabled for the instance's partition and its qualifier holds. -/
def State.armed (s : State) (i : Inst) (ctl : Word) : Bool :=
  let c := s.ctx i
  natBit ctl.toNat 24 && s.partOf i == some (natBits ctl.toNat 25 7) &&
    match natBits ctl.toNat 20 2 with
    | 0 => true
    | 1 => actClass i.ctx c.act == some 0 && c.s2at.toNat == natBits ctl.toNat 32 32
    | 2 => actClass i.ctx c.act == some (natBits ctl.toNat 32 3)
    | _ => false

/-- The ACT record of a match with ACT 0 (R384). -/
def State.matchRecord (s : State) (m : Option Nat) (i : Inst) (n kind : Nat) (addr pc : Word) : State :=
  let c := s.ctx i
  s.emitFor m i 1 addr pc (BitVec.ofNat 64 (7 + (if c.sendTag then 8 else 0) + n * 16 + kind * 128 + c.acts % 2 ^ 32 * 2 ^ 32))

/-- What a request does to its words: bit 0 reads, 1 writes, 2 sets full, 3 sets empty (DEDUCED, log 53). -/
def Req.kinds : Req → Nat
  | .load _ => 1
  | .store _ _ => 2
  | .atom _ _ _ _ _ _ => 3
  | .fe op _ => match op with
    | .ldf | .feq => 1
    | .take => 9
    | .putf | .stf => 6
    | .ste => 10
    | .feclr => 8
  | _ => 0

/-- An access meets one watchpoint; every match is kept until it is taken (R231, R393). -/
def State.watch1 (s : State) (m : Option Nat) (i : Inst) (pc va : Word) (kinds n : Nat) : State :=
  let d := s.dbg i
  let ctl : Word := Table.get 0 d.wpc n
  let hit := Nat.land kinds (natBits ctl.toNat 16 4)
  if hit ≠ 0 && s.armed i ctl && (Table.get 0 d.wpb n).ule va && va.ule (Table.get 0 d.wpl n) then
    let note (stop : Bool) : State := s.modCtx i fun c =>
      { c with watch := c.watch ++ [(stop, { cause := .debug, code := 0xF8 + n, eaddr := va })] }
    match natBits ctl.toNat 22 2 with
    | 0 => s.matchRecord m i (4 + n) hit va pc
    | 1 => note true
    | 2 => note false
    | _ => s
  else s

/-- An access of an instance that has been performed, by a message or at once, meets the instance's watchpoints. -/
def State.watchAccess (s : State) (m : Option Nat) (i : Inst) (pc va : Word) (r : Req) : State :=
  if (s.dbg i).wpc.isEmpty then s else (List.range 4).foldl (fun s n => s.watch1 m i pc va r.kinds n) s

/-- An instruction that has sent a message keeps a place for the records of its access where some watchpoint may match it: by its kind,
or, for the FEB records of an FE operation, by either FE kind (R384, R385). -/
def State.holdPlace (s : State) (m : Msg) : State :=
  let d := s.dbg m.src
  let kinds := match m.req with
    | .fe _ _ => Nat.lor m.req.kinds 12
    | q => q.kinds
  let seen := (List.range 4).any fun n =>
    let ctl : Word := Table.get 0 d.wpc n
    Nat.land kinds (natBits ctl.toNat 16 4) != 0 && s.armed m.src ctl && (Table.get 0 d.wpb n).ule m.va && m.va.ule (Table.get 0 d.wpl n)
  if d.wpc.isEmpty || !seen then s
  else
    let r : TraceRec := ⟨traceWord s m.src 0, BitVec.ofNat 64 m.id, 0, 0⟩
    s.modPkg (pkgOf m.src.node) fun k =>
      if k.tephra.tctl.getLsbD 0 && k.tephra.flight.length < 2048 then { k with tephra := { k.tephra with flight := k.tephra.flight ++ [r] } } else k

def FeOp.code : FeOp → Nat
  | .ldf => 0
  | .take => 1
  | .putf => 2
  | .stf => 3
  | .ste => 4
  | .feq => 5
  | .feclr => 6

/-- An FEB record of an FE operation on a word of a node inside a watched range (R384). -/
def State.feb (s : State) (m : Option Nat) (i : Inst) (va : Word) (p : Place) (op : FeOp) : State :=
  let d := s.dbg i
  let inside := (List.range 4).any fun n =>
    let ctl : Word := Table.get 0 d.wpc n
    natBits ctl.toNat 18 2 != 0 && s.armed i ctl && (Table.get 0 d.wpb n).ule va && va.ule (Table.get 0 d.wpl n)
  match p with
  | .spm g _ off =>
    if inside then
      s.emitChev m i 8 (absCoord g off) (BitVec.ofNat 64 (op.code + if s.full p then 256 else 0)) (BitVec.ofNat 64 (s.readPlace p 8))
    else s
  | _ => s

/-- The trap of an 8-byte read inside an instruction (R109, R237). -/
def Ctx.readTrap (c : Ctx) (v : Nat) (k : Cause) (code : Nat) (remote : Bool) : Trap :=
  { c.trapOf (k, code) v { acc := 7 } with remote := remote }

/-- An ordinary 8-byte load inside an instruction (JT, RULE, NALLOC, UPRET), with whether its word has an uncorrectable error; the
faults of its address are precise (R109, R237). Of the state, only translation caches change: the instruction has no effect before it
completes (R227). -/
def State.readNow (s : State) (i : Inst) (v : Nat) : State × Read (Word × Bool) :=
  let c := s.ctx i
  match s.reachNow i (!c.priv) .as .read v 8 with
  | (s, .error k code r) => (s, .error (c.readTrap v k code r))
  | (s, .held) => (s, .held)
  | (s, .ok p) =>
    let x := BitVec.ofNat 64 (s.readPlace p 8)
    (s, .ok (x, s.bad p))

/-- The 8-byte reads of an instruction that completes meet the watchpoints (R393). -/
def State.watchReads (s : State) (i : Inst) (vs : List Word) : State :=
  vs.foldl (fun s v => s.watchAccess none i (s.ctx i).pc v (.load 8)) s

/-- They count in LREQ or RREQ too (R20, R109). -/
def State.noteReads (s : State) (i : Inst) (vs : List Word) : State :=
  (vs.foldl (fun s v => s.modCtx i fun c => c.countHome (s.nearOf i.node (s.partOf i) .as v.toNat)) s).watchReads i vs

/-- As `readNow`, for a word that the instruction goes on from: an uncorrectable error in it is a precise machine-check with the
sub-cause `mc` (R233). -/
def State.loadNow (s : State) (i : Inst) (v : Nat) (mc : Nat) : State × Read Word :=
  match s.readNow i v with
  | (s, .error t) => (s, .error t)
  | (s, .held) => (s, .held)
  | (s, .ok (x, bad)) => (s, if bad then .error ((s.ctx i).readTrap v .machineCheck mc false) else .ok x)

/-- How an instruction goes on after a read: with what it gave, with its trap, or not yet. -/
def then_ {α : Type} (r : State × Read α) (s0 : State) (k : State → α → Out) : Out :=
  match r with
  | (s, .ok x) => k s x
  | (s, .error t) => .trapAt s t
  | (s, .held) => .stall (s0.keepWalks s s0.cur)

/-! ### Wake events and the Vent (R175, R238) -/

/-- A wake event ends the WFI of every context. -/
def Img.wake (m : Img) : Img :=
  let f (c : Ctx) : Ctx := match c.wait with
    | .wfi _ => { c with wait := .ended }
    | _ => c
  { m with main := f m.main, work := f m.work }

/-- A change of a source that formulas of the core read (R25). -/
def Img.changed (m : Img) (x : Src) : Img :=
  let f (c : Ctx) : Ctx := { c with changed := if c.changed.contains x then c.changed else c.changed ++ [x] }
  { m with main := f m.main, work := f m.work }

/-- VENTN has changed. -/
def Img.ventSet (m : Img) (v : List VentEntry) : Img := ({ m with vent := v }.changed .ventn).wake

def Img.ventFull (m : Img) : Bool := 4096 ≤ m.vent.length

/-- Where an overflow area of a core starts: word `w` of its partition's descriptor, and the bytes for each core (R353). -/
def State.areaOf (s : State) (g part w size : Nat) : Nat :=
  dramKey (pkgOf g) ((s.partWord (pkgOf g) part w).toNat + size * locOf g)

/-- With more than 256 entries, one goes to the core's overflow area in DRAM: 64 bytes without a layout, at a place that the
manual leaves open (R175, R353, DESIGN CHOICE, logs 14 and 15). -/
def State.ventSpill (s : State) (g : Nat) : State :=
  match (s.live g).part with
  | some q =>
    if (s.live g).vent.length ≤ 256 then s
    else
      let r := s.free
      r.2.scribble (s.areaOf g q 8 (2 ^ 18) + 64 * (r.1.toNat % 4096)) 8
  | none => s

/-- Push an entry as the newest; it is a message sent (R149). -/
def State.push (s : State) (i : Inst) (x : VentItem) : State :=
  let tag := (s.ctx i).sendTag
  let e : VentEntry := { item := x, tag := tag, by_ := i.node, sent := (s.pkg (pkgOf i.node)).gt }
  ((s.modLive i.node fun m => m.ventSet (e :: m.vent)).ventSpill i.node).sent i.node (s.partOf i) tag

/-! ### Grains and ALIGN (R115, R349) -/

def State.launch (s : State) (p id : Nat) : Option Launch := (s.pkg p).launches.find? fun l => l.id == id

def State.modLaunch (s : State) (p id : Nat) (f : Launch → Launch) : State :=
  s.modPkg p fun k => { k with launches := k.launches.map fun l => if l.id == id then f l else l }

/-- MAIN contexts of a core's cluster that run grains of a launch. -/
def State.alignGroup (s : State) (g launch : Nat) : List Nat :=
  (coresOfCluster (pkgOf g) (clusterOf g)).filter fun t => match (s.live t).main.act with
    | .grain l _ => l == launch
    | _ => false

/-- When every member of a group waits in an ALIGN at one address, all resume (R115). -/
def State.alignRelease (s : State) (group : List Nat) : State :=
  let at_ (t : Nat) : Option Word := match (s.live t).main.wait with
    | .align p _ _ => some p
    | _ => none
  match group with
  | [] => s
  | t :: rest =>
    if (at_ t).isSome && rest.all (fun u => at_ u == at_ t) then
      group.foldl (fun s u => s.modLive u fun m => { m with main := { m.main with wait := .ended } }) s
    else s

end Sys2Proof.Machine
end

