-- ==== Sys2Proof/Machine/Operands.lean ====
section
/-! DEFINITION. The access machinery of the memory instructions: what a unit does with a request (R32, R33, R140, R145), and
how an instruction locates, checks, performs or sends its accesses (R130 to R135, R142, R191, R211 to R213). -/

namespace Sys2Proof.Machine

/-! ### A unit's grant -/

/-- The new value of an atomic and its flags (R145). -/
def atomVal (f : AtomFn) (n old b c : Nat) (rm : RMode) (env : REnv) : Nat × FFlags :=
  let w := 8 * n
  let b := b % 2 ^ w
  match f with
  | .add => ((old + b) % 2 ^ w, 0)
  | .and => (Nat.land old b, 0)
  | .or => (Nat.lor old b, 0)
  | .xor => (Nat.xor old b, 0)
  | .min => (if natSigned w b < natSigned w old then b else old, 0)
  | .max => (if natSigned w old < natSigned w b then b else old, 0)
  | .minu => (if b < old then b else old, 0)
  | .maxu => (if old < b then b else old, 0)
  | .swp => (b, 0)
  | .cas => (if old = c % 2 ^ w then b else old, 0)
  | .fadd =>
    let r := (if n = 8 then Fmt.f64 else Fmt.f32).addBits env rm 0 old b
    (r.bits, r.flags)

/-- A plain access or atomic in one grant: the state, the data returned and the flags raised. FE bits stand (R33, R145). -/
def State.grant (s : State) (p : Place) : Req → State × Nat × FFlags
  | .load n => (s, s.readPlace p n, 0)
  | .store n d => (s.writePlace p n d.toNat, 0, 0)
  | .atom f n b c rm env =>
    let old := s.readPlace p n
    let r := atomVal f n old b.toNat c.toNat rm env
    (s.writePlace p n r.1, old, r.2)
  | _ => (s, 0, 0)

/-- An FE operation on a word: the state and the reply, or nothing when it must wait (R140). -/
def State.feTry (s : State) (p : Place) (op : FeOp) (d : Word) : Option (State × Nat) :=
  let full := s.full p
  let put (b : Bool) : Option (State × Nat) := some ((s.writePlace p 8 d.toNat).setFull p b, 0)
  match op with
  | .ldf => if full then some (s, s.readPlace p 8) else none
  | .take => if full then some (s.setFull p false, s.readPlace p 8) else none
  | .putf => if full then none else put true
  | .stf => put true
  | .ste => put false
  | .feclr => some (s.setFull p false, 0)
  | .feq => some (s, if full then 1 else 0)

/-- A fault record's description of a request (R378, DEDUCED, log 33). -/
def Msg.access (m : Msg) : Access :=
  let (acc, data, opb) : Nat × Word × Word := match m.req with
    | .load _ => (1, 0, 0)
    | .store _ d => (2, d, 0)
    | .atom f _ b c _ _ => (3, b, if f = .cas then c else 0)
    | .fe _ d => (4, d, 0)
    | .grad _ _ _ _ | .prset _ _ => (2, 0, 0)
    | _ => (7, 0, 0)
  { vec := m.vec, lane := m.lane, size := m.req.bytes, acc := acc, data := data
    opb := if m.vec then BitVec.ofNat 64 (2 ^ m.lane) else opb, epc := m.pc }

/-- A refusal by the target, with the lane where the class carries one (R135, R212). -/
def Msg.refusal (m : Msg) (c : Cause) (code : Nat) : Trap :=
  { cause := c, eaddr := m.va, code := if m.vec && c != .kind then m.lane else code, access := m.access
    remote := match m.tgt with
      | .node t _ => t != m.src.node
      | .home _ => true }

/-- A message's arrival number; 0 before it has one. -/
def Msg.stamp (m : Msg) : Nat :=
  match m.phase with
  | .waiting t => t
  | _ => 0

def insertMsg (m : Msg) : List Msg → List Msg
  | [] => [m]
  | x :: l => if m.stamp ≤ x.stamp then m :: x :: l else x :: insertMsg m l

/-- Messages in order of arrival. -/
def sortMsgs (l : List Msg) : List Msg := l.foldr insertMsg []

/-- The waiters of a kind of operation on a word, oldest first. -/
def State.waiters (s : State) (p : Place) (op : FeOp) : List Msg :=
  sortMsgs (s.net.filter fun m =>
    m.at_ == some p &&
      (match m.phase, m.req with
        | .waiting _, .fe o _ => o == op
        | _, _ => false))

def State.modMsg (s : State) (id : Nat) (f : Msg → Msg) : State :=
  { s with net := s.net.map fun m => if m.id == id then f m else m }

/-- The node that holds a place, at which a request performed there retires (R149). -/
def Place.node : Place → Nat
  | .spm g _ _ => g
  | .dram a => nodeAt (a / 2 ^ 37) (a / 2 ^ 35 % 4) 16 (natBits a 8 4)
  | .cxl a => a / 2 ^ 42 * 2048 + 2047
  | .host a => a / 2 ^ 64 * 2048 + 2047

/-- A waiter is answered. -/
def State.answer (s : State) (m : Msg) (p : Place) (data : Nat) : State :=
  let s := (s.modMsg m.id fun m => { m with phase := .ok data 0 (s.bad p) }).retired p.node m.part m.tag
  match m.req with
  | .fe op _ => s.feb (some m.id) m.src m.va p op
  | _ => s

/-- The protection regions of a node still admit a request that is granted at a place: a write of PRB or PRL acts on every later
grant (R42, R256). -/
def State.admitted (s : State) (m : Msg) (p : Place) (need : Need) : Bool :=
  match p with
  | .spm g q off => ((s.img g q).regionKind (m.src.node == g || (!isCaldera g && q == m.part)) m.ns (s.node g).ns need off m.req.bytes).isSome
  | _ => true

/-- Waiters that the regions refuse by now are refused when their grant comes. -/
def State.refuseWaiter (s : State) (m : Msg) (p : Place) : State :=
  (s.modMsg m.id fun m => { m with phase := .refused (m.refusal .protection 0) }).retired p.node m.part m.tag

/-- Every waiting LDF of a word is granted at once: those that the regions admit are answered, the others refused. -/
def State.serveReads (s : State) (p : Place) (data : Nat) : State :=
  (s.waiters p .ldf).foldl (fun s m => if s.admitted m p (.fe .ldf) then s.answer m p data else s.refuseWaiter m p) s

/-- The oldest of a list of waiters whose grant has come and that the regions admit: those before it are refused, those behind it
have had no grant yet (R42, R140). -/
def State.nextWaiter (s : State) (p : Place) (op : FeOp) : List Msg → State × Option Msg
  | [] => (s, none)
  | m :: l => if s.admitted m p (.fe op) then (s, some m) else (s.refuseWaiter m p).nextWaiter p op l

/-- `serve` of R140, with fuel for the PUTFs that it performs. An FEB record of a TAKE shows the bit after it (R384). -/
def State.serve (s : State) (p : Place) : Nat → State
  | 0 => s
  | n + 1 =>
    if s.full p then
      let data := s.readPlace p 8
      let s := s.serveReads p data
      match s.nextWaiter p .take (s.waiters p .take) with
      | (s, some m) => State.serve ((s.setFull p false).answer m p data) p n
      | (s, none) => s
    else
      match s.nextWaiter p .putf (s.waiters p .putf) with
      | (s, some m) =>
        match m.req with
        | .fe _ d => State.serve (((s.writePlace p 8 d.toNat).setFull p true).answer m p 0) p n
        | _ => s
      | (s, none) => s

/-- Places of one unit share its waiter entries: 64 for a core, 1,024 for a DRAM channel (R34, R141). -/
def sameUnit : Place → Place → Bool
  | .spm g _ _, .spm h _ _ => g == h
  | .dram a, .dram b => Place.node (.dram a) == Place.node (.dram b)
  | _, _ => false

def State.waiterFree (s : State) (p : Place) : Bool :=
  let used := (s.net.filter fun m => match m.phase, m.at_, m.req with
    | .waiting _, some q, .fe _ _ => sameUnit p q
    | _, _, _ => false).length
  match p with
  | .dram _ => used < 1024
  | _ => used < 64

/-- What an FE request meets at its unit (R140, R141). -/
inductive FeAns where
  | reply (s : State) (data : Nat)
  | waits (stamp : Nat) (s : State)
  | refused

/-- What an FE request of an instance at address `va` meets; its FEB record shows the word as the operation leaves it, before
the waiters are served (R384). The fuel exceeds the number of waiters. -/
def State.feRequest (s : State) (m : Option Nat) (i : Inst) (va : Word) (p : Place) (op : FeOp) (d : Word) : FeAns :=
  match s.feTry p op d with
  | some (s', x) => .reply ((s'.feb m i va p op).serve p (s.net.length + 1)) x
  | none => if s.waiterFree p then .waits s.stamp { s with stamp := s.stamp + 1 } else .refused

/-! ### Interlocks with the matrix unit (R191) -/

/-- Ranges `(first, bytes)` of a GMMA: its destination tile, the tiles it reads through the down-converter, and its operand
storage. -/
def tileRange (t : Nat) (f64 : Bool) : Nat × Nat :=
  if f64 then (0x80000 + t / 2 * 0x8000, 0x8000) else (0x80000 + t * 0x4000, 0x4000)

def pairIs64 : DotPair → Bool
  | .f64 _ => true
  | _ => false

/-- The offset of the slot at DRAIN of a handle (R37, R158). -/
def hCnt (h : BitVec 128) : Nat := natBits h.toNat 77 9
def hSz (h : BitVec 128) : Nat := natBits h.toNat 73 4
def hFill (h : BitVec 128) : Nat := natBits h.toNat 102 16
def hDrain (h : BitVec 128) : Nat := natBits h.toNat 86 16
def hBase (h : BitVec 128) : Nat := natBits h.toNat 0 73
def hTie (h : BitVec 128) : Nat := natBits h.toNat 118 3
def hValid (h : BitVec 128) : Bool := natBit h.toNat 121
def hFilled (h : BitVec 128) : Nat := (hFill h + 65536 - hDrain h) % 65536
def hFree (h : BitVec 128) : Nat := hCnt h - hFilled h
def hSlot (h : BitVec 128) (n : Nat) : Nat := hBase h + n % hCnt h * 2 ^ hSz h

/-- Replace FILL or DRAIN of a handle. -/
def hWith (h : BitVec 128) (fill drain : Nat) : BitVec 128 :=
  BitVec.ofNat 128 (natBits h.toNat 0 86 + drain % 65536 * 2 ^ 86 + fill % 65536 * 2 ^ 102 + natBits h.toNat 118 10 * 2 ^ 118)

/-- The storage an operand of a running GMMA occupies, and whether reads of it wait too. -/
def gsrcRange (g : Gmma) (x : GSrc) : (Nat × Nat) × Bool :=
  let n := 64 * 64 * g.pair.src.bytes
  match x with
  | .tile off => ((off, n), false)
  | .ring _ off => ((off, n), false)
  | .acc t => (tileRange t.val (pairIs64 g.pair), true)

def rangesMeet (a n b k : Nat) : Bool := a < b + k && b < a + n

/-- An access of the issuing core waits for its GMMA (R191). -/
def Img.bars (m : Img) (off n : Nat) (wr : Bool) : Bool :=
  match m.gmma with
  | none => false
  | some g =>
    let d := tileRange g.tile.val (pairIs64 g.pair)
    rangesMeet off n d.1 d.2 ||
      [g.a, g.b].any fun x =>
        let r := gsrcRange g x
        (wr || r.2) && rangesMeet off n r.1.1 r.1.2

/-- A remote access waits for the GMMA that writes its words (R191). -/
def Img.barsFar (m : Img) (off n : Nat) : Bool :=
  match m.gmma with
  | none => false
  | some g =>
    let d := tileRange g.tile.val (pairIs64 g.pair)
    rangesMeet off n d.1 d.2

/-! ### Scopes (R144, R147) -/

/-- A target lies inside a scope of an issuer. -/
def insideScope (g : Nat) (sc : Scope) : Target → Bool
  | .node t _ =>
    match sc with
    | .core => t == g
    | .clu => t == g || (!isCaldera g && !isCaldera t && pkgOf t == pkgOf g && clusterOf t == clusterOf g)
    | .die => pkgOf t == pkgOf g && dieOf t == dieOf g
    | .pkg => pkgOf t == pkgOf g
    | .dom | .sys => true
  | .home h =>
    match h, sc with
    | _, .core => false
    | _, .clu => false
    | .mem q die _, .die => q == pkgOf g && die == dieOf g
    | _, .die => false
    | .mem q _ _, .pkg => q == pkgOf g
    | .cxl q, .pkg => q == pkgOf g
    | .host _, .pkg => false
    | .host _, .dom => false
    | _, .dom => true
    | _, .sys => true

/-- The request returns a value that a later instruction may wait for. -/
def Req.returns : Req → Bool
  | .load _ => true
  | .fe .ldf _ => true
  | .fe .take _ => true
  | .fe .feq _ => true
  | .prld _ _ => true
  | .prstat => true
  | _ => false

/-- A FENCE of a scope still waits for a message: every read, every write and change inside the scope, and at SYSTEM
everything that OSC counts (R147, DEDUCED, log 13). -/
def Msg.fenced (m : Msg) (g : Nat) (sc : Scope) : Bool :=
  m.req.returns ||
    match m.req with
    | .store _ _ | .fe _ _ | .atom _ _ _ _ _ _ => insideScope g sc m.tgt
    | .parcel _ | .grad _ _ _ _ | .prset _ _ => sc == .sys
    | _ => false

/-- A FENCE of the scope may complete (R147). -/
def State.fenceDone (s : State) (i : Inst) (sc : Scope) : Bool := (s.mine i).all fun m => !m.fenced i.node sc

/-- A release waits for the accesses of its scope, copy channels apart (R133). -/
def State.releaseReady (s : State) (i : Inst) (sc : Scope) (before : Nat) : Bool :=
  (s.mine i).all fun m => m.id ≥ before ||
    (match m.req with
      | .load _ | .store _ _ | .fe _ _ | .atom _ _ _ _ _ _ | .prld _ _ | .prset _ _ => !insideScope i.node sc m.tgt
      | _ => true)

/-! ### Locating the accesses of an instruction -/

/-- One lane's access: its lane number, address and request. -/
structure LaneAcc where
  lane : Nat
  v    : Word
  req  : Req

/-- A located access: own offset, or a target, with the kind's effects. -/
structure Found where
  own     : Option Nat := none
  tgt     : Target
  ordered : Bool := false
  so      : Bool := false
  /-- Annotations act (R132, R133). -/
  noted   : Bool := true
  near    : Option Bool := none

/-- Locate one access and make the issuer's checks (R130 to R132, R230 item 8). -/
def State.find1 (s : State) (i : Inst) (need : Need) (mode : Mode) (n v : Nat) : State × Except (Cause × Nat) Found :=
  let g := i.node
  let user := !(s.ctx i).priv
  let ns := (s.node g).ns
  match s.locate g mode v with
  | none => (s, .error (.protection, 0))
  | some (.own off) =>
    match (s.live g).regionKind true ns ns need off n with
    | none => (s, .error (if need.rec_ then .kind else .protection, 0))
    | some k =>
      if need.rec_ then (s, .error (.kind, 0)) else (s, .ok { own := some off, tgt := .node g off, so := k == 2, noted := k == 1 })
  | some (.far t off) =>
    if need.rec_ then (s, .error (.kind, 0)) else (s, .ok { tgt := .node t off, ordered := true })
  | some .virt =>
    match s.translateFor i v (pageCheck need user ns) with
    | (s, .error e) => (s, .error e)
    | (s, .ok (leaf, _)) =>
      let h := homeOf (pkgOf g) leaf v
      let k := leafKind leaf
      (s, .ok { tgt := .home h, ordered := k == 2, so := k == 2, noted := k == 1
                near := if need.rec_ then none else some (h.near g) })

/-- Locate the lanes in ascending order; the first that fails ends it (R212). -/
def State.findAll (s : State) (i : Inst) (need : Need) (mode : Mode) (n : Nat) :
    List LaneAcc → State × Except (Cause × Nat × LaneAcc) (List (LaneAcc × Found))
  | [] => (s, .ok [])
  | a :: l =>
    match s.find1 i need mode n a.v.toNat with
    | (s, .error e) => (s, .error (e.1, e.2, a))
    | (s, .ok f) =>
      match s.findAll i need mode n l with
      | (s, .error e) => (s, .error e)
      | (s, .ok fs) => (s, .ok ((a, f) :: fs))

/-! ### Performing and sending -/

/-- The accesses of one memory instruction. -/
structure MemOp where
  need : Need
  mode : Mode
  size : Nat
  lanes : List LaneAcc
  dst  : Dst
  acq  : Option Scope := none
  rel  : Option Scope := none
  vec  : Bool := false
  /-- Count each lane in LREQ and RREQ, or the lowest alone (R211). -/
  each : Bool := true
  /-- What a vector destination holds in the lanes that no access writes (R207). -/
  init : VecReg := 0
  data : Word := 0
  opb  : Word := 0

/-- Store a value in lane `l` of a load's buffer. -/
def putLane (x : VecReg) (e l : Nat) (v : Nat) : VecReg :=
  let m : Nat := (2 ^ (8 * e) - 1) * 2 ^ (8 * e * l)
  (x &&& ~~~(BitVec.ofNat 512 m)) ||| BitVec.ofNat 512 (v % 2 ^ (8 * e) * 2 ^ (8 * e * l))

def Dst.reg : Dst → Option Reg
  | .none | .pop => Option.none
  | .s r _ _ => some (.s r)
  | .sym r => some (.s r)
  | .lanes r _ _ => some (.v r)
  | .vec r => some (.v r)

/-- The value that an s destination takes from the data read (R137). -/
def extend (n : Nat) (sx : Bool) (x : Nat) : Word :=
  if sx then BitVec.ofInt 64 (natSigned (8 * n) x) else BitVec.ofNat 64 x

/-- Put the data of one answer into the buffer of its group; one read may serve several lanes (R211). -/
def Dst.gather (d : Dst) (buf : VecReg) (lane data : Nat) : VecReg :=
  match d with
  | .lanes _ e ls => (if ls.isEmpty then [lane] else ls).foldl (fun b l => putLane b e l data) buf
  | .vec _ => BitVec.ofNat 512 data
  | _ => buf

/-- Write the destination once every answer is in: the last data for a scalar, the buffer for a vector. -/
def Dst.write (d : Dst) (c : Ctx) (data : Nat) (buf : VecReg) : Ctx :=
  match d with
  | .none | .pop => c
  | .s r n sx => c.setS r (extend n sx data)
  | .sym r => c.setS r (BitVec.ofNat 64 (data % 2 ^ 14))
  | .lanes r _ _ | .vec r => c.setV r buf

/-- A request that OSC counts until its acknowledgement (R20, R135). -/
def Req.posted (d : Dst) : Req → Bool
  | .store _ _ => true
  | .fe op _ =>
    match op with
    | .ldf | .take | .feq => false
    | _ => true
  | .atom _ _ _ _ _ _ => d == .none
  | .grad _ _ _ _ | .prset _ _ => true
  | _ => false

/-- The partition whose image a request to a node is meant for: the one live there (R356). -/
def State.aimOf (s : State) : Target → Option Nat
  | .node t _ => (s.live t).part
  | .home _ => none

/-- Send a request: a message in flight, counted at the sender's node and in OSC, and the place of its trace records (R20, R149, R385). -/
def State.post (s : State) (m : Msg) : State :=
  let m := { m with id := s.nextId, aim := s.aimOf m.tgt }
  let s := s.holdPlace m
  let s := { s with net := s.net ++ [m], nextId := s.nextId + 1 }
  let s := s.sent m.src.node m.part m.tag
  if m.osc then s.modCtx m.src fun c => { c with osc := c.osc + 1 } else s

/-- The message of one lane. -/
def State.msgFor (s : State) (i : Inst) (op : MemOp) (gid : Nat) (a : LaneAcc) (f : Found) : Msg :=
  let c := s.ctx i
  { id := 0, src := i, part := s.partOf i, ns := (s.node i.node).ns, user := !c.priv
    tag := c.sendTag
    pc := c.pc, va := a.v, tgt := f.tgt, ordered := f.ordered, so := f.so, req := a.req, dst := op.dst
    grp := gid, lane := a.lane, vec := op.vec, osc := f.own.isNone && a.req.posted op.dst
    acq := f.noted && op.acq.isSome, rel := if f.noted then op.rel else none, phase := .req
    win := match a.req, f.tgt with
      | .grad _ _ _ _, .home h => some h.node
      | _, _ => none }

/-- What performing the own lanes has gathered. -/
structure Gather where
  st    : State
  buf   : VecReg
  left  : Nat := 0
  val   : Nat := 0
  flags : FFlags := 0

/-- Perform an access on the own core at once, or send it (R134, R135). Where the accesses of the instruction are split, those
to the own core are sent too, and its bank units grant each apart (R247, R250); so is one of kind SO behind a lane that waits
(R213). Data with an uncorrectable error comes as an answer, which poisons its register (R233). -/
def Gather.lane (r : Gather) (i : Inst) (op : MemOp) (gid : Nat) (af : LaneAcc × Found) : Gather :=
  let s := r.st
  let m := s.msgFor i op gid af.1 af.2
  match if s.split || (af.2.so && r.left != 0) then none else af.2.own with
  | none => { r with st := s.post m, left := r.left + 1 }
  | some off =>
    let p := Place.spm i.node (s.live i.node).part off
    let bad := s.bad p && op.dst != .none
    let got (s : State) (x : Nat) (fl : FFlags) : Gather :=
      if bad then
        { r with st := (s.post { m with phase := .ok x fl true }).retired i.node m.part m.tag, left := r.left + 1 }
      else
        { r with st := s.watchAccess none i (s.ctx i).pc af.1.v af.1.req
                 val := x, flags := r.flags ||| fl, buf := op.dst.gather r.buf af.1.lane x }
    match af.1.req with
    | .fe o d =>
      match s.feRequest none i af.1.v p o d with
      | .reply s x => got s x 0
      | .waits t s => { r with st := s.post { m with phase := .waiting t, at_ := some p }, left := r.left + 1 }
      | .refused => { r with st := s.post { m with phase := .retry, at_ := some p }, left := r.left + 1 }
    | q =>
      let (s, x, fl) := s.grant p q
      got s x fl

/-- The requests that a lane list would count in OSC (DEDUCED, log 19). -/
def oscNeed (op : MemOp) (fs : List (LaneAcc × Found)) : Nat :=
  (fs.filter fun af => af.2.own.isNone && af.1.req.posted op.dst).length

/-- An earlier access of the context to a bank that holds some of the own words has not been performed (R134, R250, DEDUCED,
log 24). -/
def State.ownPending (s : State) (i : Inst) (off n : Nat) : Bool :=
  (s.mine i).any fun m => m.req.isMem && m.unperformed && (match m.tgt with
    | .node t o => t == i.node && sameBank o m.req.bytes off n
    | _ => false)

/-- An 8-byte read inside an instruction may be made: no acquire is open, every earlier access to a byte of it has been performed,
whatever the form of its address, one of kind SO finds the earlier SO accesses done, at another node it follows every ordered message,
and on the own core every earlier access to the bank (R133, R134, R249, R250, R252, R257, DEDUCED, log 18). -/
def State.readClear (s : State) (i : Inst) (v : Nat) : Bool :=
  let p := (s.reachNow i (!(s.ctx i).priv) .as .read v 8).2.place?
  let before (f : Found) (m : Msg) : Bool :=
    (m.unperformed && m.req.isMem && meetsAt (s.placeOf m) m.tgt m.va.toNat m.req.bytes p f.tgt v 8) ||
      (f.so && m.so && (m.unperformed || !sameDest m.tgt f.tgt)) ||
      (m.unperformed && m.ordered && f.ordered && sameDest m.tgt f.tgt) ||
      (match f.own, m.tgt with
        | some off, .node u o => m.unperformed && m.req.isMem && u == i.node && sameBank o m.req.bytes off 8
        | _, _ => false)
  (s.mine i).all fun m => !m.gates && (match (s.find1 i .read .as 8 v).2 with
    | .ok f => !before f m
    | .error _ => true)

/-- An 8-byte read inside an instruction waits neither for an earlier access nor for the matrix unit (R191). -/
def State.readOk (s : State) (i : Inst) (v : Nat) : Bool :=
  s.readClear i v &&
    (match s.locate i.node .as v with
      | some (.own off) => !(s.live i.node).bars off 8 false
      | some (.far t off) => !(s.live t).barsFar off 8
      | _ => true)

/-- The words that an instruction has read before it waited between its reads. -/
def Ctx.wordsRead (c : Ctx) : List Word :=
  match c.wait with
  | .words ws _ => ws
  | _ => []

/-- The addresses of those with an uncorrectable error. -/
def Ctx.wordsBad (c : Ctx) : List Word :=
  match c.wait with
  | .words _ b => b
  | _ => []

/-- What the reads of several words have given: the words, the addresses of those without a value to use, and the trap of the first
address that faulted. -/
structure Words where
  ws    : List Word
  lost  : List Word := []
  fault : Option Trap := none
  deriving DecidableEq, Repr

/-- The words that the reads before a wait have given. -/
def Ctx.gotWords (c : Ctx) : Words := { ws := c.wordsRead, lost := c.wordsBad }

/-- The trap of reads that gave no value: an address fault before a machine-check, each at its first word (R230). -/
def Words.trap (w : Words) (c : Ctx) (mc : Nat) : Option Trap :=
  w.fault.or (w.lost.head?.map fun a => c.readTrap a.toNat .machineCheck mc false)

/-- The reads of several words, one after another. `k` has what they all give, since a check of one word's data may come before
the fault of another's address (R230). Split, each read is a grant of its own (R247); a fault ends the instruction, so the words after
it are read in its step. -/
def readEach (s0 : State) (k : State → Words → Out) : State → List Word → Words → Out
  | s, [], w => k s w
  | s, v :: vs, w =>
    if !s.readOk s0.cur v.toNat then .stall s0
    else
      match s.readNow s0.cur v.toNat with
      | (s, .error t) => readEach s0 k s vs { ws := w.ws ++ [0], lost := w.lost ++ [v], fault := w.fault.or (some t) }
      | (s, .held) => .stall (s0.keepWalks s s0.cur)
      | (s, .ok (x, e)) =>
        let w := { w with ws := w.ws ++ [x], lost := if e then w.lost ++ [v] else w.lost }
        if s0.split && !vs.isEmpty && w.fault.isNone then .wait s (.words w.ws w.lost) else readEach s0 k s vs w

/-- The `n` words of a descriptor in the own scratchpad, as one number; split, each is a grant of its own (R247). -/
def ownWords (s : State) (off n : Nat) (k : Nat → Out) : Out :=
  let got := (s.ctx s.cur).wordsRead
  if !s.split && got.isEmpty then k (s.ownNat s.cur off (8 * n))
  else
    let m := if s.split then got.length + 1 else n
    let ws := got ++ (List.range (m - got.length)).map fun j => BitVec.ofNat 64 (s.ownNat s.cur (off + 8 * (got.length + j)) 8)
    if m < n then .wait s (.words ws []) else k (wordsNat ws)

/-- A descriptor or record in the own scratchpad cannot be read yet (R133, R134, R191, R251). -/
def State.ownBusy (s : State) (i : Inst) (off n : Nat) : Bool :=
  s.acqOpen i || s.ownPending i off n || (s.live i.node).bars off n false

/-- An own-core access waits: for the GMMA, for an earlier access of the context to its bank, of kind SO for the earlier accesses of
that kind, or for its release (R133, R134, R191, DEDUCED, log 24). -/
def State.ownWaits (s : State) (i : Inst) (op : MemOp) (f : Found) : Bool :=
  match f.own with
  | none => false
  | some off =>
    (s.live i.node).bars off op.size op.need.wr ||
      s.ownPending i off op.size ||
      (f.so && (s.mine i).any fun m => m.so && (m.unperformed || !sameDest m.tgt f.tgt)) ||
      (match op.rel with
        | some sc => f.noted && !s.releaseReady i sc s.nextId
        | none => false)

/-- The fault record's description of an access (R378). -/
def MemOp.access (op : MemOp) (a : LaneAcc) : Access :=
  let data := match a.req with
    | .store _ d => d
    | _ => op.data
  { vec := op.vec, lane := a.lane, size := op.size, acc := op.need.acc, data := data
    opb := if op.vec then BitVec.ofNat 64 (2 ^ a.lane) else op.opb }

/-- The mask of the lanes of a list that the issuer's checks refuse, with the walks that this takes; the errors in them are logged (R367,
R369, R378). -/
def State.refusedLanes (s : State) (i : Inst) (op : MemOp) : List LaneAcc → State × Nat
  | [] => (s, 0)
  | a :: l =>
    match s.find1 i op.need op.mode op.size a.v.toNat with
    | (s, .error e) =>
      let r := (s.logWalk i.node (s.partOf i) a.v.toNat e).refusedLanes i op l
      (r.1, 2 ^ a.lane + r.2)
    | (s, .ok _) => s.refusedLanes i op l

/-- Perform the own accesses and send the others, in lane order; the registers that are written at once (R134, R135). -/
def State.performAll (s : State) (op : MemOp) (fs : List (LaneAcc × Found)) : State × List Reg :=
  let i := s.cur
  let (gid, s1) := s.newId
  let g : Gather := fs.foldl (fun r af => r.lane i op gid af) { st := s1, buf := op.init }
  let nears := fs.map (·.2.near)
  let s2 := g.st.modCtx i fun c =>
    (if op.each then nears else nears.take 1).foldl (fun c n => c.countHome n) (c.raise g.flags)
  if g.left = 0 then (s2.modCtx i fun c => op.dst.write c g.val g.buf, op.dst.reg.toList)
  else
    (s2.modCtx i fun c =>
      { c with groups := c.groups ++ [{ id := gid, reg := op.dst.reg, pc := c.pc, left := g.left, buf := g.buf }] }, [])

/-- The effect of a memory instruction's accesses (R130 to R135, R211 to R213). -/
def memory (s : State) (op : MemOp) : Out :=
  let i := s.cur
  let c := s.ctx i
  let code (k : Cause) (e : Nat) (a : LaneAcc) : Nat :=
    if op.vec && k != .kind && k != .machineCheck then a.lane else e
  if s.acqOpen i then .stall s
  else
    match op.lanes.find? fun a => a.v.toNat % op.size != 0 with
    | some a => .trap (c.trapOf (.alignment, code .alignment 0 a) a.v.toNat (op.access a))
    | none =>
      match s.findAll i op.need op.mode op.size op.lanes with
      | (s', .error (k, e, a)) =>
        let x := op.access a
        let r := s'.refusedLanes i op (op.lanes.filter fun b => a.lane < b.lane)
        .trapAt r.1 (c.trapOf (k, code k e a) a.v.toNat
          (if op.vec then { x with opb := BitVec.ofNat 64 (2 ^ a.lane + r.2) } else x))
      | (s', .ok fs) =>
        if fs.any (fun af => s'.ownWaits i op af.2) || 256 < c.osc + oscNeed op fs then .stall s
        else
          let r := s'.performAll op fs
          .done r.1 r.2 .seq

end Sys2Proof.Machine
end

