-- ==== Sys2Proof/Machine/Ring.lean ====
section
/-! DEFINITION. Ring handles (R37, R155 to R158). -/

namespace Sys2Proof.Machine

/-- What a ring instruction uses: MAIN alone has h registers (R155). -/
def ringUse (reads writes : List Reg) : Use := { reads := reads, writes := writes, ctxs := [.main] }

/-- A handle from a valid description (R37, R156). -/
def mkHandle (tie cnt sz base : Nat) : BitVec 128 :=
  BitVec.ofNat 128 (2 ^ 121 + tie * 2 ^ 118 + cnt * 2 ^ 77 + sz * 2 ^ 73 + base)

/-- The checks of a description word (R88, R156). -/
def ringDescOk (w : Nat) : Bool :=
  natBits w 33 31 == 0 && 2 ≤ natBits w 24 9 && natBits w 24 9 ≤ 256 && 6 ≤ natBits w 20 4 && natBits w 20 4 ≤ 16 &&
    w % 64 == 0

/-- Makes a handle from a description word that the own core backs, in its window too (R156, DEDUCED, log 64). A TIE outside 0 and 4
to 7 is an operand field, and stands with the encoding in R230. The alignment trap has all of ra in EADDR, the protection faults
the offset and BASE; a buffer that is not backed comes before the word's other faults (R230, DEDUCED, log 29). -/
def execHset (h : HReg) (a : SReg) (tie : Fin 64) (s : State) : Host.Outcome State Fault Refusal :=
  let u := ringUse [.s a] [.h h]
  let badTie := tie.val ≠ 0 ∧ (tie.val < 4 ∨ 7 < tie.val)
  let at_ := BitVec.ofNat 64 (((s.ctx s.cur).sr a).toNat % 2 ^ 20)
  run (.hset h a tie) { u with illegal := decide badTie, at_ := at_ } s fun s =>
    let i := s.cur
    let c := s.ctx i
    let off := (c.sr a).toNat % 2 ^ 20
    let ill : Trap := { cause := .illegalInstruction, eaddr := BitVec.ofNat 64 off }
    if off % 8 ≠ 0 then .trap { cause := .alignment, eaddr := c.sr a }
    else if !backed i.node (off + 7) then .trap { cause := .protection, eaddr := BitVec.ofNat 64 off }
    else if s.ownBusy i off 8 then .stall s
    else
      let w := s.ownNat i off 8
      let cnt := natBits w 24 9
      let sz := natBits w 20 4
      let base := natBits w 0 20
      if cnt ≠ 0 ∧ !backed i.node (base + cnt * 2 ^ sz - 1) then .trap { cause := .protection, eaddr := BitVec.ofNat 64 base }
      else if !ringDescOk w then .trap ill
      else
        .done (s.setCtx i { c.setH h (mkHandle tie.val cnt sz base) with part := Table.set 0 c.part h.val 0 }) [.h h] .seq

/-- A count operand: 0 means 1 (R155). -/
def atLeast1 (n : Nat) : Nat := if n = 0 then 1 else n

/-- Entries of a channel, joins apart (R154). -/
def Chan.entries (k : Chan) : Nat :=
  (k.queue.filter fun x => match x with
    | .entry _ _ _ _ _ _ => true
    | .join _ _ => false).length

/-- A channel can go on: it is not stopped, and a join at its head waits for no channel that cannot go on; `n` bounds the channels
that wait for one another (R153, R154). -/
def Img.chanGoes (m : Img) : Nat → Nat → Bool
  | 0, _ => true
  | n + 1, k => (m.chan k).stopped.isNone && (match (m.chan k).queue with
    | .join id mask :: _ =>
      (List.range 4).all fun j => j == k || !natBit mask j || !((m.chan j).queue.contains (.join id mask)) || m.chanGoes n j
    | _ => true)

/-- The handle is tied to a channel that still delivers (R158). -/
def tiedBusy (m : Img) (h : BitVec 128) : Bool :=
  4 ≤ hTie h && (let k := hTie h - 4; 0 < (m.chan k).entries && m.chanGoes 4 k)

/-- An issued GMMA or TLD that names the ring is still running; the entries of a channel that cannot go on are not (R153, R158). -/
def ringRunning (m : Img) (h : Nat) : Bool :=
  (match m.gmma with
    | some g => g.ctx == .main && [g.a, g.b].any fun x => match x with
      | .ring k _ => k == h
      | _ => false
    | none => false) ||
  (List.range 4).any fun k => m.chanGoes 4 k && (m.chan k).queue.any fun x => match x with
    | .entry _ _ _ _ (some r) _ => r == h
    | _ => false

/-- Waits for filled slots and answers the offset of the oldest (R158). -/
def execHwait (d : SReg) (h : HReg) (n : Fin 64) (s : State) : Host.Outcome State Fault Refusal :=
  run (.hwait d h n) (ringUse [.h h] [.s d]) s fun s =>
    let x := (s.ctx s.cur).hr h
    let n := atLeast1 n.val
    if !hValid x || hCnt x < n then .trap (trapped .illegalSequence)
    else if hFilled x < n then
      if tiedBusy (s.live s.cur.node) x then .wait s .hwait else .trap (trapped .illegalSequence)
    else writeS s d (BitVec.ofNat 64 (hSlot x (hDrain x)))

/-- Waits for free slots and answers the offset of the next to fill (R158). -/
def execHspace (d : SReg) (h : HReg) (n : Fin 64) (s : State) : Host.Outcome State Fault Refusal :=
  run (.hspace d h n) (ringUse [.h h] [.s d]) s fun s =>
    let x := (s.ctx s.cur).hr h
    let n := atLeast1 n.val
    if !hValid x || hCnt x < n then .trap (trapped .illegalSequence)
    else if hFree x < n then
      if ringRunning (s.live s.cur.node) h then .wait s .hspace else .trap (trapped .illegalSequence)
    else writeS s d (BitVec.ofNat 64 (hSlot x (hFill x)))

/-- The count of HADV and HREL. -/
def hCount : Imm 6 → Nat
  | .short i => i.toNat
  | .lit w => w.toNat

/-- Advances FILL of an untied handle (R158). -/
def execHadv (o : HAdvOp) (s : State) : Host.Outcome State Fault Refusal :=
  run (.hadv o) (ringUse [.h o.h] [.h o.h]) s fun s =>
    let c := s.ctx s.cur
    let x := c.hr o.h
    let n := hCount o.n
    if !hValid x || hTie x != 0 || hFree x < n then .trap (trapped .illegalSequence)
    else .done (s.setCtx s.cur (c.setH o.h (hWith x (hFill x + n) (hDrain x)))) [.h o.h] .seq

/-- Releases filled slots (R158). -/
def execHrel (o : HAdvOp) (s : State) : Host.Outcome State Fault Refusal :=
  run (.hrel o) (ringUse [.h o.h] [.h o.h]) s fun s =>
    let c := s.ctx s.cur
    let x := c.hr o.h
    let n := hCount o.n
    if !hValid x || hFilled x < n then .trap (trapped .illegalSequence)
    else .done (s.setCtx s.cur (c.setH o.h (hWith x (hFill x) (hDrain x + n)))) [.h o.h] .seq

/-- Queries a handle (R158). -/
def execHq (d : SReg) (h : HReg) (s : State) : Host.Outcome State Fault Refusal :=
  run (.hq d h) (ringUse [.h h] [.s d]) s fun s =>
    let x := (s.ctx s.cur).hr h
    writeS s d (if hValid x then
      BitVec.ofNat 64 (hFilled x + hFree x * 2 ^ 16 + hFill x * 2 ^ 32 + hDrain x * 2 ^ 48) else 0)

end Sys2Proof.Machine
end

