-- ==== Sys2Proof/Machine/Copy.lean ====
section
/-! DEFINITION. Copy channels and tensor transfers: shape records, the COPY, CWAIT, CSTAT, QFENCE, CABORT and tensor
instructions, and what a channel moves (R151 to R154, R159 to R164). -/

namespace Sys2Proof.Machine

/-! ### Shape records (R160, R161) -/

/-- A dimension word: extent and the two signed strides. -/
def dimOf (w : Nat) : Nat × Int × Int := (natBits w 0 16, natSigned 24 (natBits w 16 24), natSigned 24 (natBits w 40 24))

/-- The record that 64 bytes hold, when they keep R160. -/
def shapeIn (x : Nat) : Option Shape :=
  let w0 := natBits x 0 64
  let nd := natBits w0 0 3
  let e := natBits w0 4 2
  let tr := natBits w0 8 7
  let tc := natBits w0 16 7
  let ws := (List.range 7).map fun d => natBits x (64 + 64 * d) 64
  let dims := (ws.take nd).map dimOf
  let ok := natBits w0 23 41 == 0 && !natBit w0 15 && natBits w0 6 2 == 0 && !natBit w0 3 &&
    1 ≤ nd && 1 ≤ tr && tr ≤ 64 && 1 ≤ tc && tc ≤ 64 && (nd != 1 || tr == 1) &&
    dims.all (fun d => d.1 != 0 && d.2.1 % (2 ^ e : Nat) == 0 && d.2.2 % (2 ^ e : Nat) == 0) &&
    (ws.drop nd).all (· == 0)
  if ok then some ⟨e, tr, tc, dims⟩ else none

/-- A record may stand at an offset: aligned, and backed by the own core, whose accumulator window counts too (DEDUCED, log 64). -/
def shapePlace (g off : Nat) : Bool := off % 64 == 0 && backed g (off + 63)

/-- How an instruction goes on from its shape record, once that can be read; split, its words are grants of their own
(R133, R134, R191, R247). -/
def withShape (s : State) (off : Nat) (k : Option Shape → Out) : Out :=
  if s.ownBusy s.cur off 64 then .stall s
  else if shapePlace s.cur.node off then ownWords s off 8 fun x => k (shapeIn x)
  else k none

/-- Element size in bytes. -/
def shEsz (sh : Shape) : Nat := 2 ^ sh.esz
/-- Bytes of one tile row, `64 × E` (R163). -/
def tileRow (sh : Shape) : Nat := 64 * shEsz sh
def shCount (sh : Shape) : Nat := sh.dims.foldl (fun n d => n * d.1) 1

/-- The tile rows and columns that are in bounds at coordinates `d`, as half-open ranges (R163). -/
def boundsOf (sh : Shape) (d : List Int) : (Nat × Nat) × (Nat × Nat) :=
  let cut (n : Nat) (x ext : Int) : Nat × Nat := ((max 0 (-x)).toNat, (min (n : Int) (ext - x)).toNat)
  let rest := ((d.zip sh.dims).drop 2).all fun p => 0 ≤ p.1 && p.1 < p.2.1
  let cols := cut sh.tcols (d.getD 0 0) (sh.dims.getD 0 (1, 0, 0)).1
  let rows := if sh.dims.length = 1 then (0, 1) else cut sh.trows (d.getD 1 0) (sh.dims.getD 1 (1, 0, 0)).1
  if rest then (rows, cols) else ((0, 0), (0, 0))

def span (r : Nat × Nat) : Nat := r.2 - r.1

/-- The tensor address of tile element `(i, j)`, relative to the base (R163). -/
def elemOff (sh : Shape) (d : List Int) (i j : Nat) : Int :=
  ((d.zip sh.dims).foldl (fun (acc : Int) p => acc + p.1 * p.2.2.1) 0) +
    (j : Int) * (sh.dims.getD 0 (0, 0, 0)).2.1 + (if sh.dims.length = 1 then 0 else (i : Int) * (sh.dims.getD 1 (0, 0, 0)).2.1)

/-- The tile byte of element `(i, j)`: the bank permutation of R163. -/
def tileByte (e i j : Nat) : Nat := i * (64 * e) + Nat.xor (j * e / 8) (i % (8 * e)) * 8 + j * e % 8

/-- The element and byte that a tile byte holds: the permutation inverted. -/
def tileElem (e t : Nat) : Nat × Nat × Nat :=
  let i := t / (64 * e)
  let r := t % (64 * e)
  let w := Nat.xor (r / 8) (i % (8 * e))
  (i, (w * 8 + r % 8) / e, r % 8 % e)

/-! ### What an entry moves -/

/-- The bytes of an entry (R152, R163, R164). -/
def xferTotal : Xfer → Nat
  | .bytes _ _ _ n => n
  | .shaped _ _ _ sh => shCount sh * shEsz sh
  | .tld _ _ _ _ _ total => total
  | .tst _ _ _ sh d =>
    let b := boundsOf sh d
    span b.1 * span b.2 * shEsz sh

/-- The index of element `n` of a shaped copy, dimension 0 fastest, as a byte displacement under a choice of stride. -/
def shapedOff (pick : Nat × Int × Int → Int) : List (Nat × Int × Int) → Nat → Int
  | [], _ => 0
  | d :: l, n => (n % d.1 : Nat) * pick d + shapedOff pick l (n / d.1)

/-- Byte `q` of an entry: where it is read (nothing for a zero byte) and where it is written, with their modes
(R152, R163). -/
def xferByte (x : Xfer) (q : Nat) : Option (Mode × Word) × (Mode × Word) :=
  let m (loc : Bool) : Mode := if loc then .loc else .as
  match x with
  | .bytes dst src mode _ => (some (mode, src + BitVec.ofNat 64 q), (mode, dst + BitVec.ofNat 64 q))
  | .shaped dst src mode sh =>
    let e := shEsz sh
    let at_ (pick : Nat × Int × Int → Int) : Word := BitVec.ofInt 64 (shapedOff pick sh.dims (q / e) + (q % e : Nat))
    (some (mode, src + at_ (·.2.1)), (mode, dst + at_ (·.2.2)))
  | .tld tile base loc sh d _ =>
    let e := shEsz sh
    let dst := (Mode.loc, BitVec.ofNat 64 (tile + q))
    let (i, j, b) := tileElem e q
    let bs := boundsOf sh d
    if i < sh.trows && bs.1.1 ≤ i && i < bs.1.2 && bs.2.1 ≤ j && j < bs.2.2 then
      (some (m loc, base + BitVec.ofInt 64 (elemOff sh d i j + b)), dst)
    else (none, dst)
  | .tst tile base loc sh d =>
    let e := shEsz sh
    let bs := boundsOf sh d
    let n := q / e
    let i := bs.1.1 + n / span bs.2
    let j := bs.2.1 + n % span bs.2
    (some (.loc, BitVec.ofNat 64 (tile + tileByte e i j + q % e)),
      (m loc, base + BitVec.ofInt 64 (elemOff sh d i j + (q % e : Nat))))

/-! ### Channels -/

/-- A join at the head of every channel that it names, or absent there, is satisfied (R154). -/
def Img.joinDone (m : Img) (id mask : Nat) : Bool :=
  (List.range 4).all fun k => !natBit mask k ||
    match (m.chan k).queue with
    | .join j _ :: _ => j == id || !((m.chan k).queue.contains (.join id mask))
    | q => !(q.contains (.join id mask))

/-- Remove satisfied joins, with fuel. -/
def Img.popSome : Nat → Img → Img
  | 0, m => m
  | n + 1, m =>
    let next := (List.range 4).findSome? fun k => match (m.chan k).queue with
      | .join id mask :: _ => if m.joinDone id mask then some (id, mask) else none
      | _ => none
    match next with
    | none => m
    | some (id, mask) =>
      Img.popSome n ((List.range 4).foldl (fun m k =>
        m.setChan k { m.chan k with queue := (m.chan k).queue.filter (· != .join id mask) }) m)

/-- Remove every satisfied join: each pass takes one out of the queues. -/
def Img.popJoins (m : Img) : Img := m.popSome ((List.range 4).map fun k => (m.chan k).queue.length).sum

/-- A CHAN record: event 0 issue, 1 complete, 2 stop (R384). -/
def State.chanRecord (s : State) (i : Inst) (ch event n : Nat) : State :=
  s.emitChev none i 6 ((s.live i.node).chan ch).wp (BitVec.ofNat 64 (ch + event * 256)) (BitVec.ofNat 64 n)

/-- Queue an entry on a channel. -/
def State.enqueue (s : State) (ch : Nat) (x : Xfer) (ring : Option Nat) : State :=
  let c := s.ctx s.cur
  let s := s.modLive s.cur.node fun m =>
    m.setChan ch { m.chan ch with queue := (m.chan ch).queue ++ [.entry x s.cur.ctx (!c.priv) s.nextId ring c.pc] }
  s.chanRecord s.cur ch 0 (xferTotal x)

/-- The issuer's check of a channel address: R28 and R30 alone (R152). -/
def State.chanAddr (s : State) (mode : Mode) (v : Word) : Option Trap :=
  match s.locate s.cur.node mode v.toNat with
  | none => some { cause := .protection, eaddr := v }
  | some _ => none

/-- The memory-instruction conditions under which an entry may be queued: no open acquire and room (R133, R152). -/
def State.chanReady (s : State) (ch : Nat) : Bool := !s.acqOpen s.cur && ((s.live s.cur.node).chan ch).entries < 16

def opFormat (off : Nat) : Trap := { cause := .operandFormat, eaddr := BitVec.ofNat 64 off }

/-- Queue a checked transfer when the channel has room. -/
def queueXfer (s : State) (ch : Nat) (x : Xfer) (ring : Option Nat) : Out :=
  if s.acqOpen s.cur then .stall s else if s.chanReady ch then .done (s.enqueue ch x ring) [] .seq else .wait s .room

/-- Queues a copy (R151, R152). -/
def execCopy (o : CopyOp) (s : State) : Host.Outcome State Fault Refusal :=
  run (.copy o) { reads := .s o.d :: .s o.a :: opndRegs o.b } s fun s =>
    let i := s.cur
    let c := s.ctx i
    let dst := c.sr o.d
    let src := c.sr o.a
    let b := c.opnd o.b
    match s.chanAddr o.mode dst, s.chanAddr o.mode src with
    | some t, _ => .trap t
    | none, some t => .trap t
    | none, none =>
      let off := b.toNat % 2 ^ 20
      if o.shape then
        withShape s off fun sh =>
          match sh.filter fun sh => shCount sh * shEsz sh < 2 ^ 32 with
          | some sh => queueXfer s o.ch (.shaped dst src o.mode sh) none
          | none => .trap (opFormat off)
      else if b.toNat < 2 ^ 32 then queueXfer s o.ch (.bytes dst src o.mode b.toNat) none
      else .trap (opFormat b.toNat)

/-- A channel number in rb (R154). -/
def chanUse (n : Fin 64) (writes : List Reg) : Use := { writes := writes, illegal := 3 < n.val }

/-- Waits for a channel, or raises its kept fault (R153, R154). -/
def execCwait (n : Fin 64) (s : State) : Host.Outcome State Fault Refusal :=
  run (.cwait n) (chanUse n []) s fun s =>
    let k := (s.live s.cur.node).chan n
    match k.stopped with
    | some t => .trap t
    | none => if k.entries = 0 then .done s [] .seq else .wait s .busy

/-- CSTAT's map (R154). -/
def chanStat (k : Chan) : Word :=
  let busy := match k.queue with
    | .entry _ _ _ _ _ _ :: _ => k.stopped.isNone
    | _ => false
  BitVec.ofNat 64 (k.entries + (if busy then 256 else 0) +
    match k.stopped with
    | some t => 512 + t.cause.code * 2 ^ 16
    | none => 0)

def execCstat (d : SReg) (n : Fin 64) (s : State) : Host.Outcome State Fault Refusal :=
  run (.cstat d n) (chanUse n [.s d]) s fun s => writeS s d (chanStat ((s.live s.cur.node).chan n))

/-- Places a join in each named channel (R154). -/
def execQfence (mask : Fin 64) (s : State) : Host.Outcome State Fault Refusal :=
  run (.qfence mask) { illegal := mask.val = 0 || 15 < mask.val } s fun s =>
    let (id, s) := s.newId
    .done (s.modLive s.cur.node fun m =>
      let m := (List.range 4).foldl (fun m k =>
        if natBit mask.val k then m.setChan k { m.chan k with queue := (m.chan k).queue ++ [.join id mask.val] } else m) m
      m.popJoins) [] .seq

/-- Discards a channel's entries and clears its fault; every write is acknowledged as it is made (R154, DESIGN CHOICE, log 22). -/
def execCabort (n : Fin 64) (s : State) : Host.Outcome State Fault Refusal :=
  run (.cabort n) (chanUse n []) s fun s =>
    .done (s.modLive s.cur.node fun m =>
      let m := m.setChan n {}
      let tied := (List.range 16).filter fun h => hValid (m.main.hr h) && hTie (m.main.hr h) == n.val + 4
      let m := { m with main := { m.main with part := tied.foldl (fun t h => Table.set 0 t h 0) m.main.part } }
      (m.changed (.wp n)).popJoins) [] .seq

/-! ### Tensor instructions -/

/-- What a tensor instruction uses: MAIN alone (R159). -/
def tenUse (reads writes : List Reg) : Use := { reads := reads, writes := writes, ctxs := [.main] }

/-- Checks a shape record and clears the coordinates (R161). -/
def execTshp (b : Opnd) (s : State) : Host.Outcome State Fault Refusal :=
  let ds := (List.range 7).map Reg.d
  run (.tshp b) (tenUse (opndRegs b) ds) s fun s =>
    let c := s.ctx s.cur
    let off := (c.opnd b).toNat % 2 ^ 20
    withShape s off fun sh =>
      match sh with
      | none => .trap (opFormat off)
      | some _ => .done (s.setCtx s.cur { c with d := [] }) ds .seq

/-- The coordinates d0 to d6. -/
def Ctx.coords (c : Ctx) : List Int := (List.range 7).map fun k => (c.dr k).toInt

/-- Bytes that a channel has been given and has not delivered. -/
def Chan.owed (k : Chan) : Nat :=
  (k.queue.foldl (fun n x => match x with
    | .entry x _ _ _ _ _ => n + xferTotal x
    | .join _ _ => n) 0) - k.prog

/-- The issuer's address checks of a tensor transfer, in operand order: the tile in rd, then the base in ra (R230). A record that breaks
R160 leaves only the tile's first byte to check. R163 gives no EADDR for an unbacked tile: it is the value of rd, all 64 bits
(DESIGN CHOICE, log 62). -/
def State.tileTrap (s : State) (rd : Option Word) (loc : Bool) (base : Word) (sh : Option Shape) : Option Trap :=
  let n := match sh with
    | some sh => sh.trows * tileRow sh
    | none => 1
  match rd with
  | some d =>
    if !backed s.cur.node (d.toNat % 2 ^ 20 + n - 1) then some { cause := .protection, eaddr := d }
    else s.chanAddr (if loc then .loc else .as) base
  | none => s.chanAddr (if loc then .loc else .as) base

/-- Queues a tile load, into a tile or into the ring slot that its bytes will fill (R159, R163, R164). -/
def execTld (o : TldOp) (s : State) : Host.Outcome State Fault Refusal :=
  let dr : Reg := match o.dst with
    | .tile d => .s d
    | .ring h => .h h
  run (.tld o) (tenUse (dr :: .s o.a :: opndRegs o.b) []) s fun s =>
    let i := s.cur
    let c := s.ctx i
    let base := c.sr o.a
    let off := (c.opnd o.b).toNat % 2 ^ 20
    let rd : Option Word := match o.dst with
      | .tile d => some (c.sr d)
      | .ring _ => none
    withShape s off fun sh =>
      match s.tileTrap rd o.loc base sh, sh with
      | some t, _ => .trap t
      | none, none => .trap (opFormat off)
      | none, some sh =>
        let n := sh.trows * tileRow sh
        match o.dst with
        | .tile d => queueXfer s o.ch (.tld ((c.sr d).toNat % 2 ^ 20) base o.loc sh c.coords n) none
        | .ring h =>
          let x := c.hr h
          if hValid x && 2 ^ hSz x < n then .trap (opFormat off)
          else if !hValid x || hTie x != o.ch.val + 4 then .trap (trapped .illegalSequence)
          else
            let k := (s.live i.node).chan o.ch
            let given := (Table.get 0 c.part h.val + k.owed) / 2 ^ hSz x
            if hFree x ≤ given then
              if ringRunning (s.live i.node) h then .wait s .busy else .trap (trapped .illegalSequence)
            else queueXfer s o.ch (.tld (hSlot x ((hFill x + given) % 65536)) base o.loc sh c.coords (2 ^ hSz x)) (some h.val)

/-- Queues a tile store (R159, R163). -/
def execTst (o : TstOp) (s : State) : Host.Outcome State Fault Refusal :=
  run (.tst o) (tenUse (.s o.d :: .s o.a :: opndRegs o.b) []) s fun s =>
    let i := s.cur
    let c := s.ctx i
    let off := (c.opnd o.b).toNat % 2 ^ 20
    withShape s off fun sh =>
      match s.tileTrap (some (c.sr o.d)) o.loc (c.sr o.a) sh, sh with
      | some t, _ => .trap t
      | none, none => .trap (opFormat off)
      | none, some sh => queueXfer s o.ch (.tst ((c.sr o.d).toNat % 2 ^ 20) (c.sr o.a) o.loc sh c.coords) none

/-- Moves a coordinate to or from an s register (R162). A literal of form XL replaces nothing (R159). -/
def execDmov (o : DmovOp) (s : State) : Host.Outcome State Fault Refusal :=
  match o with
  | .toD d a _ =>
    run (.dmov o) (tenUse [.s a] [.d d]) s fun s =>
      .done (s.modCtx s.cur fun c => c.setD d ((c.sr a).setWidth 32)) [.d d] .seq
  | .toS d a _ => run (.dmov o) (tenUse [.d a] [.s d]) s fun s => writeS s d (((s.ctx s.cur).dr a).signExtend 64)

/-- The odometer of R162 from dimension `d` on: the coordinates and the carry. -/
def odometer (sh : Shape) (c : Ctx) : List (Nat × Int × Int) → Nat → Ctx × Bool
  | [], _ => (c, true)
  | dim :: l, d =>
    let step := if d = 0 then sh.tcols else if d = 1 then sh.trows else 1
    let x := c.dr d + BitVec.ofNat 32 step
    if (dim.1 : Int) ≤ x.toInt then odometer sh (c.setD d 0) l (d + 1) else (c.setD d x, false)

/-- Advances the coordinates as an odometer (R162, DEDUCED, log 26). The manual gives no EADDR for k ≥ NDIM: it is the offset of the
shape record (DESIGN CHOICE, log 62). -/
def execDinc (o : DincOp) (s : State) : Host.Outcome State Fault Refusal :=
  run (.dinc o) (tenUse (opndRegs o.b) [.s o.d]) s fun s =>
    let c := s.ctx s.cur
    let off := (c.opnd o.b).toNat % 2 ^ 20
    withShape s off fun sh =>
      match sh with
      | none => .trap (opFormat off)
      | some sh =>
        if sh.dims.length ≤ o.k.val then .trap (opFormat off)
        else
          let r := odometer sh c (sh.dims.drop o.k.val) o.k.val
          .done (s.setCtx s.cur (r.1.setS o.d (Word.ofBool r.2))) [.s o.d] .seq

/-! ### The channel's transfer -/

/-- What one byte of a transfer needs: its place, and its home when it lies at a virtual address. It travels in the world of the
channel (R396). -/
def State.chanPlace (s : State) (i : Inst) (ns user : Bool) (mode : Mode) (need : Need) (v : Word) :
    State × Got (Place × Option Bool) :=
  match s.reachAs i ns user mode need v.toNat 1 with
  | (s, .error c e r) => (s, .error c e r)
  | (s, .held) => (s, .held)
  | (s, .ok p) => (s, .ok (p, s.nearOf i.node (s.partOf i) mode v.toNat))

/-- A running channel's access waits for the matrix unit (R191). -/
def State.chanBarred (s : State) (g : Nat) (wr : Bool) : Place → Bool
  | .spm t part off =>
    (s.node t).live.part == part && (if t = g then (s.live g).bars off 1 wr else (s.live t).barsFar off 1)
  | _ => false

/-- The fault that stops a channel: the sub-cause is the channel (R153), but for a machine-check, which has that of R233 and R382
(DESIGN CHOICE, log 22). Its fault record names the instruction that queued the entry (R378). -/
def chanFault (ch : Nat) (pc : Word) (wr : Bool) (c : Cause) (code : Nat) (remote : Bool) (v : Word) : Trap :=
  { cause := c, eaddr := v, code := if c = .machineCheck then code else ch, remote := remote
    access := { lane := ch, size := 1, acc := if wr then 6 else 5, epc := pc } }

/-- The progress of a group: the state, lines newly counted, the bytes read, and how it ended. -/
structure GroupRun where
  st    : State
  seen  : List Nat
  got   : List Nat := []
  fault : Option Trap := none
  barred : Bool := false

/-- The group can go on. -/
def GroupRun.open_ (r : GroupRun) : Bool := r.fault.isNone && !r.barred

/-- Count a line of the running entry once (R20). -/
def GroupRun.line (r : GroupRun) (i : Inst) (near : Option Bool) (v : Word) (wr : Bool) : GroupRun :=
  match near with
  | none => r
  | some _ =>
    let k := 2 * (v.toNat / 64) + (if wr then 1 else 0)
    if r.seen.contains k then r
    else { r with seen := k :: r.seen, st := r.st.modCtx i fun c => c.countHome near }

/-- Read bytes `q`, `q + 1`, … of an entry in ascending order (R152). -/
def groupRead (i : Inst) (ns user : Bool) (ch : Nat) (pc : Word) (x : Xfer) : Nat → Nat → GroupRun → GroupRun
  | 0, _, r => r
  | n + 1, q, r =>
    let r' : GroupRun := match (xferByte x q).1 with
      | none => { r with got := r.got ++ [0] }
      | some (m, v) =>
        match r.st.chanPlace i ns user m .chRead v with
        | (s, .error c e far) => { r with st := s, fault := some (chanFault ch pc false c e far v) }
        | (s, .held) => { r with st := s, barred := true }
        | (s, .ok (p, near)) =>
          if s.bad p then { r with st := s, fault := some (chanFault ch pc false .machineCheck 2 false v) }
          else if s.chanBarred i.node false p then { r with st := s, barred := true }
          else ({ r with st := s, got := r.got ++ [s.readPlace p 1] }).line i near v false
    if r'.open_ then groupRead i ns user ch pc x n (q + 1) r' else r'

/-- Write the bytes read to their places, from byte `q` on: the first pass only checks, the second moves. -/
def groupWrite (i : Inst) (ns user : Bool) (ch : Nat) (pc : Word) (x : Xfer) (move : Bool) : List Nat → Nat → GroupRun → GroupRun
  | [], _, r => r
  | b :: bs, q, r =>
    let (m, v) := (xferByte x q).2
    let r' : GroupRun := match r.st.chanPlace i ns user m .chWrite v with
      | (s, .error c e far) => { r with st := s, fault := some (chanFault ch pc true c e far v) }
      | (s, .held) => { r with st := s, barred := true }
      | (s, .ok (p, near)) =>
        if s.chanBarred i.node true p then { r with st := s, barred := true }
        else if move then ({ r with st := s.writePlace p 1 b }).line i near v true
        else { r with st := s }
    if r'.open_ then groupWrite i ns user ch pc x move bs (q + 1) r' else r'

/-- FILL advances by a slot for each `2^SZ` bytes delivered, never beyond CNT (R157). -/
def fillSteps (h : BitVec 128) : Nat → Nat → BitVec 128 × Nat
  | 0, part => (h, part)
  | n + 1, part =>
    if part < 2 ^ hSz h then (h, part)
    else fillSteps (if hFilled h < hCnt h then hWith h (hFill h + 1) (hDrain h) else h) n (part - 2 ^ hSz h)

/-- WPk advances over `n` bytes, and with it the FILL of handles tied to the channel (R152, R157). -/
def Img.wpAdvance (m : Img) (k n : Nat) : Img :=
  let ch := m.chan k
  let m := (m.setChan k { ch with wp := ch.wp + BitVec.ofNat 64 n }).changed (.wp k)
  (List.range 16).foldl (fun m h =>
    let x := m.main.hr h
    if hValid x && hTie x == k + 4 then
      let r := fillSteps x (n + 1) (Table.get 0 m.main.part h + n)
      let m := { m with main := { m.main.setH h r.1 with part := Table.set 0 m.main.part h r.2 } }
      if r.1 = x then m else m.changed (.fill h)
    else m) m

/-- What the next group of a channel would do: nothing, or wait, with what its walks have left in caches and logs; fault; or the state
after a half of it. -/
inductive GroupAns where
  | idle (s : State)
  | fault (s : State) (t : Trap)
  | moved (s : State)

/-- How a half of a group ends: `k` has the state after it. -/
def GroupRun.answer (r : GroupRun) (s : State) (i : Inst) (k : GroupRun → State) : GroupAns :=
  match r.fault with
  | some t => .fault (s.keepWalks r.st i) t
  | none => if r.barred then .idle (s.keepWalks r.st i) else .moved (k r)

/-- The head entry's next group is read whole, and when that is done written whole, or meets its fault; reads and writes are grants
of their own (R152, R153, R247, DESIGN CHOICE, log 22). -/
def State.nextGroup (s : State) (g ch : Nat) : GroupAns :=
  let k := (s.live g).chan ch
  match k.queue with
  | .entry x ctx user after _ pc :: _ =>
    let i : Inst := ⟨g, ctx⟩
    let ns := (s.node g).chNs.getLsbD ch
    let n := min 64 (xferTotal x - k.prog)
    let own := (s.mine i).any fun m => m.id < after && m.req.isMem && m.unperformed && (match m.tgt with
      | .node t _ => t == g
      | _ => false)
    if n = 0 || k.stopped.isSome || own || !s.up (pkgOf g) then .idle s
    else
      match k.buf with
      | none =>
        (groupRead i ns user ch pc x n k.prog { st := s, seen := k.seen }).answer s i fun r => r.st.modLive g fun m =>
          m.setChan ch { m.chan ch with buf := some r.got, seen := r.seen }
      | some bs =>
        (groupWrite i ns user ch pc x false bs k.prog { st := s, seen := [] }).answer s i fun _ =>
          let r := groupWrite i ns user ch pc x true bs k.prog { st := s, seen := k.seen }
          r.st.modLive g fun m =>
            let k := m.chan ch
            (m.setChan ch { k with prog := k.prog + n, seen := r.seen, buf := none }).wpAdvance ch n
  | _ => .idle s

end Sys2Proof.Machine
end

