-- ==== Sys2Proof/Machine/Mat.lean ====
section
/-! DEFINITION. The gang matrix operation: GMMA, its Chord, start and completion (R186 to R191). -/

namespace Sys2Proof.Machine

/-! ### Tiles -/

/-- What the matrix instructions use: MAIN and WORK of a compute core (R186, R192). -/
def matUse (s : State) (reads writes : List Reg) : Use :=
  { reads := reads, writes := writes, ctxs := [.main, .work], illegal := isCaldera s.cur.node }

/-- Element `(i, j)` of an accumulator tile in its FP64 or 4-byte view (R34, R35). -/
def Img.tileElem (m : Img) (t : Nat) (f64 : Bool) (i j : Nat) : Nat :=
  let e := if f64 then 8 else 4
  m.spm.readNat ((tileRange t f64).1 + (i * 64 + j) * e) e

/-- Element `(i, j)` of a 64 × 64 scratchpad tile of `e`-byte elements (R163). -/
def Img.padElem (m : Img) (off e i j : Nat) : Nat := m.spm.readNat (off + tileByte e i j) e

/-- Write all elements of an accumulator tile, FE bits unchanged. -/
def Img.setTile (m : Img) (t : Nat) (f64 : Bool) (f : Nat → Nat → Nat) : Img :=
  let e := if f64 then 8 else 4
  { m with spm := (List.range 4096).foldl (fun p k =>
      p.writeNat ((tileRange t f64).1 + k * e) e (f (k / 64) (k % 64))) m.spm
           dirty := markDirty m.dirty (tileRange t f64).1 (tileRange t f64).2 }

/-- Set the OVF flags of a tile, of both tiles of an FP64 pair (R36). -/
def ovfBits (t : Nat) (f64 : Bool) : BitVec 4 :=
  if f64 then BitVec.ofNat 4 (3 * 2 ^ (t / 2 * 2)) else BitVec.ofNat 4 (2 ^ t)

/-! ### GMMA -/

/-- An operand word that R188 refuses, or its source and ORDER. A tile may lie in the accumulator window, or run into it (DEDUCED, log 64). -/
def gmmaSrc (s : State) (i : Inst) (o : GmmaOp) (isA : Bool) (w : Word) : Option (GSrc × Bool) :=
  let x := w.toNat
  let e := o.p.src.bytes
  let f64 := pairIs64 o.p
  let ord := natBit x 61
  let low := natBits x 0 20
  if natBits x 20 41 ≠ 0 || (ord && e < 4) then none
  else
    match natBits x 62 2 with
    | 0 => if low % 256 ≠ 0 || !backed i.node (low + 4096 * e - 1) then none else some (.tile low, ord)
    | 1 =>
      let h := (s.ctx i).hr (low % 16)
      if 16 ≤ low || i.ctx != .main || !hValid h || 2 ^ hSz h < 4096 * e then none
      else some (.ring low (hSlot h (hDrain h)), ord)
    | 2 =>
      let t : Tile := Fin.ofNat 4 low
      let same := if f64 then t.val / 2 == o.t.val / 2 || t.val % 2 == 1 else t == o.t
      if 4 ≤ low || !isA || same then none else some (.acc t, ord)
    | _ => none

/-- A ring operand has a filled slot, or waits for one, or never will (R158, R189). -/
def ringState (s : State) (i : Inst) : GSrc → Option Bool
  | .ring h _ =>
    let x := (s.ctx i).hr h
    if 1 ≤ hFilled x then some true else if tiedBusy (s.live i.node) x then some false else none
  | _ => some true

/-- GMMA captures its operands with GANGW and GSTAG when it issues, waits for the matrix unit and its rings, and arrives at the Chord,
once the context's earlier accesses to the own banks are performed (R25, R134, R189, R251). For an FP64 destination of acc1 or acc3,
whose trap names no one operand word, EADDR has A's (R188, DESIGN CHOICE, log 66). -/
def execGmma (o : GmmaOp) (s : State) : Host.Outcome State Fault Refusal :=
  run (.gmma o) (matUse s [.s o.a, .s o.b] []) s fun s =>
    let i := s.cur
    let c := s.ctx i
    let m := s.live i.node
    let bad (w : Word) : Out := .trap { cause := .operandFormat, eaddr := w }
    let (gw, gt) : Nat × Nat := match c.wait with
      | .gmma w t => (w, t)
      | _ => (m.gangw.toNat, m.gstag.toNat)
    match gmmaSrc s i o true (c.sr o.a), gmmaSrc s i o false (c.sr o.b) with
    | none, _ => bad (c.sr o.a)
    | _, none => bad (c.sr o.b)
    | some a, some b =>
      if pairIs64 o.p && o.t.val % 2 == 1 then bad (c.sr o.a)
      else if i.ctx == .work && gw != 0 then .trap (trapped .illegalSequence)
      else if s.acqOpen i then .stall s
      else
        match ringState s i a.1, ringState s i b.1 with
        | some x, some y =>
          if !x || !y || m.gmma.isSome || s.ownPending i 0 256 || s.ownPending i 0x80000 256 then .wait s (.gmma gw gt)
          else
            let g : Gmma := { ctx := i.ctx, pair := o.p, tile := o.t, gangw := gw, gstag := gt
                              a := a.1, b := b.1, aOrd := a.2, bOrd := b.2, env := (c.wtop, c.srseed, c.ictr)
                              phase := .arrived }
            .done (s.modLive i.node fun m => { m with gmma := some g }) [] .seq
        | _, _ => .trap (trapped .illegalSequence)

/-! ### The Chord (R189, R190) -/

/-- A core's place in its gang, and the gang's nodes. -/
def gangPos (g w : Nat) : Nat := (xOf g - col0 g) % 2 ^ w
def gangOf (g w : Nat) : List Nat := (List.range (2 ^ w)).map fun k => g - gangPos g w + k

/-- The member's operation when it stands at the same Chord. -/
def State.chordOf (s : State) (g w t : Nat) : Option Gmma :=
  if (s.live t).part != (s.live g).part then none
  else
    match (s.live t).gmma with
    | some x => if x.gangw = w then some x else none
    | none => none

def Gmma.isArrived (x : Gmma) : Bool := match x.phase with
  | .arrived => true
  | _ => false
def Gmma.isClosed (x : Gmma) : Bool := match x.phase with
  | .closed _ => true
  | _ => false

/-- The A operand word of a captured GMMA (R187). -/
def Gmma.wordA (x : Gmma) : Word :=
  BitVec.ofNat 64 ((if x.aOrd then 2 ^ 61 else 0) + match x.a with
    | .tile off => off
    | .ring h _ => 2 ^ 62 + h
    | .acc t => 2 ^ 63 + t.val)

/-- Abandon the operations of nodes, each taking a trap at its next boundary (R190). -/
def State.abandon (s : State) (gang : List Nat) (t : Gmma → Trap) : State :=
  gang.foldl (fun s n => match (s.live n).gmma with
    | some x =>
      (s.modLive n fun m => { m with gmma := none }).modCtx ⟨n, x.ctx⟩ fun c => { c with deferred := c.deferred ++ [t x] }
    | none => s) s

/-- A member runs no grain of the launch (R190). -/
def State.strays (s : State) (g : Nat) (gang : List Nat) : Bool :=
  match (s.live g).main.act with
  | .grain l _ => gang.any fun n => match (s.live n).main.act with
    | .grain k _ => k != l
    | _ => true
  | _ => true

/-- The Chord of a core's arrived operation closes, or abandons it; on a stopped core an arrival stays open (R190, R394, DEDUCED,
log 52). -/
def execChordClose (node : Nat) (s : State) : Host.Outcome State Fault Refusal :=
  .next (match (s.live node).gmma with
    | none => s
    | some x =>
      let gang := gangOf node x.gangw
      let ops := gang.filterMap fun n => (s.chordOf node x.gangw n).map fun y => (n, y)
      let here := (ops.filter fun y => y.2.isArrived).map (·.1)
      if !x.isArrived || !s.up (pkgOf node) || gang.any fun n => (s.node n).stop.isSome then s
      else if 1 < gang.length && s.strays node gang then
        s.abandon here fun _ => { cause := .illegalSequence, code := 5 }
      else if here.length < gang.length then s
      else if ops.any fun y => y.2.pair != x.pair then
        s.abandon gang fun y => { cause := .operandFormat, code := 1, eaddr := y.wordA }
      else
        gang.foldl (fun s n =>
          let cyc := (s.node n).cycle
          let s := (s.modLive n fun m => { m with gmma := m.gmma.map fun y =>
            { y with phase := .closed (cyc.toNat + gangPos n y.gangw * y.gstag) } }).clockCheck n
          match (s.live n).gmma with
          | some y =>
            s.emitChev none ⟨n, y.ctx⟩ 7 cyc (BitVec.ofNat 64 (y.gangw + y.gstag * 8)) (BitVec.ofNat 64 (xOf node - gangPos node x.gangw))
          | none => s) s)

/-! ### The operation (R63, R189) -/

/-- Cycles of an operation (R186). -/
def gmmaCycles : DotPair → Nat
  | .f64 _ => 4096
  | .f32 _ => 2048
  | .f16 _ | .bf16 _ => 512
  | .w8 _ | .i8 => 128

def Gmma.renv (x : Gmma) : REnv := ⟨x.env.1, x.env.2.1.toNat, x.env.2.2.toNat⟩

/-- The code of row `r`, column `c` of an operand under ORDER, as its storage holds it (R187). -/
def Gmma.code (x : Gmma) (m : Img) (src : GSrc) (ord : Bool) (r c : Nat) : Nat :=
  let (i, j) := if ord then (c, r) else (r, c)
  match src with
  | .tile off | .ring _ off => m.padElem off x.pair.src.bytes i j
  | .acc t => m.tileElem t.val (pairIs64 x.pair) i j

/-- A code as the operation takes it: that of a tile is rounded by the down-converter; `e` is its element index (R187, R189).
A view that FMTA equals is copied, as R62 has a conversion to the format itself do: a signalling NaN stays one (DEDUCED, log 70). -/
def Gmma.taken (x : Gmma) (src : GSrc) (e code : Nat) : Rounded :=
  match src with
  | .tile _ | .ring _ _ => ⟨code, 0, false⟩
  | .acc _ => convert (if pairIs64 x.pair then .f64 else .f32) x.pair.src x.renv x.pair.rm e code

/-- The number of k that each member of a gang supplies. -/
def sliceLen (w : Nat) : Nat := 64 / 2 ^ w

/-- The codes of the slice of A that the member in place `j` supplies, row by row, and of its B. -/
def Gmma.codesA (x : Gmma) (m : Img) (j : Nat) : List Nat :=
  (List.range 64).flatMap fun i => (List.range (sliceLen x.gangw)).map fun k => x.code m x.a x.aOrd i (j * sliceLen x.gangw + k)
def Gmma.codesB (x : Gmma) (m : Img) : List Nat :=
  (List.range 64).flatMap fun k => (List.range 64).map fun n => x.code m x.b x.bOrd k n

/-- Each element is read old or new (R191, DESIGN CHOICE, log 30): `t` numbers the reading, `e` the first element. -/
def mixCodes (t e : Nat) : List Nat → List Nat → List Nat
  | a :: old, b :: new => (if a = b then a else if Config.readsNew t e then b else a) :: mixCodes t (e + 1) old new
  | _, _ => []

/-- What a member reads: its operation, its place, and the codes of its slice of A and of its B. -/
structure GRead where
  node : Nat
  op   : Gmma
  stop : Nat
  a    : List Nat
  b    : List Nat
  deriving DecidableEq, Repr

/-- The members of a gang that have started and not read yet, with what they read now; reading `s.fresh`. -/
def State.gangReads (s : State) (gang : List Nat) : List GRead :=
  gang.filterMap fun n =>
    match (s.live n).gmma with
    | some x =>
      match x.phase with
      | .reading stop a b =>
        let j := gangPos n x.gangw
        some ⟨n, x, stop, mixCodes s.fresh (8192 * j) a (x.codesA (s.live n) j), mixCodes s.fresh (8192 * j + 4096) b (x.codesB (s.live n))⟩
      | _ => none
    | none => none

/-- A(i, k) and B(k, n) as read, by the member that supplies them. -/
def GRead.elemA (r : GRead) (i k : Nat) : Rounded :=
  r.op.taken r.op.a (i * 64 + k) (r.a.getD (i * sliceLen r.op.gangw + k % sliceLen r.op.gangw) 0)
def GRead.elemB (r : GRead) (k n : Nat) : Rounded := r.op.taken r.op.b (k * 64 + n) (r.b.getD (k * 64 + n) 0)

/-- Row `i` of A, each k from the member that supplies it. -/
def gangRow (rs : List GRead) (gang : List Nat) (w i : Nat) : List Nat :=
  (List.range 64).map fun k =>
    match rs.find? fun r => r.node == gang.getD (k / sliceLen w) 0 with
    | some r => (r.elemA i k).bits
    | none => 0

/-- The results of a member, row by row. -/
def GRead.result (r : GRead) (m : Img) (rs : List GRead) (gang : List Nat) : List (List (Nat × FFlags)) :=
  (List.range 64).map fun i =>
    let row := gangRow rs gang r.op.gangw i
    (List.range 64).map fun n =>
      let col := (List.range 64).map fun k => (r.elemB k n).bits
      dotProduct r.op.pair r.op.renv (i * 64 + n) 4 (m.tileElem r.op.tile.val (pairIs64 r.op.pair) i n) ((row.zip col).map some)

/-- What the member's own down-converted slice raises. -/
def GRead.sliceFlags (r : GRead) : FFlags × BitVec 4 :=
  match r.op.a with
  | .acc t =>
    let n := sliceLen r.op.gangw
    let xs := (List.range 64).flatMap fun i => (List.range n).map fun k => r.elemA i (gangPos r.node r.op.gangw * n + k)
    (xs.foldl (fun a y => a ||| y.flags) 0, if xs.any (·.ovf) then ovfBits t.val (pairIs64 r.op.pair) else 0)
  | _ => (0, 0)

/-- A member has read: its tile takes the results, which nothing sees before completion. -/
def State.gangWrite (s : State) (rs : List GRead) (gang : List Nat) (r : GRead) : State :=
  let rows := r.result (s.live r.node) rs gang
  let fl := rows.foldl (fun a row => row.foldl (fun a y => a ||| y.2) a) (0 : FFlags)
  let own := r.sliceFlags
  s.modLive r.node fun m =>
    { m.setTile r.op.tile.val (pairIs64 r.op.pair) fun i n => ((rows.getD i []).getD n (0, 0)).1 with
      gmma := some { r.op with phase := .running r.stop (fl ||| own.1) own.2 } }

/-- A member starts once every member before it has; once all have started, and before one completes, the gang reads its operands, each
element as it stood at the start or as it stands now (R189, R191, DESIGN CHOICE, log 30). -/
def execGmmaStart (node : Nat) (s : State) : Host.Outcome State Fault Refusal :=
  .next (match (s.live node).gmma with
    | none => s
    | some x =>
      let gang := gangOf node x.gangw
      let j := gangPos node x.gangw
      let waits (l : List Nat) : Bool := l.any fun n => ((s.live n).gmma.map (·.isClosed)).getD false
      let cyc := (s.node node).cycle.toNat
      if !s.up (pkgOf node) then s
      else
        match x.phase with
        | .closed start =>
          if cyc < start || waits (gang.take j) then s
          else s.modLive node fun m => { m with gmma := some { x with
            phase := .reading (cyc + gmmaCycles x.pair) (x.codesA m j) (x.codesB m) } }
        | .reading _ _ _ =>
          if waits gang then s
          else
            let rs := s.gangReads gang
            rs.foldl (fun s r => s.gangWrite rs gang r) { s with fresh := s.fresh + 1 }
        | _ => s)

/-- Release a ring slot as HREL 1 does. -/
def Ctx.releaseRing (c : Ctx) (h : Nat) : Ctx :=
  let x := c.hr h
  if hValid x && 1 ≤ hFilled x then c.setH h (hWith x (hFill x) (hDrain x + 1)) else c

/-- The rings of a GMMA, each once. -/
def Gmma.rings (x : Gmma) : List Nat :=
  ([x.a, x.b].filterMap fun y => match y with
    | .ring h _ => some h
    | _ => none).eraseDups

/-- A GMMA whose gang has read completes once its cycles have passed: its flags, and the release of its rings and tiles (R189, R191). -/
def execGmmaComplete (node : Nat) (s : State) : Host.Outcome State Fault Refusal :=
  .next (match (s.live node).gmma with
    | none => s
    | some x =>
      match x.phase with
      | .running stop fl ovf =>
        if (s.node node).cycle.toNat < stop || !s.up (pkgOf node) then s
        else
          let s := s.modLive node fun m =>
            x.rings.foldl (fun m h => m.changed (.fill h)) { m with gmma := none, ovf := m.ovf ||| ovf }
          (s.modCtx ⟨node, x.ctx⟩ fun c => x.rings.foldl Ctx.releaseRing (c.raise fl)).clockCheck node
      | _ => s)

end Sys2Proof.Machine
end

