-- ==== Sys2Proof/Machine/Mem.lean ====
section
/-! DEFINITION. Loads, stores, full/empty operations and atomics (R136, R137, R139, R144, R145). -/

namespace Sys2Proof.Machine

/-! ### Loads and stores -/

/-- The displacement of a load or store: scaled by the size, or a literal byte count (R137). -/
def offBytes (off : Imm 10) (n : Nat) : Word :=
  match off with
  | .short i => BitVec.ofInt 64 (i.toInt * n)
  | .lit w => w

/-- A scalar load of `n` bytes at `v` (R137). -/
def loadOp (d : Nat) (mode : Mode) (n : Nat) (sx : Bool) (acq : Option Scope) (v : Word) : MemOp :=
  { need := .load, mode := mode, size := n, lanes := [⟨0, v, .load n⟩], dst := .s d n sx, acq := acq }

/-- A scalar store of the low `n` bytes of a value at `v` (R137). -/
def storeOp (x : Word) (mode : Mode) (n : Nat) (rel : Option Scope) (v : Word) : MemOp :=
  let x := BitVec.ofNat 64 (x.toNat % 2 ^ (8 * n))
  { need := .store, mode := mode, size := n, lanes := [⟨0, v, .store n x⟩], dst := .none, rel := rel, data := x }

/-- The size and address of LD and ST (R137). -/
def ldBytes (o : LdOp) : Nat := (o.x.map fun x => x.sz.bytes).getD 8
def ldAddr (o : LdOp) (c : Ctx) : Word := c.sr o.a + offBytes o.off (ldBytes o)
def stBytes (o : StOp) : Nat := (o.x.map fun x => x.sz.bytes).getD 8
def stAddr (o : StOp) (c : Ctx) : Word := c.sr o.a + offBytes o.off (stBytes o)

def ldMem (o : LdOp) (c : Ctx) : MemOp :=
  loadOp o.d o.mode (ldBytes o) ((o.x.map fun x => x.sx).getD false) (o.x.bind fun x => x.acq) (ldAddr o c)
def stMem (o : StOp) (c : Ctx) : MemOp := storeOp (c.sr o.d) o.mode (stBytes o) (o.x.bind fun x => x.rel) (stAddr o c)
def ldxMem (o : LdxOp) (c : Ctx) : MemOp := loadOp o.d o.mode o.x.sz.bytes o.x.sx o.x.acq (c.sr o.a + c.sr o.c)
def stxMem (o : StxOp) (c : Ctx) : MemOp := storeOp (c.sr o.d) o.mode o.x.sz.bytes o.x.rel (c.sr o.a + c.sr o.c)

def ldUse (o : LdOp) : Use := { reads := [.s o.a], writes := [.s o.d] }
def stUse (o : StOp) : Use := { reads := [.s o.d, .s o.a] }
def ldxUse (o : LdxOp) : Use := { reads := [.s o.a, .s o.c], writes := [.s o.d] }
def stxUse (o : StxOp) : Use := { reads := [.s o.d, .s o.a, .s o.c] }

def execLd (o : LdOp) (s : State) : Host.Outcome State Fault Refusal :=
  run (.ld o) (ldUse o) s fun s => memory s (ldMem o (s.ctx s.cur))
def execSt (o : StOp) (s : State) : Host.Outcome State Fault Refusal :=
  run (.st o) (stUse o) s fun s => memory s (stMem o (s.ctx s.cur))
def execLdx (o : LdxOp) (s : State) : Host.Outcome State Fault Refusal :=
  run (.ldx o) (ldxUse o) s fun s => memory s (ldxMem o (s.ctx s.cur))
def execStx (o : StxOp) (s : State) : Host.Outcome State Fault Refusal :=
  run (.stx o) (stxUse o) s fun s => memory s (stxMem o (s.ctx s.cur))

/-! ### Full/empty operations -/

/-- An FE operation that returns a value (R139, R140). -/
def feReadMem (o : FeOpnds) (op : FeOp) (c : Ctx) : MemOp :=
  { need := .fe op, mode := o.mode, size := 8, lanes := [⟨0, c.sr o.a + c.opnd o.b, .fe op 0⟩]
    dst := .s o.d 8 false, acq := o.x.bind id }

/-- An FE operation that stores (R139, R140). -/
def feWriteMem (o : FeOpnds) (op : FeOp) (c : Ctx) : MemOp :=
  { need := .fe op, mode := o.mode, size := 8, lanes := [⟨0, c.sr o.a + c.opnd o.b, .fe op (c.sr o.d)⟩]
    dst := .none, rel := o.x.bind id, data := c.sr o.d }

/-- FECLR has no data register (R139). -/
def feClrMem (o : FeClr) (c : Ctx) : MemOp :=
  { need := .fe .feclr, mode := o.mode, size := 8, lanes := [⟨0, c.sr o.a + c.opnd o.b, .fe .feclr 0⟩]
    dst := .none, rel := o.x.bind id }

def feReadUse (o : FeOpnds) : Use := { reads := .s o.a :: opndRegs o.b, writes := [.s o.d] }
def feWriteUse (o : FeOpnds) : Use := { reads := .s o.d :: .s o.a :: opndRegs o.b }
def feClrUse (o : FeClr) : Use := { reads := .s o.a :: opndRegs o.b }

def feRead (x : Instr) (op : FeOp) (o : FeOpnds) (s : State) : Host.Outcome State Fault Refusal :=
  run x (feReadUse o) s fun s => memory s (feReadMem o op (s.ctx s.cur))
def feWrite (x : Instr) (op : FeOp) (o : FeOpnds) (s : State) : Host.Outcome State Fault Refusal :=
  run x (feWriteUse o) s fun s => memory s (feWriteMem o op (s.ctx s.cur))

def execLdf (o : FeOpnds) (s : State) : Host.Outcome State Fault Refusal := feRead (.ldf o) .ldf o s
def execTake (o : FeOpnds) (s : State) : Host.Outcome State Fault Refusal := feRead (.take o) .take o s
def execFeqFe (o : FeOpnds) (s : State) : Host.Outcome State Fault Refusal := feRead (.feqFe o) .feq o s
def execPutf (o : FeOpnds) (s : State) : Host.Outcome State Fault Refusal := feWrite (.putf o) .putf o s
def execStf (o : FeOpnds) (s : State) : Host.Outcome State Fault Refusal := feWrite (.stf o) .stf o s
def execSte (o : FeOpnds) (s : State) : Host.Outcome State Fault Refusal := feWrite (.ste o) .ste o s
def execFeclr (o : FeClr) (s : State) : Host.Outcome State Fault Refusal :=
  run (.feclr o) (feClrUse o) s fun s => memory s (feClrMem o (s.ctx s.cur))

/-! ### Atomics -/

def annAcq : Ann → Option Scope
  | .acq sc => some sc
  | _ => none
def annRel : Ann → Option Scope
  | .rel sc => some sc
  | _ => none

/-- What an atomic writes: nothing when rd is s0 (R145). -/
def atomWrites (d : SReg) : List Reg := if d = 0 then [] else [.s d]

/-- An atomic of `n` bytes (R145). A posted one has rd = s0. -/
def atomicOp (c : Ctx) (f : AtomFn) (n : Nat) (d : SReg) (a : SReg) (b : Opnd) (cmp : Word) (rm : RMode) (mode : Mode)
    (ann : Ann) : MemOp :=
  let x := BitVec.ofNat 64 ((c.opnd b).toNat % 2 ^ (8 * n))
  { need := .atomic, mode := mode, size := n, lanes := [⟨0, c.sr a, .atom f n x cmp rm c.env⟩]
    dst := if d = 0 then .none else .s d n false, acq := annAcq ann, rel := annRel ann, data := x
    opb := if f = .cas then cmp else 0 }

def aszBytes : ASz → Nat
  | .w => 4
  | .d => 8

def atomUse (d a : SReg) (b : Opnd) (more : List Reg) : Use :=
  { reads := .s a :: more ++ opndRegs b, writes := atomWrites d }

def atomMem (o : AtomOp) (f : AtomFn) (c : Ctx) : MemOp :=
  atomicOp c f ((o.x.map fun x => aszBytes x.sz).getD 8) o.d o.a o.b 0 .rne o.mode ((o.x.map fun x => x.ann).getD .none)
def casMem (o : CasOp) (c : Ctx) : MemOp :=
  atomicOp c .cas (aszBytes o.x.sz) o.d o.a o.b (c.sr o.c) .rne o.mode o.x.ann
def afaddBytes (o : AfaddOp) : Nat :=
  match (o.x.map fun x => x.p).getD .f64 with
  | .f64 => 8
  | .f32 => 4
def afaddMem (o : AfaddOp) (c : Ctx) : MemOp :=
  atomicOp c .fadd (afaddBytes o) o.d o.a o.b 0 ((o.x.map fun x => x.rm).getD .rne) o.mode ((o.x.map fun x => x.ann).getD .none)

def atomOp (x : Instr) (f : AtomFn) (o : AtomOp) (s : State) : Host.Outcome State Fault Refusal :=
  run x (atomUse o.d o.a o.b []) s fun s => memory s (atomMem o f (s.ctx s.cur))

def execAadd (o : AtomOp) (s : State) : Host.Outcome State Fault Refusal := atomOp (.aadd o) .add o s
def execAand (o : AtomOp) (s : State) : Host.Outcome State Fault Refusal := atomOp (.aand o) .and o s
def execAor (o : AtomOp) (s : State) : Host.Outcome State Fault Refusal := atomOp (.aor o) .or o s
def execAxor (o : AtomOp) (s : State) : Host.Outcome State Fault Refusal := atomOp (.axor o) .xor o s
def execAmin (o : AtomOp) (s : State) : Host.Outcome State Fault Refusal := atomOp (.amin o) .min o s
def execAmax (o : AtomOp) (s : State) : Host.Outcome State Fault Refusal := atomOp (.amax o) .max o s
def execAminu (o : AtomOp) (s : State) : Host.Outcome State Fault Refusal := atomOp (.aminu o) .minu o s
def execAmaxu (o : AtomOp) (s : State) : Host.Outcome State Fault Refusal := atomOp (.amaxu o) .maxu o s
def execAswp (o : AtomOp) (s : State) : Host.Outcome State Fault Refusal := atomOp (.aswp o) .swp o s
def execAcas (o : CasOp) (s : State) : Host.Outcome State Fault Refusal :=
  run (.acas o) (atomUse o.d o.a o.b [.s o.c]) s fun s => memory s (casMem o (s.ctx s.cur))
def execAfadd (o : AfaddOp) (s : State) : Host.Outcome State Fault Refusal :=
  run (.afadd o) (atomUse o.d o.a o.b []) s fun s => memory s (afaddMem o (s.ctx s.cur))

end Sys2Proof.Machine
end

