-- ==== Sys2Proof/Machine/Vmem.lean ====
section
/-! DEFINITION. Vector memory instructions (R205 to R207, R210 to R213). -/

namespace Sys2Proof.Machine

/-- Lane `l` of `e` bytes is active under a predicate (R206). -/
def laneOn (p : BitVec 16) (e l : Nat) : Bool := p.getLsbD (l * e / 4)

/-- The active lanes at a width. -/
def activeLanes (p : BitVec 16) (e : Nat) : List Nat := (List.range (64 / e)).filter (laneOn p e)

/-- What an extension of a vector load gives, or the base form's values (R210). -/
structure VMode where
  e    : Nat := 8
  acq  : Option Scope := none
  rel  : Option Scope := none
  pm   : Nat := 0
  zm   : Bool := false
  disp : Word := 0

def vldMode (x : Option VldX) : VMode :=
  match x with
  | none => {}
  | some x => { e := x.sz.bytes, acq := x.acq, pm := x.pm, zm := x.zm, disp := x.ximm.signExtend 64 }
def vstMode (x : Option VstX) : VMode :=
  match x with
  | none => {}
  | some x => { e := x.sz.bytes, rel := x.rel, pm := x.pm, disp := x.ximm.signExtend 64 }

/-- A vector load: one access for each active lane, at the address that `a` gives (R211). -/
def vloadOp (c : Ctx) (d : Nat) (mode : Mode) (m : VMode) (each : Bool) (a : Nat → Word) : MemOp :=
  { need := .load, mode := mode, size := m.e
    lanes := (activeLanes (c.pr m.pm) m.e).map fun l => ⟨l, a l, .load m.e⟩
    dst := .lanes d m.e [], acq := m.acq, vec := true, each := each, init := if m.zm then 0 else c.vr d }

/-- A vector store (R211). -/
def vstoreOp (c : Ctx) (d : Nat) (mode : Mode) (m : VMode) (each : Bool) (a : Nat → Word) : MemOp :=
  { need := .store, mode := mode, size := m.e
    lanes := (activeLanes (c.pr m.pm) m.e).map fun l => ⟨l, a l, .store m.e (BitVec.ofNat 64 (lane (c.vr d) m.e l))⟩
    dst := .none, rel := m.rel, vec := true, each := each }

def vldUse (d : VReg) (a : SReg) (m : VMode) (b : List Reg) : Use :=
  { reads := .s a :: .p m.pm :: b, writes := [.v d] }
def vstUse (d : VReg) (a : SReg) (m : VMode) (b : List Reg) : Use := { reads := .v d :: .s a :: .p m.pm :: b }

/-- The base address `ra + XIMM` (R211). -/
def vbase (c : Ctx) (a : SReg) (m : VMode) : Word := c.sr a + m.disp

/-- The index of a gather or scatter (R211). -/
def gatherOff (x : VecReg) (e l : Nat) : Word := BitVec.ofInt 64 (natSigned (8 * e) (lane x e l) * e)

/-- Lane addresses of the consecutive, the strided and the indexed forms (R211). -/
def consecutive (c : Ctx) (a : SReg) (b : Opnd) (m : VMode) (l : Nat) : Word :=
  vbase c a m + c.opnd b + BitVec.ofNat 64 (l * m.e)
def strided (c : Ctx) (a : SReg) (b : Opnd) (m : VMode) (l : Nat) : Word := vbase c a m + BitVec.ofNat 64 l * c.opnd b
def indexed (c : Ctx) (a : SReg) (b : VReg) (m : VMode) (l : Nat) : Word := vbase c a m + gatherOff (c.vr b) m.e l

def vldMem (o : VldOp) (c : Ctx) : MemOp :=
  vloadOp c o.d o.mode (vldMode o.x) false (consecutive c o.a o.b (vldMode o.x))
def vstMem (o : VstOp) (c : Ctx) : MemOp :=
  vstoreOp c o.d o.mode (vstMode o.x) false (consecutive c o.a o.b (vstMode o.x))
def vldsMem (o : VldOp) (c : Ctx) : MemOp := vloadOp c o.d o.mode (vldMode o.x) true (strided c o.a o.b (vldMode o.x))
def vstsMem (o : VstOp) (c : Ctx) : MemOp := vstoreOp c o.d o.mode (vstMode o.x) true (strided c o.a o.b (vstMode o.x))
def vgathMem (o : VgaOp) (c : Ctx) : MemOp := vloadOp c o.d o.mode (vldMode o.x) true (indexed c o.a o.b (vldMode o.x))
def vscatMem (o : VscOp) (c : Ctx) : MemOp := vstoreOp c o.d o.mode (vstMode o.x) true (indexed c o.a o.b (vstMode o.x))
/-- One read, replicated to every active lane (R211). -/
def vldbcMem (o : VldOp) (c : Ctx) : MemOp :=
  let m := vldMode o.x
  let on := activeLanes (c.pr m.pm) m.e
  { need := .load, mode := o.mode, size := m.e
    lanes := (on.take 1).map fun l => ⟨l, vbase c o.a m + c.opnd o.b, .load m.e⟩
    dst := .lanes o.d m.e on, acq := m.acq, vec := true, each := false, init := if m.zm then 0 else c.vr o.d }

def execVld (o : VldOp) (s : State) : Host.Outcome State Fault Refusal :=
  run (.vld o) (vldUse o.d o.a (vldMode o.x) (opndRegs o.b)) s fun s => memory s (vldMem o (s.ctx s.cur))
def execVst (o : VstOp) (s : State) : Host.Outcome State Fault Refusal :=
  run (.vst o) (vstUse o.d o.a (vstMode o.x) (opndRegs o.b)) s fun s => memory s (vstMem o (s.ctx s.cur))
def execVlds (o : VldOp) (s : State) : Host.Outcome State Fault Refusal :=
  run (.vlds o) (vldUse o.d o.a (vldMode o.x) (opndRegs o.b)) s fun s => memory s (vldsMem o (s.ctx s.cur))
def execVsts (o : VstOp) (s : State) : Host.Outcome State Fault Refusal :=
  run (.vsts o) (vstUse o.d o.a (vstMode o.x) (opndRegs o.b)) s fun s => memory s (vstsMem o (s.ctx s.cur))
def execVgath (o : VgaOp) (s : State) : Host.Outcome State Fault Refusal :=
  run (.vgath o) (vldUse o.d o.a (vldMode o.x) [.v o.b]) s fun s => memory s (vgathMem o (s.ctx s.cur))
def execVscat (o : VscOp) (s : State) : Host.Outcome State Fault Refusal :=
  run (.vscat o) (vstUse o.d o.a (vstMode o.x) [.v o.b]) s fun s => memory s (vscatMem o (s.ctx s.cur))
def execVldbc (o : VldOp) (s : State) : Host.Outcome State Fault Refusal :=
  run (.vldbc o) (vldUse o.d o.a (vldMode o.x) (opndRegs o.b)) s fun s => memory s (vldbcMem o (s.ctx s.cur))

end Sys2Proof.Machine
end

