-- ==== Sys2Proof/Machine/Acc.lean ====
section
/-! DEFINITION. The accumulator instructions: AZERO, ALDT, ASTT, ACVT, ASCALE, AMOVV, AFLAG (R192 to R195). -/

namespace Sys2Proof

/-- The views of an accumulator tile (R193). -/
def View.is64 : View → Bool
  | .f64 => true
  | _ => false
def View.toFmt : View → Fmt
  | .f64 => .f64
  | .f32 => .f32
  | .i32 => .i32

end Sys2Proof

namespace Sys2Proof.Machine

/-! ### Shared forms -/

/-- The trap of an FP64 view that names acc1 or acc3 (R35). -/
def oddPair (t : Tile) (f64 : Bool) : Bool := f64 && t.val % 2 == 1

/-- The protection fault of a scratchpad tile that is not backed (R29, R193). -/
def padFault (s : State) (a : SReg) (e : Nat) : Option Trap :=
  let off := ((s.ctx s.cur).sr a).toNat % 2 ^ 20
  if backed s.cur.node (off + 4096 * e - 1) then none else some { cause := .protection, eaddr := BitVec.ofNat 64 off }

/-- An ACC instruction with the tiles that it names, each with its view: a bad pair traps, a busy tile or an open acquire waits (R35,
R195, R251). It reads and writes the whole tile in one step (DEDUCED, log 18). `pad` is the scratchpad tile that it names, whose
protection check comes first (R230, items 8 and 9); it may lie in the accumulator window (DEDUCED, log 64). -/
def accOp (x : Instr) (u : Use) (tiles : List (Tile × Bool)) (s : State) (k : State → Out)
    (pad : Option (SReg × Nat) := none) : Host.Outcome State Fault Refusal :=
  run x u s fun s =>
    let i := s.cur
    match pad.bind fun p => padFault s p.1 p.2 with
    | some t => .trap t
    | none =>
    if tiles.any fun t => oddPair t.1 t.2 then .trap (trapped .operandFormat)
    else if tiles.any fun t =>
        let r := tileRange t.1.val t.2
        s.acqOpen i || (s.live i.node).bars r.1 r.2 true || s.ownPending i r.1 r.2 then .stall s
    else k s

/-- The checks of a scratchpad tile of `e`-byte elements at `ra`, its protection apart (R133, R193, R251). -/
def padCheck (s : State) (a : SReg) (e : Nat) (wr : Bool) (k : Nat → Out) : Out :=
  let i := s.cur
  let off := ((s.ctx i).sr a).toNat % 2 ^ 20
  if off % 256 ≠ 0 then .trap (opFormat off)
  else if s.acqOpen i || (s.live i.node).bars off (4096 * e) wr || s.ownPending i off (4096 * e) then .stall s
  else k off

/-- Element-by-element results of a tile operation. -/
def tileMap (f : Nat → Nat → Rounded) : List (List Rounded) :=
  (List.range 64).map fun i => (List.range 64).map fun j => f i j
def tileFlags (rs : List (List Rounded)) : FFlags := rs.foldl (fun a r => r.foldl (fun a y => a ||| y.flags) a) 0
def tileOvf (rs : List (List Rounded)) : Bool := rs.any fun r => r.any (·.ovf)
def tileBits (rs : List (List Rounded)) (i j : Nat) : Nat := (((rs.getD i []).getD j ⟨0, 0, false⟩)).bits

/-- Finish a tile operation: the image, the flags, and the OVF flags of a tile when one overflowed. -/
def accDone (s : State) (rs : List (List Rounded)) (ovf : BitVec 4) (f : Img → Img) : Out :=
  let i := s.cur
  let s := s.modLive i.node fun m =>
    let m := f m
    { m with ovf := if tileOvf rs then m.ovf ||| ovf else m.ovf }
  .done (s.modCtx i fun c => c.raise (tileFlags rs)) [] .seq

/-! ### Meanings -/

def execAzero (o : AzeroOp) (s : State) : Host.Outcome State Fault Refusal :=
  let f64 := o.x == some true
  accOp (.azero o) (matUse s [] []) [(o.t, f64)] s fun s =>
    .done (s.modLive s.cur.node fun m => m.setTile o.t.val f64 fun _ _ => 0) [] .seq

/-- ALDT widens a scratchpad tile exactly (R193, DEDUCED, log 25). -/
def execAldt (o : AldtOp) (s : State) : Host.Outcome State Fault Refusal :=
  let f := o.x.getD .f32
  let f64 := f == .f64
  let dst : Fmt := match f with
    | .f64 => .f64
    | .i32 => .i32
    | _ => .f32
  accOp (.aldt o) (matUse s [.s o.a] []) [(o.t, f64)] s (pad := some (o.a, f.bytes)) fun s =>
    padCheck s o.a f.bytes false fun off =>
      let m := s.live s.cur.node
      let env := (s.ctx s.cur).env
      let rs := tileMap fun i j => convert f dst env .rne (i * 64 + j) (m.padElem off f.bytes i j)
      accDone s rs 0 fun m => m.setTile o.t.val f64 (tileBits rs)

/-- The view, format and mode of ASTT, ACVT: FP32 to FP32 under RNE in the base form (R192). -/
def accForm (x : Option (View × Fmt × RMode)) : View × Fmt × RMode := x.getD (.f32, .f32, .rne)

/-- ASTT converts a tile into the scratchpad (R193). -/
def execAstt (o : AsttOp) (s : State) : Host.Outcome State Fault Refusal :=
  let (v, f, rm) := accForm o.x
  accOp (.astt o) (matUse s [.s o.a] []) [(o.t, v.is64)] s (pad := some (o.a, f.bytes)) fun s =>
    padCheck s o.a f.bytes true fun off =>
      let m := s.live s.cur.node
      let env := (s.ctx s.cur).env
      let rs := tileMap fun i j => convert v.toFmt f env rm (i * 64 + j) (m.tileElem o.t.val v.is64 i j)
      accDone s rs (ovfBits o.t.val v.is64) fun m =>
        { m with spm := (List.range 4096).foldl (fun p k =>
            p.writeNat (off + tileByte f.bytes (k / 64) (k % 64)) f.bytes (tileBits rs (k / 64) (k % 64))) m.spm
                 dirty := markDirty m.dirty off (4096 * f.bytes) }

/-- ACVT converts a tile into a tile; 16-bit and 8-bit results are written widened (R193). -/
def execAcvt (o : AcvtOp) (s : State) : Host.Outcome State Fault Refusal :=
  let (v, f, rm) := accForm o.x
  let d64 := f == .f64
  let clash := d64 != v.is64 && o.d.val / 2 == o.t.val / 2
  accOp (.acvt o) (matUse s [] []) [(o.t, v.is64), (o.d, d64)] s fun s =>
    if clash then .trap (trapped .operandFormat)
    else
      let m := s.live s.cur.node
      let env := (s.ctx s.cur).env
      let rs := tileMap fun i j => convert v.toFmt f env rm (i * 64 + j) (m.tileElem o.t.val v.is64 i j)
      let wide (x : Nat) : Nat := match f with
        | .f64 | .f32 | .i32 => x
        | _ => (convert f .f32 env .rne 0 x).bits
      accDone s rs (ovfBits o.d.val d64) fun m => m.setTile o.d.val d64 fun i j => wide (tileBits rs i j)

/-- ASCALE accumulates a scaled tile (R66, R194). -/
def execAscale (o : AscaleOp) (s : State) : Host.Outcome State Fault Refusal :=
  let (int, rm) := o.x.getD (false, .rne)
  accOp (.ascale o) (matUse s [.s o.b] []) [(o.c, false), (o.p, false)] s fun s =>
    let c := s.ctx s.cur
    let m := s.live s.cur.node
    let pf : Fmt := if int then .i32 else .f32
    let rs := tileMap fun i j =>
      scaleAdd c.env rm (i * 64 + j) (m.tileElem o.c.val false i j) (pf.num c.wtop (m.tileElem o.p.val false i j))
        ((c.sr o.b).toNat % 2 ^ 32)
    accDone s rs 0 fun m => m.setTile o.c.val false (tileBits rs)

/-- The window offset of AMOVV's 64 bytes (R194). -/
def amovvOff (t : Tile) (b : Word) : Nat := 0x80000 + t.val * 0x4000 + natBits b.toNat 0 6 * 256 + natBits b.toNat 6 2 * 64

/-- AMOVV moves 64 raw bytes between a tile and a vector register (R194). -/
def execAmovv (o : AmovvOp) (s : State) : Host.Outcome State Fault Refusal :=
  match o with
  | .toV d t b _ =>
    accOp (.amovv o) (matUse s [.s b] [.v d]) [(t, false)] s fun s =>
      let off := amovvOff t ((s.ctx s.cur).sr b)
      let i := s.cur
      let x := BitVec.ofNat 512 (s.ownNat i off 64)
      -- data with an uncorrectable error poisons the register that it is read for (R233)
      match (List.range 8).find? fun k => s.bad (.spm i.node (s.live i.node).part (off + 8 * k)) with
      | none => .done (s.modCtx i fun c => c.setV d x) [.v d] .seq
      | some k =>
        let a := BitVec.ofNat 64 (off + 8 * k)
        .done (s.modCtx i fun c => let c := (c.setV d x).unpoison [.v d]
          { c with poison := c.poison ++ [(.v d, a)] }) [] .seq
  | .toT t a b =>
    accOp (.amovv o) (matUse s [.s b, .v a] []) [(t, false)] s fun s =>
      let c := s.ctx s.cur
      let off := amovvOff t (c.sr b)
      .done (s.modLive s.cur.node fun m => m.wr off 64 (c.vr a).toNat) [] .seq

/-- AFLAG reads and clears the tile overflow flags (R36, R194). -/
def execAflag (o : AflagOp) (s : State) : Host.Outcome State Fault Refusal :=
  run (.aflag o) (matUse s [] [.s o.d]) s fun s =>
    let old := (s.live s.cur.node).ovf
    writeS (s.modLive s.cur.node fun m => { m with ovf := m.ovf &&& ~~~(BitVec.ofNat 4 o.mask.val) }) o.d (old.setWidth 64)

end Sys2Proof.Machine
end

