-- ==== Sys2Proof/Machine/Alu.lean ====
section
/-! DEFINITION. Register arithmetic, immediates, conditional moves, multiply and divide (R91 to R100, R138). -/

namespace Sys2Proof.Machine

/-! ### Values -/

def sllW (a b : Word) : Word := a <<< (b.toNat % 64)
def srlW (a b : Word) : Word := a >>> (b.toNat % 64)
def sraW (a b : Word) : Word := a.sshiftRight (b.toNat % 64)
def umin (a b : Word) : Word := if a.ult b then a else b
def umax (a b : Word) : Word := if a.ult b then b else a
/-- Saturation to a signed 64-bit value. -/
def satW (i : Int) : Word := BitVec.ofNat 64 (intSat false 64 i)
def addsW (a b : Word) : Word := satW (a.toInt + b.toInt)
def subsW (a b : Word) : Word := satW (a.toInt - b.toInt)
/-- The field `(lo, w)` of a bit-field operand (R95). -/
def fieldOf (b : Word) : Nat × Nat :=
  let lo := b.toNat % 64
  (lo, min (natBits b.toNat 6 6 + 1) (64 - lo))
def bfxW (a b : Word) : Word :=
  let (lo, w) := fieldOf b
  BitVec.ofInt 64 (natSigned w (natBits a.toNat lo w))
def bfxuW (a b : Word) : Word :=
  let (lo, w) := fieldOf b
  BitVec.ofNat 64 (natBits a.toNat lo w)
def bfiW (d a b : Word) : Word :=
  let (lo, w) := fieldOf b
  let m : Word := BitVec.ofNat 64 ((2 ^ w - 1) * 2 ^ lo)
  (d &&& ~~~m) ||| ((a <<< lo) &&& m)
/-- Zero bits above the highest one bit. -/
def clzW (a : Word) : Word := BitVec.ofNat 64 (64 - bitLen a.toNat)
/-- Zero bits below the lowest one bit, counted with fuel. -/
def trailing : Nat → Nat → Nat
  | 0, _ => 0
  | n + 1, x => if x % 2 = 1 then 0 else 1 + trailing n (x / 2)
def ones : Nat → Nat → Nat
  | 0, _ => 0
  | n + 1, x => x % 2 + ones n (x / 2)
def ctzW (a : Word) : Word := BitVec.ofNat 64 (trailing 64 a.toNat)
def popcW (a : Word) : Word := BitVec.ofNat 64 (ones 64 a.toNat)
def mulhW (a b : Word) : Word := BitVec.ofInt 64 (a.toInt * b.toInt / 2 ^ 64)
def mulhuW (a b : Word) : Word := BitVec.ofNat 64 (a.toNat * b.toNat / 2 ^ 64)
def mulhsuW (a b : Word) : Word := BitVec.ofInt 64 (a.toInt * b.toNat / 2 ^ 64)
/-- Division with the borderline results of R100. -/
def divW (a b : Word) : Word := if b = 0 then BitVec.allOnes 64 else BitVec.ofInt 64 (a.toInt.tdiv b.toInt)
def divuW (a b : Word) : Word := if b = 0 then BitVec.allOnes 64 else BitVec.ofNat 64 (a.toNat / b.toNat)
def remW (a b : Word) : Word := if b = 0 then a else BitVec.ofInt 64 (a.toInt.tmod b.toInt)
def remuW (a b : Word) : Word := if b = 0 then a else BitVec.ofNat 64 (a.toNat % b.toNat)
/-- CADDR from node `g` (R138). -/
def caddrW (g : Nat) (a b : Word) : Word :=
  let x := a.toNat
  let (pkg, die) := if natBit x 31 then (pkgOf g % 16, dieOf g) else (natBits x 24 4, natBits x 16 2)
  let (col, row) := if natBit x 30 then (xOf g, yOf g) else (natBits x 0 5, natBits x 8 4)
  BitVec.ofNat 64 (2 ^ 63 + pkg * 2 ^ 57 + die * 2 ^ 55 + col * 2 ^ 50 + row * 2 ^ 46 + b.toNat % 2 ^ 20)
/-- CREL (R138). -/
def crelW (a b : Word) : Word :=
  BitVec.ofNat 64 (2 ^ 63 + 2 ^ 61 + natBits a.toNat 0 5 * 2 ^ 50 + natBits a.toNat 8 4 * 2 ^ 46 + b.toNat % 2 ^ 20)

/-! ### Shared forms -/

/-- What `d := f(a, b)` uses. -/
def useRrr (o : Rrr) : Use := { reads := .s o.a :: opndRegs o.b, writes := [.s o.d] }

/-- `rd := f(ra, b)` (R93, R94). -/
def alu (x : Instr) (o : Rrr) (s : State) (f : Word → Word → Word) : Host.Outcome State Fault Refusal :=
  run x (useRrr o) s fun s =>
    let c := s.ctx s.cur
    writeS s o.d (f (c.sr o.a) (c.opnd o.b))

/-- `rd := f(ra)` (R93). -/
def alu1 (x : Instr) (o : Rr) (s : State) (f : Word → Word) : Host.Outcome State Fault Refusal :=
  run x { reads := [.s o.a], writes := [.s o.d] } s fun s => writeS s o.d (f ((s.ctx s.cur).sr o.a))

/-- `rd := f(ra, imm)` (R97). -/
def aluImm {n : Nat} (x : Instr) (o : Rri n) (s : State) (imm : Word) (f : Word → Word → Word) :
    Host.Outcome State Fault Refusal :=
  run x { reads := [.s o.a], writes := [.s o.d] } s fun s => writeS s o.d (f ((s.ctx s.cur).sr o.a) imm)

/-- An immediate shift (R97). -/
def aluShift (x : Instr) (o : Shi) (s : State) (f : Word → Word → Word) : Host.Outcome State Fault Refusal :=
  run x { reads := [.s o.a], writes := [.s o.d] } s fun s =>
    writeS s o.d (f ((s.ctx s.cur).sr o.a) (BitVec.ofNat 64 o.n.val))

/-- A conditional move: a failing condition writes nothing (R98). -/
def cmov (x : Instr) (o : Rrr) (s : State) (cond : Word → Bool) : Host.Outcome State Fault Refusal :=
  run x (useRrr o) s fun s =>
    let c := s.ctx s.cur
    if cond (c.sr o.a) then writeS s o.d (c.opnd o.b) else .done s [] .seq

end Sys2Proof.Machine

namespace Sys2Proof

/-- An immediate sign- or zero-extended, or the literal (R73, R74). -/
def Imm.sx {n : Nat} : Imm n → Word
  | .short i => i.signExtend 64
  | .lit w => w
def Imm.zx {n : Nat} : Imm n → Word
  | .short i => i.setWidth 64
  | .lit w => w

end Sys2Proof

namespace Sys2Proof.Machine

/-! ### Meanings -/

def execAdd (o : Rrr) (s : State) : Host.Outcome State Fault Refusal := alu (.add o) o s (fun a b => a + b)
def execSub (o : Rrr) (s : State) : Host.Outcome State Fault Refusal := alu (.sub o) o s (fun a b => a - b)
def execAnd (o : Rrr) (s : State) : Host.Outcome State Fault Refusal := alu (.and o) o s (fun a b => a &&& b)
def execOr (o : Rrr) (s : State) : Host.Outcome State Fault Refusal := alu (.or o) o s (fun a b => a ||| b)
def execXor (o : Rrr) (s : State) : Host.Outcome State Fault Refusal := alu (.xor o) o s (fun a b => a ^^^ b)
def execAndn (o : Rrr) (s : State) : Host.Outcome State Fault Refusal := alu (.andn o) o s (fun a b => a &&& ~~~b)
def execSll (o : Rrr) (s : State) : Host.Outcome State Fault Refusal := alu (.sll o) o s sllW
def execSrl (o : Rrr) (s : State) : Host.Outcome State Fault Refusal := alu (.srl o) o s srlW
def execSra (o : Rrr) (s : State) : Host.Outcome State Fault Refusal := alu (.sra o) o s sraW
def execSlt (o : Rrr) (s : State) : Host.Outcome State Fault Refusal := alu (.slt o) o s (fun a b => Word.ofBool (a.slt b))
def execSltu (o : Rrr) (s : State) : Host.Outcome State Fault Refusal := alu (.sltu o) o s (fun a b => Word.ofBool (a.ult b))
def execSeq (o : Rrr) (s : State) : Host.Outcome State Fault Refusal := alu (.seq o) o s (fun a b => Word.ofBool (a == b))
def execMin (o : Rrr) (s : State) : Host.Outcome State Fault Refusal := alu (.min o) o s smin
def execMax (o : Rrr) (s : State) : Host.Outcome State Fault Refusal := alu (.max o) o s smax
def execMinu (o : Rrr) (s : State) : Host.Outcome State Fault Refusal := alu (.minu o) o s umin
def execMaxu (o : Rrr) (s : State) : Host.Outcome State Fault Refusal := alu (.maxu o) o s umax
def execBfx (o : Rrr) (s : State) : Host.Outcome State Fault Refusal := alu (.bfx o) o s bfxW
def execBfxu (o : Rrr) (s : State) : Host.Outcome State Fault Refusal := alu (.bfxu o) o s bfxuW
def execAdds (o : Rrr) (s : State) : Host.Outcome State Fault Refusal := alu (.adds o) o s addsW
def execSubs (o : Rrr) (s : State) : Host.Outcome State Fault Refusal := alu (.subs o) o s subsW
def execMul (o : Rrr) (s : State) : Host.Outcome State Fault Refusal := alu (.mul o) o s (fun a b => a * b)
def execMulh (o : Rrr) (s : State) : Host.Outcome State Fault Refusal := alu (.mulh o) o s mulhW
def execMulhu (o : Rrr) (s : State) : Host.Outcome State Fault Refusal := alu (.mulhu o) o s mulhuW
def execMulhsu (o : Rrr) (s : State) : Host.Outcome State Fault Refusal := alu (.mulhsu o) o s mulhsuW
def execDiv (o : Rrr) (s : State) : Host.Outcome State Fault Refusal := alu (.div o) o s divW
def execDivu (o : Rrr) (s : State) : Host.Outcome State Fault Refusal := alu (.divu o) o s divuW
def execRem (o : Rrr) (s : State) : Host.Outcome State Fault Refusal := alu (.rem o) o s remW
def execRemu (o : Rrr) (s : State) : Host.Outcome State Fault Refusal := alu (.remu o) o s remuW
def execClz (o : Rr) (s : State) : Host.Outcome State Fault Refusal := alu1 (.clz o) o s clzW
def execCtz (o : Rr) (s : State) : Host.Outcome State Fault Refusal := alu1 (.ctz o) o s ctzW
def execPopc (o : Rr) (s : State) : Host.Outcome State Fault Refusal := alu1 (.popc o) o s popcW
/-- BFI reads rd as a third source (R95). -/
def execBfi (o : Rrr) (s : State) : Host.Outcome State Fault Refusal :=
  run (.bfi o) { useRrr o with reads := .s o.d :: (useRrr o).reads } s fun s =>
    let c := s.ctx s.cur
    writeS s o.d (bfiW (c.sr o.d) (c.sr o.a) (c.opnd o.b))
def execCaddr (o : Rrr) (s : State) : Host.Outcome State Fault Refusal := alu (.caddr o) o s (caddrW s.cur.node)
def execCrel (o : Rrr) (s : State) : Host.Outcome State Fault Refusal := alu (.crel o) o s crelW
def execAddi (o : Rri 12) (s : State) : Host.Outcome State Fault Refusal :=
  aluImm (.addi o) o s o.i.sx (fun a b => a + b)
def execAndi (o : Rri 12) (s : State) : Host.Outcome State Fault Refusal :=
  aluImm (.andi o) o s o.i.zx (fun a b => a &&& b)
def execOri (o : Rri 12) (s : State) : Host.Outcome State Fault Refusal :=
  aluImm (.ori o) o s o.i.zx (fun a b => a ||| b)
def execXori (o : Rri 12) (s : State) : Host.Outcome State Fault Refusal :=
  aluImm (.xori o) o s o.i.zx (fun a b => a ^^^ b)
def execSlti (o : Rri 10) (s : State) : Host.Outcome State Fault Refusal :=
  aluImm (.slti o) o s o.i.sx (fun a b => Word.ofBool (a.slt b))
def execSltiu (o : Rri 10) (s : State) : Host.Outcome State Fault Refusal :=
  aluImm (.sltiu o) o s o.i.sx (fun a b => Word.ofBool (a.ult b))
def execSeqi (o : Rri 10) (s : State) : Host.Outcome State Fault Refusal :=
  aluImm (.seqi o) o s o.i.sx (fun a b => Word.ofBool (a == b))
def execSlli (o : Shi) (s : State) : Host.Outcome State Fault Refusal := aluShift (.slli o) o s sllW
def execSrli (o : Shi) (s : State) : Host.Outcome State Fault Refusal := aluShift (.srli o) o s srlW
def execSrai (o : Shi) (s : State) : Host.Outcome State Fault Refusal := aluShift (.srai o) o s sraW
def execCmovnz (o : Rrr) (s : State) : Host.Outcome State Fault Refusal := cmov (.cmovnz o) o s (· != 0)
def execCmovz (o : Rrr) (s : State) : Host.Outcome State Fault Refusal := cmov (.cmovz o) o s (· == 0)

end Sys2Proof.Machine
end

