-- ==== Sys2Proof/Machine/Branch.lean ====
section
/-! DEFINITION. Branches, calls, jumps and hardware loops (R80 to R82, R106 to R113). -/

namespace Sys2Proof.Machine

/-! ### Shared forms -/

/-- A branch: the slot's length is read first, and a fetch fault on the slot's base word is the branch's own (R82). `k`
has the length of the slot (DEDUCED, log 28). -/
def branch (x : Instr) (u : Use) (s : State) (k : Nat → State → Out) : Host.Outcome State Fault Refusal :=
  let c := s.ctx s.cur
  let u := { u with noSlot := true, noEnd := true }
  .next
    (if c.dslot.isSome then s.issue x.len u (k 4)
     else
      match s.slotLen s.cur (c.pc + BitVec.ofNat 64 x.len) with
      | (s', .error t) => (s.keepWalks s' s.cur).takeTrap s.cur t
      | (s', .held) => s'
      | (s', .ok n) => s'.issue x.len u (k n))

/-- The address after the slot. -/
def Ctx.afterSlot (c : Ctx) (len n : Nat) : Word := c.pc + BitVec.ofNat 64 (len + n)

/-- A branch to a displacement from its own address (R107). -/
def branchTo {w : Nat} (x : Instr) (reads : List Reg) (disp : Imm w) (s : State) (taken : Ctx → Bool) :
    Host.Outcome State Fault Refusal :=
  branch x { reads := reads } s fun n s =>
    let c := s.ctx s.cur
    .done s [] (.slot (if taken c then c.pc + BitVec.ofInt 64 disp.dispBytes else c.afterSlot x.len n))

/-- A jump to an address, refused when it is not a multiple of 4 (R70, R108). -/
def jumpTo (s : State) (t : Word) (link : Option Word) : Out :=
  if t.toNat % 4 ≠ 0 then .trap { cause := .alignment, eaddr := t }
  else
    match link with
    | some l => .done (s.modCtx s.cur fun c => c.setS 63 l) [.s 63] (.slot t)
    | none => .done s [] (.slot t)

/-- The comparison of a BRC condition (R107). -/
def condHolds (k : Cond) (a b : Word) : Bool :=
  match k with
  | .eq => a == b
  | .ne => a != b
  | .lt => a.slt b
  | .ge => !a.slt b
  | .ltu => a.ult b
  | .geu => !a.ult b

/-- Activating a loop level, or skipping the body for a count of 0 (R111). -/
def loopStart (s : State) (len : Nat) (disp : Int) (count : BitVec 32) : Out :=
  let c := s.ctx s.cur
  let fin := c.pc + BitVec.ofInt 64 disp
  let body := c.pc + BitVec.ofNat 64 len
  if c.lc1 ≠ 0 then .trap (trapped .loopDepth)
  else if count = 0 then
    match s.slotLen s.cur fin with
    | (s, .error t) => .trapAt s t
    | (s, .held) => .stall s
    | (s, .ok n) => .done s [] (.goto (fin + BitVec.ofNat 64 n))
  else
    let c' := if c.lc0 = 0 then { c with lc0 := count, lbeg0 := body, lend0 := fin }
      else { c with lc1 := count, lbeg1 := body, lend1 := fin }
    .done (s.setCtx s.cur c') [] (.goto body)

/-- What a loop instruction uses: it is absent in MSG (R15, R91) and stands neither in a slot nor at an active end
(R111). -/
def loopUse (reads : List Reg) : Use := { reads := reads, ctxs := [.main, .work], noSlot := true, noEnd := true }

/-! ### Meanings -/

def execBr (disp : Imm 24) (s : State) : Host.Outcome State Fault Refusal :=
  branchTo (.br disp) [] disp s fun _ => true
def execBrc (o : BrcOp) (s : State) : Host.Outcome State Fault Refusal :=
  branchTo (.brc o) [.s o.c, .s o.e] o.disp s fun c => condHolds o.cond (c.sr o.c) (c.sr o.e)
def execBrz (o : BzOp) (s : State) : Host.Outcome State Fault Refusal :=
  branchTo (.brz o) [.s o.a] o.disp s fun c => c.sr o.a == 0
def execBrnz (o : BzOp) (s : State) : Host.Outcome State Fault Refusal :=
  branchTo (.brnz o) [.s o.a] o.disp s fun c => c.sr o.a != 0
def execBrlz (o : BzOp) (s : State) : Host.Outcome State Fault Refusal :=
  branchTo (.brlz o) [.s o.a] o.disp s fun c => (c.sr o.a).slt 0
def execBrgez (o : BzOp) (s : State) : Host.Outcome State Fault Refusal :=
  branchTo (.brgez o) [.s o.a] o.disp s fun c => !(c.sr o.a).slt 0

/-- CALL links the address after the slot in s63 (R107). -/
def execCall (disp : Imm 24) (s : State) : Host.Outcome State Fault Refusal :=
  branch (.call disp) { writes := [.s 63] } s fun n s =>
    let c := s.ctx s.cur
    .done (s.modCtx s.cur fun c => c.setS 63 (c.afterSlot (Instr.call disp).len n)) [.s 63]
      (.slot (c.pc + BitVec.ofInt 64 disp.dispBytes))

def execJr (a : SReg) (s : State) : Host.Outcome State Fault Refusal :=
  branch (.jr a) { reads := [.s a] } s fun _ s => jumpTo s ((s.ctx s.cur).sr a) none

/-- The target is read before the link is written (R108). -/
def execCallr (a : SReg) (s : State) : Host.Outcome State Fault Refusal :=
  branch (.callr a) { reads := [.s a], writes := [.s 63] } s fun n s =>
    let c := s.ctx s.cur
    jumpTo s (c.sr a) (some (c.afterSlot 4 n))

def execRet (s : State) : Host.Outcome State Fault Refusal :=
  branch .ret { reads := [.s 63] } s fun _ s => jumpTo s ((s.ctx s.cur).sr 63) none

/-- A jump through a table in memory (R109). Its two reads are two accesses (R247): split, other grants may come between. -/
def execJt (a b : SReg) (s : State) : Host.Outcome State Fault Refusal :=
  branch (.jt a b) { reads := [.s a, .s b] } s fun _ s0 =>
    let i := s0.cur
    let c := s0.ctx i
    let t := c.sr a
    let second (s : State) (l : Word) : Out :=
      let p := if (c.sr b).ult l then c.sr b else l
      let w := t + 8 + 8 * p
      if !s.readOk i w.toNat then .stall s0
      else then_ (s.loadNow i w.toNat 0) s0 fun s target =>
        if target.toNat % 4 ≠ 0 then .trapAt s { cause := .alignment, eaddr := target }
        else .done (s.noteReads i [t, w]) [] (.slot target)
    match c.wait with
    | .jt l => second s0 l
    | _ =>
      if t.toNat % 8 ≠ 0 then .trap { cause := .alignment, eaddr := t }
      else if !s0.readOk i t.toNat then .stall s0
      else then_ (s0.loadNow i t.toNat 0) s0 fun s l => if s0.split then .wait s (.jt l) else second s l

def execLoop (o : LoopOp) (s : State) : Host.Outcome State Fault Refusal :=
  run (.loop o) (loopUse [.s o.a]) s fun s =>
    loopStart s (Instr.loop o).len o.disp.dispBytes (((s.ctx s.cur).sr o.a).setWidth 32)

/-- The count of a LOOPI (R110). -/
def loopCount : LoopCount → BitVec 32
  | .short n => BitVec.ofNat 32 n.val
  | .lit n => n

def execLoopi (o : LoopiOp) (s : State) : Host.Outcome State Fault Refusal :=
  run (.loopi o) (loopUse []) s fun s =>
    loopStart s (Instr.loopi o).len (o.disp.toInt * 4) (loopCount o.n)

end Sys2Proof.Machine
end

