-- ==== Sys2Proof/Machine/Csr.lean ====
section
/-! DEFINITION. Control registers and the CSR instructions (R17 to R25, R40, R246). -/

namespace Sys2Proof.Machine

/-- PSTAT of an instance (R22). -/
def pstatOf (i : Inst) (ns : Bool) (c : Ctx) : Word :=
  BitVec.ofNat 64 (i.ctx.code * 16 + (if c.upact then 8 else 0) + (if c.ie then 4 else 0) + (if ns then 2 else 0) +
    (if c.priv then 1 else 0))

/-- The value of a control register of an instance, or nothing for a number outside R18 (R18 to R20). The loop registers
do not exist in MSG (R19). -/
def csrRead (s : State) (i : Inst) (n : Nat) : Option Word :=
  let g := i.node
  let m := s.live g
  let c := m.ctx i.ctx
  match n with
  | 0x001 => some (c.fstat.setWidth 64)
  | 0x002 => some (Word.ofBool c.wtop)
  | 0x003 => some (c.srseed.setWidth 64)
  | 0x004 => some (c.vovf.setWidth 64)
  | 0x005 => some c.ictr
  | 0x006 => some (pstatOf i (s.node g).ns c)
  | 0x010 => some (m.gangw.setWidth 64)
  | 0x011 => some (m.gstag.setWidth 64)
  | 0x012 => some (BitVec.ofNat 64 m.qspill)
  | 0x013 => some (BitVec.ofNat 64 m.stealwin)
  | 0x014 => some (m.hwdog.setWidth 64)
  | 0x020 => some c.upvec
  | 0x021 => some c.upinfo
  | 0x030 => some c.epc
  | 0x031 => some c.ecause
  | 0x032 => some c.eaddr
  | 0x033 => some c.einfo
  | 0x034 => some c.btarget
  | 0x040 => some (BitVec.ofNat 64 c.osc)
  | 0x041 => some (BitVec.ofNat 64 m.vent.length)
  | 0x042 => some m.npool
  | 0x043 => some m.nfreehd
  | 0x050 => some c.lreq
  | 0x051 => some c.rreq
  | 0x060 => some (BitVec.ofNat 64 (s.pkg (pkgOf g)).tephra.tloss)
  | 0x070 => some (s.node g).cycle
  | 0x071 => some (s.pkg (pkgOf g)).gt
  | 0x080 => if i.ctx.isMsg then none else some (c.lc0.setWidth 64)
  | 0x081 => if i.ctx.isMsg then none else some c.lbeg0
  | 0x082 => if i.ctx.isMsg then none else some c.lend0
  | 0x083 => if i.ctx.isMsg then none else some (c.lc1.setWidth 64)
  | 0x084 => if i.ctx.isMsg then none else some c.lbeg1
  | 0x085 => if i.ctx.isMsg then none else some c.lend1
  | _ =>
    if 0x090 ≤ n && n < 0x094 then some (m.chan (n - 0x090)).wp
    else if 0x100 ≤ n && n < 0x110 then some (Table.get 0 m.prb (n - 0x100))
    else if 0x110 ≤ n && n < 0x120 then some (Table.get 0 m.prl (n - 0x110))
    else none

/-- Access classes of R18. -/
inductive CsrAcc where
  | none | ro | rw | w1c
  deriving DecidableEq, Repr

/-- The access that a level has to a register of R18. -/
def csrAcc (n : Nat) (priv : Bool) : CsrAcc :=
  match n with
  | 0x004 => .w1c
  | 0x001 | 0x002 | 0x003 | 0x010 | 0x011 | 0x012 | 0x013 | 0x020 | 0x042 | 0x043 | 0x050 | 0x051 => .rw
  | 0x080 | 0x081 | 0x082 | 0x083 | 0x084 | 0x085 => .rw
  | 0x005 | 0x006 | 0x014 | 0x021 | 0x030 | 0x031 | 0x032 | 0x033 | 0x034 => if priv then .rw else .ro
  | _ => if 0x100 ≤ n then (if priv then .rw else .none) else .ro

/-- Keep the bits that a mask names. -/
def masked (x : Word) (m : Nat) : Word := x &&& BitVec.ofNat 64 m

/-- Write a register that the level may write; reserved bits stay zero (R18 to R25, R40, DEDUCED, log 31). R24's map has
the fields of EINFO as RO, and R18 has EINFO as RW at S: S level writes its bits [17:0] (DEDUCED, log 31). -/
def csrWrite (s : State) (i : Inst) (n : Nat) (x : Word) : State :=
  let ctx (f : Ctx → Ctx) : State := s.modCtx i f
  let img (f : Img → Img) : State := s.modLive i.node f
  match n with
  | 0x001 => ctx fun c => { c with fstat := x.setWidth 5 }
  | 0x002 => ctx fun c => { c with wtop := x.getLsbD 0 }
  | 0x003 => ctx fun c => { c with srseed := x.setWidth 32 }
  | 0x004 => ctx fun c => { c with vovf := c.vovf &&& ~~~(x.setWidth 32) }
  | 0x005 => ctx fun c => { c with ictr := x }
  | 0x006 => ctx fun c => { c with upact := x.getLsbD 3, ie := x.getLsbD 2, priv := x.getLsbD 0 }
  | 0x010 => img fun m => { m with gangw := x.setWidth 2 }
  | 0x011 => img fun m => { m with gstag := x.setWidth 4 }
  | 0x012 => img fun m => { m with qspill := max 4 (min x.toNat 64) }
  | 0x013 => img fun m => { m with stealwin := min x.toNat 256 }
  | 0x014 => img fun m => { m with hwdog := x.setWidth 32 }
  | 0x020 => ctx fun c => { c with upvec := masked x (2 ^ 64 - 4) }
  | 0x021 => ctx fun c => { c with upinfo := x }
  | 0x030 => ctx fun c => { c with epc := x }
  | 0x031 => ctx fun c => { c with ecause := masked x 0xFF }
  | 0x032 => ctx fun c => { c with eaddr := x }
  | 0x033 => ctx fun c => { c with einfo := masked x 0x3FFFF }
  | 0x034 => ctx fun c => { c with btarget := x }
  | 0x042 => img fun m => { m with npool := masked x (2 ^ 64 - 64) }
  | 0x043 => img fun m => { m with nfreehd := masked x (2 ^ 64 - 64) }
  | 0x050 => ctx fun c => { c with lreq := x }
  | 0x051 => ctx fun c => { c with rreq := x }
  | 0x080 => ctx fun c => { c with lc0 := x.setWidth 32 }
  | 0x081 => ctx fun c => { c with lbeg0 := x }
  | 0x082 => ctx fun c => { c with lend0 := x }
  | 0x083 => ctx fun c => { c with lc1 := x.setWidth 32 }
  | 0x084 => ctx fun c => { c with lbeg1 := x }
  | 0x085 => ctx fun c => { c with lend1 := x }
  | _ =>
    if 0x100 ≤ n && n < 0x110 then
      img fun m => { m with prb := Table.set 0 m.prb (n - 0x100) (masked x 0xFE0FFFC0) }
    else if 0x110 ≤ n && n < 0x120 then
      img fun m => { m with prl := Table.set 0 m.prl (n - 0x110) (masked x 0xFFFC0) }
    else s

/-- The number of a CSR operand. -/
def csrNo : CsrNo → Nat
  | .short n => n.toNat
  | .ext n => n.toNat

/-- A CSR instruction: `f` gives the new value from the old value and ra, or nothing for CSRR (R246). A write of VOVF is
one of the operand (R19); a write of ICTR replaces the count (R17). -/
def csrOp (x : Instr) (o : CsrOp) (s : State) (f : Option (Word → Word → Word)) : Host.Outcome State Fault Refusal :=
  let n := csrNo o.n
  let i := s.cur
  let acc := csrAcc n (s.ctx i).priv
  let known := (csrRead s i n).isSome
  run x { reads := match f with
            | none => []
            | some _ => [.s o.a]
          writes := [.s o.d], illegal := !known, priv := known && acc == .none } s fun s =>
    let c := s.ctx i
    let old := (csrRead s i n).getD 0
    let fin (s : State) (k : Flow) : Out := .done (s.modCtx i fun c => c.setS o.d old) [.s o.d] k
    match f with
    | none => fin s .seq
    | some f =>
      match acc with
      | .w1c => fin (csrWrite s i n (c.sr o.a)) .seq
      | .rw => fin (csrWrite s i n (f old (c.sr o.a))) (if n = 0x005 then .keep else .seq)
      | _ => fin s .seq

def execCsrr (o : CsrOp) (s : State) : Host.Outcome State Fault Refusal := csrOp (.csrr o) o s none
def execCsrw (o : CsrOp) (s : State) : Host.Outcome State Fault Refusal := csrOp (.csrw o) o s (some fun _ a => a)
def execCsrs (o : CsrOp) (s : State) : Host.Outcome State Fault Refusal := csrOp (.csrs o) o s (some fun old a => old ||| a)
def execCsrc (o : CsrOp) (s : State) : Host.Outcome State Fault Refusal := csrOp (.csrc o) o s (some fun old a => old &&& ~~~a)

end Sys2Proof.Machine
end

