-- ==== Sys2Proof/Machine/Sys.lean ====
section
/-! DEFINITION. The system instructions: ILL, NOP, ALIGN, TRAP, BRK, SYSC, ERET, UPRET, WFI, SHOOT, TLBIL, SAVEX, LOADX,
PERFR, TMARK (R114 to R116, R234 to R245). -/

namespace Sys2Proof.Machine

/-! ### Traps by design, and NOP -/

def execIll (s : State) : Host.Outcome State Fault Refusal :=
  run .ill { illegal := true } s fun _ => .trap (trapped .illegalInstruction)
def execNop (s : State) : Host.Outcome State Fault Refusal := run .nop {} s fun s => .done s [] .seq
def execTrap (code : BitVec 8) (s : State) : Host.Outcome State Fault Refusal :=
  run (.trap code) {} s fun _ => .trap { cause := .trap, code := code.toNat }
def execBrk (code : BitVec 8) (s : State) : Host.Outcome State Fault Refusal :=
  run (.brk code) {} s fun _ => .trap { cause := .debug, code := code.toNat }
def execSysc (code : BitVec 8) (s : State) : Host.Outcome State Fault Refusal :=
  run (.sysc code) {} s fun _ => .trap { cause := .sysc, code := code.toNat }

/-! ### ALIGN (R115) -/

/-- A MAIN that runs no grain belongs to no group: its ALIGN completes at once (DEDUCED, log 59). -/
def execAlign (n : Fin 64) (s : State) : Host.Outcome State Fault Refusal :=
  run (.align n) {} s fun s =>
    let i := s.cur
    let c := s.ctx i
    if i.ctx ≠ .main then .done s [] .seq
    else
      match c.wait, c.act with
      | .ended, _ => .done s [] .seq
      | .align p k t, _ => .wait s (.align p k t)
      | _, .grain l _ =>
        let w : Wait := .align c.pc n.val (s.node i.node).cycle.toNat
        let s' := (s.modCtx i fun c => { c with wait := w }).alignRelease (s.alignGroup i.node l)
        if (s'.ctx i).wait = .ended then .done s' [] .seq else .wait s' w
      | _, _ => .done s [] .seq

/-! ### Returns (R236, R237) -/

/-- Resume at `pc`, as a delay slot before `bt` when `dsb`; a misaligned address traps. -/
def resumeAt (s : State) (pc bt : Word) (dsb : Bool) (f : Ctx → Ctx) : Out :=
  if pc.toNat % 4 ≠ 0 then .trap { cause := .alignment, eaddr := pc }
  else if dsb && bt.toNat % 4 != 0 then .trap { cause := .alignment, eaddr := bt }
  else .done (s.modCtx s.cur f) [] (.resume pc (if dsb then some bt else none))

def execEret (s : State) : Host.Outcome State Fault Refusal :=
  run .eret { priv := true, noSlot := true, noEnd := true } s fun s =>
    let c := s.ctx s.cur
    resumeAt s c.epc c.btarget (c.einfo.getLsbD 0) fun c => { c with priv := false }

def execUpret (a : SReg) (s : State) : Host.Outcome State Fault Refusal :=
  run (.upret a) { reads := [.s a], noSlot := true, noEnd := true } s fun s0 =>
    let i := s0.cur
    let c := s0.ctx i
    let fin (s : State) (pc info bt : Word) : Out :=
      resumeAt s pc bt (info.getLsbD 0) fun c => { c with upact := false }
    let v := c.sr a
    let at_ : List Word := [v + 0xEA0, v + 0xEB8, v + 0xEC0]
    if !c.upact then .trap (trapped .illegalSequence)
    else if a = 0 then fin s0 c.epc c.einfo c.btarget
    else if v.toNat % 8 ≠ 0 then .trap { cause := .alignment, eaddr := v }
    else
      -- the alignment of a resume address that could be read comes before another word's address fault and machine-check (R230)
      readEach s0 (fun s w =>
        let word (k : Nat) : Option Word := if w.lost.contains (at_.getD k 0) then none else w.ws[k]?
        let askew (k : Nat) : Option Word := (word k).filter fun x => x.toNat % 4 ≠ 0
        let target : Option Word := if (word 1).any (·.getLsbD 0) then askew 2 else none
        match (askew 0).or target, w.trap c 4 with
        | some x, _ => .trapAt s { cause := .alignment, eaddr := x }
        | none, some t => .trapAt s t
        | none, none => fin (s.noteReads i at_) (w.ws.getD 0 0) (w.ws.getD 1 0) (w.ws.getD 2 0))
        s0 (at_.drop c.wordsRead.length) c.gotWords

/-! ### WFI (R238) -/

def execWfi (a : SReg) (s : State) : Host.Outcome State Fault Refusal :=
  run (.wfi a) { reads := [.s a] } s fun s =>
    let c := s.ctx s.cur
    if s.cur.ctx.isMsg then .done s [] .seq
    else
      match c.wait with
      | .ended => .done s [] .seq
      | .wfi d => .wait s (.wfi d)
      | _ => .wait (if s.cur.ctx = .work then s.haltWork s.cur.node else s) (.wfi (c.sr a))

/-! ### Shoot-downs (R242, R243, R374) -/

/-- The selector of SHOOT and TLBIL: partition, size and address, or the trap. -/
def State.selector (s : State) (a b : Word) : Except Trap (Nat × Nat × Nat) :=
  let size := natBits b.toNat 0 2
  let part := natBits b.toNat 2 7
  let g := s.cur.node
  if (s.node g).ns && !s.partNs (pkgOf g) part then .error (trapped .privilege)
  else if natBits b.toNat 9 55 ≠ 0 || (size ≠ 3 && (2 ^ 63 ≤ a.toNat || a.toNat % 2 ^ (12 + 9 * size) ≠ 0)) then
    .error { cause := .operandFormat, eaddr := b }
  else .ok (part, size, if size = 3 then 0 else a.toNat)

/-- The homes of a package that hold a translation cache: 64 memory nodes, the CXL agent and the host link. -/
def homeKeys : List Nat := List.range 66

/-- Start a shoot-down at the roots of the packages that the partition spans (R374, steps 1 and 2). -/
def State.startShoot (s : State) (part size addr : Nat) : State :=
  let p := pkgOf s.cur.node
  ((s.span p part).foldl (fun s q =>
    s.modPkg q fun k => { k with shoots := k.shoots ++
      [{ part := part, size := size, addr := addr, issuer := s.cur, ipart := s.partOf s.cur, clusters := s.clustersOf q part, mail := []
         homes := homeKeys, tephra := true }] }) s)

def execShoot (a b : SReg) (s : State) : Host.Outcome State Fault Refusal :=
  run (.shoot a b) { reads := [.s a, .s b], priv := true } s fun s =>
    let i := s.cur
    let c := s.ctx i
    match c.wait with
    | .ended => .done s [] .seq
    | .shoot p => .wait s (.shoot p)
    | _ =>
      match s.selector (c.sr a) (c.sr b) with
      | .error t => .trap t
      | .ok (part, size, addr) =>
        if s.acqOpen i then .stall s
        else if !s.fenceDone i .sys then .wait s .busy
        else if (s.span (pkgOf i.node) part).any (fun q => (s.pkg q).shoots.any fun x => x.part == part) then .wait s .busy
        else .wait (s.startShoot part size addr) (.shoot part)

def execTlbil (a b : SReg) (s : State) : Host.Outcome State Fault Refusal :=
  run (.tlbil a b) { reads := [.s a, .s b], priv := true } s fun s =>
    let c := s.ctx s.cur
    match s.selector (c.sr a) (c.sr b) with
    | .error t => .trap t
    | .ok (part, size, addr) =>
      .done (s.modNode s.cur.node fun n => { n with tlb := n.tlb.filter fun e => !tlbSelected part size addr e }) [] .seq

/-! ### Context blocks (R239 to R241) -/

/-- Fields packed from bit 0 upward, each of `w` bits. -/
def packed (w : Nat) (xs : List Nat) : Word := BitVec.ofNat 64 (xs.foldr (fun x acc => x % 2 ^ w + 2 ^ w * acc) 0)

/-- Word `j` of a formula slot entry. -/
def slotWord (k : Slot) (j : Nat) : Word :=
  if j < 4 then BitVec.ofNat 64 (natBits k.desc.toNat (64 * j) 64)
  else if j = 4 then k.accum
  else BitVec.ofNat 64 (k.dest % 64 + k.depth % 8 * 256 + (if k.held then 2 ^ 12 else 0) + if k.valid then 2 ^ 13 else 0)

/-- The control registers of a block, in order. -/
def blockCsr (s : State) (i : Inst) (c : Ctx) (k : Nat) : Word :=
  match k with
  | 0 => c.fstat.setWidth 64
  | 1 => Word.ofBool c.wtop
  | 2 => c.srseed.setWidth 64
  | 3 => c.vovf.setWidth 64
  | 4 => c.ictr
  | 5 => pstatOf i (s.node i.node).ns c
  | 6 => c.upvec
  | 7 => c.upinfo
  | 8 => c.epc
  | 9 => c.ecause
  | 10 => c.eaddr
  | 11 => c.einfo
  | 12 => c.btarget
  | 13 => c.lreq
  | 14 => c.rreq
  | _ => Word.ofBool c.tag

/-- Word `k` of the context block of an instance (R239). -/
def blockWord (s : State) (i : Inst) (c : Ctx) (k : Nat) : Word :=
  if k < 64 then c.sr k
  else if k < 320 then BitVec.ofNat 64 (natBits (c.vr ((k - 64) / 8)).toNat (64 * ((k - 64) % 8)) 64)
  else if k < 322 then
    if i.ctx.isMsg then 0 else packed 16 ((List.range 4).map fun j => (c.pr (4 * (k - 320) + j)).toNat)
  else if k < 326 then packed 32 ((List.range 2).map fun j => (c.dr (2 * (k - 322) + j)).toNat)
  else if k < 358 then BitVec.ofNat 64 (natBits (c.hr ((k - 326) / 2)).toNat (64 * ((k - 326) % 2)) 64)
  else if k < 454 then slotWord (c.slot ((k - 358) / 6)) ((k - 358) % 6)
  else if k < 460 then
    match k - 454 with
    | 0 => c.lc0.setWidth 64
    | 1 => c.lbeg0
    | 2 => c.lend0
    | 3 => c.lc1.setWidth 64
    | 4 => c.lbeg1
    | _ => c.lend1
  else if k < 476 then blockCsr s i c (k - 460)
  else 0

/-- The first poisoned register, in the order of the block. -/
def Ctx.firstPoison (c : Ctx) : Option Word :=
  c.poisonedAt ((List.range 64).map Reg.s ++ (List.range 32).map Reg.v)

/-- One store of SAVEX. -/
def saveOp (lanes : List LaneAcc) : MemOp :=
  { need := .store, mode := .as, size := 8, lanes := lanes, dst := .none }

/-- A store that has passed SAVEX's check and cannot be located when it is sent comes back refused, as one that was sent at once
would (R135, R240, R371). -/
def State.refusedStore (s : State) (i : Inst) (a : LaneAcc) (c : Cause) (code : Nat) : State :=
  let m := s.msgFor i (saveOp [a]) 0 a { tgt := .node i.node 0 }
  let id := s.nextId
  let m := { m with osc := true }
  ((s.post m).modMsg id fun x => { x with phase := .refused (x.refusal c code) }).retired i.node m.part m.tag

/-- SAVEX sends `n` stores of its checked block (R240). -/
def State.saveLanes (s : State) (i : Inst) : List LaneAcc → State
  | [] => s
  | a :: l =>
    let s : State := match s.find1 i .store .as 8 a.v.toNat with
      | (s, .ok f) => (s.performAll (saveOp [a]) [(a, f)]).1
      | (s, .error e) => s.refusedStore i a e.1 e.2
    s.saveLanes i l

/-- SAVEX checks the whole block, then posts its 512 stores as OSC admits them. A store takes its place when it is sent, and a
check that fails only then is a deferred refusal. LREQ and RREQ are saved as they stand when their own words are sent, the block's
earlier stores counted (R227, R240, DESIGN CHOICE, log 23). -/
def execSavex (a : SReg) (s : State) : Host.Outcome State Fault Refusal :=
  run (.savex a) { reads := [.s a] } s fun s =>
    let i := s.cur
    let c := s.ctx i
    let v := c.sr a
    let lane (k : Nat) : LaneAcc :=
      let x := blockWord s i c k
      ⟨0, v + BitVec.ofNat 64 (8 * k), .store 8 x⟩
    let barred (l : LaneAcc) : Bool := match s.find1 i .store .as 8 l.v.toNat with
      | (s, .ok f) => s.ownWaits i (saveOp []) f
      | _ => false
    let stores (from_ : Nat) : Out :=
      let n := min (512 - from_) (256 - c.osc)
      let ls := ((List.range n).map fun j => from_ + j).map lane
      if n = 0 || s.acqOpen i || ls.any barred then (if from_ = 0 then .stall s else .wait s (.savex from_))
      else
        let s := s.saveLanes i ls
        if from_ + n = 512 then .done s [] .seq else .wait s (.savex (from_ + n))
    match c.wait with
    | .savex k => stores k
    | _ =>
      if !c.awaited.isEmpty then .stall (s.modCtx i fun c => { c with stalled := c.pendingRegs })
      else if v.toNat % 4096 ≠ 0 then .trap (c.trapOf (.alignment, 0) v.toNat { acc := 2 })
      else
        match s.findAll i .store .as 8 ((List.range 512).map lane) with
        | (s, .error (k, e, x)) => .trapAt s (c.trapOf (k, e) x.v.toNat ((saveOp []).access x))
        | (_, .ok _) =>
          match c.firstPoison with
          | some p => .trap { cause := .machineCheck, eaddr := p, code := 3 }
          | none => stores 0

/-- `n` words of a block from word `k` on, or the first trap among their checks; a word with an uncorrectable error is named
apart. -/
def State.readBlock (s : State) (i : Inst) (v : Word) :
    Nat → Nat → State × Read (List Word × Option Word)
  | 0, _ => (s, .ok ([], none))
  | n + 1, k =>
    let c := s.ctx i
    let a := v + BitVec.ofNat 64 (8 * k)
    match s.reachNow i (!c.priv) .as .read a.toNat 8 with
    | (s, .error e code r) => (s, .error (c.readTrap a.toNat e code r))
    | (s, .held) => (s, .held)
    | (s', .ok p) =>
      if !s.readOk i a.toNat then (s, .held)
      else
        let x := BitVec.ofNat 64 (s'.readPlace p 8)
        let bad := s'.bad p
        match s'.readBlock i v n (k + 1) with
        | (s, .ok (xs, e)) => (s, .ok (x :: xs, if bad then some a else e))
        | r => r

/-- The words of a block as numbers, with 0 beyond its end. -/
def wordAt (ws : List Word) (k : Nat) : Nat := (ws.getD k 0).toNat

/-- Registers of a file from the block's words: `n` registers of `w` bits from word `k`, dropping default values. -/
def loadFile {m : Nat} (ws : List Word) (k n w : Nat) : Table (BitVec m) :=
  (List.range n).foldl (fun t r =>
    let bit := w * r
    let x := if w ≤ 64 then natBits (wordAt ws (k + bit / 64)) (bit % 64) w
      else (List.range (w / 64)).foldr (fun j acc => wordAt ws (k + bit / 64 + j) + 2 ^ 64 * acc) 0
    Table.set 0 t r (BitVec.ofNat m x)) []

/-- A formula slot from a block; its depth is recomputed. -/
def loadSlot (ws : List Word) (j : Nat) : Slot :=
  let k := 358 + 6 * j
  let st := wordAt ws (k + 5)
  { desc := BitVec.ofNat 256 ((List.range 4).foldr (fun j acc => wordAt ws (k + j) + 2 ^ 64 * acc) 0)
    accum := BitVec.ofNat 64 (wordAt ws (k + 4)), dest := natBits st 0 6, held := natBit st 12, valid := natBit st 13 }

/-- The context that a block gives an instance (R241). -/
def Ctx.load (c : Ctx) (i : Inst) (ws : List Word) : Ctx :=
  let w (k : Nat) : Word := ws.getD k 0
  let main := i.ctx == .main
  let msg := i.ctx.isMsg
  let c1 : Ctx := { c with
    s := Table.erase (loadFile ws 0 (if msg then 16 else 64) 64) 0
    v := loadFile ws 64 (if main then 32 else if msg then 0 else 16) 512
    p := Table.erase (loadFile ws 320 (if msg then 0 else 8) 16) 0
    d := loadFile ws 322 (if main then 7 else 0) 32
    h := loadFile ws 326 (if main then 16 else 0) 128
    part := []
    slots := (List.range (slotsOf i.ctx)).foldl (fun t j => Table.set {} t j (loadSlot ws j)) []
    poison := []
    fstat := (w 460).setWidth 5, wtop := (w 461).getLsbD 0, srseed := (w 462).setWidth 32, vovf := (w 463).setWidth 32
    upvec := w 466, lreq := w 473, rreq := w 474, tag := (w 475).getLsbD 0 }
  let c2 : Ctx :=
    if msg then c1
    else { c1 with lc0 := (w 454).setWidth 32, lbeg0 := w 455, lend0 := w 456, lc1 := (w 457).setWidth 32, lbeg1 := w 458
                   lend1 := w 459 }
  let c3 : Ctx :=
    if c.priv then
      { c2 with ictr := w 464, upact := (w 465).getLsbD 3, ie := (w 465).getLsbD 2, priv := (w 465).getLsbD 0
                upinfo := w 467, epc := w 468, ecause := w 469, eaddr := w 470, einfo := w 471, btarget := w 472 }
    else c2
  c3.redepth
where
  slotsOf : CtxId → Nat
    | .main => 16
    | .work => 8
    | _ => 0

/-- The upper word of a handle that R156 admits; an invalid handle needs only its reserved bits zero. -/
def handleHighOk (x : Nat) : Bool :=
  natBits x 122 6 == 0 &&
    (!natBit x 121 ||
      (let cnt := natBits x 77 9
       let sz := natBits x 73 4
       let tie := natBits x 118 3
       2 ≤ cnt && cnt ≤ 256 && 6 ≤ sz && natBits x 64 9 == 0 && (tie == 0 || 4 ≤ tie)))

/-- The lower word: BASE, and with it the end of the ring's storage, which the node must back (R29, R156). -/
def handleLowOk (g x : Nat) : Bool :=
  !natBit x 121 ||
    (x % 64 == 0 && x % 2 ^ 64 + natBits x 77 9 * 2 ^ natBits x 73 4 ≤ if isCaldera g then 0x40000 else 0x90000)

/-- A word of a descriptor that R120 admits: word 0 has the sources and OP0, OP1, word 1 OP2 and OP3. -/
def descWordOk (d j : Nat) : Bool :=
  match j with
  | 0 => natBits d 21 1 == 0 && (List.range 3).all (fun k => srcOk (fSrc d k)) && opOk d 0 && opOk d 1
  | 1 => natBits d 92 4 == 0 && opOk d 2 && opOk d 3
  | _ => true

/-- A word of a block breaks R241: `c` is the context that the block would give. Registers that the context lacks are
ignored. The word that offends is the one that holds the field; of slots that share a DEST, word 5 of each that has a lower sharer, and of
slots that lie too deep or in a cycle, word 5 of each of them; the lowest such word is reported (DESIGN CHOICE, log 23). -/
def blockBad (i : Inst) (c : Ctx) (ws : List Word) (k : Nat) : Bool :=
  let x := wordAt ws k
  let main := i.ctx == .main
  let high (n : Nat) : Bool := x / 2 ^ n != 0
  if k = 325 then x / 2 ^ 32 != 0
  else if 326 ≤ k && k < 358 then
    main && (if k % 2 = 0 then !handleLowOk i.node (x + 2 ^ 64 * wordAt ws (k + 1)) else !handleHighOk (2 ^ 64 * x))
  else if 358 ≤ k && k < 454 then
    let j := (k - 358) / 6
    let sl := c.slot j
    j < Ctx.load.slotsOf i.ctx &&
      (match (k - 358) % 6 with
        | 0 => natBit x 21 || (sl.valid && !descWordOk sl.desc.toNat 0)
        | 1 => natBits x 28 4 != 0 || (sl.valid && !descWordOk sl.desc.toNat 1)
        | 5 => natBits x 6 2 != 0 || natBit x 11 || high 14 ||
            (sl.valid && (sl.dest == 0 || (List.range j).any (fun n => (c.slot n).valid && (c.slot n).dest == sl.dest) ||
              4 < c.depthOf 17 j))
        | _ => false)
  else if k = 454 || k = 457 then !i.ctx.isMsg && high 32
  else
    match k with
    | 460 => high 5
    | 461 => high 1
    | 462 | 463 => high 32
    | 465 => high 6
    | 466 => x % 4 != 0
    | 469 => high 8
    | 471 => high 18
    | 475 => high 1
    | _ => 476 ≤ k && x != 0

/-- LOADX reads the whole block, checks it, and loads it in one step (R241). Split, each word is read in a grant of its own
(R247). -/
def execLoadx (a : SReg) (s : State) : Host.Outcome State Fault Refusal :=
  run (.loadx a) { reads := [.s a], noSlot := true, noEnd := true } s fun s0 =>
    let i := s0.cur
    let c := s0.ctx i
    let v := c.sr a
    let got := c.wordsRead
    if !c.awaited.isEmpty then .stall (s0.modCtx i fun c => { c with stalled := c.pendingRegs })
    else if v.toNat % 4096 ≠ 0 then .trap (c.trapOf (.alignment, 0) v.toNat { acc := 7 })
    else
      match s0.readBlock i v (if s0.split then 1 else 512 - got.length) got.length with
      | (s, .error t) => .trapAt s t
      | (s, .held) => .stall (s0.keepWalks s i)
      | (s, .ok (xs, e)) =>
        let ws := got ++ xs
        let bad := c.wordsBad ++ e.toList
        if ws.length < 512 then .wait s (.words ws bad)
        else
          let t := s.watchReads i ((List.range 512).map fun k => v + BitVec.ofNat 64 (8 * k))
          let c' := (t.ctx i).load i ws
          match (List.range 512).find? (blockBad i c' ws), bad with
          | some k, _ => .trapAt s { cause := .operandFormat, eaddr := v + BitVec.ofNat 64 (8 * k) }
          | none, e :: _ => .trapAt s { cause := .machineCheck, eaddr := e, code := 4 }
          | none, [] => .done (t.setCtx i c') [] (.loaded c.priv)

/-! ### Counters and markers (R244, R245) -/

/-- PERFR's counters. Counter 0 has the instructions that retired and those that trapped. The hops of requests are those of one
implementation: counter 7 has a free value that does not fall (DESIGN CHOICE, log 15). -/
def State.perfValue (s : State) (i : Inst) (n : Nat) : State × Word :=
  let get (k : Nat) : Word := Table.get 0 (s.ctx i).perf k
  if n = 0 then (s, get 0 + get 10)
  else if n = 7 then
    let r := s.free
    let x := if (get 7).ult r.1 then r.1 else get 7
    (r.2.modCtx i fun c => { c with perf := Table.set 0 c.perf 7 x }, x)
  else (s, get n)

def execPerfr (d : SReg) (n : Fin 64) (s : State) : Host.Outcome State Fault Refusal :=
  run (.perfr d n) { writes := [.s d], illegal := 10 ≤ n.val } s fun s =>
    let r := s.perfValue s.cur n.val
    writeS r.1 d r.2

def execTmark (a : SReg) (tag : Fin 64) (s : State) : Host.Outcome State Fault Refusal :=
  run (.tmark a tag) { reads := [.s a] } s fun s =>
    .done (s.emit s.cur 3 ((s.ctx s.cur).sr a) (s.pkg (pkgOf s.cur.node)).gt (BitVec.ofNat 64 tag.val)) [] .seq

end Sys2Proof.Machine
end

