-- ==== Sys2Proof/Machine/Image.lean ====
section
/-! DEFINITION. Image areas in bonded DRAM: the layout of an image, the coded stream of its dirty regions, and streaming in and
out (R358 to R361). What the manual gives no layout (channel queues, Vent entries, parcels, the directory) is written with free
values, and the coder's choices are free (DESIGN CHOICE, log 14). -/

namespace Sys2Proof.Machine

/-! ### Bytes in bulk -/

/-- The listed cells of consecutive bytes. -/
def Memory.cells : Nat → List Byte → Memory
  | _, [] => []
  | a, b :: bs => if b = Memory.blank then Memory.cells (a + 1) bs else (a, b) :: Memory.cells (a + 1) bs

/-- Write consecutive bytes at `a`. -/
def Memory.splice (m : Memory) (a : Nat) (bs : List Byte) : Memory :=
  m.filter (fun c => decide (c.1 < a)) ++ Memory.cells a bs ++ m.filter (fun c => decide (a + bs.length ≤ c.1))

/-! ### The layout (R358, R359) -/

/-- Where the image area of a partition's core starts (R353). -/
def State.imageAt (s : State) (g part : Nat) : Nat :=
  dramKey (pkgOf g) ((s.partWord (pkgOf g) part 10).toNat + 2 ^ 20 * locOf g)

/-- Write bytes of an image area; an uncorrectable error of a word goes with it. -/
def State.putImage (s : State) (g part off : Nat) (bs : List Byte) : State :=
  let a := s.imageAt g part + off
  { s with dram := s.dram.splice a bs, dramBad := s.dramBad.filter fun w => w < a / 8 || a + bs.length ≤ 8 * w }

/-- The recorded wait of an instance record. -/
def waitCode (s : State) (i : Inst) (m : Img) : Nat :=
  let c := m.ctx i.ctx
  let mine := s.net.filter fun x => x.src == i && x.part == m.part
  let tag (t : Bool) : Nat := if t then 32 else 0
  let fe := mine.any fun x => match x.req with
    | .fe _ _ => true
    | _ => false
  let prld := mine.any fun x => match x.req with
    | .prld _ _ => true
    | _ => false
  match c.wait with
  | .hwait => 2 + tag c.tag
  | .hspace => 3 + tag c.tag
  | .gbar _ => 4 + 16 + tag c.tag
  | .gfence => 4 + tag c.tag
  | .quiet _ t _ => 5 + tag t
  | .wfi _ | .halted => 8 + tag c.tag
  | _ =>
    if fe then 1 + tag c.tag
    else if (m.gmma.map fun g => g.ctx == i.ctx && g.phase == .arrived).getD false then 6 + tag c.tag
    else if prld then 7 + tag c.tag
    else 0

/-- An operand word of a captured GMMA (R187). -/
def srcWord (x : GSrc) (ord : Bool) : Nat :=
  (if ord then 2 ^ 61 else 0) + match x with
    | .tile off => off
    | .ring h _ => 2 ^ 62 + h
    | .acc t => 2 ^ 63 + t.val

/-- Word `k` of an instance record. -/
def instWord (s : State) (i : Inst) (m : Img) (k : Nat) : Nat :=
  let c := m.ctx i.ctx
  let mask (n : Nat) (f : Nat → Reg) : Nat :=
    ((List.range n).map fun j => if c.awaited.contains (f j) then 2 ^ j else 0).sum
  let open_ (f : Gmma → Nat) : Nat := match m.gmma with
    | some g => if g.ctx = i.ctx ∧ g.phase = .arrived then f g else 0
    | none => 0
  match k with
  | 0 => c.pc.toNat
  | 1 => waitCode s i m
  | 2 => mask 64 .s
  | 3 => mask 32 .v + 2 ^ 32 * mask 8 .p
  | 4 => c.seq.toNat
  | 5 => open_ fun g =>
    let f := g.pair.codes
    2 ^ 63 + g.tile.val + 4 * (g.gangw % 4) + 16 * (g.gstag % 16) + 256 * f.1.val + 2048 * f.2.1.val + 16384 * f.2.2.val
  | 6 => open_ fun g => srcWord g.a g.aOrd
  | 7 => open_ fun g => srcWord g.b g.bOrd
  | 8 => open_ fun g => g.env.2.2.toNat
  | _ => 0

/-- Word `k` of the core-state area. -/
def coreWord (s : State) (g : Nat) (m : Img) (k : Nat) : Nat :=
  let at_ (t : Table Word) (j : Nat) : Nat := (Table.get 0 t j).toNat
  if k < 8 then
    match k with
    | 0 => m.gangw.toNat
    | 1 => m.gstag.toNat
    | 2 => m.qspill
    | 3 => m.stealwin
    | 4 => m.hwdog.toNat
    | 5 => m.vent.length
    | 6 => m.npool.toNat
    | _ => m.nfreehd.toNat
  else if k < 12 then (m.chan (k - 8)).wp.toNat
  else if k < 28 then at_ m.prb (k - 12)
  else if k < 44 then at_ m.prl (k - 28)
  else if k = 44 then m.stealStart % 4 + 16 * m.ovf.toNat
  else if k < 64 then 0
  else if k < 192 then
    instWord s ⟨g, [CtxId.main, .work, .msgL, .msgH].getD ((k - 64) / 32) .main⟩ m ((k - 64) % 32)
  else 0

/-- Word `k` of an image area below the coded stream. -/
def imageWord (s : State) (g : Nat) (m : Img) (k : Nat) : Word :=
  if k < 2048 then
    let i : Inst := ⟨g, [CtxId.main, .work, .msgL, .msgH].getD (k / 512) .main⟩
    blockWord s i (m.ctx i.ctx) (k % 512)
  else if k < 2560 then BitVec.ofNat 64 (coreWord s g m (k - 2048))
  else if 6400 ≤ k ∧ k < 7168 then 0
  else Config.freeValue (s.fresh + k)

def imageBytes (s : State) (g : Nat) (m : Img) (n : Nat) : List Byte :=
  (List.range n).flatMap fun k => leBytes 8 (imageWord s g m k).toNat

/-! ### The coded stream (R360) -/

/-- The 64 lines of a region: the FE bits of a line's words, and its bytes. -/
def Img.lines (m : Img) (r : Nat) : List (Nat × Nat) :=
  (List.range 64).map fun l =>
    let a := r * 4096 + 64 * l
    ((List.range 8).foldr (fun i x => (if m.fe.full (a / 8 + i) then 1 else 0) + 2 * x) 0, m.spm.readNat a 64)

/-- Put the lines of a region back, from its line `l` on. -/
def Img.putLines (m : Img) (r : Nat) : Nat → List (Nat × Nat) → Img
  | _, [] => m
  | l, (fe, x) :: ls =>
    let a := r * 4096 + 64 * l
    let m := { m with spm := m.spm.writeNat a 64 x
                      fe := (List.range 8).foldl (fun t i => FeBits.write t (a / 8 + i) (natBit fe i)) m.fe }
    m.putLines r (l + 1) ls

/-- A line of eight equal words. -/
def splat (v : Nat) : Nat := (List.range 8).foldr (fun _ x => v + 2 ^ 64 * x) 0

/-- The tokens that may come next, each with the number of its lines. -/
def tokens (prev : Option Nat) (ls : List (Nat × Nat)) : List (List Byte × Nat) :=
  match ls with
  | [] => []
  | (fe, x) :: _ =>
    let run : List Nat := List.range (ls.takeWhile fun l => l == (fe, x)).length
    let byte (n : Nat) : Byte := BitVec.ofNat 8 n
    let v := x % 2 ^ 64
    ([byte 0xC0, byte fe] ++ leBytes 64 x, 1) ::
      ((if x = 0 then run.map fun c => ([byte c, byte fe], c + 1) else []) ++
        (if prev = some x then run.map fun c => ([byte (0x40 + c), byte fe], c + 1) else []) ++
        (if x = splat v then run.map fun c => ([byte (0x80 + c), byte fe] ++ leBytes 8 v, c + 1) else []))

/-- Code lines; `k` numbers the free values by which the coder chooses. -/
def codeLines : Nat → Nat → Option Nat → List (Nat × Nat) → List Byte
  | 0, _, _, _ => []
  | n + 1, k, prev, ls =>
    match ls with
    | [] => []
    | (_, x) :: _ =>
      let ts := tokens prev ls
      let t := ts.getD ((Config.freeValue k).toNat % ts.length) ([], 1)
      t.1 ++ codeLines n (k + 1) (some x) (ls.drop t.2)

/-- Decode `need` lines from position `pos` of a stream whose bytes `rd` gives: the lines and the position behind them, or nothing
where a token breaks a rule of R360. -/
def decodeLines (rd : Nat → Nat) : Nat → Option Nat → Nat → Nat → Option (List (Nat × Nat) × Nat)
  | 0, _, need, pos => if need = 0 then some ([], pos) else none
  | n + 1, prev, need, pos =>
    if need = 0 then some ([], pos)
    else
      let c := rd pos % 64 + 1
      let value (k : Nat) : Nat := (List.range k).foldr (fun j x => rd (pos + 2 + j) % 256 + 256 * x) 0
      let line : Option (Nat × Nat) := match rd pos / 64 % 4 with
        | 0 => some (0, 0)
        | 1 => prev.map fun x => (x, 0)
        | 2 => some (splat (value 8), 8)
        | _ => if c = 1 then some (value 64, 64) else none
      match line with
      | none => none
      | some (x, k) =>
        if need < c then none
        else (decodeLines rd n (some x) (need - c) (pos + 2 + k)).map fun r =>
          (List.replicate c (rd (pos + 1) % 256, x) ++ r.1, r.2)

/-- Decode regions one after another. -/
def decodeRegions (rd : Nat → Nat) : List Nat → Nat → Option (List (Nat × List (Nat × Nat)))
  | [], _ => some []
  | r :: rs, pos =>
    match decodeLines rd 64 none 64 pos with
    | none => none
    | some (ls, pos) => (decodeRegions rd rs pos).map fun x => (r, ls) :: x

/-- The dirty regions of an image, in ascending order. -/
def Img.dirtyRegions (m : Img) : List Nat := (List.range 144).filter m.dirty.contains

/-! ### Streaming (R361) -/

/-- Write an image to its area: what R358 lays out, and the coded stream behind it. -/
def State.streamOut (s : State) (g : Nat) (m : Img) : State :=
  match m.part with
  | none => s
  | some part =>
    let coded := m.dirtyRegions.flatMap fun r => codeLines 64 (s.fresh + 7680 + 64 * r) none (m.lines r)
    { s.putImage g part 0 (imageBytes s g m 7680 ++ coded) with fresh := s.fresh + 2 ^ 15 }

/-- Read an image back: every dirty region as its area's stream gives it, or nothing where the stream does not decode. -/
def State.streamIn (s : State) (g : Nat) (m : Img) : Option Img :=
  match m.part with
  | none => some m
  | some part =>
    let a := s.imageAt g part + 0xF000
    (decodeRegions (fun k => (s.dram.read (a + k)).toNat) m.dirtyRegions 0).map fun rs =>
      rs.foldl (fun m x => m.putLines x.1 0 x.2) m

/-- An answer that reaches a stored image is written into its area: the context blocks and the core state (R359). -/
def State.syncImage (s : State) (g : Nat) (part : Option Nat) : State :=
  match part with
  | none => s
  | some q => if (s.node g).held g part = .stored then s.putImage g q 0 (imageBytes s g (s.img g part) 2560) else s

end Sys2Proof.Machine
end

