-- ==== Sys2Proof/Machine/Record.lean ====
section
/-! DEFINITION. The record unit of a Caldera core: the fields of a parameter record, taking contributions, dispatching rules,
committing, and serving reads and writes (R149, R196, R199 to R204, R357). A record is named by the key of its first byte in
bonded DRAM. -/

namespace Sys2Proof.Machine

/-! ### Fields (R196) -/

def State.recWord (s : State) (a k : Nat) : Nat := s.dram.readNat (a + 8 * k) 8
def State.setRec (s : State) (a off n x : Nat) : State := s.writePlace (.dram (a + off)) n x

def State.epoch (s : State) (a : Nat) : Nat := natBits (s.recWord a 0) 32 32
def State.arr (s : State) (a : Nat) : Nat := natBits (s.recWord a 0) 16 16
def State.exp (s : State) (a : Nat) : Nat := natBits (s.recWord a 0) 0 16
def State.busy (s : State) (a : Nat) : Bool := natBit (s.recWord a 1) 17

/-- Header word 0 from its fields. -/
def State.setHead (s : State) (a epoch arr exp : Nat) : State := s.setRec a 0 8 (exp + arr * 2 ^ 16 + epoch * 2 ^ 32)

/-- Replace SKIP, BUSY and OVF of header word 1. -/
def State.setBits (s : State) (a : Nat) (skip busy ovf : Bool) : State :=
  let b (x : Bool) (n : Nat) : Nat := if x then 2 ^ n else 0
  s.setRec a 8 8 (natBits (s.recWord a 1) 0 16 + b ovf 16 + b busy 17 + b skip 18)

/-- Offset and bytes of a field of PRLD and PRSET (R198). -/
def recField : Nat → Nat × Nat
  | 0 => (32, 64)
  | 1 => (96, 64)
  | 2 => (160, 32)
  | _ => (0, 32)

/-- What the unit keeps beside the bytes. -/
def State.recOf (s : State) (g a : Nat) : Rec := Table.get {} (s.node g).recs a
def State.modRec (s : State) (g a : Nat) (f : Rec → Rec) : State :=
  s.modNode g fun n => { n with recs := Table.set {} n.recs a (f (Table.get {} n.recs a)) }

/-! ### Answers -/

/-- A request is refused; it retires (R149). -/
def State.refuse (s : State) (g : Nat) (m : Msg) (cause : Cause) (code : Nat) : State :=
  (s.modMsg m.id fun m => { m with phase := .refused { cause := cause, eaddr := m.va, code := code, remote := true } }).retired g m.part m.tag

/-- A request is served; it retires. -/
def State.served (s : State) (g : Nat) (m : Msg) (data : Nat) (bad : Bool) : State :=
  (s.modMsg m.id fun m => { m with phase := .ok data 0 bad }).retired g m.part m.tag

/-- A bound record refuses the requests of other partitions (R357). -/
def State.foreign (s : State) (g a : Nat) (m : Msg) : Bool :=
  match (s.recOf g a).bound with
  | some q => m.part != some q
  | none => false

/-! ### Reads (R203) -/

/-- PRSTAT's value. -/
def State.recStat (s : State) (a : Nat) : Nat :=
  s.epoch a * 2 ^ 32 + s.arr a * 2 ^ 16 + natBits (s.recWord a 1) 18 1 * 4 + natBits (s.recWord a 1) 17 1 * 2 +
    natBits (s.recWord a 1) 16 1

/-- The step condition of a PRLD. -/
def State.stepReady (s : State) (a : Nat) (step : Word) : Bool :=
  step == 0 || (s.epoch a + 2 ^ 32 - step.toNat % 2 ^ 32) % 2 ^ 32 < 2 ^ 31

/-- Serve a PRLD. -/
def State.servePrld (s : State) (g a : Nat) (m : Msg) (field : Nat) : State :=
  let f := recField field
  let bad := (List.range (f.2 / 8)).any fun k => s.dramBad.contains ((a + f.1) / 8 + k)
  s.served g m (s.dram.readNat (a + f.1) f.2) bad

/-- The requests held at a record, in the order in which they were taken. -/
def State.heldAt (s : State) (a : Nat) (p : Req → Bool) : List Msg :=
  sortMsgs (s.net.filter fun m => m.at_ == some (.dram a) && p m.req &&
    match m.phase with
    | .waiting _ => true
    | _ => false)

def isPrld : Req → Bool
  | .prld _ _ => true
  | _ => false
def isUpdate : Req → Bool
  | .grad _ _ _ _ | .prset _ _ => true
  | _ => false

/-- Serve the waiting PRLDs whose step condition holds now. -/
def State.serveWaiting (s : State) (g a : Nat) : State :=
  (s.heldAt a isPrld).foldl (fun s m => match m.req with
    | .prld field step => if s.stepReady a step then s.servePrld g a m field else s
    | _ => s) s

/-! ### Contributions (R199 to R201) -/

/-- Add lane values to the sums: the sums and whether one saturated (R50). -/
def addSums (gscale : Int) (fmt : Fmt) : List Int → List Nat → List Int × Bool
  | _, [] => ([], false)
  | sums, x :: xs =>
    let n := toFx32 gscale (fmt.num false x)
    let r := addSums gscale fmt (sums.drop 1) xs
    ((sums.headD 0 + n.1) :: r.1, n.2 || r.2)

def clampG (i : Int) : Int := max (-2147483648) (min i 2147483647)

/-- Dispatch the rule of a record whose epoch is complete. -/
def State.dispatchRule (s : State) (g a : Nat) (sums : List Int) (ovf : Bool) : State :=
  let exceeds := sums.any fun i => i != clampG i
  let gs := (List.range 16).map fun l => intMod 32 (clampG (sums.getD l 0))
  let s := s.setRec a 192 64 (gs.foldr (fun x acc => x + 2 ^ 32 * acc) 0)
  (s.setBits a (natBit (s.recWord a 1) 18) true (ovf || exceeds)).modNode g fun n => { n with lock := n.lock ++ [a] }

/-- Beyond 256 records with running sums, the unit spills sums to its area in DRAM: bytes without a layout, at a place that the
manual leaves open, as the time of the spill (R200, R353, DESIGN CHOICE, logs 14 and 15). -/
def State.sumSpill (s : State) (g : Nat) (part : Option Nat) : State :=
  match part with
  | some q =>
    if ((s.node g).recs.filter fun r => !r.2.sums.isEmpty).length ≤ 256 then s
    else
      let r := s.free
      r.2.scribble (dramKey (pkgOf g) ((s.partWord (pkgOf g) q 9).toNat + 2 ^ 20 * (locOf g - 1024)) + 64 * (r.1.toNat % 2 ^ 14)) 8
  | none => s

/-- Take a contribution; nothing while it must be held for want of a lock table entry. R199 does not order its two kind faults: a
record with EXP = 0 is refused as such, whatever the class (DESIGN CHOICE, log 66). -/
def State.takeGrad (s : State) (g a : Nat) (m : Msg) (cls : Nat) (x : List Nat) (bf16 ovf : Bool) : Option State :=
  let w1 := s.recWord a 1
  let exp := s.exp a
  let arr := s.arr a + 1
  if s.foreign g a m then some (s.refuse g m .protection 0)
  else if exp = 0 then some (s.refuse g m .kind 2)
  else if cls ≠ natBits w1 6 2 then some (s.refuse g m .kind 1)
  else if arr = exp && 64 ≤ (s.node g).lock.length then none
  else
    let r := s.recOf g a
    let q := addSums (natSigned 8 (natBits w1 8 8)) (if bf16 then .bf16 else .f32) r.sums x
    let ovf := ovf || q.2 || natBit w1 16
    let s := s.modRec g a fun r => { r with sums := q.1, bound := m.part, va := m.va, tag := m.tag }
    let s := (s.setHead a (s.epoch a) arr exp).setBits a (natBit w1 18) false ovf
    let s := (s.modMsg m.id fun m => { m with phase := .ok 0 0 false }).sumSpill g m.part
    if arr = exp then some (s.dispatchRule g a q.1 ovf) else some (s.retired g m.part m.tag)

/-! ### Writes (R204) -/

/-- Apply a PRSET. -/
def State.takePrset (s : State) (g a : Nat) (m : Msg) (field : Nat) (data : VecReg) : State :=
  if s.foreign g a m then s.refuse g m .protection 0
  else
    let w (k : Nat) : Nat := natBits data.toNat (64 * k) 64
    let s := if field < 3 then s.setRec a (recField field).1 (recField field).2 data.toNat
      else
        let s := (s.setHead a (natBits (w 0) 32 32) 0 (natBits (w 0) 0 16)).setRec a 8 8 (natBits (w 1) 0 16)
        ((s.setRec a 16 8 (w 2)).setRec a 192 64 0).modRec g a fun r => { r with sums := [], bound := none }
    (s.served g m 0 false).serveWaiting g a

/-- Take the held contributions and writes of a record until BUSY is set again, with fuel. -/
def State.pump (s : State) (g a : Nat) : Nat → State
  | 0 => s
  | n + 1 =>
    if s.busy a then s
    else
      match s.heldAt a isUpdate with
      | [] => s
      | m :: _ =>
        match m.req with
        | .grad cls x bf16 ovf =>
          match s.takeGrad g a m cls x bf16 ovf with
          | some s' => State.pump s' g a n
          | none => s
        | .prset field data => State.pump (s.takePrset g a m field data) g a n
        | _ => s

/-- Take one held request when its record is free and nothing older is held there. -/
def State.pumpOne (s : State) (g : Nat) (m : Msg) : State :=
  match m.at_ with
  | some (.dram a) => if ((s.heldAt a isUpdate).head?.map (·.id)) == some m.id then s.pump g a 1 else s
  | _ => s

/-- The contributions and writes held at a home, in order of their arrival. -/
def State.heldUpdates (s : State) (g : Nat) : List Msg :=
  sortMsgs (s.net.filter fun m => isUpdate m.req && ((m.at_.map Place.node) == some g) &&
    match m.phase with
    | .waiting _ => true
    | _ => false)

/-- The requests held at a home are taken in that order, whichever record they are for (R200). -/
def State.pumpAll (s : State) (g : Nat) : State := (s.heldUpdates g).foldl (fun s m => s.pumpOne g m) s

/-- A GRAD or PRSET arrives: it waits behind those held, or while BUSY is set (R200, R204). -/
def State.offer (s : State) (g a : Nat) (m : Msg) : State :=
  if s.foreign g a m then s.refuse g m .protection 0
  else
    let s := { s with stamp := s.stamp + 1 }.modMsg m.id fun m =>
      { m with phase := .waiting s.stamp, at_ := some (.dram a) }
    s.pump g a (s.net.length + 1)

/-! ### PRST (R202) -/

/-- Complete the rule of a record in one grant; `x` holds w, m and v unless the update is skipped. Its entry of the lock table is free
from here on, where R201 names no instant (DESIGN CHOICE, log 66). -/
def State.commit (s : State) (g a : Nat) (x : Option (VecReg × VecReg × VecReg)) : State :=
  let s := match x with
    | some (w, m, v) => ((s.setRec a 32 64 w.toNat).setRec a 96 64 m.toNat).setRec a 160 32 v.toNat
    | none => s
  let s := (s.setHead a ((s.epoch a + 1) % 2 ^ 32) 0 (s.exp a)).setRec a 192 64 0
  let s := s.setBits a x.isNone false false
  let r := s.recOf g a
  let s := (s.modRec g a fun r => { r with sums := [], bound := none }).modNode g fun n => { n with lock := n.lock.filter (· != a) }
  ((s.retired g r.bound r.tag).serveWaiting g a).pumpAll g

end Sys2Proof.Machine
end

