-- ==== Sys2Proof/Machine/EvNet.lean ====
section
/-! DEFINITION. Requests in flight: which may be performed next, what a unit or home does with one, and how its answer
reaches the issuer (R132 to R135, R140, R141, R145, R148, R149, R250, R257, R371). An event whose message is not at that
point changes nothing. -/

namespace Sys2Proof.Machine

def State.msg (s : State) (id : Nat) : Option Msg := s.net.find? fun m => m.id == id

/-! ### Order (R133, R134, R198, R250, R257) -/

/-- Not yet at its target: sent, or turned away. -/
def Msg.travels (m : Msg) : Bool :=
  match m.phase with
  | .req | .retry | .nack => true
  | _ => false

def Req.isRec : Req → Bool
  | .grad _ _ _ _ | .prld _ _ | .prset _ _ | .prstat => true
  | _ => false

def Req.isFlush : Req → Bool
  | .flush => true
  | _ => false

/-- Two requests touch one byte. One virtual address names one byte, also while the home that a request was sent to declines it
(R371). -/
def State.sameByte (s : State) (x m : Msg) : Bool :=
  meetsAt (s.placeOf x) x.tgt x.va.toNat x.req.bytes (s.placeOf m) m.tgt m.va.toNat m.req.bytes

/-- Two accesses of an instance to one bank of its own core (R134). -/
def sameOwnBank (x m : Msg) : Bool :=
  match x.tgt, m.tgt with
  | .node t a, .node u b => t == x.src.node && u == t && sameBank a x.req.bytes b m.req.bytes
  | _, _ => false

/-- An earlier message of the same instance holds back a later one. On the ordered class, what goes to one node is performed or
accepted in program order, so that a message behind an FE request that waits there waits too (R132, R249, R257; against two rows of
R315: DEDUCED, log 63). Requests on the unordered class keep order where they touch one byte or, of two instructions, one bank of the
own core; the lanes of one instruction keep none otherwise (R213, R250). -/
def State.blocks (s : State) (x m : Msg) : Bool :=
  (x.ordered && m.ordered && sameDest x.tgt m.tgt && (x.travels || (x.unperformed && x.req.isMem))) ||
    (x.req.isRec && m.req.isRec && x.tgt == m.tgt && x.travels) ||
    (x.req.isMem && m.req.isMem && x.unperformed && ((x.grp != m.grp && sameOwnBank x m) || s.sameByte x m)) ||
    (x.so && m.so && (x.unperformed || !sameDest x.tgt m.tgt))

/-- A release is not sent before the accesses of its scope (R133). -/
def Msg.held (x : Msg) (g : Nat) (rel : Option Scope) : Bool :=
  match rel, x.req with
  | some sc, .load _ | some sc, .store _ _ | some sc, .fe _ _ | some sc, .atom _ _ _ _ _ _ => insideScope g sc x.tgt
  | some sc, .prld _ _ | some sc, .prset _ _ => insideScope g sc x.tgt
  | _, _ => false

/-- The permissions of a request at a region, and at a page when it is translated afresh. -/
def Req.need : Req → Need
  | .load _ => .load
  | .store _ _ => .store
  | .atom _ _ _ _ _ _ => .atomic
  | .fe op _ => .fe op
  | .grad _ _ _ _ => { r := true, w := true, rec_ := true, acc := 2 }
  | .prset _ _ => { r := true, w := true, rec_ := true, acc := 2 }
  | .prld _ _ => { r := true, rec_ := true, acc := 7 }
  | .prstat => { rec_ := true, acc := 7 }
  | _ => .read

def Msg.targetNode (m : Msg) : Nat :=
  match m.tgt with
  | .node t _ => t
  | .home h => h.node

/-- A message may arrive now: its target's package runs (R407), nothing earlier holds it back, and no GMMA holds the words (R191). A
release waits for the accesses of
earlier instructions, not for its own lower lanes (R133, R213). -/
def State.enabled (s : State) (m : Msg) : Bool :=
  m.phase == .req && s.up (pkgOf m.targetNode) &&
    (s.net.all fun x => x.id ≥ m.id || x.src != m.src || x.part != m.part ||
      !(s.blocks x m || (x.grp != m.grp && x.held m.src.node m.rel))) &&
    (match m.tgt with
      | .node t off => !m.req.isMem || s.reach t m.part m.aim != some (s.live t).part ||
        !(if t == m.src.node then (s.live t).bars off m.req.bytes m.req.need.wr else (s.live t).barsFar off m.req.bytes)
      | .home _ => true)

/-! ### Reaching a target -/

/-- Refuse a request at its target; it retires there (R149). -/
def State.refuseMsg (s : State) (m : Msg) (c : Cause) : State :=
  (s.modMsg m.id fun m => { m with phase := .refused (m.refusal c 0) }).retired m.targetNode m.part m.tag

/-- What a request meets when it reaches its target (R28, R41, R371, R382, R396). A home whose walk fails logs that alone and
keeps the request, which it translates again (DEDUCED, log 54). -/
inductive Reached where
  | at_ (s : State) (p : Place)
  | ended (s : State)

def State.arrive (s : State) (m : Msg) : Reached :=
  let refuse (s : State) (c : Cause) : Reached := .ended (s.refuseMsg m c)
  match m.at_ with
  | some p => if s.admitted m p m.req.need then .at_ s p else refuse s .protection
  | none =>
    match m.tgt with
    | .node t off =>
      if t = m.src.node then
        match s.reach t m.part m.aim with
        | some q => if s.admitted m (.spm t q off) m.req.need then .at_ s (.spm t q off) else refuse s .protection
        | none => refuse s .protection
      else if !s.linked (pkgOf m.src.node) (pkgOf t) then refuse s .protection
      else
        match s.farPlace t off m.req.bytes m.part m.aim m.ns m.req.need with
        | some p => .at_ s p
        | none => refuse s .protection
    | .home h =>
      if !s.linked (pkgOf m.src.node) h.pkg then refuse s .protection
      else
        match s.homeLogged h (pkgOf m.src.node) m.part m.va.toNat with
        | (s, .place p) => if s.worldOk m.ns p then .at_ s p else refuse s .protection
        | (s, .nack) => .ended (s.modMsg m.id fun m => { m with phase := .nack })
        | (s, .error) => .ended s

/-! ### Requests at their units -/

/-- A load, store or atomic is performed in one grant (R32, R145). -/
def State.performPlain (s : State) (m : Msg) : State :=
  match s.arrive m with
  | .ended s => s
  | .at_ s p =>
    let bad := s.bad p
    let r := s.grant p m.req
    (r.1.modMsg m.id fun m => { m with phase := .ok r.2.1 r.2.2 bad }).retired p.node m.part m.tag

def execMemoryRequest (m : Nat) (s : State) : Host.Outcome State Fault Refusal :=
  .next (match s.msg m with
    | some x => match x.req with
      | .load _ | .store _ _ => if s.enabled x then s.performPlain x else s
      | _ => s
    | none => s)

def execAtomicRequest (m : Nat) (s : State) : Host.Outcome State Fault Refusal :=
  .next (match s.msg m with
    | some x => match x.req with
      | .atom _ _ _ _ _ _ => if s.enabled x then s.performPlain x else s
      | _ => s
    | none => s)

/-- An FE request is answered, waits, or is turned away (R140, R141). -/
def execFeRequest (m : Nat) (s : State) : Host.Outcome State Fault Refusal :=
  .next (match s.msg m with
    | some x => match x.req with
      | .fe op d =>
        if !s.enabled x then s
        else
          match s.arrive x with
          | .ended s => s
          | .at_ s p =>
            let bad := s.bad p
            match s.feRequest (some x.id) x.src x.va p op d with
            | .reply s data => (s.modMsg m fun y => { y with phase := .ok data 0 bad }).retired p.node x.part x.tag
            | .waits t s => s.modMsg m fun y => { y with phase := .waiting t, at_ := some p }
            | .refused => s.modMsg m fun y => { y with phase := .retry }
      | _ => s
    | none => s)

/-- A request that was turned away is sent again, while its issuer's package runs (R141, R168, R203, R407). -/
def State.resend (s : State) (m : Nat) (p : Msg → Bool) : State :=
  match s.msg m with
  | some x => if x.phase == .retry && p x && s.up (pkgOf x.src.node) then s.modMsg m fun y => { y with phase := .req } else s
  | none => s

/-- The context of a request is not halted by a swap (R142). -/
def State.awake (s : State) (m : Msg) : Bool := isCaldera m.src.node || m.part == (s.live m.src.node).part

/-- A waiting FE request that a swap withdrew is sent again only when its context resumes (R142). -/
def execWaiterRetry (m : Nat) (s : State) : Host.Outcome State Fault Refusal :=
  .next (s.resend m fun x => match x.req with
    | .fe _ _ => s.awake x
    | _ => false)

/-- A FLUSH probe is gone: its FLUSH completes, or takes the fault of a failed check (R148). -/
def State.flushed (s : State) (x : Msg) (bad : Option Trap) : State :=
  let s := { s with net := s.net.filter fun y => y.id != x.id }
  match bad with
  | some t => if x.part == s.partOf x.src && (s.ctx x.src).wait == .flush x.id then s.takeTrap x.src t else s
  | none => s.modOwner x.src x.part fun c => if c.wait = Wait.flush x.id then { c with wait := .ended } else c

/-- A FLUSH probe is located and checked at its target as a load of 8 bytes, and returns (R148). -/
def execFlushProbe (m : Nat) (s : State) : Host.Outcome State Fault Refusal :=
  .next (match s.msg m with
    | some x =>
      if x.req.isFlush && s.enabled x then
        match s.arrive x with
        | .at_ s p => (s.retired p.node x.part x.tag).flushed x none
        | .ended s => match s.msg m with
          | some y => match y.phase with
            | .refused t => s.flushed y (some t)
            | _ => s
          | none => s
      else s
    | none => s)

/-! ### Answers (R133, R135, R212, R233) -/

/-- What an answer does to its group: data, poison or a refusal. -/
def Group.take (g : Group) (m : Msg) (data : Nat) (poison : Bool) (bad : Option Trap) : Group :=
  { g with
    left := g.left - 1
    buf := if bad.isNone then m.dst.gather g.buf m.lane data else g.buf
    bad := match bad with
      | some t => g.bad ++ [(m.lane, t)]
      | none => g.bad
    poison := if poison then g.poison.or (some m.va) else g.poison }

/-- The deferred fault of a vector access: the lowest refused lane, and the mask of refused lanes (R212, R378). -/
def laneFault : List (Nat × Trap) → Option Trap
  | [] => none
  | b :: bs =>
    let low := bs.foldl (fun a x => if x.1 < a.1 then x else a) b
    let mask := ((b :: bs).map fun x => 2 ^ x.1).sum
    some { low.2 with access := { low.2.access with opb := BitVec.ofNat 64 mask } }

/-- A fault is kept for a boundary: a machine-check apart from the refusals, which it precedes (R135, R231). -/
def Ctx.defer (c : Ctx) (t : Trap) : Ctx :=
  if t.cause = .machineCheck then { c with mcheck := c.mcheck ++ [t] } else { c with deferred := c.deferred ++ [t] }

/-- A group whose answers are all in: the destination is written and formulas are evaluated, or the faults are deferred, that of the
lanes refused and the machine-check of the lanes whose new walk met one (R212, R371). -/
def Ctx.close (c : Ctx) (img : Img) (g : Group) (m : Msg) (data : Nat) : Ctx :=
  let c := { c with groups := c.groups.filter fun x => x.id != g.id }
  let faults := ([g.bad.filter fun b => b.2.cause != .machineCheck, g.bad.filter fun b => b.2.cause == .machineCheck]).filterMap laneFault
  match faults with
  | t :: ts => ts.foldl Ctx.defer (c.defer t)
  | [] =>
    match g.reg with
    | none => c
    | some r =>
      let c := (m.dst.write c data g.buf).unpoison [r]
      let c := evalBindings img c (sNums [r]) [] (some g.pc)
      match g.poison with
      | some a => { c with poison := c.poison ++ [(r, a)] }
      | none => c

/-- An answer reaches its context: flags, OSC, its group (R20, R135, R145). -/
def Ctx.answered (c : Ctx) (img : Img) (m : Msg) (data : Nat) (flags : FFlags) (poison : Bool) (bad : Option Trap) : Ctx :=
  let c := { c.raise flags with osc := if m.osc then c.osc - 1 else c.osc }
  match c.groups.find? fun g => g.id == m.grp with
  | none =>
    match bad with
    | some t => c.defer t
    | none => c
  | some g =>
    let g := g.take m data poison (if m.vec then bad else none)
    let c : Ctx := match bad with
      | some t => if m.vec then c else c.defer t
      | none => c
    if g.left = 0 then
      if bad.isSome && !m.vec then { c with groups := c.groups.filter fun x => x.id != g.id } else c.close img g m data
    else { c with groups := c.groups.map fun x => if x.id == g.id then g else x }

/-- The window of a GRAD opens by one: the one that it closed when it was sent, whichever home took it (R199, R371). -/
def State.openWindow (s : State) (m : Msg) : State :=
  match m.win with
  | some h => s.modNode m.src.node fun n => { n with window := Table.set 0 n.window h (Table.get 0 n.window h - 1) }
  | none => s

/-- The answer of a message is taken off the network and reaches its issuer's image. -/
def State.conclude (s : State) (m : Msg) (data : Nat) (flags : FFlags) (poison : Bool) (bad : Option Trap) : State :=
  let s := { s with net := s.net.filter fun x => x.id != m.id }
  let s := s.openWindow m
  if m.orphan then s
  else
  let s := if bad.isNone && m.part == s.partOf m.src then s.watchAccess (some m.id) m.src m.pc m.va m.req else s
  (s.modImg m.src.node m.part fun img =>
    img.setCtx m.src.ctx ((img.ctx m.src.ctx).answered img m data flags poison bad)).syncImage m.src.node m.part

/-- Take an answer of the kind that an event names, while the issuer's package runs (R407). -/
def State.takeAnswer (s : State) (m : Nat) (posted poison : Bool) : State :=
  match s.msg m with
  | some x =>
    if (x.dst == .none) != posted || !s.up (pkgOf x.src.node) then s
    else
      match x.phase with
      | .ok data flags bad => s.conclude x data flags (bad || poison) none
      | .refused t => s.conclude x 0 0 false (some t)
      | _ => s
  | none => s

/-- A reply writes its register, poisoned when an uncorrectable error came with it (R135, R233). -/
def execReplyArrival (m : Nat) (poison : Bool) (s : State) : Host.Outcome State Fault Refusal :=
  .next (s.takeAnswer m false poison)

/-- An acknowledgement of a posted operation (R20, R135, R145, R199). -/
def execAcknowledgement (m : Nat) (s : State) : Host.Outcome State Fault Refusal := .next (s.takeAnswer m true false)

/-- A machine-check of the issuer's new walk is logged, and stays pending at the instance (R231, R382); the destination stays unchanged
(R212). -/
def State.pendCheck (s : State) (m : Msg) (code : Nat) : State :=
  let (s, t) := s.logKept m.src.node m.part { cause := .machineCheck, eaddr := m.va, code := code, access := m.access }
  s.conclude m 0 0 false (some t)

/-- A negative acknowledgement: the issuer discards its entry, walks again, and resends or takes the fault (R371). -/
def execNegativeAcknowledgement (m : Nat) (s : State) : Host.Outcome State Fault Refusal :=
  .next (match s.msg m with
    | some x =>
      if x.phase != .nack || !s.up (pkgOf x.src.node) then s
      else
        let g := x.src.node
        match s.walkPage g x.part x.va.toNat (pageCheck x.req.need x.user x.ns) with
        | (s, .ok (leaf, _)) =>
          s.modMsg m fun y => { y with phase := .req, tgt := .home (homeOf (pkgOf g) leaf x.va.toNat) }
        | (s, .error (c, code)) =>
          let s := s.retired x.targetNode x.part x.tag
          if x.req.isFlush then let (s, t) := s.logKept g x.part (x.refusal c code); s.flushed x (some t)
          else if c = .machineCheck then s.pendCheck x code
          else s.modMsg m fun y => { y with phase := .refused (y.refusal c code) }
    | none => s)

/-! ### Record requests (R200, R203, R204) -/

/-- A REC request at its home: `k` has the record's key, of the home's node. -/
def State.atRecord (s : State) (m : Nat) (p : Req → Bool) (k : State → Nat → Nat → Msg → State) : State :=
  match s.msg m with
  | some x =>
    if !p x.req || !s.enabled x then s
    else
      match s.arrive x with
      | .ended s => s
      | .at_ s (.dram a) => k s (Place.node (.dram a)) (a / 256 * 256) x
      | .at_ s _ => s.refuseMsg x .kind
  | none => s

def isGrad : Req → Bool
  | .grad _ _ _ _ => true
  | _ => false
def isPrset : Req → Bool
  | .prset _ _ => true
  | _ => false
def isPrstat : Req → Bool
  | .prstat => true
  | _ => false

def execGradContribution (m : Nat) (s : State) : Host.Outcome State Fault Refusal :=
  .next (s.atRecord m isGrad fun s g a x => s.offer g a x)

def execPrsetServe (m : Nat) (s : State) : Host.Outcome State Fault Refusal :=
  .next (s.atRecord m isPrset fun s g a x => s.offer g a x)

def execPrstatServe (m : Nat) (s : State) : Host.Outcome State Fault Refusal :=
  .next (s.atRecord m isPrstat fun s g a x => s.served g x (s.recStat a) ((List.range 2).any fun k => s.bad (.dram (a + 8 * k))))

/-- The PRLDs that wait at a home (R203). -/
def State.prldWaiters (s : State) (g : Nat) : Nat :=
  (s.net.filter fun m => isPrld m.req &&
    match m.phase, m.at_ with
    | .waiting _, some p => p.node == g
    | _, _ => false).length

/-- A PRLD is served, waits for its step, or is turned away for want of a waiter entry (R203, R357). -/
def execPrldServe (m : Nat) (s : State) : Host.Outcome State Fault Refusal :=
  .next (s.atRecord m isPrld fun s g a x =>
    match x.req with
    | .prld field step =>
      if s.foreign g a x then s.refuse g x .protection 0
      else if s.stepReady a step then s.servePrld g a x field
      else if s.prldWaiters g < 256 then
        { s with stamp := s.stamp + 1 }.modMsg m fun y => { y with phase := .waiting s.stamp, at_ := some (.dram a) }
      else s.modMsg m fun y => { y with phase := .retry }
    | _ => s)

def execPrldRetry (m : Nat) (s : State) : Host.Outcome State Fault Refusal := .next (s.resend m fun x => isPrld x.req)

end Sys2Proof.Machine
end

