-- ==== Sys2Proof/Machine/Msg.lean ====
section
/-! DEFINITION. Parcels and tasks: SEND, SENDH, MIGR, SPAWN, DONE, MSGQ (R165 to R174). -/

namespace Sys2Proof.Machine

/-! ### Sending -/

/-- What a parcel instruction reads: the destination, the entry and s1 to sn (R165). -/
def sendRegs (o : SendOp) : List Reg := .s o.a :: opndRegs o.b ++ (List.range o.n).map fun k => .s (k + 1)

/-- The parcel of an instance (R166). -/
def State.parcel (s : State) (i : Inst) (o : SendOp) : Parcel :=
  let c := s.ctx i
  { entry := c.opnd o.b, pay := (List.range o.n).map fun k => c.sr (k + 1), sender := absCoord i.node 0
    sent := (s.pkg (pkgOf i.node)).gt, tag := c.sendTag, w8 := o.w8, wtop := c.wtop, part := s.partOf i
    ns := (s.node i.node).ns }

/-- The node that a parcel goes to: a coordinate address; its offset is ignored (R28, R166). -/
def State.parcelNode (s : State) (g : Nat) (d : Word) : Option Nat :=
  if d.toNat < 2 ^ 63 then none
  else
    match s.coord g d.toNat with
    | some (.own _) => some g
    | some (.far t _) => some t
    | _ => none

/-- A parcel message names its bank by an offset that no memory has: 0x10_0000 for MSG-L, 0x10_0001 for MSG-H. -/
def parcelTarget (t : Nat) (high : Bool) : Target := .node t (if high then 0x100001 else 0x100000)

/-- Send a parcel once OSC has room (R166). -/
def sendParcel (s : State) (o : SendOp) (high : Bool) (k : State → Out) : Out :=
  let i := s.cur
  let c := s.ctx i
  let b := c.opnd o.b
  let d := c.sr o.a
  if b.toNat % 4 ≠ 0 then .trap { cause := .alignment, eaddr := b }
  else
    match s.parcelNode i.node d with
    | none => .trap { cause := .protection, eaddr := d }
    | some t =>
      if 256 ≤ c.osc then .stall s
      else
        let p := s.parcel i o
        let s := s.post
          { id := 0, src := i, part := p.part, ns := p.ns, user := !c.priv, tag := p.tag, pc := c.pc, va := d
            tgt := parcelTarget t high, ordered := true, so := false, req := .parcel p, dst := .none, grp := 0, lane := 0
            vec := false, osc := true, acq := false, rel := none, phase := .req }
        k (s.modCtx i fun c => c.count 8)

def execSend (o : SendOp) (s : State) : Host.Outcome State Fault Refusal :=
  run (.send o) { reads := sendRegs o } s fun s => sendParcel s o false fun s => .done s [] .seq
def execSendh (o : SendOp) (s : State) : Host.Outcome State Fault Refusal :=
  run (.sendh o) { reads := sendRegs o } s fun s => sendParcel s o true fun s => .done s [] .seq

/-! ### DONE (R172) -/

/-- DONE at S level may end the launch with a fault: the manual has the code of that and no mechanism (R345, DESIGN CHOICE, log 61). -/
def State.mayFault (s : State) (i : Inst) (l : Nat) : State :=
  if (s.ctx i).priv then
    let r := s.free
    r.2.modLaunch (pkgOf i.node) l fun x => { x with fault := x.fault || r.1.getLsbD 0 }
  else s

/-- DONE's effect in the issuing context (R172). In MAIN it waits as FENCE.sys first; in WORK a record rule that has not
executed PRST performs `PRST #1` (R202, DEDUCED, log 17). -/
def finish (s : State) : Out :=
  let i := s.cur
  let g := i.node
  let c := s.ctx i
  let idle (s : State) : State :=
    (if i.ctx = .work then s.haltWork g else s).modCtx i fun c => { c with act := .idle, apart := none }
  match i.ctx with
  | .main =>
    if s.acqOpen i then .stall s
    else if !s.fenceDone i .sys then .wait s .busy
    else
      let s := idle (s.endAct i)
      match c.act with
      | .grain l k =>
        let s := (s.mayFault i l).modLaunch (pkgOf g) l fun x => { x with grains := x.grains.put k .done }
        .done (s.alignRelease (s.alignGroup g l)) [] .seq
      | _ => .done s [] .seq
  | .work =>
    match c.act with
    | .work _ by_ tag =>
      let s := ((s.endAct i).noteRun g (absCoord by_ 0) c.born).retired g (s.partOf i) tag
      .done ((s.haltWork g).modCtx i fun c => { c with act := .loop }) [] (.goto (c.sr 63))
    | .rule r prst =>
      let s := if prst then s else (s.endAct i).commit g r none
      .done (idle s) [] (.goto (c.sr 63))
    | _ => .done s [] (.goto (c.sr 63))
  | _ =>
    match c.act with
    | .handler p =>
      .done (idle (((s.endAct i).noteRun g p.sender c.born).retired g p.part p.tag)) [] .seq
    | _ => .done (idle s) [] .seq

/-- What DONE and MIGR read: s63 in WORK, and no slot. -/
def doneUse (s : State) (reads : List Reg) : Use :=
  { reads := if s.cur.ctx == .work then .s 63 :: reads else reads, noSlot := true }

def execDone (s : State) : Host.Outcome State Fault Refusal := run .done (doneUse s []) s finish

/-- MIGR sends, then performs DONE; while DONE waits, the parcel is not sent again (R166). -/
def execMigr (o : SendOp) (s : State) : Host.Outcome State Fault Refusal :=
  run (.migr o) (doneUse s (sendRegs o)) s fun s =>
    if (s.ctx s.cur).wait = .busy then finish s
    else if s.cur.ctx == .main && s.acqOpen s.cur then .stall s
    else sendParcel s o false finish

/-! ### SPAWN and MSGQ -/

/-- Pushes a task (R173). -/
def execSpawn (d : SReg) (b : Opnd) (s : State) : Host.Outcome State Fault Refusal :=
  let vals := (List.range 4).map fun k => Reg.s (k + 1)
  run (.spawn d b) { reads := opndRegs b ++ vals, writes := [.s d], illegal := isCaldera s.cur.node } s fun s =>
    let i := s.cur
    let c := s.ctx i
    let e := c.opnd b
    if e.toNat % 4 ≠ 0 then .trap { cause := .alignment, eaddr := e }
    else if (s.live i.node).ventFull then writeS s d 0
    else writeS (s.push i (.task e (c.sr 1) (c.sr 2) (c.sr 3) (c.sr 4))) d 1

/-- The state of the arrival queues (R174). -/
def execMsgq (d : SReg) (s : State) : Host.Outcome State Fault Refusal :=
  run (.msgq d) { writes := [.s d] } s fun s =>
    let m := s.live s.cur.node
    writeS s d (BitVec.ofNat 64 (m.qL.length + m.qLover.length * 2 ^ 8 + m.qH.length * 2 ^ 25))

end Sys2Proof.Machine
end

