-- ==== Sys2Proof/Machine/EvCore.lean ====
section
/-! DEFINITION. The events of one core: instruction boundaries and their conditions, waits that end, interrupts, copy
channels, parcels and handlers, record rules, power gating and debug stops (R16, R25, R115, R125, R149 to R154, R167 to R171,
R201, R231, R238, R287, R341, R393 to R395). An event whose condition does not hold changes nothing. -/

namespace Sys2Proof.Machine

/-! ### Boundaries (R231, R232) -/

/-- An activation stands at an instruction boundary. -/
def Ctx.atBoundary (c : Ctx) : Bool := c.betweens && c.act != .idle

/-- Only one MSG bank issues: MSG-H while it runs, or once its queue holds a parcel and MSG-L stands at a boundary
(R169). -/
def Img.bankMayIssue (m : Img) : CtxId → Bool
  | .msgL => m.msgH.act == .idle && (m.qH.isEmpty || !m.msgL.betweens)
  | _ => true

/-- A debug stop starts no handler, unless it steps an activation of that bank (R394, R395). -/
def State.handlersHeld (s : State) (g : Nat) (k : CtxId) : Bool :=
  (s.node g).stop.isSome && (s.node g).stepping != some (k, true)

/-- WFI suspends. -/
def Wait.suspends : Wait → Bool
  | .wfi _ => true
  | _ => false

/-- A context may issue: released and awake, with an activation, and neither halted nor suspended (R238, R282, R283, R287,
R394). While a stop holds MSG-H back, a running MSG-L handler goes on. -/
def State.mayIssue (s : State) (i : Inst) : Bool :=
  let m := s.live i.node
  s.up (pkgOf i.node) && !(s.node i.node).gated && (s.ctx i).act != .idle && !(s.ctx i).wait.suspends && !s.stopped i &&
    (m.bankMayIssue i.ctx || (i.ctx == .msgL && m.msgH.act == .idle && s.handlersHeld i.node .msgH))

/-- The pending conditions of a boundary (R231). -/
inductive Pend where
  | mcheck (t : Trap)
  | deferred (t : Trap)
  | fcheck (f : FCheck)
  | watchdog
  | watch (stop : Bool) (t : Trap)
  | interrupt (src : Nat)
  deriving DecidableEq, Repr

/-- The upcall of a class would be delivered at UPVEC, or the S vector is open (R231). -/
def Ctx.admits (c : Ctx) (upcall : Bool) : Bool := !c.priv || (upcall && c.upvec != 0 && !c.upact)

/-- The lowest interrupt source pending for the partition that is live on a core (DEDUCED, log 38). -/
def State.irqOf (s : State) (g : Nat) : Option Nat :=
  let n := s.node g
  match n.live.part with
  | none => none
  | some q => if n.irq0.contains q then some 0 else if n.irq1.contains q then some 1 else none

/-- The watchdog of a handler or record rule has run out (R171, DEDUCED, log 39). -/
def Ctx.watchdogDue (c : Ctx) : Bool := c.hwdog ≠ 0 && c.hwdog ≤ c.hcount

/-- The first condition, in the order of R231, that its delivery rules admit. -/
def State.pending (s : State) (i : Inst) : Option Pend :=
  let c := s.ctx i
  match c.mcheck, c.deferred with
  | t :: _, _ => some (.mcheck t)
  | [], t :: _ => some (.deferred t)
  | [], [] =>
    let fc := c.fcheck.filter fun _ => c.admits true
    let wa := c.watch.find? fun w => w.1 || c.admits false
    let ir := if i.ctx = .main && !c.priv && c.ie then s.irqOf i.node else none
    match fc, wa, ir with
    | some f, _, _ => some (.fcheck f)
    | none, wa, ir =>
      if c.watchdogDue && c.admits false then some .watchdog
      else
        match wa, ir with
        | some w, _ => some (.watch w.1 w.2)
        | none, some k => some (.interrupt k)
        | none, none => none

/-- The condition that the instance takes at this boundary; changed sources are evaluated before (R25). The entry of a
trap makes a boundary, where a second pending condition may be taken before the handler's first instruction (DEDUCED, log 51). -/
def State.due (s : State) (i : Inst) : Option Pend :=
  let c := s.ctx i
  if c.atBoundary && c.changed.isEmpty && s.mayIssue i then s.pending i else none

/-- A WFI is over: its deadline has come, or a condition of the instance is takeable (R238). -/
def State.wfiOver (s : State) (i : Inst) : Bool :=
  match (s.ctx i).wait with
  | .wfi d => (d != 0 && d.ule (s.pkg (pkgOf i.node)).gt) || (s.pending i).isSome
  | _ => false

/-- The instance's WFI ends. -/
def State.endWfi (s : State) (i : Inst) : State := (s.modCtx i fun c => { c with wait := .ended }).clockCheck i.node

/-- At a boundary, the formulas that read changed sources are evaluated once (R25, R123). -/
def execBoundaryEvaluation (i : Inst) (s : State) : Host.Outcome State Fault Refusal :=
  let c := s.ctx i
  .next (if c.atBoundary && !c.changed.isEmpty && s.up (pkgOf i.node) then
    s.setCtx i (evalBindings (s.live i.node) { c with changed := [] } [] c.changed none)
  else s)

/-- A condition that the boundary takes: a mark on the instruction that would issue is gone (R231, R387). -/
def State.boundaryTrap (s : State) (i : Inst) (t : Trap) : State := (s.unmarked i).takeTrap i t

/-- A machine-check of a walk, or the oldest refusal, is taken (R135, R231). -/
def execDeferredFault (i : Inst) (s : State) : Host.Outcome State Fault Refusal :=
  .next (match s.due i with
    | some (.mcheck t) => (s.modCtx i fun c => { c with mcheck := c.mcheck.drop 1 }).boundaryTrap i t
    | some (.deferred t) => (s.modCtx i fun c => { c with deferred := c.deferred.drop 1 }).boundaryTrap i t
    | _ => s)

/-- The formula-check upcall (R125). -/
def execFormulaCheck (i : Inst) (s : State) : Host.Outcome State Fault Refusal :=
  .next (match s.due i with
    | some (.fcheck f) =>
      (s.modCtx i fun c => { c with fcheck := none }).boundaryTrap i
        { cause := .formulaCheck, eaddr := f.at?.getD 0, code := if f.at?.isSome then 0 else 1, fslot := some f.slot }
    | _ => s)

/-- The watchdog trap, once for an activation (R171). -/
def execHandlerWatchdog (i : Inst) (s : State) : Host.Outcome State Fault Refusal :=
  .next (match s.due i with
    | some .watchdog => (s.modCtx i fun c => { c with hwdog := 0 }).boundaryTrap i (trapped .watchdog)
    | _ => s)

/-! ### Stops (R394, R395) -/

/-- Stop a core: the context that matched halts at once, the others as R394 says. -/
def State.stopNode (s : State) (g reason : Nat) (k : Option CtxId) : State :=
  let w := (s.live g).work
  let rests := w.act == .idle || (match w.wait with
    | .wfi _ => true
    | _ => false)
  let old := (s.node g).stop.getD { reason := reason, work := false, msg := false }
  (s.modNode g fun n => { n with
    stop := some { old with
      main := old.main || k == some .main
      work := old.work || k == some .work || rests
      msg := old.msg || (k.map CtxId.isMsg).getD false } }).clockCheck g

/-- A watchpoint's stop or debug trap (R393). -/
def execWatchpointMatch (i : Inst) (s : State) : Host.Outcome State Fault Refusal :=
  .next (match s.due i with
    | some (.watch stop t) =>
      let s := s.modCtx i fun c => { c with watch := c.watch.erase (stop, t) }
      if stop then s.stopNode i.node 2 (some i.ctx) else s.boundaryTrap i t
    | _ => s)

/-! ### Interrupts (R341) -/

/-- A gated core is woken: it issues again within 2 µs (R287). -/
def State.rouse (s : State) (g : Nat) : State :=
  if (s.node g).gated && !(s.node g).waking then
    s.modNode g fun n => { n with waking := true, wakeAt := (s.pkg (pkgOf g)).gt.toNat + 2000 }
  else s

/-- Taking an interrupt clears its bit. -/
def State.clearIrq (s : State) (g src : Nat) : State :=
  s.modNode g fun n =>
    let keep (l : List Nat) : List Nat := l.filter fun q => some q != n.live.part
    if src = 0 then { n with irq0 := keep n.irq0 } else { n with irq1 := keep n.irq1 }

/-- An interrupt starts an idle MAIN at SVEC with the trap record of R228, or is taken at MAIN's boundary; it wakes a gated
core. -/
def execInterrupt (node : Nat) (s : State) : Host.Outcome State Fault Refusal :=
  let i : Inst := ⟨node, .main⟩
  .next (match s.irqOf node with
    | none => s
    | some k =>
      if (s.node node).gated then s.rouse node
      else if (s.ctx i).act = .idle then
        if (s.node node).stop.isSome || !s.up (pkgOf node) then s
        else
          (((s.clearIrq node k).modCtx i fun c =>
            { c with act := .irq, pc := 0, dslot := none, wait := .none }).takeTrap i { cause := .interrupt, code := k }).clockCheck node
      else
        match s.due i with
        | some (.interrupt k) => (s.clearIrq node k).boundaryTrap i { cause := .interrupt, code := k }
        | _ => s)

/-! ### Waits that end -/

/-- ALIGN's timeout (R115). -/
def execAlignTimeout (i : Inst) (s : State) : Host.Outcome State Fault Refusal :=
  .next (match (s.ctx i).wait with
    | .align _ n since =>
      if since + 64 * (n + 1) ≤ (s.node i.node).cycle.toNat ∧ s.up (pkgOf i.node) then s.modCtx i fun c => { c with wait := .ended }
      else s
    | _ => s)

/-- The nodes whose counts a wave at a scope reads: compute cores, Caldera cores, and from PACKAGE up the I/O die (R149). -/
def State.waveNodes (s : State) (g : Nat) (sc : Scope) : List Nat :=
  let p := pkgOf g
  let whole (q : Nat) : List Nat :=
    (s.nodes.map (·.1)).filter fun t => pkgOf t == q
  match sc with
  | .core => [g]
  | .clu => if isCaldera g then [g] else coresOfCluster p (clusterOf g)
  | .die => (whole p).filter fun t => locOf t != 2047 && dieOf t == dieOf g
  | .pkg => whole p
  | _ => ((List.range 16).filter (natBit (s.pkg p).mask)).flatMap whole

/-- One collection wave of QUIET over the counts of the issuer's partition (R149, R328, DESIGN CHOICE, log 12). -/
def execQuietWave (i : Inst) (s : State) : Host.Outcome State Fault Refusal :=
  .next (match (s.ctx i).wait with
    | .quiet sc tag last =>
      if !s.up (pkgOf i.node) then s
      else
        let ns := s.waveNodes i.node sc
        let sum (f : Node → Table Nat) : Nat := (ns.map fun t => Table.get 0 (f (s.node t)) (tagKey (s.partOf i) tag)).sum
        let now := (sum (·.sent), sum (·.retired))
        s.modCtx i fun c => { c with wait := if now.1 = now.2 ∧ last = some now then .ended else .quiet sc tag (some now) }
    | _ => s)

/-- WFI may end with no wake event (R238). -/
def execWfiWake (i : Inst) (s : State) : Host.Outcome State Fault Refusal :=
  .next (if (s.ctx i).wait.suspends && s.up (pkgOf i.node) then s.endWfi i else s)

/-! ### Copy channels (R152 to R154) -/

/-- A channel reads its next group, or writes the group that it has read. -/
def execChannelGroup (node : Nat) (ch : Fin 4) (s : State) : Host.Outcome State Fault Refusal :=
  .next (match s.nextGroup node ch with
    | .moved s | .idle s => s
    | .fault _ _ => s)

/-- An entry whose bytes are all written completes; the next entry or join proceeds. -/
def execChannelComplete (node : Nat) (ch : Fin 4) (s : State) : Host.Outcome State Fault Refusal :=
  let k := (s.live node).chan ch
  .next (match k.queue with
    | .entry x ctx _ _ _ _ :: rest =>
      if k.stopped.isNone && k.prog = xferTotal x && s.up (pkgOf node) then
        let s := s.modLive node fun m => ((m.setChan ch { k with queue := rest, prog := 0, seen := [] }).popJoins).wake
        (s.chanRecord ⟨node, ctx⟩ ch 1 (xferTotal x)).clockCheck node
      else s
    | _ => s)

/-- Stop a channel with a fault. -/
def State.stopChan (s : State) (node : Nat) (ch : Fin 4) (ctx : CtxId) (n : Nat) (t : Trap) : State :=
  let (s, t) := s.logKept node (s.live node).part t
  let s := s.modLive node fun m => (m.setChan ch { m.chan ch with stopped := some t }).wake
  (s.chanRecord ⟨node, ctx⟩ ch 2 n).clockCheck node

/-- A fault of the next group stops the channel; `uncorrectable`: the data read has an error that the store does not show
(R153, R233). -/
def execChannelFault (node : Nat) (ch : Fin 4) (uncorrectable : Bool) (s : State) : Host.Outcome State Fault Refusal :=
  let k := (s.live node).chan ch
  .next (match k.queue with
    | .entry x ctx _ _ _ pc :: _ =>
      match s.nextGroup node ch with
      | .fault s t => s.stopChan node ch ctx (xferTotal x) t
      | .moved _ =>
        if uncorrectable && k.buf.isNone then
          let at_ : Word := match (xferByte x k.prog).1 with
            | some (_, v) => v
            | none => (xferByte x k.prog).2.2
          s.stopChan node ch ctx (xferTotal x) (chanFault ch pc false .machineCheck 2 false at_)
        else s
      | .idle s => s
    | _ => s)

/-! ### Parcels (R167 to R170, R316) -/

def isParcel : Req → Bool
  | .parcel _ => true
  | _ => false

/-- The node admits parcels of a sender: its partition's image is on the core, and the worlds agree as far as the sender
may reach; a Caldera core takes parcels of its own world (R167, R356, R357). -/
def State.admitsParcel (s : State) (t : Nat) (p : Parcel) : Bool :=
  let n := s.node t
  if isCaldera t then p.ns == n.ns
  else
    (match n.held t p.part with
      | .live | .shadow => true
      | _ => false) && (!p.ns || n.ns)

/-- Queue a parcel, or `none` when the queue is full. A Caldera core has no overflow area (R168, R353). -/
def Img.accept (m : Img) (high caldera : Bool) (p : Parcel) : Option Img :=
  if high then if m.qH.length < 16 then some { m with qH := m.qH ++ [p] } else none
  else if caldera then if m.qL.length < 64 then some { m with qL := m.qL ++ [p] } else none
  else if m.qL.length < m.qspill && m.qLover.isEmpty then some { m with qL := m.qL ++ [p] }
  else if m.qLover.length < 65536 then some { m with qLover := m.qLover ++ [p] }
  else none

/-- An overflowed parcel goes to the core's area in DRAM: 128 bytes without a layout, at a place that the manual leaves open
(R168, R353, DESIGN CHOICE, logs 14 and 15). -/
def State.parcelSpill (s : State) (t : Nat) (part : Option Nat) (old : Nat) : State :=
  match part with
  | some q =>
    if (s.img t part).qLover.length ≤ old then s
    else
      let r := s.free
      r.2.scribble (s.areaOf t q 7 (2 ^ 23) + 128 * (r.1.toNat % 65536)) 16
  | none => s

/-- Overflowed parcels return on chip in arrival order while there is room below QSPILL (R168, R316). -/
def Img.refill (m : Img) : Img :=
  let n := m.qspill - m.qL.length
  { m with qL := m.qL ++ m.qLover.take n, qLover := m.qLover.drop n }

/-- The bank that starts a handler now, with its parcel and the queues after it (R169). With QSPILL 0 the oldest overflowed
parcel starts from overflow. -/
def Img.nextHandler (m : Img) : Option (CtxId × Parcel × Img) :=
  let m := m.refill
  match m.qH, m.msgH.act, m.msgL.act, m.qL, m.qLover with
  | p :: rest, .idle, a, _, _ =>
    if a = .idle || m.msgL.betweens then some (.msgH, p, { m with qH := rest }) else none
  | [], .idle, .idle, p :: rest, _ => some (.msgL, p, ({ m with qL := rest } : Img).refill)
  | [], .idle, .idle, [], p :: rest => some (.msgL, p, { m with qLover := rest })
  | _, _, _, _, _ => none

/-- A handler starts before anything else issues on its core (R169, R319). -/
def State.handlerDue (s : State) (g : Nat) : Option (CtxId × Parcel × Img) :=
  match (s.live g).nextHandler with
  | some x => if (s.node g).gated || s.handlersHeld g x.1 || !s.up (pkgOf g) then none else some x
  | none => none

/-- A parcel arrives: it is accepted, turned away for want of space, or refused (R167, R168). A handler that is due at the node starts
first, so that its parcel is out of the queue (R169, R319). -/
def execParcelArrival (m : Nat) (s : State) : Host.Outcome State Fault Refusal :=
  .next (match s.msg m with
    | some x =>
      match x.req, x.tgt with
      | .parcel p, .node t off =>
        if !s.enabled x || (s.handlerDue t).isSome then s
        else if !s.linked (pkgOf x.src.node) (pkgOf t) || !s.admitsParcel t p then s.refuseMsg x .protection
        else
          let part := if isCaldera t then none else p.part
          match (s.img t part).accept (off == 0x100001) (isCaldera t) { p with came := (s.pkg (pkgOf t)).gt } with
          | none => s.modMsg m fun y => { y with phase := .retry }
          | some img =>
            let old := (s.img t part).qLover.length
            let s := (((s.modImg t part fun _ => img.wake).parcelSpill t part old).rouse t).syncImage t part
            ((s.modMsg m fun y => { y with phase := .ok 0 0 false }).noteTransit t p.sender p.sent).clockCheck t
      | _, _ => s
    | none => s)

def execParcelResend (m : Nat) (s : State) : Host.Outcome State Fault Refusal := .next (s.resend m fun x => isParcel x.req)

/-- The bank of a handler at its first instruction: registers from the parcel, U level, late replies to the last handler
dropped (R16, R169, R171, DEDUCED, log 37). -/
def Ctx.startHandler (c : Ctx) (p : Parcel) (hwdog : BitVec 32) (caldera : Bool) : Ctx :=
  let c := { c with
    s := [], poison := [], groups := c.groups.map fun g => { g with reg := none }, act := .handler p
    priv := false, upact := false, pc := p.entry, dslot := none, wait := .none
    hwdog := hwdog.toNat, hcount := 0, apart := if caldera then p.part else none }
  let c := (p.pay.zipIdx).foldl (fun (c : Ctx) x => c.setS (x.2 + 1) x.1) c
  (c.setS 9 p.sender).setS 10 p.sent

/-- The oldest parcel's handler starts (R16, R169, R170, R384, R390). -/
def execHandlerStart (node : Nat) (s : State) : Host.Outcome State Fault Refusal :=
  .next (match s.handlerDue node with
    | none => s
    | some (k, p, m) =>
      let i : Inst := ⟨node, k⟩
      let s := (s.setLive node m).modCtx i fun c => c.startHandler p m.hwdog (isCaldera node)
      let s := (s.noteWait node p.sender p.came).clockCheck node
      let s := s.startAct i (.handler p) (s.node node).cycle p.entry p.sender
      if p.w8 && p.wtop != (s.ctx i).wtop then s.takeTrap i (trapped .formatMode) else s)

/-! ### Record rules (R201, R357) -/

/-- The registers that hold a record's fields at a rule's first instruction, with the offset and the bytes of each. -/
def fromRecord : List (Reg × Nat × Nat) :=
  [(.s 2, 0, 8), (.s 3, 8, 8), (.s 4, 16, 8), (.v 0, 32, 64), (.v 1, 96, 64), (.v 2, 160, 32), (.v 3, 192, 64)]

/-- The WORK context at a record rule's first instruction: `a` is the record's key. Replies to the rule before come too late, and a
field whose data has an uncorrectable error is poisoned (R201, R233, DEDUCED, log 37). -/
def State.ruleCtx (s : State) (a : Nat) (r : Rec) (entry : Word) (c : Ctx) : Ctx :=
  let w (k : Nat) : Word := BitVec.ofNat 64 (s.recWord a k)
  let f (off n : Nat) : VecReg := BitVec.ofNat 512 (s.dram.readNat (a + off) n)
  let c := ((((c.setS 1 r.va).setS 2 (w 0)).setS 3 (w 1)).setS 4 (w 2)).setS 63 Config.serviceCode
  let c := (((c.setV 0 (f 32 64)).setV 1 (f 96 64)).setV 2 (f 160 32)).setV 3 (f 192 64)
  let set : List Reg := [.s 1, .s 2, .s 3, .s 4, .s 63, .v 0, .v 1, .v 2, .v 3]
  let bad := (fromRecord.filter fun x => (List.range (x.2.2 / 8)).any fun k => s.dramBad.contains ((a + x.2.1) / 8 + k)).map
    fun x => (x.1, r.va + BitVec.ofNat 64 x.2.1)
  { c.unpoison set with
    groups := c.groups.map fun g => { g with reg := none }, poison := (c.unpoison set).poison ++ bad, pc := entry, dslot := none
    wait := .none, priv := false, tag := r.tag, apart := r.bound }

/-- The next dispatched rule starts in an idle WORK (DEDUCED, log 32). -/
def execRecordRuleStart (node : Nat) (s : State) : Host.Outcome State Fault Refusal :=
  let i : Inst := ⟨node, .work⟩
  .next (match (s.node node).lock with
    | [] => s
    | a :: _ =>
      if (s.ctx i).act != .idle || (s.node node).stop.isSome || !s.up (pkgOf node) then s
      else
        let p := pkgOf node
        let r := s.recOf node a
        let table : Nat := ((r.bound.map fun q => s.partWord p q 6).getD 0).toNat
        let entry := s.dramWord p (table + 8 * (s.recWord a 1 % 64))
        let s := s.modCtx i fun c =>
          { s.ruleCtx a { r with va := r.va - BitVec.ofNat 64 (r.va.toNat % 256) } entry c with
            hwdog := (s.live node).hwdog.toNat, hcount := 0 }
        let s := (s.modCtx i fun c => { c with act := .rule a false }).clockCheck node
        s.startAct i (.rule a false) (s.node node).cycle entry (absCoord node 0))

/-! ### Gating (R287) -/

/-- Everything on a core rests; a channel that a fault has stopped is idle (DEDUCED, log 40). -/
def Img.rests (m : Img) : Bool :=
  let chIdle (k : Chan) : Bool := k.entries == 0 || k.stopped.isSome
  m.main.act == .idle && m.vent.isEmpty && m.qL.isEmpty && m.qLover.isEmpty && m.qH.isEmpty && m.msgL.act == .idle &&
    m.msgH.act == .idle && chIdle m.ch0 && chIdle m.ch1 && chIdle m.ch2 && chIdle m.ch3 &&
    m.main.osc == 0 && m.work.osc == 0 && m.msgL.osc == 0 && m.msgH.osc == 0 &&
    (m.work.act == .idle || (match m.work.wait with
      | .wfi _ => true
      | _ => false))

/-- The distributor gates a core that rests and has no interrupt for its live partition. -/
def execCoreGate (node : Nat) (s : State) : Host.Outcome State Fault Refusal :=
  .next (if !isCaldera node && s.up (pkgOf node) && (s.live node).rests && (s.node node).stop.isNone && (s.irqOf node).isNone then
    ((s.modNode node fun n => { n with gated := true, waking := false }).clockCheck node)
  else s)

/-- A woken core issues again; one that was marked flushes its route TLB first, and where every core of the cluster was gated its
second level is flushed (R287, R375). -/
def State.wakeCore (s : State) (node : Nat) : State :=
  let p := pkgOf node
  let all := (coresOfCluster p (clusterOf node)).all fun t => (s.node t).gated
  let s := s.modNode node fun n => { n with gated := false, waking := false, marked := false, tlb := if n.marked then [] else n.tlb }
  let s := if all then s.modPkg p fun k => { k with l2 := Table.erase k.l2 (clusterOf node) } else s
  s.clockCheck node

def execGatedCoreWake (node : Nat) (s : State) : Host.Outcome State Fault Refusal :=
  .next (if (s.node node).gated && (s.node node).waking && s.up (pkgOf node) then s.wakeCore node else s)

/-- The cores whose wake is due by now issue again (R287). -/
def State.wakeDue (s : State) : State :=
  ((s.nodes.filter fun n => n.2.gated && n.2.waking && n.2.wakeAt ≤ (s.pkg (pkgOf n.1)).gt.toNat).map (·.1)).foldl State.wakeCore s

/-! ### Unlisted patterns (R79) -/

/-- A fetched pattern that encodes nothing: the precise illegal-instruction trap. -/
def execIllegalInstruction (s : State) : Host.Outcome State Fault Refusal :=
  .next (s.takeTrap s.cur (trapped .illegalInstruction))

end Sys2Proof.Machine
end

