-- ==== Sys2Proof/Machine/Sched.lean ====
section
/-! DEFINITION. What the queue scheduler and the distributors share: the scheduler's accesses, queue descriptors and ring
entries, launch records, units of a launch's instances, and the start of a grain (R83, R342 to R352, R363). -/

namespace Sys2Proof.Machine

/-! ### The scheduler's accesses -/

/-- The place of an aligned access in a partition's address space, in a world; `none` when the pages do not admit it. An error in its
walks is logged, at the I/O die where the scheduler is (R367, R382, DEDUCED, log 42). -/
def State.schedPlace (s : State) (p part : Nat) (ns : Bool) (need : Need) (va : Nat) : State × Option Place :=
  if !s.partValid p part || 2 ^ 63 ≤ va then (s, none)
  else
    let failed (code : Nat) : State × Option Place := (s.logWalk (p * 2048 + 2047) (some part) va (.machineCheck, code), none)
    match s.walk p (some part) va with
    | .leaf e _ =>
      if (pageCheck need false ns e).isSome then (s, none)
      else
        match s.homeLogged (homeOf p e va) p (some part) va with
        | (s, .place a) => (s, if s.worldOk ns a then some a else none)
        | (s, _) => (s, none)
    | .absent => (s, none)
    | .error => failed 5
    | .malformed => failed 6

/-- The 8-byte words from an address. -/
def State.schedRead (s : State) (p part : Nat) (ns : Bool) (va : Nat) : Nat → State × Option (List Nat)
  | 0 => (s, some [])
  | n + 1 =>
    match s.schedPlace p part ns .read va with
    | (s, none) => (s, none)
    | (s, some a) =>
      match s.schedRead p part ns (va + 8) n with
      | (s', some l) => (s', some (s.readPlace a 8 :: l))
      | (s', none) => (s', none)

/-- Write an 8-byte word; a page that does not admit it drops the write. -/
def State.schedWrite (s : State) (p part : Nat) (ns : Bool) (va x : Nat) : State :=
  match s.schedPlace p part ns .store va with
  | (s, some a) => s.writePlace a 8 x
  | (s, none) => s

/-! ### Queue descriptors (R342) -/

structure QDesc where
  at_   : Nat
  base  : Nat
  wp    : Nat
  rp    : Nat
  en    : Bool
  prio  : Nat
  ns    : Bool
  part  : Nat
  slice : Nat
  vec   : Nat
  log2n : Nat
  deriving DecidableEq, Repr

def State.qdesc (s : State) (p q : Nat) : QDesc :=
  let a := (s.pkg p).qtbase.toNat + 32 * q
  let w (k : Nat) : Nat := (s.dramWord p (a + 8 * k)).toNat
  { at_ := a, base := w 2 / 64 * 64, wp := natBits (w 3) 32 32, rp := natBits (w 3) 0 32, en := natBit (w 1) 63
    prio := natBits (w 1) 60 3, ns := natBit (w 1) 59, part := natBits (w 1) 52 7, slice := natBits (w 1) 34 18
    vec := natBits (w 1) 20 6, log2n := natBits (w 1) 15 5 }

def State.setRp (s : State) (p : Nat) (d : QDesc) (rp : Nat) : State :=
  s.setDramWord p (d.at_ + 24) (BitVec.ofNat 64 (d.wp * 2 ^ 32 + rp % 2 ^ 32))

def State.clearEn (s : State) (p : Nat) (d : QDesc) : State :=
  s.setDramWord p (d.at_ + 8) (BitVec.ofNat 64 ((s.dramWord p (d.at_ + 8)).toNat % 2 ^ 63))

def QDesc.ready (d : QDesc) : Bool := d.en && d.rp != d.wp

def State.queue (s : State) (p q : Nat) : Queue := Table.get {} (s.pkg p).queues q
def State.modQueue (s : State) (p q : Nat) (f : Queue → Queue) : State :=
  s.modPkg p fun k => { k with queues := k.queues.put q (f (Table.get {} k.queues q)) }

/-- Position `a` of a ring comes before `b`, modulo 2^32. -/
def posBefore (a b : Nat) : Bool := a != b && (b + 2 ^ 32 - a) % 2 ^ 32 < 2 ^ 31

/-- Entries that are not complete. -/
def Queue.open_ (q : Queue) : List QEntry := q.taken.filter fun e => !e.written

/-- Entries before a position that are not complete. -/
def Queue.openBefore (q : Queue) (pos : Nat) : List QEntry := q.open_.filter fun e => posBefore e.pos pos

/-- A queue with work: ready, or with an entry not yet complete. -/
def State.qWorks (s : State) (p q : Nat) : Bool := (s.qdesc p q).ready || !(s.queue p q).open_.isEmpty

/-- A queue is idle: RP = WP and no launch of its own runs (R343). -/
def State.qIdle (s : State) (p q : Nat) : Bool :=
  let d := s.qdesc p q
  d.rp == d.wp && (s.queue p q).open_.all fun e => e.launch.isNone

/-- When a queue became idle, as its descriptor and launches now stand (R343). -/
def State.idleFrom (s : State) (p q : Nat) (k : Queue) : Option Nat :=
  if s.qIdle p q then k.idleSince.or (some (s.pkg p).gt.toNat) else none

/-- RP passes the entries that were acted on ahead of it, and forgets completed ones behind it; with fuel. -/
def State.passRing (s : State) (p q : Nat) : Nat → State
  | 0 => s
  | n + 1 =>
    let d := s.qdesc p q
    if d.rp != d.wp && (s.queue p q).taken.any (fun e => e.pos == d.rp) then
      State.passRing (s.setRp p d (d.rp + 1)) p q n
    else
      s.modQueue p q fun k => { k with taken := k.taken.filter fun e => !(e.written && posBefore e.pos d.rp)
                                       idleSince := s.idleFrom p q k }

/-- An entry has been acted on. -/
def State.takeQ (s : State) (p q : Nat) (e : QEntry) : State :=
  let s := s.modQueue p q fun k => { k with taken := k.taken ++ [e] }
  s.passRing p q ((s.queue p q).taken.length + 1)

/-! ### Ring entries (R344) -/

/-- The entry at a ring position. -/
def State.ringEntry (s : State) (p : Nat) (d : QDesc) (pos : Nat) : State × Option (List Nat) :=
  s.schedRead p d.part d.ns (d.base + 64 * (pos % 2 ^ d.log2n)) 4

/-- The entry as taken, with no code yet. -/
def entryOf (pos : Nat) (w : List Nat) : QEntry :=
  let w0 := w.getD 0 0
  let x (k : Nat) : Word := BitVec.ofNat 64 (w.getD k 0)
  { pos := pos, kind := natBits w0 0 4, tag := natBits w0 16 16, intr := natBit w0 5, barrier := natBit w0 4
    status := x 1, w2 := x 2, w3 := x 3 }

/-- An entry of KIND 0 to 4 with a non-zero field that R344 marks zero, or a misaligned address. -/
def entryBad (w : List Nat) : Bool :=
  let x (k : Nat) : Nat := w.getD k 0
  natBits (x 0) 32 32 != 0 || natBits (x 0) 6 10 != 0 || x 1 % 8 != 0 ||
    (match natBits (x 0) 0 4 with
      | 0 => x 2 != 0 || x 3 != 0
      | 1 => x 3 != 0
      | 4 => natBits (x 2) 17 47 != 0 || x 3 != 0
      | _ => x 2 % 8 != 0)

/-- The next entry of a queue that the scheduler may act on: the queue holds a slot, and a BARRIER is satisfied (DEDUCED, log 42). -/
def State.nextEntry (s : State) (p q : Nat) : State × Option (QDesc × Option (List Nat)) :=
  let d := s.qdesc p q
  if !(s.pkg p).sched || !(s.queue p q).slot || !d.ready then (s, none)
  else
    match s.ringEntry p d d.rp with
    | (s, none) => (s, some (d, none))
    | (s, some w) =>
      if natBit (w.getD 0 0) 4 && !((s.queue p q).openBefore d.rp).isEmpty then (s, none) else (s, some (d, some w))

/-! ### Launch records (R347, R348) -/

/-- The levels of a record's words. -/
def recordLevels (w : List Nat) : List (Nat × Nat × Nat) :=
  (List.range (natBits (w.getD 2 0) 32 4)).map fun k =>
    let x := w.getD (4 + k) 0
    (natBits x 0 16, natBits x 16 3, natBits x 19 3)

/-- The least scope of a domain: QUADRANT takes DIE. -/
def domainScope : Nat → Nat
  | 0 => 4
  | 1 => 3
  | 2 => 2
  | 3 => 2
  | 4 => 1
  | _ => 0

/-- Each level's SCOPE is allowed; `prev` is the scope of the level before. -/
def scopesOk : Nat → List (Nat × Nat × Nat) → Bool
  | _, [] => true
  | prev, (_, dom, sc) :: l => sc ≤ 5 && (if dom = 6 then prev else domainScope dom) ≤ sc && scopesOk sc l

def rising : List Nat → Bool
  | a :: b :: l => decide (a < b) && rising (b :: l)
  | _ => true

/-- The levels keep R348, for a partition that spans the domain or not. -/
def levelsOk (levels : List (Nat × Nat × Nat)) (whole : Bool) : Bool :=
  let hard := (levels.map (·.2.1)).filter (· != 6)
  let after := (levels.dropWhile fun l => l.2.1 != 4).drop 1
  levels.all (fun l => 1 ≤ l.1 && l.2.1 ≤ 6) && levels.foldl (fun n l => n * l.1) 1 ≤ 2 ^ 32 && rising hard &&
    hard.contains 5 && (levels.head?.map (·.2.1)) != some 6 &&
    ((levels.dropWhile fun l => l.2.1 != 5).drop 1).all (·.2.1 == 6) && scopesOk 0 levels && (!hard.contains 0 || whole) &&
    (!hard.contains 4 || (after.filter (·.2.1 == 5)).foldl (fun n l => n * l.1) 1 ≤ 8)

/-- An address in each 4 KiB that the data image touches, its first byte at least. -/
def dataPages (data len : Nat) : List Nat :=
  (List.range ((len + 4095) / 4096)).map (fun k => data + 4096 * k) ++ [data + (len - 1)]

/-- Every address of a list may be read. -/
def State.readable (s : State) (p part : Nat) (ns : Bool) : List Nat → State × Bool
  | [] => (s, true)
  | a :: l =>
    match s.schedPlace p part ns .read a with
    | (s, some _) => s.readable p part ns l
    | (s, none) => (s, false)

/-- The record keeps R347 and R348. -/
def State.recordOk (s : State) (p : Nat) (d : QDesc) (w : List Nat) : State × Bool :=
  let x (k : Nat) : Nat := w.getD k 0
  let nlev := natBits (x 2) 32 4
  let whole := s.span p d.part == (List.range 16).filter (natBit (s.pkg p).mask)
  let form := natBits (x 2) 36 28 == 0 && 1 ≤ nlev && nlev ≤ 8 && natBits (x 2) 0 32 ≤ 0x80000 && x 1 % 64 == 0 &&
    ((w.drop 4).take nlev).all (fun v => v / 2 ^ 22 == 0) && ((w.drop 4).drop nlev).all (· == 0) &&
    levelsOk (recordLevels w) whole
  let (s, code) := s.schedPlace p d.part d.ns { r := true, x := true } (x 0)
  let (s, data) := s.readable p d.part d.ns (dataPages (x 1) (natBits (x 2) 0 32))
  (s, form && code.isSome && data)

/-! ### Instances, units and grains (R349, R352, R363) -/

/-- Grains of one instance of level `i`. -/
def Launch.size (l : Launch) (i : Nat) : Nat := (l.levels.drop (i + 1)).foldl (fun n x => n * x.1) 1
def Launch.total (l : Launch) : Nat := l.levels.foldl (fun n x => n * x.1) 1
/-- The instance of level `i` that holds grain `n`. -/
def Launch.inst (l : Launch) (i n : Nat) : Nat := n / l.size i

/-- The key of an instance in the table of units. -/
def unitKey (i k : Nat) : Nat := i * 2 ^ 40 + k

/-- The unit of a domain that holds a core. -/
def unitOf (dom core : Nat) : Nat :=
  match dom with
  | 0 => pkgOf core
  | 1 => pkgOf core
  | 2 => pkgOf core * 4 + dieOf core
  | 3 => (pkgOf core * 4 + dieOf core) * 4 + quadOf core
  | 4 => pkgOf core * 128 + clusterOf core
  | _ => core

/-- Every grain of an instance has executed DONE. -/
def Launch.instDone (l : Launch) (i k : Nat) : Bool :=
  let n := l.size i
  (l.grains.filter fun g => k * n ≤ g.1 && g.1 < (k + 1) * n && g.2 == .done).length == n

/-- The unit given to an instance. -/
def Launch.unit? (l : Launch) (i k : Nat) : Option Nat := (l.units.find? fun u => u.1 == unitKey i k).map (·.2)

/-- The unit of a domain at a level has been given to an instance. -/
def Launch.used (l : Launch) (i u : Nat) : Bool := l.units.any fun x => x.1 / 2 ^ 40 == i && x.2 == u

/-- Every unit of level `i` with a core of the partition, inside the units of a core at the levels before, has been given out: only then
is a die or a package used again (R307, R349). -/
def Launch.crowded (l : Launch) (cores : List Nat) (core i : Nat) : Bool :=
  let inside (c : Nat) : Bool := (l.levels.take i).all fun x => x.2.1 == 6 || unitOf x.2.1 c == unitOf x.2.1 core
  cores.all fun c => !inside c || l.used i (unitOf ((l.levels[i]?.map (·.2.1)).getD 6) c)

/-- Level `i`'s instance of grain `n` may run on a core, one of the partition's `cores`: on its own unit, on one that no instance of the
level has had, or on one whose instances are done, which an instance of a die or a package takes when there is no other; a REPEAT after
the one before it (R287, R307, R349, R352, DEDUCED, log 43). -/
def Launch.levelFits (l : Launch) (cores : List Nat) (n core i : Nat) : Bool :=
  match l.levels[i]? with
  | none => true
  | some (ext, dom, _) =>
    let k := l.inst i n
    if dom = 6 then k % ext == 0 || l.instDone i (k - 1)
    else
      let u := unitOf dom core
      match l.unit? i k with
      | some v => v == u
      | none => !l.used i u ||
        ((3 ≤ dom || l.crowded cores core i) && l.units.all fun x => x.1 / 2 ^ 40 != i || x.2 != u || l.instDone i (x.1 % 2 ^ 40))

/-- The package of a grain: the instances of a leading DOMAIN or PACKAGE level go to the packages of the span in turn
(R363, DEDUCED, log 43). -/
def State.grainPkg (s : State) (origin : Nat) (l : Launch) (n : Nat) : Nat :=
  let span := s.span origin l.part
  match l.levels.head? with
  | some (_, dom, _) => if dom ≤ 1 then span.getD (l.inst 0 n % span.length) origin else origin
  | none => origin

/-- The copies of a launch in the packages of its span. -/
def State.copies (s : State) (origin : Nat) (l : Launch) : List Launch :=
  (s.span origin l.part).filterMap fun q => s.launch q l.id

/-- Every grain has been placed; every grain is done. -/
def State.dispatched (s : State) (origin : Nat) (l : Launch) : Bool :=
  ((s.copies origin l).map fun x => x.grains.length).sum == l.total
def State.launchDone (s : State) (origin : Nat) (l : Launch) : Bool :=
  ((s.copies origin l).map fun x => (x.grains.filter fun g => g.2 == .done).length).sum == l.total

/-- Where a record has its CORE level. -/
def Launch.coreLevel (l : Launch) : Nat := (l.levels.findIdx? fun x => x.2.1 == 5).getD 0
def Launch.hasCluster (l : Launch) : Bool := l.levels.any fun x => x.2.1 == 4

/-- A MAIN context that is free for a partition, on a package that runs (R341, R352, R407). -/
def State.freeMain (s : State) (part g : Nat) : Bool :=
  let n := s.node g
  s.up (pkgOf g) && n.live.part == some part && n.live.main.act == .idle && n.stop.isNone &&
    (match n.live.gmma with
      | some x => x.ctx != .main
      | none => true)

/-- Free MAIN contexts among cores: awake ones first, in the order given. -/
def State.freeOf (s : State) (part : Nat) (cores : List Nat) : List Nat :=
  let free := cores.filter (s.freeMain part)
  free.filter (fun g => !(s.node g).gated) ++ free.filter fun g => (s.node g).gated

/-- The compute cores of a die, in ascending column and then row. -/
def dieCores (p d : Nat) : List Nat := (List.range 16).flatMap fun x => (List.range 16).map fun y => nodeAt p d x y

/-- The data image in a core's scratchpad, in words and a last part; FE bits stay (R83, R350). -/
def State.loadData (s : State) (p : Nat) (l : Launch) (g : Nat) : State :=
  let ns := s.partNs p l.part
  (List.range ((l.dlen + 7) / 8)).foldl (fun s k =>
    match s.schedPlace p l.part ns .read (l.data.toNat + 8 * k) with
    | (s, some a) =>
      let n := min 8 (l.dlen - 8 * k)
      let x := s.readPlace a n
      s.modLive g fun m => m.wr (8 * k) n x
    | (s, none) => s) s

/-- What a context keeps when an activation sets it anew: counters and the runtime's UPVEC. -/
def Ctx.anew (c : Ctx) (upvec : Word) : Ctx :=
  { upvec := upvec, seq := c.seq, perf := c.perf, acts := c.acts, priv := false, ie := true }

/-- A core's WORK starts the Vent loop with the partition's first grain there (R351). -/
def State.startVent (s : State) (p part g : Nat) : State :=
  let w := s.partWord p part 4
  if (s.live g).work.act = .idle && w ≠ 0 then
    s.modLive g fun m => { m with work := { m.work.anew 0 with act := .loop, pc := w } }
  else s

/-- A grain starts on a core, which wakes if it was gated (R287, R350). -/
def State.startGrain (s : State) (p : Nat) (l : Launch) (n g : Nat) : State :=
  let i : Inst := ⟨g, .main⟩
  let s := if (s.live g).loaded.contains l.id then s
    else (s.loadData p l g).modLive g fun m => { m with loaded := m.loaded ++ [l.id] }
  let s := s.modLaunch p l.id fun l =>
    { l with
      grains := l.grains.put n (.on g)
      units := (List.range l.levels.length).foldl (fun t k => match l.levels[k]? with
        | some (_, dom, _) => if dom = 6 then t else t.put (unitKey k (l.inst k n)) (unitOf dom g)
        | none => t) l.units }
  let s := s.modCtx i fun c => (({ c.anew c.upvec with pc := l.entry } : Ctx).setS 1 l.arg).setS 2 (BitVec.ofNat 64 n)
  let s := ((s.modCtx i fun c => { c with act := .grain l.id n }).startVent p l.part g)
  let s := if (s.node g).gated then s.wakeCore g else s
  (s.clockCheck g).startAct i (.grain l.id n) (s.node g).cycle l.entry (absCoord (nodeAt p (dieOf g) 0 0) 0)

end Sys2Proof.Machine
end

