-- ==== Sys2Proof/Machine/EvHost.lean ====
section
/-! DEFINITION. The events of the host link, the queue scheduler and the distributors (R339 to R352, R362, R363). A package
is named by its number in the domain. An event whose condition does not hold changes nothing. -/

namespace Sys2Proof.Machine

/-! ### Doorbells and registers (R339, R340, R362, R383, R393) -/

/-- A doorbell write sets WP; an overrun marks the queue and clears EN (R339, R342). -/
def execDoorbell (p q : Nat) (v : BitVec 32) (s : State) : Host.Outcome State Fault Refusal :=
  let d := s.qdesc p q
  let now := (s.pkg p).gt.toNat
  .next (if 65536 ≤ q then s
    else
      let s := s.setDramWord p (d.at_ + 24) (BitVec.ofNat 64 (v.toNat * 2 ^ 32 + d.rp))
      if 2 ^ d.log2n < (v.toNat + 2 ^ 32 - d.rp) % 2 ^ 32 then
        (s.clearEn p d).modQueue p q fun k => { k with bad := true, waiting := none, idleSince := s.idleFrom p q k }
      else
        s.modQueue p q fun k => { k with waiting := if k.slot || !d.en || v.toNat == d.rp then none else k.waiting.or (some now)
                                         idleSince := s.idleFrom p q k })

/-- Raise interrupt source 0 for a partition at a core (R340, R341): an ABS coordinate with the partition in its offset. -/
def execHostint (p : Nat) (v : Word) (s : State) : Host.Outcome State Fault Refusal :=
  let part := natBits v.toNat 0 7
  .next (if v.toNat < 2 ^ 63 || natBits v.toNat 61 2 != 0 then s
    else
      match s.coord (p * 2048 + 2047) v.toNat with
      | some (.far t _) =>
        if isCaldera t || !(s.coresOf (pkgOf t) part).contains t then s
        else s.modNode t fun n => { n with irq0 := if n.irq0.contains part then n.irq0 else n.irq0 ++ [part] }
      | _ => s)

/-- The instance that TSEL selects in a package (R383). -/
def Tephra.sel (t : Tephra) (p : Nat) : Option Inst :=
  let x := t.tsel.toNat
  if natBits x 15 4 != p || 16 < natBits x 8 5 then none
  else some ⟨nodeAt p (natBits x 13 2) (natBits x 8 5) (natBits x 4 4),
    match natBits x 0 2 with
    | 0 => .main
    | 1 => .work
    | 2 => .msgL
    | _ => .msgH⟩

/-- A session of the sideband reaches a node's debug state: its own world's, or any for a secure session (R383, DEDUCED, log 47). -/
def State.session (s : State) (p : Nat) (secure : Bool) (g : Nat) : Bool :=
  (s.pkg p).sessions && (secure || (s.node g).ns)

/-- The debug registers of the selected context (R393); a reserved code is out of range. -/
def Dbg.write (d : Dbg) (off : Nat) (v : Word) : Dbg :=
  let n := off % 32 / 8
  let x := v.toNat
  let ok := natBits x 22 2 != 3 && natBits x 20 2 != 3
  match off / 32 with
  | 0 => { d with bpa := Table.set 0 d.bpa n v }
  | 1 => if ok then { d with bpc := Table.set 0 d.bpc n (BitVec.ofNat 64 (x / 2 ^ 20 * 2 ^ 20)) } else d
  | 2 => { d with wpb := Table.set 0 d.wpb n v }
  | 3 => { d with wpl := Table.set 0 d.wpl n v }
  | 4 => if ok then { d with wpc := Table.set 0 d.wpc n (BitVec.ofNat 64 (x / 2 ^ 16 * 2 ^ 16)) } else d
  | _ => d

/-- A write to the Tephra window (R383). -/
def State.tephraWrite (s : State) (p : Nat) (secure : Bool) (off : Nat) (v : Word) : State :=
  let x := v.toNat
  let put (f : Tephra → Tephra) : State := if (s.pkg p).sessions then s.modPkg p fun k => { k with tephra := f k.tephra } else s
  match off with
  | 0x008 => put fun t => { t with tbase := BitVec.ofNat 64 (x / 4096 * 4096), pages := [] }
  | 0x010 => if 1 ≤ x && x ≤ 65536 then put fun t => { t with tsize := x } else s
  | 0x028 => if 256 ≤ x && x ≤ 2 ^ 24 then put fun t => { t with sper := x } else s
  | 0x030 => put fun t => { t with tsel := BitVec.ofNat 64 (x % 2 ^ 19) }
  | _ =>
    if off < 0x800 || 0x8A0 ≤ off then s
    else
      match (s.pkg p).tephra.sel p with
      | some i =>
        if s.session p secure i.node then
          s.modPkg p fun k => { k with dbg := k.dbg.put i.key ((Table.get {} k.dbg i.key).write (off - 0x800) v) }
        else s
      | none => s

/-- A register write: offsets below 0x1_0000 are PF BAR0 (R340, R362); 0x1_0000 and 0x2_0000 begin the Tephra window as a
secure and a non-secure session reach it (R383); 0x3_0000 is the recovery mailbox, and where an image is staged (R397, R399).
Registers with an event of their own are left to it. -/
def execRegisterWrite (p off : Nat) (v : Word) (s : State) : Host.Outcome State Fault Refusal :=
  let x := v.toNat
  .next (if 0x30000 ≤ off then s.modPkg p fun k => { k with fw :=
      if off = 0x30000 then { k.fw with mboxAddr := v } else if off = 0x30008 then { k.fw with mboxLen := v } else k.fw }
    else if 0x20000 ≤ off then s.tephraWrite p false (off - 0x20000) v
    else if 0x10000 ≤ off then s.tephraWrite p true (off - 0x10000) v
    else if 0x200 ≤ off && off < 0x280 && off % 8 == 0 then
      let n := (off - 0x200) / 8
      if n = p || !natBit (s.pkg p).mask n then s
      else s.modPkg p fun k => { k with lroute := Table.set 0 k.lroute n (x % 256) }
    else
      match off with
      | 0x0010 => s.modPkg p fun k => { k with qtbase := v }
      | 0x0018 => s.modPkg p fun k => { k with ptbase := v }
      | 0x0020 => s.modPkg p fun k => { k with sched := v.getLsbD 0, defslice := natBits x 8 10 }
      | 0x0040 => s.modPkg p fun k =>
        if k.partBusy.isSome then { k with partResult := 4 }
        else if 1 ≤ x % 8 && x % 8 ≤ 4 then { k with partBusy := some (x % 8, natBits x 8 7) }
        else k
      | _ => s)

/-! ### Slots (R343) -/

/-- A queue that is ready and holds no slot waits for one. -/
def State.waits4Slot (s : State) (p q : Nat) : Bool := !(s.queue p q).slot && (s.qdesc p q).ready

/-- The queues that wait for a slot, `q` among them: the highest PRIO first, then the longest wait. One that the driver has enabled since
begins to wait when the scheduler sees it, whether or not it is its turn (DEDUCED, log 42). -/
def State.firstWaiter (s : State) (p q : Nat) : Option Nat :=
  let now := (s.pkg p).gt.toNat
  let ws := (((s.pkg p).queues.map (·.1)) ++ [q]).eraseDups.filterMap fun k =>
    if s.waits4Slot p k then some (k, (s.qdesc p k).prio, (s.queue p k).waiting.getD now) else none
  (ws.foldl (fun (best : Option (Nat × Nat × Nat)) w => match best with
    | none => some w
    | some b => if b.2.1 < w.2.1 || (b.2.1 == w.2.1 && w.2.2 < b.2.2) then some w else best) none).map (·.1)

/-- The queue whose slot goes: the one idle longest, else one of the lowest PRIO below `prio`, the first in the table (R343, DESIGN CHOICE,
log 66). -/
def State.slotVictim (s : State) (p prio : Nat) : Option Nat :=
  let held := (s.pkg p).queues.filter fun k => k.2.slot
  let idle := held.filter fun k => s.qIdle p k.1
  let least (f : Nat × Queue → Nat) (l : List (Nat × Queue)) : Option Nat :=
    (l.foldl (fun (best : Option (Nat × Queue)) w => match best with
      | none => some w
      | some b => if f w < f b then some w else best) none).map (·.1)
  match least (fun k => k.2.idleSince.getD 0) idle with
  | some q => some q
  | none => least (fun k => (s.qdesc p k.1).prio) (held.filter fun k => (s.qdesc p k.1).prio < prio)

/-- A ready queue takes a slot. -/
def execSlotAssignment (p q : Nat) (s : State) : Host.Outcome State Fault Refusal :=
  let now := (s.pkg p).gt.toNat
  let take (s : State) : State := s.modQueue p q fun k => { k with slot := true, waiting := none }
  let wait : State := if s.waits4Slot p q then s.modQueue p q fun k => { k with waiting := k.waiting.or (some now) } else s
  .next (if !(s.pkg p).sched then s
    else if s.firstWaiter p q != some q then wait
    else if ((s.pkg p).queues.filter fun k => k.2.slot).length < 2048 then take s
    else
      match s.slotVictim p (s.qdesc p q).prio with
      | none => wait
      | some w =>
        let back := if (s.qdesc p w).ready then some now else none
        take (s.modQueue p w fun k => { k with slot := false, waiting := back }))

/-! ### Queue entries (R344 to R348) -/

/-- Act on the next entry of a queue when it has a KIND: `f` gives the state and the entry as taken. -/
def State.nextOfKind (s : State) (p q kind : Nat) (f : State → QDesc → List Nat → QEntry → State) : State :=
  match s.nextEntry p q with
  | (s', some (d, some w)) =>
    let e := entryOf d.rp w
    if e.kind != kind then s
    else if entryBad w then s'.takeQ p q { e with code := some 5 }
    else f s' d w e
  | _ => s

/-- A NOP completes at once. -/
def execQueueNop (p q : Nat) (s : State) : Host.Outcome State Fault Refusal :=
  .next (s.nextOfKind p q 0 fun s _ _ e => s.takeQ p q { e with code := some 1 })

/-- WAIT completes when the word at its address is at least n; until then later entries wait. -/
def execWait (p q : Nat) (s : State) : Host.Outcome State Fault Refusal :=
  .next (s.nextOfKind p q 2 fun s d _ e =>
    match s.schedRead p d.part d.ns e.w2.toNat 1 with
    | (s', some [x]) => if e.w3.toNat ≤ x then s'.takeQ p q { e with code := some 1 } else s'
    | (s', _) => s')

/-- SIGNAL writes its word after every earlier entry has completed. -/
def execSignal (p q : Nat) (s : State) : Host.Outcome State Fault Refusal :=
  .next (s.nextOfKind p q 3 fun s d _ e =>
    if ((s.queue p q).openBefore d.rp).isEmpty then
      (s.schedWrite p d.part d.ns e.w2.toNat e.w3.toNat).takeQ p q { e with code := some 1 }
    else s)

/-- LAUNCH checks its record and begins to dispatch, once the queue's earlier launches have dispatched all their grains. -/
def execLaunch (p q : Nat) (s : State) : Host.Outcome State Fault Refusal :=
  .next (s.nextOfKind p q 1 fun s d _ e =>
    let open_ := (s.queue p q).open_.filterMap fun x => x.launch.bind (s.launch p)
    if !open_.all (s.dispatched p) then s
    else
      let bad (s : State) : State := s.takeQ p q { e with code := some 6 }
      if e.w2.toNat % 64 ≠ 0 then bad s
      else
        match s.schedRead p d.part d.ns e.w2.toNat 16 with
        | (s, none) => bad s
        | (s, some w) =>
          match s.recordOk p d w with
          | (s, false) => bad s
          | (s, true) =>
            let x (k : Nat) : Word := BitVec.ofNat 64 (w.getD k 0)
            let (id, s) := s.newId
            let l : Launch := { id := id, queue := q, part := d.part, entry := x 0, data := x 1, dlen := (x 2).toNat % 2 ^ 32
                                arg := x 3, levels := recordLevels w }
            (s.modPkg p fun k => { k with launches := k.launches ++ [l] }).takeQ p q { e with launch := some id })

/-- The scheduler reads an entry of another KIND, or cannot read the ring: then the queue is marked and disabled. -/
def execQueueEntryBadKind (p q : Nat) (s : State) : Host.Outcome State Fault Refusal :=
  .next (match s.nextEntry p q with
    | (s', some (d, some w)) =>
      let e := entryOf d.rp w
      if 4 < e.kind then s'.takeQ p q { e with code := some 5 } else s
    | (s', some (d, none)) => (s'.clearEn p d).modQueue p q fun k => { k with bad := true }
    | _ => s)

/-! ### CANCEL (R346) -/

/-- The positions between RP and WP. -/
def QDesc.visible (d : QDesc) : List Nat :=
  (List.range ((d.wp + 2 ^ 32 - d.rp) % 2 ^ 32)).map fun k => (d.rp + k) % 2 ^ 32

/-- The first LAUNCH with a tag that still stands in the ring, at one of a list of positions. -/
def State.pendingLaunch (s : State) (p q tag : Nat) (d : QDesc) : List Nat → State × Option QEntry
  | [] => (s, none)
  | pos :: l =>
    if (s.queue p q).taken.any fun e => e.pos == pos then s.pendingLaunch p q tag d l
    else
      match s.ringEntry p d pos with
      | (s, some w) =>
        let e := entryOf pos w
        if e.kind == 1 && e.tag == tag && !entryBad w then (s, some e) else s.pendingLaunch p q tag d l
      | (s, none) => s.pendingLaunch p q tag d l

/-- Remove a launch from every package of its span. -/
def State.dropLaunch (s : State) (p : Nat) (l : Launch) : State :=
  (s.span p l.part).foldl (fun s q => s.modPkg q fun k => { k with launches := k.launches.filter fun x => x.id != l.id }) s

/-- What is left of a discarded context's messages: requests to memory and reads of records that were not performed are
withdrawn; the others stand and their answers are dropped. -/
def State.orphanMsgs (s : State) (who : Msg → Bool) : State :=
  let gone (m : Msg) : Bool := who m && m.unperformed && (m.req.isMem || m.req.isFlush || isPrld m.req || (match m.req with
    | .prstat => true
    | _ => false))
  let s := (s.net.filter gone).foldl (fun s m => s.retired m.targetNode m.part m.tag) s
  { s with net := (s.net.filter fun m => !gone m).map fun m => if who m then { m with orphan := true } else m }

/-- A discarded grain's channel entries go as by CABORT; an entry of another context that runs goes on where it was (R346). -/
def Img.discardEntries (m : Img) (k : Nat) : Img :=
  let ch := m.chan k
  let mine (x : ChanItem) : Bool := match x with
    | .entry _ ctx _ _ _ _ => ctx == .main
    | .join _ _ => false
  let left := ch.queue.filter fun x => !mine x
  if ((ch.queue.find? fun x => match x with
      | .entry _ _ _ _ _ _ => true
      | .join _ _ => false).map mine).getD false then
    ((m.setChan k { queue := left }).changed (.wp k)).popJoins
  else if ch.queue.any mine then (m.setChan k { ch with queue := left }).popJoins
  else m

/-- Halt and discard the grain in a core's MAIN (R346). -/
def State.discardGrain (s : State) (g part : Nat) : State :=
  let s := s.orphanMsgs fun m => m.src == ⟨g, .main⟩ && m.part == some part
  let s : State := match (s.live g).gmma with
    | some x =>
      if (s.live g).part == some part && x.ctx == .main && x.isArrived then
        s.abandon ((gangOf g x.gangw).filter fun t => ((s.chordOf g x.gangw t).map (·.isArrived)).getD false)
          fun _ => { cause := .illegalSequence, code := 5 }
      else s
    | none => s
  let s := if (s.live g).part = some part then s.modNode g fun n => n.unmark (· == .main) else s
  (s.modImg g (some part) fun m =>
    let m := (List.range 4).foldl Img.discardEntries m
    { m with
      gmma := m.gmma.filter fun x => !(x.ctx == .main && x.isArrived)
      main := { m.main with act := .idle, wait := .none, groups := [], deferred := [], fcheck := none, watch := []
                            mcheck := [], dslot := none, osc := 0 } }).clockCheck g

/-- Where the grains of a launch run. -/
def State.runningOn (s : State) (p : Nat) (l : Launch) : List Nat :=
  (s.copies p l).flatMap fun x => x.grains.filterMap fun g => match g.2 with
    | .on c => some c
    | _ => none

/-- A CANCEL at a ring position acts as soon as it is visible (DEDUCED, log 44). -/
def execCancel (p q n : Nat) (s : State) : Host.Outcome State Fault Refusal :=
  let d := s.qdesc p q
  let k := s.queue p q
  .next (if !(s.pkg p).sched || !k.slot || !d.ready || !d.visible.contains n || k.taken.any (fun e => e.pos == n) then s
    else
      match s.ringEntry p d n with
      | (s, none) => s
      | (s, some w) =>
        let e := entryOf n w
        let tag := natBits e.w2.toNat 0 16
        let fin (s : State) (c : Nat) : State := s.takeQ p q { e with code := some c }
        let mark (s : State) (pos c : Nat) : State := s.modQueue p q fun k =>
          { k with taken := k.taken.map fun x => if x.pos == pos then { x with code := some c, launch := none } else x }
        if e.kind ≠ 4 then s
        else if entryBad w then fin s 5
        else
          match k.open_.find? (fun x => x.kind == 1 && x.tag == tag && x.code.isNone) with
          | some x =>
            match x.launch.bind (s.launch p) with
            | none => s
            | some l =>
              let on := s.runningOn p l
              if ((s.copies p l).map fun y => y.grains.length).sum = 0 then fin (mark (s.dropLaunch p l) x.pos 2) 2
              else if !natBit e.w2.toNat 16 then fin s 3
              else if on.all fun g => (s.img g (some l.part)).main.dslot.isNone then
                fin (mark ((on.foldl (fun s g => s.discardGrain g l.part) s).dropLaunch p l) x.pos 2) 2
              else s
          | none =>
            match s.pendingLaunch p q tag d d.visible with
            | (s, some x) => fin (s.takeQ p q { x with code := some 2 }) 2
            | (s, none) => fin s 7)

/-! ### GBAR (R150) -/

/-- A unit of a domain lies inside the issuer's unit of a scope. -/
def unitInside (sc : Scope) (g dom u : Nat) : Bool :=
  match sc, dom with
  | .clu, 4 => u == unitOf 4 g
  | .clu, 5 => unitOf 4 u == unitOf 4 g
  | .die, 2 => u == unitOf 2 g
  | .die, 3 => u / 4 == unitOf 2 g
  | .die, 4 => u / 128 * 4 + u % 128 / 32 == unitOf 2 g
  | .die, 5 => unitOf 2 u == unitOf 2 g
  | _, _ => false

/-- The grains of a package's copy. -/
def State.share (s : State) (p : Nat) (l : Launch) : Nat :=
  let span := s.span p l.part
  match l.levels.head? with
  | some (ext, dom, _) =>
    if dom ≤ 1 then ((List.range ext).filter fun k => span.getD (k % span.length) p == p).length * l.size 0 else l.total
  | none => 0

/-- Grain `g` of a launch has arrived in a GBAR of the scope, or is done. -/
def State.barred (s : State) (part : Nat) (sc : Scope) (g : Nat × GrainSt) : Bool :=
  match g.2 with
  | .on c => (s.img c (some part)).main.wait == .gbar sc
  | .done => true
  | .unplaced => false

/-- Every grain that a GBAR of the scope waits for has arrived or is done, in a package's copy. -/
def State.gbarReady (s : State) (p : Nat) (l : Launch) (sc : Scope) (g : Nat) : Bool :=
  let ok := l.grains.filter (s.barred l.part sc)
  match sc with
  | .core => true
  | .clu | .die =>
    l.units.all fun u =>
      let i := u.1 / 2 ^ 40
      let k := u.1 % 2 ^ 40
      !unitInside sc g ((l.levels[i]?.map (·.2.1)).getD 6) u.2 ||
        (ok.filter fun x => l.inst i x.1 == k).length == l.size i
  | _ => ok.length == s.share p l

/-- The packages that have a share of a launch: the span where a leading DOMAIN or PACKAGE level deals it out, else the origin alone
(R363). -/
def State.sharers (s : State) (p : Nat) (l : Launch) : List Nat :=
  match l.levels.head? with
  | some (_, dom, _) => if dom ≤ 1 then s.span p l.part else [p]
  | none => [p]

/-- The barrier completes: every grain that arrived goes on. -/
def execGbarComplete (i : Inst) (s : State) : Host.Outcome State Fault Refusal :=
  let p := pkgOf i.node
  .next (match (s.ctx i).wait, (s.ctx i).act with
    | .gbar sc, .grain id _ =>
      match s.launch p id with
      | none => s
      | some l =>
        let pkgs := if sc = .dom then s.sharers p l else [p]
        let ready := s.up p && pkgs.all fun q => match s.launch q id with
          | some y => s.gbarReady q y sc i.node
          | none => false
        let inside (c : Nat) : Bool := match sc with
          | .core => c == i.node
          | .clu => unitOf 4 c == unitOf 4 i.node
          | .die => unitOf 2 c == unitOf 2 i.node
          | .pkg => pkgOf c == p
          | _ => true
        let cores := (s.copies p l).flatMap fun y => y.grains.filterMap fun g => match g.2 with
          | .on c => if inside c then some c else none
          | _ => none
        if ready then
          cores.foldl (fun s c => s.modImg c (some l.part) fun m =>
            if m.main.wait = .gbar sc then { m with main := { m.main with wait := .ended } } else m) s
        else s
    | .gbar _, _ => if s.up p then s.modCtx i fun c => { c with wait := .ended } else s
    | _, _ => s)

/-! ### Completion (R345) -/

/-- The status word is written and the vector raised; a launch completes once all its grains are done. -/
def execEntryCompletion (p q n : Nat) (s : State) : Host.Outcome State Fault Refusal :=
  let d := s.qdesc p q
  .next (match (s.queue p q).open_.find? fun e => e.pos == n with
    | none => s
    | some e =>
      let l := e.launch.bind (s.launch p)
      let code : Option Nat := match e.code, l with
        | some c, _ => some c
        | none, some l => if s.launchDone p l then some (if (s.copies p l).any (·.fault) then 4 else 1) else none
        | none, none => none
      match code with
      | none => s
      | some c =>
        let s := if e.status = 0 || e.status.toNat % 8 != 0 then s else s.schedWrite p d.part d.ns e.status.toNat c
        let s : State := match l with
          | some l => s.dropLaunch p l
          | none => s
        let s := if e.intr then s.modPkg p fun k => { k with msix := k.msix ++ [(q, d.vec)] } else s
        let s := s.modQueue p q fun k => { k with taken := k.taken.map fun x =>
          if x.pos == n then { x with written := true, code := some c } else x }
        s.passRing p q ((s.queue p q).taken.length + 1))

/-! ### Placement (R349 to R352) -/

/-- Every level of a grain admits a core, one of the partition's `cores`. -/
def Launch.fits (l : Launch) (cores : List Nat) (n core : Nat) : Bool := (List.range l.levels.length).all (l.levelFits cores n core)

/-- The grains placed together with a first grain: the instances of the CORE level under one parent. -/
def Launch.batch (l : Launch) (n : Nat) : List Nat :=
  let i := l.coreLevel
  (List.range ((l.levels[i]?.map (·.1)).getD 1)).map fun k => n + k * l.size i

/-- Where the grains of a cluster-level instance go in a cluster, of the free cores that their levels admit: awake cores first, in
ascending column. -/
def State.plan (s : State) (x : Launch) (cores b : List Nat) (p cluster : Nat) : Option (List (Nat × Nat)) :=
  let cs := ((s.freeOf x.part (coresOfCluster p cluster)).filter fun c => b.all fun n => x.fits cores n c).take b.length
  if cs.length == b.length then some (b.zip cs) else none

/-- What a placement costs: the 2 µs wake of each gated core as queueing, in cycles of the die's clock, and among equals the column and
then the row (R287, R352, DEDUCED, log 43). -/
def State.planCost (s : State) (l : List (Nat × Nat)) : Nat :=
  let g := (l.head?.map (·.2)).getD 0
  let wake := (l.filter fun y => (s.node y.2).gated).length * (2 * (Table.get ({} : DiePower) (s.pkg (pkgOf g)).dies (dieOf g)).mhz)
  wake * 256 + col0 g * 16 + yOf g

/-- A grain, or the grains of a cluster-level instance, are placed onto free MAIN contexts of a die: on the placement that costs
least. -/
def execGrainPlacement (p l n core : Nat) (s : State) : Host.Outcome State Fault Refusal :=
  .next (match s.launch p l with
    | none => s
    | some x =>
      let i := x.coreLevel
      let known := x.unit? i (x.inst i n)
      let cores := s.coresOf p x.part
      if pkgOf core != p || isCaldera core || x.total ≤ n || x.grains.any (fun g => g.1 == n) ||
        s.grainPkg p x n != p || !cores.contains core then s
      else if known.isSome || !x.hasCluster then
        let eligible := (s.freeOf x.part (dieCores p (dieOf core))).filter (x.fits cores n)
        if (if known.isSome then eligible.contains core else eligible.head? == some core) then s.startGrain p x n core else s
      else
        let b := x.batch n
        let first := x.inst i n % (x.levels[i]?.map (·.1)).getD 1 == 0 && n % x.size i == 0
        let others := ((List.range 32).map fun k => dieOf core * 32 + k).filterMap (s.plan x cores b p)
        match s.plan x cores b p (clusterOf core) with
        | some y =>
          if first && others.all fun z => s.planCost y ≤ s.planCost z then
            y.foldl (fun s y => match s.launch p l with
              | some x => s.startGrain p x y.1 y.2
              | none => s) s
          else s
        | none => s)

/-- A package of the span receives its share of a launch from the origin (R363). -/
def execLaunchShare (p l dest : Nat) (s : State) : Host.Outcome State Fault Refusal :=
  .next (match s.launch p l with
    | none => s
    | some x =>
      let many : Bool := match x.levels.head? with
        | some (_, dom, _) => dom ≤ 1
        | none => false
      if !many || dest == p || !(s.span p x.part).contains dest || x.shares.contains dest || !s.linked p dest then s
      else
        let s := s.modPkg dest fun k => { k with launches := k.launches ++ [{ x with grains := [], units := [], shares := [] }] }
        s.modLaunch p l fun y => { y with shares := y.shares ++ [dest] })

end Sys2Proof.Machine
end

