-- ==== Sys2Proof/Machine/EvPart.lean ====
section
/-! DEFINITION. The events of partitions: ALLOC, FREE, RESIDE, STORE, time slices and swaps (R44, R142, R341, R353 to R361,
R410). An image that is stored is written to its area, and read back from its coded stream (DESIGN CHOICE, log 14). -/

namespace Sys2Proof.Machine

/-! ### PARTCMD (R353, R354) -/

/-- The descriptor of a partition keeps R353. -/
def State.descOk (s : State) (p part : Nat) : Bool :=
  let w (k : Nat) : Nat := (s.partWord p part k).toNat
  let d := w 12
  s.cmask p part != 0 && natBits (w 2) 0 62 == 0 && d / 65536 == 0 &&
    (d == 0 || (natBit d p && (List.range 16).all fun q => !natBit d q || natBit (s.pkg p).mask q)) &&
    (List.range 19).all (fun k => w (13 + k) == 0) && [5, 6, 7, 8, 9, 10, 11].all (fun k => w k < 2 ^ 37) &&
    w 5 % 2 ^ 18 == 0 && w 11 % 4096 == 0

/-- The valid partitions of a package. -/
def State.valids (s : State) (p : Nat) : List Nat := (List.range 128).filter (s.partValid p)

/-- The cluster set meets another valid one without being equal to it. -/
def State.overlapped (s : State) (p part : Nat) : Bool :=
  (s.valids p).any fun q => q != part && s.cmask p q != s.cmask p part && Nat.land (s.cmask p q) (s.cmask p part) != 0

/-- End a command with a RESULT; BUSY stays until PARTCMD_COMPLETE. -/
def State.partDone (s : State) (p part r : Nat) : State :=
  s.modPkg p fun k => { k with partBusy := some (0, part), partResult := r }

/-- Do a command when it is the one that runs; it goes on while it has no RESULT. -/
def State.partCmd (s : State) (p op part : Nat) (f : State → State × Option Nat) : State :=
  if (s.pkg p).partBusy = some (op, part) then
    match f s with
    | (s, some r) => s.partDone p part r
    | (s, none) => s
  else s

/-- Set or clear VALID. -/
def State.setValid (s : State) (p part : Nat) (v : Bool) : State :=
  s.setDramWord p ((s.pkg p).ptbase.toNat + 256 * part + 16)
    (BitVec.ofNat 64 ((s.partWord p part 2).toNat % 2 ^ 63 + if v then 2 ^ 63 else 0))

/-- An image goes to its area (R361). -/
def State.store (s : State) (g : Nat) (m : Img) : State :=
  (s.streamOut g m).modNode g fun n => { n with stored := n.stored ++ [m] }

/-- ALLOC checks the descriptor; a scrubbed image starts stored on every core (R44, DEDUCED, log 41). -/
def execAlloc (p part : Nat) (s : State) : Host.Outcome State Fault Refusal :=
  .next (s.partCmd p 1 part fun s =>
    if s.partValid p part then (s, some 5)
    else if !s.descOk p part then (s, some 1)
    else if s.overlapped p part then (s, some 2)
    else
      ((((s.coresOf p part).foldl (fun s g => s.store g { part := some part }) s).dropBad fun g q =>
        pkgOf g == p && q == some part).setValid p part true, some 0))

/-- Some queue of the queue table is enabled for a partition. -/
def State.queuesOn (s : State) (p part : Nat) : Bool :=
  (List.range 65536).any fun q => (s.qdesc p q).en && (s.qdesc p q).part == part

/-- Requests of others that wait on words of an image that goes. -/
def State.refuseWaiters (s : State) (g part : Nat) : State :=
  (s.net.filter fun m => match m.at_ with
    | some (.spm t q _) => t == g && q == some part
    | _ => false).foldl (fun s m => s.refuseMsg m .protection) s

/-- The tags of messages that an image has accepted and not retired: Vent entries, parcels and what runs for one (R149). -/
def Img.owed (m : Img) : List Bool :=
  m.vent.map (·.tag) ++ (m.qL ++ m.qLover ++ m.qH).map (·.tag) ++ [m.msgL, m.msgH, m.work].filterMap fun c => match c.act with
    | .handler p => some p.tag
    | .work _ _ t => some t
    | _ => none

/-- The images of a partition at a node. -/
def Node.imagesOf (n : Node) (part : Nat) : List Img := (n.live :: n.shadows ++ n.stored).filter fun m => m.part == some part

/-- FREE discards the image and clears VALID and the interrupt bits; the messages that the image had accepted retire, so that the
counts of a later partition of that number start even (R149, DEDUCED, log 41). -/
def execFree (p part : Nat) (s : State) : Host.Outcome State Fault Refusal :=
  .next (s.partCmd p 2 part fun s =>
    if !s.partValid p part then (s, some 1)
    else if s.queuesOn p part then (s, some 3)
    else
      let cores := s.coresOf p part
      let s := s.orphanMsgs fun m => m.part == some part && cores.contains m.src.node
      let s := cores.foldl (fun s g => (((s.node g).imagesOf part).flatMap Img.owed).foldl
        (fun s t => s.retired g (some part) t) s) s
      let s := cores.foldl (fun s g => (s.refuseWaiters g part).modNode g fun n =>
        let keep (l : List Img) : List Img := l.filter fun m => m.part != some part
        { n with
          live := if n.live.part = some part then {} else n.live
          mark := if n.live.part = some part then none else n.mark
          shadows := keep n.shadows, stored := keep n.stored
          irq0 := n.irq0.filter (· != part), irq1 := n.irq1.filter (· != part) }) s
      let s := cores.foldl (fun s g => s.clockCheck g) s
      let s := s.modPkg p fun k =>
        { k with launches := k.launches.filter fun l => l.part != part
                 queues := k.queues.map fun q => if (s.qdesc p q.1).part = part then (q.1, { q.2 with taken := [] }) else q }
      ((s.dropBad fun g q => pkgOf g == p && q == some part).setValid p part false, some 0))

/-- Make room for a shadow: of two or more, the least recently live one is stored (R354, R355). -/
def State.makeRoom (s : State) (g : Nat) : State :=
  match (s.node g).shadows with
  | m :: k :: ms =>
    let low := (k :: ms).foldl (fun a b => if b.lastLive < a.lastLive then b else a) m
    (s.store g low).modNode g fun n => { n with shadows := n.shadows.filter fun x => x.part != low.part }
  | _ => s

/-- A stored image, as its stream was decoded, becomes a shadow. -/
def State.takeIn (s : State) (part : Nat) (x : Nat × Option Img) : State :=
  match x.2 with
  | none => s
  | some m => (s.makeRoom x.1).modNode x.1 fun n =>
    { n with shadows := m :: n.shadows, stored := n.stored.filter fun m => m.part != some part }

/-- Stream a partition in on every core that holds it stored. Where a stream does not decode, the partition stays stored and a
machine-check is logged (R360, R361). -/
def State.reside (s : State) (p part : Nat) : State × Bool :=
  let cores := (s.coresOf p part).filter fun g => (s.node g).stored.any fun m => m.part == some part
  let ims := cores.map fun g => (g, s.streamIn g (findImg (s.node g).stored (some part)))
  if ims.all fun x => x.2.isSome then (ims.foldl (fun s x => s.takeIn part x) s, true)
  else
    (ims.foldl (fun s x =>
      if x.2.isNone then s.logError x.1 0x12 (some part) (BitVec.ofNat 64 (s.imageAt x.1 part % 2 ^ 37 + 0xF000)) else s) s, false)

/-- RESIDE streams a stored image into a shadow, and goes on until every region has been decoded and written (R354, R361). -/
def execReside (p part : Nat) (s : State) : Host.Outcome State Fault Refusal :=
  .next (s.partCmd p 3 part fun s =>
    if !s.partValid p part then (s, some 1)
    else
      match s.reside p part with
      | (s, true) => (s, some 0)
      | (s, false) => (s, none))

/-- STORE streams a shadow out (R354, R361). -/
def execStore (p part : Nat) (s : State) : Host.Outcome State Fault Refusal :=
  .next (s.partCmd p 4 part fun s =>
    if !s.partValid p part then (s, some 1)
    else
      ((s.coresOf p part).foldl (fun s g =>
        if (s.node g).shadows.any fun m => m.part == some part then
          (s.store g (findImg (s.node g).shadows (some part))).modNode g fun n =>
            { n with shadows := n.shadows.filter fun m => m.part != some part }
        else s) s, some 0))

/-- BUSY clears (R354). -/
def execPartcmdComplete (p : Nat) (s : State) : Host.Outcome State Fault Refusal :=
  .next (match (s.pkg p).partBusy with
    | some (0, _) => s.modPkg p fun k => { k with partBusy := none }
    | _ => s)

/-! ### Slices (R341, R355) -/

/-- The rank of a partition: the highest PRIO of its ready queues. A partition without one has grains to run while entries of its queues
are open: it stands behind every partition with a ready queue, so that a halted grain resumes (R285, R355, DEDUCED, log 45). -/
def State.partPrio (s : State) (p part : Nat) : Option Nat :=
  let qs := ((s.pkg p).queues.map (·.1)).filter fun q => (s.qdesc p q).part == part && (s.qdesc p q).en && s.qWorks p q
  let top (l : List Nat) : Option Nat := l.foldl (fun (b : Option Nat) q => some (max (b.getD 0) (s.qdesc p q).prio)) none
  ((top (qs.filter fun q => (s.qdesc p q).ready)).map (· + 8)).or (top qs)

/-- The partitions of a partition's group. -/
def State.groupOf (s : State) (p part : Nat) : List Nat := (s.valids p).filter fun q => s.cmask p q == s.cmask p part

def State.groupKey (s : State) (p part : Nat) : Nat := ((s.clustersOf p part).head?).getD 128

/-- The slice of a partition in ns: the largest SLICE of its slotted queues, 0 taking DEFSLICE. -/
def State.sliceNs (s : State) (p part : Nat) : Nat :=
  let k := s.pkg p
  let qs := (k.queues.filter fun q => q.2.slot && (s.qdesc p q.1).part == part).map fun q =>
    let x := (s.qdesc p q.1).slice
    if x = 0 then k.defslice else x
  1000 * (qs.foldl max 0 |> fun x => if x = 0 then k.defslice else x)

def State.turn (s : State) (p part : Nat) : Turn := Table.get {} (s.pkg p).turns (s.groupKey p part)
def State.setTurn (s : State) (p part : Nat) (t : Turn) : State :=
  s.modPkg p fun k => { k with turns := k.turns.put (s.groupKey p part) t }

/-- The partition is live on its group, and no core of it is stopped (R394). -/
def State.runs (s : State) (p part : Nat) : Bool :=
  match s.coresOf p part with
  | [] => false
  | l => l.all fun g => (s.node g).live.part == some part && (s.node g).stop.isNone

/-- 10 µs before the slice ends, interrupt source 1 is raised on every core of the group. -/
def execSliceWarning (p part : Nat) (s : State) : Host.Outcome State Fault Refusal :=
  let t := s.turn p part
  .next (if (s.pkg p).sched && s.runs p part && !t.warned && t.began + s.sliceNs p part ≤ (s.pkg p).gt.toNat + 10000 then
    ((s.coresOf p part).foldl (fun s g => s.modNode g fun n =>
      { n with irq1 := if n.irq1.contains part then n.irq1 else n.irq1 ++ [part] }) s).setTurn p part { t with warned := true }
  else s)

/-- The slice expires: the turn is over when a partition that does not rank below has work, else it begins anew. -/
def execSliceEnd (p part : Nat) (s : State) : Host.Outcome State Fault Refusal :=
  let t := s.turn p part
  let now := (s.pkg p).gt.toNat
  .next (if (s.pkg p).sched && s.runs p part && t.began + s.sliceNs p part ≤ now then
    let rival := (s.groupOf p part).any fun q => q != part && (s.partPrio p q).any fun b => (s.partPrio p part).all (· ≤ b)
    s.setTurn p part (if rival then { t with spent := true } else { began := now })
  else s)

/-! ### Swaps (R356) -/

/-- The partition of a group whose turn comes after a live one: the highest PRIO, in round robin (R355). -/
def State.chooseLive (s : State) (p live : Nat) (group : List Nat) : Option Nat :=
  let works := group.filterMap fun q => (s.partPrio p q).map fun x => (q, x)
  let top := works.foldl (fun n x => max n x.2) 0
  let tops := (works.filter fun x => x.2 == top).map (·.1)
  match tops.find? (live < ·) with
  | some q => some q
  | none => tops.head?

/-- The live partition may be replaced: it has no work, a ready partition of a higher PRIO than its queues waits, or its slice is over
(R355). -/
def State.yields (s : State) (p live next : Nat) : Bool :=
  match s.partPrio p live, s.partPrio p next with
  | _, none => false
  | none, some _ => true
  | some a, some b => (8 ≤ b && a % 8 < b - 8) || (a ≤ b && (s.turn p live).spent)

/-- A context stands at a boundary, in WFI, or in an instruction that waits with no effect made; SAVEX between its stores and SHOOT
do not (R232, R356). -/
def Ctx.haltable (c : Ctx) : Bool :=
  match c.wait with
  | .savex _ | .shoot _ => false
  | .wfi _ => true
  | _ => c.dslot.isNone

/-- Every context of a core may be halted, no GMMA has closed, and no channel stands inside a 64-byte group (R356, steps 1 to 3). -/
def Img.haltable (m : Img) : Bool :=
  (List.range 4).all (fun k => (m.chan k).buf.isNone) && m.main.haltable && m.work.haltable && m.msgL.haltable && m.msgH.haltable &&
    (match m.gmma with
      | some x => x.phase == .arrived
      | none => true)

def Phase.rests : Phase → Bool
  | .waiting _ | .retry => true
  | _ => false

/-- A message that waits at a unit or was turned away, or that such a message of its instance holds back. -/
def State.rests (s : State) (m : Msg) : Bool :=
  m.phase.rests || s.net.any fun x => x.id < m.id && x.src == m.src && x.part == m.part && x.phase.rests &&
    (s.blocks x m || (x.grp != m.grp && x.held m.src.node m.rel))

/-- The network is drained for a partition's cores: of its own messages, of the parcels for it, and of the requests that other
partitions have sent to its image, those that are left wait (R356, step 4). -/
def State.drained (s : State) (part : Nat) (cores : List Nat) : Bool :=
  s.net.all fun m => s.rests m ||
    !((m.part == some part && cores.contains m.src.node) ||
      (match m.req, m.tgt with
        | .parcel q, .node t _ => q.part == some part && cores.contains t
        | _, .node t _ => m.phase == .req && cores.contains t && s.reach t m.part m.aim == some (some part)
        | _, _ => false))

/-- Halt a context: WFI is over, so that it resumes after it, an instruction between its reads or looks and a GMMA that has not arrived
begin anew, and one that waits is fetched again when it is reissued (R238, R356). -/
def Ctx.halt (c : Ctx) (m : Img) : Ctx :=
  match c.wait with
  | .wfi _ => { c.retire m 4 [] .seq with wait := .halted, insn := none }
  | .jt _ | .words _ _ | .steal _ | .gmma _ _ => { c with wait := .none, insn := none }
  | _ => { c with insn := none }

def Img.halted (m : Img) (now : Nat) : Img :=
  { m with main := m.main.halt m, work := m.work.halt m, msgL := m.msgL.halt m, msgH := m.msgH.halt m, lastLive := now }

/-- A halted context goes on. -/
def Ctx.goOn (c : Ctx) : Ctx := if c.wait = .halted then { c with wait := .none } else c
def Img.resumed (m : Img) : Img := { m with main := m.main.goOn, work := m.work.goOn, msgL := m.msgL.goOn, msgH := m.msgH.goOn }

/-- A core switches to the image of another partition, which it holds as a shadow. -/
def Node.switch (n : Node) (next now : Nat) : Node :=
  let old := n.live.halted now
  let n := { n with
    live := (findImg n.shadows (some next)).resumed
    mark := none
    shadows := (if old.part.isSome then [old] else []) ++ n.shadows.filter fun (m : Img) => m.part != some next }
  if n.gated && !n.waking && !n.live.rests then { n with waking := true, wakeAt := now + 2000 } else n

/-- The waiting FE requests of halted contexts are withdrawn and sent again when they resume (R142). -/
def State.withdraw (s : State) (part : Nat) (cores : List Nat) : State :=
  { s with net := s.net.map fun m =>
    match m.req, m.phase with
    | .fe _ _, .waiting _ =>
      if m.part == some part && cores.contains m.src.node then { m with phase := .retry, at_ := none } else m
    | _, _ => m }

/-- A swap from the live partition of a group (`part`, or `next` itself when none is live) to another. One that comes next and is stored
is streamed in ahead of time (R355, R356, DEDUCED, log 45). -/
def execPartitionSwap (p part next : Nat) (s : State) : Host.Outcome State Fault Refusal :=
  let cores := s.coresOf p next
  let now := (s.pkg p).gt.toNat
  let go (halt : State → State) : State :=
    match s.reside p next with
    | (t, true) => (cores.foldl (fun s g => (s.modNode g fun n => n.switch next now).clockCheck g) (halt t)).setTurn p next
        { began := now }
    | (t, false) => t
  .next (if !(s.pkg p).sched || !s.up p || !s.partValid p next || cores.isEmpty || cores.any (fun g => (s.node g).stop.isSome) then s
    else if part = next then
      if cores.all (fun g => (s.node g).live.part == none) && s.chooseLive p 128 (s.groupOf p next) == some next then go id else s
    else if !(s.groupOf p next).contains part || !cores.all (fun g => (s.node g).live.part == some part) then s
    else if s.chooseLive p part (s.groupOf p next) != some next then s
    else if s.yields p part next && cores.all (fun g => (s.live g).haltable) && s.drained part cores then
      go fun t => t.withdraw part cores
    else (s.reside p next).1)

end Sys2Proof.Machine
end

