-- ==== Sys2Proof/Machine/EvFleet.lean ====
section
/-! DEFINITION. The events of boot, firmware, time, the Mililo links, telemetry, repair, power and reset (R362, R364, R396 to
R410). Values read by sensors come with the event. -/

namespace Sys2Proof.Machine

/-! ### The error log (R401) -/

/-- The I/O die's node number. -/
def ioNode (p : Nat) : Nat := p * 2048 + 2047

/-- An error that names no node: WHERE as given. -/
def State.logAt (s : State) (p die cls : Nat) (where_ addr : Word) : State :=
  s.modPkg p fun k =>
    if (k.dieBuf.filter fun e => e.die == die).length < 64 then
      { k with dieBuf := k.dieBuf ++ [⟨die, k.gt, cls, 0x7F, where_, addr⟩] }
    else { k with lost := k.lost + 1 }

/-- The buffered entry with the least GT moves to the ring, which overwrites its oldest when full. -/
def execErrorLogMove (p : Nat) (s : State) : Host.Outcome State Fault Refusal :=
  let k := s.pkg p
  .next (if k.mcDown then s
    else
      match k.dieBuf with
      | [] => s
      | e :: es =>
        let low := es.foldl (fun (a b : LogEntry) => if b.gt.toNat < a.gt.toNat then b else a) e
        let full := 4096 ≤ k.log.length
        s.setPkg p { k with dieBuf := k.dieBuf.erase low, log := (if full then k.log.drop 1 else k.log) ++ [low]
                            lost := if full then k.lost + 1 else k.lost })

/-! ### Links and time (R362, R364, R404) -/

/-- The members of a package's domain. -/
def State.members (s : State) (p : Nat) : List Nat := (List.range 16).filter (natBit (s.pkg p).mask)

/-- The links of a package that lead to another. -/
def State.linksTo (s : State) (p q : Nat) : List Nat :=
  (List.range 8).filter fun l => (Table.get ({} : Link) (s.pkg p).links l).far == some q

/-- The other end of a link: the k-th of the links that lead from one package to another is the k-th that lead back (DESIGN CHOICE,
log 49: R362 names the far package alone). -/
def State.peer (s : State) (p l : Nat) : Option (Nat × Nat) :=
  match (Table.get ({} : Link) (s.pkg p).links l).far with
  | some q => if l < 8 then (s.linksTo q p)[((s.linksTo p q).filter (· < l)).length]?.map fun m => (q, m) else none
  | none => none

/-- Both directions can run 8 lanes (R404). -/
def Link.runs (l : Link) : Bool := 8 ≤ l.lanesIn && 8 ≤ l.lanesOut

/-- The check of R362: both packages run, each is the other's configured far end, and they report the same member mask. A link that
cannot run 8 lanes stays down (R404), as does one of a package that has tripped (R407). -/
def State.linkOk (s : State) (p l : Nat) : Bool :=
  match s.peer p l with
  | some (q, _) =>
    q != p && s.up p && s.up q && (s.pkg q).mask == (s.pkg p).mask && natBit (s.pkg p).mask q &&
      (Table.get ({} : Link) (s.pkg p).links l).runs
  | none => false

def Pkg.anyUp (k : Pkg) : Bool := k.links.any fun l => l.2.up

/-- GT follows the lowest-numbered member while some link is up; alone, it runs free (R364). -/
def State.alignTime (s : State) (p : Nat) : State :=
  let low := ((s.members p).head?).getD p
  s.modPkg p fun k =>
    if k.anyUp then { k with tsync := true, gt := if low = p then k.gt else (s.pkg low).gt, gtFrac := if low = p then k.gtFrac else 0 }
    else { k with tsync := false }

def State.modLink (s : State) (p l : Nat) (f : Link → Link) : State :=
  s.modPkg p fun k => { k with links := k.links.map fun x => if x.1 == l then (l, f x.2) else x }

/-- Change a link at both of its ends. -/
def State.modEnds (s : State) (p l : Nat) (f g : Link → Link) : State :=
  match s.peer p l with
  | some (q, m) => (s.modLink p l f).modLink q m g
  | none => s.modLink p l f

/-- A package whose links are all down clears TSYNC (R364). -/
def State.unsynced (s : State) (p : Nat) : State :=
  if (s.pkg p).anyUp then s else s.modPkg p fun k => { k with tsync := false }

/-- A link goes down, at both ends. -/
def State.linkDown (s : State) (p l : Nat) : State :=
  let t := (s.modEnds p l (fun x => { x with up := false }) fun x => { x with up := false }).unsynced p
  match s.peer p l with
  | some (q, _) => t.unsynced q
  | none => t

/-- Every link of a package goes down. -/
def State.linksDown (s : State) (p : Nat) : State := (List.range 8).foldl (fun s l => s.linkDown p l) s

def execTimeFlit (p : Nat) (s : State) : Host.Outcome State Fault Refusal :=
  .next (if (s.pkg p).anyUp then s.alignTime p else s)

def execMililoLinkDown (p l : Nat) (s : State) : Host.Outcome State Fault Refusal :=
  .next (s.linkDown p l)

/-- A link trains: it comes up, at both ends, when the check of R362 passes; else it is down. -/
def State.train (s : State) (p l : Nat) : State :=
  if s.linkOk p l then s.modEnds p l (fun x => { x with up := true }) fun x => { x with up := true } else s.linkDown p l

def execMililoLinkUp (p l : Nat) (s : State) : Host.Outcome State Fault Refusal := .next ((s.train p l).alignTime p)

/-- A lane of one direction fails: a spare takes its place, else one data lane fewer works (R404). -/
def Link.loseOut (x : Link) : Link :=
  if 0 < x.spareOut then { x with spareOut := x.spareOut - 1 } else { x with lanesOut := x.lanesOut - 1 }
def Link.loseIn (x : Link) : Link :=
  if 0 < x.spareIn then { x with spareIn := x.spareIn - 1 } else { x with lanesIn := x.lanesIn - 1 }

/-- A lane fails in a direction, the same at both ends. With fewer than 16 data lanes the link runs on 8, and with fewer than 8 it
goes down (R404). -/
def execLaneFailure (p l : Nat) (out : Bool) (s : State) : Host.Outcome State Fault Refusal :=
  let x := Table.get ({} : Link) (s.pkg p).links l
  let y := if out then x.loseOut else x.loseIn
  let lanes := if out then y.lanesOut else y.lanesIn
  let log (s : State) (c : Nat) : State := s.logAt p 4 c (BitVec.ofNat 64 (l % 8)) 0
  let s' := (log s 0x30).modEnds p l (if out then Link.loseOut else Link.loseIn) (if out then Link.loseIn else Link.loseOut)
  let fewer := if out then x.lanesOut = 16 ∧ y.lanesOut ≠ 16 else x.lanesIn = 16 ∧ y.lanesIn ≠ 16
  .next (if x.far.isNone then s
    else if fewer then log s' 0x31
    else if lanes < 8 then s'.linkDown p l
    else s')

/-! ### Boot and firmware (R396 to R399, R405) -/

/-- The staged image: the bytes of host memory that the mailbox names. -/
def State.image (s : State) (p : Nat) : List Byte :=
  (List.range (s.pkg p).fw.mboxLen.toNat).map fun k => s.host.read (p * 2 ^ 64 + (s.pkg p).fw.mboxAddr.toNat + k)

/-- An image that verifies and is not rolled back: its version. -/
def State.goodImage (s : State) (p rollback : Nat) : Option Nat :=
  let b := s.image p
  if Config.verifies b && rollback ≤ Config.imageVersion b then some (Config.imageVersion b) else none

/-- A fresh alias key: its generation and an identity index are spent first (R398). -/
def Firmware.derive (f : Firmware) : Firmware := { f with alias_ := f.alias_ + 1, identity := f.identity + 1, aliasUses := 0 }

/-- Bonded DRAM of a package zero and empty (R408). -/
def State.zeroDram (s : State) (p : Nat) : State :=
  let mine (k : Nat) : Bool := k / 2 ^ 37 == p
  { s with dram := s.dram.filter fun c => !mine c.1
           dramFe := s.dramFe.filter fun c => !mine (8 * c.1)
           dramBad := s.dramBad.filter fun w => !mine (8 * w) }

/-- The worlds that the boot firmware gives the cores, Caldera cores, copy channels, queue slots and links of a package (R396). -/
def State.setWorlds (s : State) (p : Nat) : State :=
  let s := (List.range 1088).foldl (fun s k =>
    let g := p * 2048 + k
    s.modNode g fun n =>
      { n with ns := Config.bootWorld g
               chNs := BitVec.ofNat 4 (((List.range 4).filter fun c => Config.bootChannelWorld (g * 4 + c)).map fun c => 2 ^ c).sum }) s
  s.modPkg p fun k =>
    { k with slotNs := (List.range 2048).filter fun i => Config.bootSlotWorld (p * 2048 + i)
             links := k.links.map fun l => (l.1, { l.2 with ns := Config.bootLinkWorld (p * 8 + l.1) }) }

/-- The world table of R396: the units of the non-secure world, by kind (0 cores and Caldera cores, 1 copy channels as
`4 * node + channel`, 2 queue slots, 3 links). -/
def State.worldTable (s : State) (p : Nat) : List (Nat × Nat) :=
  let nodes := (List.range 1088).map fun k => p * 2048 + k
  ((nodes.filter fun g => (s.node g).ns).map fun g => (0, g)) ++
    (nodes.flatMap fun g => ((List.range 4).filter fun c => (s.node g).chNs.getLsbD c).map fun c => (1, g * 4 + c)) ++
    ((s.pkg p).slotNs.map fun i => (2, i)) ++ (((s.pkg p).links.filter fun l => l.2.ns).map fun l => (3, l.1))

/-- Telemetry at boot: the counters THRTIME, ECCCE and ECCUE start at zero (R400). -/
def bootTelem (t : Table Nat) : Table Nat := t.filter fun x => !(8 ≤ x.1 / 256 && x.1 / 256 ≤ 10)

/-- The boot ROM verifies the firmware, or enters recovery. The firmware derives an alias key, zeroes bonded DRAM, sets the
worlds and the DRAM regions, trains the links and releases the cores (DESIGN CHOICE, log 6, DEDUCED, log 48). -/
def execBoot (p : Nat) (s : State) : Host.Outcome State Fault Refusal :=
  let f := (s.pkg p).fw
  .next (if f.booted then s
    else if !(f.signed && f.flashing.isNone && f.rollback ≤ f.version) then
      s.modPkg p fun k => { k with powered := true, fw := { f with recovery := true } }
    else
      let s := (s.zeroDram p).modPkg p fun k =>
        { k with powered := true, sessions := !k.mcDown, fw := { f.derive with booted := true, recovery := false, running := f.version }
                 regions := (List.range 256).map fun r => (r, Config.bootRegion (p * 256 + r)), telem := bootTelem k.telem }
      let s := s.setWorlds p
      ((List.range 8).foldl (fun s l => s.train p l) s).alignTime p)

/-- In recovery, a write of 1 to the mailbox fetches, verifies and flashes an image, and restarts (R397). -/
def execRecoveryFetch (p : Nat) (s : State) : Host.Outcome State Fault Refusal :=
  .next (if !(s.pkg p).fw.recovery then s
    else
      match s.goodImage p (s.pkg p).fw.rollback with
      | some v => s.modPkg p fun k => { k with fw := { k.fw with version := v, signed := true, flashing := none, recovery := false } }
      | none => s)

/-- A quote is signed with the next alias index; an exhausted key is replaced first. The last identity index spent certifies the key, and
the firmware's digest is that of the image that runs (R398, R399). -/
def execQuote (p : Nat) (nonce : BitVec 256) (s : State) : Host.Outcome State Fault Refusal :=
  .next (if !(s.pkg p).fw.booted then s
    else s.modPkg p fun k =>
      let f := if 65536 ≤ k.fw.aliasUses then k.fw.derive else k.fw
      let q : Quote :=
        { nonce := nonce, gen := f.alias_, index := f.aliasUses, cert := f.identity, rom := Config.romDigest
          fw := Config.firmwareDigest f.running, mc := Config.managementDigest f.mcVersion, worlds := s.worldTable p
          regions := k.regions }
      { k with fw := { f with aliasUses := f.aliasUses + 1, quotes := f.quotes ++ [q] } })

/-- A staged image that verifies is written: the flash is erased first, and the anti-rollback value rises after the write
(R399). The event stands for each of the two; the result is reported, the version written or none for an image that does not
verify. -/
def execFirmwareUpdate (p : Nat) (s : State) : Host.Outcome State Fault Refusal :=
  .next (if (s.pkg p).mcDown then s
    else
      match (s.pkg p).fw.flashing with
      | some v => s.modPkg p fun k =>
        { k with fw := { k.fw with version := v, signed := true, flashing := none, rollback := max k.fw.rollback v
                                   reports := k.fw.reports ++ [some v] } }
      | none =>
        match s.goodImage p (s.pkg p).fw.rollback with
        | some v => s.modPkg p fun k => { k with fw := { k.fw with signed := false, flashing := some v } }
        | none => s.modPkg p fun k => { k with fw := { k.fw with reports := k.fw.reports ++ [none] } })

/-- The management controller writes its own verified firmware and restarts (R405). -/
def execMcFirmwareUpdate (p : Nat) (s : State) : Host.Outcome State Fault Refusal :=
  .next (if (s.pkg p).mcDown then s
    else
      match s.goodImage p (s.pkg p).fw.mcRollback with
      | some v => s.modPkg p fun k =>
        { k with mcDown := true, sessions := false, fw := { k.fw with mcVersion := v, mcRollback := max k.fw.mcRollback v } }
      | none => s)

def execMcRestartComplete (p : Nat) (s : State) : Host.Outcome State Fault Refusal :=
  .next (if (s.pkg p).mcDown then s.modPkg p fun k => { k with mcDown := false, sessions := true } else s)

/-! ### Resets and power (R399, R408) -/

/-- The running state of a package ends: nodes, requests of its instances, queues, partitions and Tephra. What the management
controller, the flash and the counters hold stays. -/
def State.endRun (s : State) (p : Nat) : State :=
  let s := s.linksDown p
  let k := s.pkg p
  let keep : Pkg :=
    { mask := k.mask
      links := k.links.map fun l => (l.1, { l.2 with up := false })
      fw := { k.fw with booted := false, recovery := false, mboxAddr := 0, mboxLen := 0 }
      telem := k.telem, log := k.log, lost := k.lost, dieBuf := k.dieBuf, spares := k.spares, rowSpares := k.rowSpares
      bankSpares := k.bankSpares, pl := k.pl, ceil := k.ceil, pcap := k.pcap, coolIn := k.coolIn, coolFlow := k.coolFlow
      mcDown := k.mcDown, sessions := k.sessions
      dies := k.dies.map fun d => (d.1, { d.2 with trip := false }) }
  ({ s with nodes := s.nodes.filter (fun n => pkgOf n.1 != p), net := s.net.filter fun m => pkgOf m.src.node != p }.dropBad
    fun g _ => pkgOf g == p).setPkg p keep

/-- DEVICE: refused after a trip until every die is below 85.0 °C (R408). -/
def execDeviceReset (p : Nat) (secure : Bool) (s : State) : Host.Outcome State Fault Refusal :=
  let k := s.pkg p
  let hot := k.dies.any (fun d => d.2.trip) && k.dies.any fun d => 850 ≤ d.2.tj
  .next (if !k.sessions || !(secure || Config.nsReset) then s
    else if hot then s.logAt p 4 0x41 (absCoord (ioNode p) 0) 0
    else s.endRun p)

/-- LINKS: only the Mililo links train again, of a package that runs (R407, R408). -/
def execLinksReset (p : Nat) (secure : Bool) (s : State) : Host.Outcome State Fault Refusal :=
  .next (if !(s.pkg p).sessions || !(secure || Config.nsReset) then s
    else ((List.range 8).foldl (fun s l => s.train p l) s).alignTime p)

/-- Power is lost: a flash write in flight leaves an image that does not verify (R399); bonded DRAM is lost. -/
def execPowerLoss (p : Nat) (s : State) : Host.Outcome State Fault Refusal :=
  .next (((s.endRun p).zeroDram p).modPkg p fun k => { k with powered := false, fw := { k.fw with flashing := none } })

/-! ### Telemetry (R400) -/

/-- The names of R400 in its order, by number, and the units of each: 1 to 4 dies, 8 links by direction, 64 channels (DESIGN CHOICE, log 49). -/
def execTelemetryRefresh (p n unit v : Nat) (s : State) : Host.Outcome State Fault Refusal :=
  let k := s.pkg p
  let old := Table.get 0 k.telem (n * 256 + unit)
  let link := Table.get ({} : Link) k.links (unit / 2)
  let die := Table.get ({} : DiePower) k.dies unit
  let x : Nat := match n with
    | 4 => die.mhz
    | 8 | 9 | 10 => max old (min v (2 ^ 32 - 1))
    | 11 => if unit % 2 = 0 then link.spareIn else link.spareOut
    | 12 => ((List.range 16).filter fun y => !k.spares.contains (unit * 16 + y)).foldl (fun a y => a + 2 ^ y) 0
    | _ => v
  .next (if k.mcDown || 12 < n then s
    else s.setPkg p
      { k with
        telem := k.telem.put (n * 256 + unit) x
        dies := if n = 5 then k.dies.put unit { die with tj := v } else k.dies
        coolIn := if n = 6 then v else k.coolIn
        coolFlow := if n = 7 then v else k.coolFlow })

/-! ### Repair (R382, R402, R403) -/

/-- The scrubber finds an uncorrectable error in the word at a device physical address; it is logged only. -/
def execDramScrubError (p addr : Nat) (s : State) : Host.Outcome State Fault Refusal :=
  let w := dramKey p addr / 8
  let g := nodeAt p (addr / 2 ^ 35 % 4) 16 (natBits addr 8 4)
  let s := s.logError g 0x10 none (BitVec.ofNat 64 addr)
  .next { s with dramBad := if s.dramBad.contains w then s.dramBad else s.dramBad ++ [w] }

/-- The row of a compute core, by die and mesh row. -/
def rowOf (g : Nat) : Nat := dieOf g * 16 + yOf g

/-- The words of an image with an uncorrectable error. -/
def State.badWords (s : State) (g : Nat) (part : Option Nat) : List Nat :=
  s.wordBad.filterMap fun w => match w with
    | .spm h q off => if h = g ∧ q = part then some (off / 8) else none
    | _ => none

/-- An image is stored without the words that could not be read: they are restored as zero and empty, and logged (R402). -/
def State.storeRead (s : State) (g : Nat) (bad : List Nat) (m : Img) : State :=
  let bad := (bad ++ s.badWords g m.part).eraseDups
  let s := s.dropBad fun h q => h == g && q == m.part
  let m := bad.foldl (fun (m : Img) w => { m with spm := m.spm.writeNat (8 * w) 8 0, fe := m.fe.write w false }) m
  bad.foldl (fun s w => s.logError g 0x01 m.part (BitVec.ofNat 64 (8 * w))) (s.store g m)

/-- Every image of a core of the group goes to its area. `bad` gives the words that could not be read, by core and partition. -/
def State.storeAll (s : State) (g now : Nat) (bad : List (Nat × Nat × Nat)) : State :=
  let n := s.node g
  let live := if n.live.part.isSome then [n.live.halted now] else []
  (live ++ n.shadows).foldl (fun s m => s.storeRead g ((bad.filter fun x => g == x.1 && m.part == some x.2.1).map (·.2.2)) m)
    (s.modNode g fun n => { n with live := if n.live.part.isSome then {} else n.live, shadows := [] })

/-- The cores of a core's group: of the partitions with its cluster (R353). -/
def State.groupCores (s : State) (p core : Nat) : List Nat :=
  let parts := (s.valids p).filter fun q => (s.coresOf p q).contains core
  if parts.isEmpty then [core] else (parts.flatMap fun q => s.coresOf p q).eraseDups

/-- A core retires: its group's partitions are halted and stored, and the spare of its row takes its coordinate. Refused when
the spare is in use, and while the management controller restarts (R402, R405). Everything outside the images goes on, since the spare
cannot be told from the core that it replaces (R4, DEDUCED, log 57). -/
def execCoreRetire (p : Nat) (core : Retired) (s : State) : Host.Outcome State Fault Refusal :=
  let bad := core.bad
  let core := core.core
  let row := rowOf core
  let now := (s.pkg p).gt.toNat
  let part := (s.live core).part
  let cores := s.groupCores p core
  .next (if isCaldera core || pkgOf core != p then s
    else if (s.pkg p).mcDown || (s.pkg p).spares.contains row then s.logAt p (dieOf core) 0x41 (absCoord core 0) 0
    else if cores.all (fun g => (s.live g).haltable && (s.node g).stop.isNone) &&
      (match part with
        | some q => s.drained q cores
        | none => true) then
      let s : State := match part with
        | some q => s.withdraw q cores
        | none => s
      let s := cores.foldl (fun s g => (s.storeAll g now bad).clockCheck g) s
      (s.modPkg p fun k => { k with spares := k.spares ++ [row] }).logAt p (dieOf core) 0x40 (absCoord core 0) 0
    else s)

/-- The node of a memory channel, by `die * 16 + channel`. -/
def chanNode (p chan : Nat) : Nat := nodeAt p (chan / 16 % 4) 16 (chan % 16)

/-- The words of a channel's bank that cannot be read, of one row or of all: written to the spare as zero and empty, and logged with
their DPA (R403). Which words a row holds is the memory's own (Config.dramRow). -/
def State.spareBad (s : State) (p chan bank : Nat) (row : Option Nat) : State :=
  let mine (w : Nat) : Bool :=
    8 * w / 2 ^ 37 == p && 8 * w / 2 ^ 35 % 4 == chan / 16 % 4 && natBits (8 * w) 8 4 == chan % 16 &&
      (Config.dramRow w).1 == bank && (match row with
        | some r => (Config.dramRow w).2 == r
        | none => true)
  (s.dramBad.filter mine).foldl (fun s w =>
    let t := s.writePlace (.dram (8 * w)) 8 0
    let t := { t with dramFe := t.dramFe.write w false, dramBad := t.dramBad.filter (· != w) }
    t.logError (chanNode p chan) 0x10 none (BitVec.ofNat 64 (8 * w % 2 ^ 37))) s

/-- A failing row goes to one of its bank's four spares; no value that can be read changes. The channel controller works while the
management controller restarts, and names no address in the log (R401, R403, R405, DESIGN CHOICE, log 49). -/
def execRowSpare (p chan bank row : Nat) (s : State) : Host.Outcome State Fault Refusal :=
  let key := chan * 65536 + bank
  let used := Table.get 0 (s.pkg p).rowSpares key
  let log (s : State) (c : Nat) : State := s.logAt p (chan / 16 % 4) c (absCoord (chanNode p chan) 0) 0
  let s' := log s 0x20
  .next (if used < 4 then
      log ((s'.spareBad p chan bank (some row)).modPkg p fun k => { k with rowSpares := k.rowSpares.put key (used + 1) }) 0x40
    else s')

/-- A failing bank goes to its channel's spare: at a fifth row that fails in it, or at the operator's request, which is refused while the
management controller restarts (R403, R405). -/
def execBankSpare (p chan bank : Nat) (s : State) : Host.Outcome State Fault Refusal :=
  let log (s : State) (c : Nat) : State := s.logAt p (chan / 16 % 4) c (absCoord (chanNode p chan) 0) 0
  let asked := Table.get 0 (s.pkg p).rowSpares (chan * 65536 + bank) < 4
  .next (if (s.pkg p).bankSpares.contains chan || (asked && (s.pkg p).mcDown) then log s 0x41
    else log ((s.spareBad p chan bank none).modPkg p fun k => { k with bankSpares := k.bankSpares ++ [chan] }) 0x40)

/-! ### Power and clocks (R406, R407, R409, R410) -/

/-- A die's clock changes, with a SYNC record of reason 1 from each of its running cores (R386). -/
def State.setClock (s : State) (p die mhz : Nat) : State :=
  let d := Table.get ({} : DiePower) (s.pkg p).dies die
  if d.mhz = mhz then s
  else
    let s := s.modPkg p fun k => { k with dies := k.dies.put die { d with mhz := mhz } }
    let gs := (s.nodes.map (·.1)).filter fun g => pkgOf g == p && locOf g < 1088 && dieOf g == die && !(s.node g).clkOff
    gs.foldl (fun s g => s.sync g 1) s

/-- One step down, not below 800 MHz. -/
def State.clockDown (s : State) (p die : Nat) : State :=
  let m := (Table.get ({} : DiePower) (s.pkg p).dies die).mhz
  s.setClock p die (max 800 (m - 100))

/-- The current of the package's core rails, as the controller of a die reads it, exceeds 4,000 A (R3, R406). -/
def execCurrentCheck (p die amps : Nat) (s : State) : Host.Outcome State Fault Refusal :=
  .next (if 4000 < amps then s.clockDown p die else s)

/-- The ceiling of the cooling envelope, in W (R409). Temperature in 0.1 °C, flow in 0.01 L/min. -/
def envelope (inlet flow : Nat) : Nat :=
  if 450 < inlet || flow < 100 then 600
  else
    let a := if inlet ≤ 400 then 2000 else 2000 - 4 * (inlet - 400)
    let b := if 200 ≤ flow then 2000 else 600 + 14 * (flow - 100)
    min a b

/-- The settings of the partitions that are live on a die. -/
def State.dieCaps (s : State) (p die : Nat) : List (Nat × Nat) :=
  let parts := ((dieCores p die).filterMap fun g => (s.live g).part).eraseDups
  parts.map fun q => Table.get (2000, 2500) (s.pkg p).pcap q

/-- The power limit and the clock ceiling in force on a die (R410). -/
def State.limitOf (s : State) (p die : Nat) : Nat × Nat :=
  let k := s.pkg p
  let caps := s.dieCaps p die
  (caps.foldl (fun m c => min m c.1) (min k.pl (envelope k.coolIn k.coolFlow)), caps.foldl (fun m c => min m c.2) k.ceil)

/-- A step up of every die that stays within its ceiling keeps the power limit `w` and the current limit: what the core rails draw, as
COREAMP and COREMV were last read, scales with the clock and the rest does not (R406, R410; DESIGN CHOICE, log 49). -/
def State.mayRaise (s : State) (p watts w : Nat) : Bool :=
  let k := s.pkg p
  let dies := ((List.range 4).filter fun d =>
    let x := Table.get ({} : DiePower) k.dies d
    x.mhz + 100 ≤ (s.limitOf p d).2 && x.tj < 950).map fun d =>
      (Table.get 0 k.telem (256 + d), Table.get 0 k.telem (2 * 256 + d), Table.get ({} : DiePower) k.dies d)
  let step (x : Nat) (d : DiePower) : Nat := (x * 100 + d.mhz - 1) / d.mhz
  watts * 1000 + (dies.map fun x => step (x.1 * x.2.1) x.2.2).sum ≤ w * 1000 &&
    ((List.range 4).map fun d => Table.get 0 k.telem (256 + d)).sum + (dies.map fun x => step x.1 x.2.2).sum ≤ 4000

/-- A 10 ms window with the package's average power: the clock goes down while a limit is exceeded, or up one step when none
would then be. -/
def execPowerWindow (p die watts : Nat) (s : State) : Host.Outcome State Fault Refusal :=
  let d := Table.get ({} : DiePower) (s.pkg p).dies die
  let (w, top) := s.limitOf p die
  .next (if w < watts || top < d.mhz then s.clockDown p die
    else if d.mhz + 100 ≤ top && s.mayRaise p watts w && d.tj < 950 then s.setClock p die (d.mhz + 100)
    else s)

/-- A die's hottest sensor reads `t` tenths of a degree. -/
def State.heat (s : State) (p die t : Nat) : State :=
  s.modPkg p fun k => { k with dies := k.dies.put die { Table.get ({} : DiePower) k.dies die with tj := t } }

def execThermalStep (p die t : Nat) (s : State) : Host.Outcome State Fault Refusal :=
  .next (if 950 ≤ t then (s.heat p die t).clockDown p die else s)

def execThermalClamp (p die t : Nat) (s : State) : Host.Outcome State Fault Refusal :=
  .next (if 1050 ≤ t then (s.heat p die t).setClock p die 800 else s)

/-- A thermal trip stops every core and link of the package. -/
def execThermalTrip (p die t : Nat) (s : State) : Host.Outcome State Fault Refusal :=
  .next (if 1150 ≤ t then
    let s := (s.heat p die t).logAt p die 0x50 (absCoord (nodeAt p die 0 0) 0) 0
    (s.linksDown p).modPkg p fun k =>
      { k with dies := k.dies.put die { Table.get ({} : DiePower) k.dies die with trip := true } }
  else s)

/-- The operator sets PL and the clock ceiling; values outside their ranges are ignored. -/
def execSetPl (p pl ceil : Nat) (s : State) : Host.Outcome State Fault Refusal :=
  .next (if (s.pkg p).mcDown then s
    else s.modPkg p fun k =>
      { k with pl := if 600 ≤ pl && pl ≤ 2000 then pl else k.pl, ceil := if 800 ≤ ceil && ceil ≤ 2500 then ceil else k.ceil })

def execSetPcap (p part cap ceil : Nat) (s : State) : Host.Outcome State Fault Refusal :=
  .next (if (s.pkg p).mcDown || 128 ≤ part then s
    else s.modPkg p fun k =>
      let old := Table.get (2000, 2500) k.pcap part
      let new := (if 100 ≤ cap && cap ≤ 2000 then cap else old.1, if 800 ≤ ceil && ceil ≤ 2500 then ceil else old.2)
      { k with pcap := k.pcap.put part new })

end Sys2Proof.Machine
end

