-- ==== Sys2Proof/Machine/EvShoot.lean ====
section
/-! DEFINITION. Shoot-downs after their start: clusters, mailboxes, home caches, Tephra and the root (R242, R373 to R375,
R389). -/

namespace Sys2Proof.Machine

/-- The shoot-down of a partition at a package's root. -/
def State.shootOf (s : State) (p part : Nat) : Option Shoot := (s.pkg p).shoots.find? fun x => x.part == part
def State.modShoot (s : State) (p part : Nat) (f : Shoot → Shoot) : State :=
  s.modPkg p fun k => { k with shoots := k.shoots.map fun x => if x.part == part then f x else x }

/-- An address lies within a selector. -/
def Shoot.covers (x : Shoot) (va : Nat) : Bool := x.size == 3 || (x.addr ≤ va && va < x.addr + 2 ^ (12 + 9 * x.size))

/-- A request of the partition to an address within the selector that has not been performed or refused. -/
def Shoot.waitsFor (x : Shoot) (m : Msg) : Bool :=
  m.part == some x.part && m.unperformed && x.covers m.va.toNat &&
    (match m.tgt with
      | .home _ => true
      | .node _ _ => false)

/-- A request on its way to a home, which it reaches before the home's cache is invalidated (R376). -/
def Msg.toHome (m : Msg) (p home : Nat) : Bool :=
  match m.tgt with
  | .home h => h.pkg == p && h.key == home
  | .node _ _ => false

/-- An address lies in an entry that a home's cache has invalidated (R374, step 5). -/
def Shoot.wasMapped (x : Shoot) (home va : Nat) : Bool := x.gone.any fun e => e.1 == home && e.2.hits x.part va

/-- A request that a home has accepted under an entry which it has invalidated, not yet performed or refused (R374, step 5). -/
def Shoot.holds (x : Shoot) (m : Msg) (home : Nat) : Bool :=
  m.part == some x.part && m.unperformed && m.at_.isSome && x.wasMapped home m.va.toNat

/-- Keep the entries that a selector does not name. -/
def Shoot.prune (x : Shoot) (l : List TlbEntry) : List TlbEntry := l.filter fun e => !tlbSelected x.part x.size x.addr e
/-- The entries that a selector names. -/
def Shoot.pruned (x : Shoot) (l : List TlbEntry) : List TlbEntry := l.filter (tlbSelected x.part x.size x.addr)

/-- A cluster invalidates its second level and forwards the selector to its awake cores; gated ones are marked, and a gated
cluster is skipped (R374, R375). -/
def execShootCluster (p part cluster : Nat) (s : State) : Host.Outcome State Fault Refusal :=
  .next (match s.shootOf p part with
    | none => s
    | some x =>
      if !x.clusters.contains cluster then s
      else
        let cores := coresOfCluster p cluster
        let awake := cores.filter fun g => !(s.node g).gated
        let asleep := cores.filter fun g => (s.node g).gated
        let s := asleep.foldl (fun s g => s.modNode g fun n => { n with marked := true }) s
        let s := if awake.isEmpty then s
          else s.modPkg p fun k => { k with l2 := k.l2.put cluster (x.prune (Table.get [] k.l2 cluster)) }
        s.modShoot p part fun x =>
          { x with clusters := x.clusters.filter (· != cluster), mail := x.mail ++ awake.map fun g => (g, 0) })

/-- A core's mailbox receives the selector, and acknowledges once the accesses issued before are performed or refused. -/
def execShootMailbox (p part node : Nat) (s : State) : Host.Outcome State Fault Refusal :=
  .next (match s.shootOf p part with
    | none => s
    | some x =>
      match x.mail.find? fun e => e.1 == node with
      | none => s
      | some (_, b) =>
        let bound := if b = 0 then s.nextId else b
        let s := if b = 0 then s.modNode node fun n => { n with tlb := x.prune n.tlb } else s
        let open_ := s.net.any fun m => m.src.node == node && m.id < bound && x.waitsFor m
        let left := if open_ then x.mail.map (fun e => if e.1 == node then (node, bound) else e)
          else x.mail.filter fun e => e.1 != node
        s.modShoot p part fun x => { x with mail := left })

/-- A home cache invalidates once no request that was sent to it travels (R376), and acknowledges once those it accepted are
performed, within the selector and within a larger entry that it has invalidated; at a memory node the Caldera core's route TLB goes too,
and the record unit discards what it holds of the records there (R373, R374, DEDUCED, log 46). -/
def execShootHomeCache (p part home : Nat) (s : State) : Host.Outcome State Fault Refusal :=
  .next (match s.shootOf p part with
    | none => s
    | some x =>
      if !x.homes.contains home || s.net.any (fun m => x.waitsFor m && m.toHome p home && m.at_.isNone) then s
      else
        let g := nodeAt p (home / 16) 16 (home % 16)
        let x := { x with gone := x.gone ++ (x.pruned (Table.get [] (s.pkg p).homes home)).map fun e => (home, e) }
        let s := (s.modPkg p fun k => { k with homes := k.homes.put home (x.prune (Table.get [] k.homes home)) }).modShoot p part fun _ => x
        let s := if home < 64 then s.modNode g fun n => { n with tlb := x.prune n.tlb } else s
        let open_ := s.net.any fun m => (x.waitsFor m &&
          ((home < 64 && m.src.node == g) || m.toHome p home)) || (x.holds m home && m.toHome p home)
        if open_ then s
        else
          let hit (r : Rec) : Bool := r.bound == some part && (x.covers r.va.toNat || x.wasMapped home r.va.toNat)
          -- contributions that the full lock table held back are taken now that entries are free (R201)
          let s := if home < 64 then (s.modNode g fun n =>
              { n with lock := n.lock.filter (fun a => !hit (Table.get {} n.recs a)), recs := n.recs.filter fun r => !hit r.2 }).pumpAll g
            else s
          s.modShoot p part fun x => { x with homes := x.homes.filter (· != home) })

/-- Tephra discards its translations and acknowledges; its writes wait until then (R374, R389). -/
def execShootTephra (p part : Nat) (s : State) : Host.Outcome State Fault Refusal :=
  .next (match s.shootOf p part with
    | none => s
    | some x =>
      (s.modPkg p fun k => { k with tephra := { k.tephra with pages := x.prune k.tephra.pages } }).modShoot p part
        fun x => { x with tephra := false })

/-- A root that has every acknowledgement is done; SHOOT completes when the last root of the span is. -/
def execShootAcknowledgement (p part : Nat) (s : State) : Host.Outcome State Fault Refusal :=
  .next (match s.shootOf p part with
    | none => s
    | some x =>
      if !(x.clusters.isEmpty && x.mail.isEmpty && x.homes.isEmpty && !x.tephra) then s
      else
        let s := s.modPkg p fun k => { k with shoots := k.shoots.filter fun y => y.part != part }
        let left := (s.span (pkgOf x.issuer.node) part).any fun q => (s.pkg q).shoots.any fun y => y.part == part && y.issuer == x.issuer
        if left then s
        else s.modOwner x.issuer x.ipart fun c => if c.wait = .shoot part then { c with wait := .ended } else c)

end Sys2Proof.Machine
end

