-- ==== Sys2Proof/Machine/EvTephra.lean ====
section
/-! DEFINITION. The events of Tephra and its debug commands (R383 to R395). -/

namespace Sys2Proof.Machine

/-! ### The trace buffer (R384, R388, R389) -/

/-- A page of the trace buffer is good (R388). -/
def goodPage (secw : Bool) (e : Nat) : Bool := natBit e 2 && leafKind e != 3 && natBit e 5 == !secw

/-- TWP: the bytes placed since EN was last set, modulo the buffer's size (R383). -/
def Tephra.twp (t : Tephra) : Nat := t.placed % (t.tsize * 4096)

/-- What the home of a record answers for a good leaf: a place that the region check admits, nothing, or to walk again (R371). -/
def State.traceHome (s : State) (p part va : Nat) (secw : Bool) (e : Nat) : State × Option (Option Place) :=
  match s.homeLogged (homeOf p e va) p (some part) va with
  | (s, .place a) => (s, some (if s.worldOk (!secw) a then some a else none))
  | (s, .nack) => (s, none)
  | (s, .error) => (s, some none)

/-- Where the record at an address goes by a fresh walk, whose good leaf is kept (R388). -/
def State.traceWalk (s : State) (p part va : Nat) (secw : Bool) : State × Option Place :=
  match s.walk p (some part) va with
  | .leaf e size =>
    if !goodPage secw e then (s, none)
    else
      let s := s.modPkg p fun k => { k with tephra :=
        { k.tephra with pages := tlbInsert 64 k.tephra.pages ⟨va / size * size, size, part, e⟩ } }
      match s.traceHome p part va secw e with
      | (s, some a) => (s, a)
      | (s, none) => (s, none)
  | .absent => (s, none)
  | _ => (s.logError (p * 2048 + 2047) 0x13 (some part) (BitVec.ofNat 64 va), none)

/-- Where the next record goes, when its page is good. A good leaf alone is kept; another, and one whose home declines, is walked for
afresh (R371, R388). -/
def State.tracePlace (s : State) (p : Nat) : State × Option Place :=
  let t := (s.pkg p).tephra
  let va := (t.tbase + BitVec.ofNat 64 t.twp).toNat
  let part := natBits t.tctl.toNat 16 7
  let secw := t.tctl.getLsbD 2
  match t.pages.find? fun e => e.hits part va && goodPage secw e.leaf with
  | some e =>
    match s.traceHome p part va secw e.leaf with
    | (s, some a) => (s, a)
    | (s, none) => s.traceWalk p part va secw
  | none => s.traceWalk p part va secw

/-- TWP advances by a record. -/
def Tephra.advance (t : Tephra) : Tephra := { t with placed := t.placed + 32 }

/-- Write a record at a place, or drop and count it; either way it keeps its position. -/
def State.putRecord (s : State) (p : Nat) (r : TraceRec) (a : Option Place) : State :=
  let s := match a with
    | some a => s.writePlace a 32 (wordsNat [r.w0, r.w1, r.w2, r.w3])
    | none => s.modPkg p fun k => { k with tephra := { k.tephra with tloss := satAdd 32 k.tephra.tloss 1, drops := k.tephra.drops + 1 } }
  s.modPkg p fun k => { k with tephra := k.tephra.advance }

/-- The core of a record, as word 0 names it. -/
def TraceRec.core (r : TraceRec) : Nat := natBits r.w0.toNat 17 15

/-- The first record in flight with no held place of its core before it, and what stays behind. A place that is held goes when its message
has been answered or withdrawn (R385). -/
def State.takeRecord (s : State) (held : List Nat) : List TraceRec → Option (TraceRec × List TraceRec)
  | [] => none
  | r :: l =>
    if natBits r.w0.toNat 0 8 = 0 then
      if s.net.any fun m => m.id == r.w1.toNat then (s.takeRecord (r.core :: held) l).map fun x => (x.1, r :: x.2)
      else s.takeRecord held l
    else if held.contains r.core then (s.takeRecord held l).map fun x => (x.1, r :: x.2)
    else some (r, l)

/-- The oldest record in flight that may go is written, after a LOSS record where records were dropped; not while a shoot-down of the
buffer's partition waits for Tephra. -/
def execTraceRecord (p : Nat) (s : State) : Host.Outcome State Fault Refusal :=
  let t := (s.pkg p).tephra
  .next (match s.takeRecord [] t.flight with
    | none => s
    | some (r, rest) =>
      if (s.pkg p).shoots.any (fun x => x.tephra && x.part == natBits t.tctl.toNat 16 7) then s
      else
        let s := s.modPkg p fun k => { k with tephra := { k.tephra with flight := rest } }
        match s.tracePlace p with
        | (s, none) => s.putRecord p r none
        | (s, some a) =>
          if t.drops = 0 then s.putRecord p r (some a)
          else
            let loss : TraceRec := ⟨9, BitVec.ofNat 64 t.drops, (s.pkg p).gt, 0⟩
            let s := (s.putRecord p loss (some a)).modPkg p fun k => { k with tephra := { k.tephra with drops := 0 } }
            match s.tracePlace p with
            | (s, b) => s.putRecord p r b)

/-! ### TCTL, SYNC and sampling (R383, R386, R387) -/

/-- The nodes of a package's cores. -/
def packageNodes (p : Nat) : List Nat := (List.range 1088).map fun k => p * 2048 + k

/-- A write of TCTL; a non-secure session leaves SECW. Setting EN clears TWP, TLOSS and the delay accounts, and every core
writes a SYNC record. -/
def execTctl (p : Nat) (secure : Bool) (v : Word) (s : State) : Host.Outcome State Fault Refusal :=
  let t := (s.pkg p).tephra
  let x := v.toNat
  let secw := if secure then natBit x 2 else t.tctl.getLsbD 2
  let w := BitVec.ofNat 64 (natBits x 0 2 + (if secw then 4 else 0) + natBits x 3 1 * 8 + natBits x 8 4 * 256 + natBits x 16 7 * 2 ^ 16)
  .next (if !(s.pkg p).sessions then s
    else
      let start := w.getLsbD 0 && !t.tctl.getLsbD 0
      let s := s.modPkg p fun k => { k with tephra :=
        if start then { k.tephra with tctl := w, placed := 0, tloss := 0, drops := 0 } else { k.tephra with tctl := w } }
      if start then
        (packageNodes p).foldl (fun s g => (s.modNode g fun n => { n with delays := [], syncAt := n.cycle }).sync g 0) s
      else s)

/-- A core writes a SYNC record each 2^(SYNCP + 10) cycles. -/
def execPeriodicSync (node : Nat) (s : State) : Host.Outcome State Fault Refusal :=
  let n := s.node node
  let t := (s.pkg (pkgOf node)).tephra
  let period := 2 ^ (min 10 (natBits t.tctl.toNat 8 4) + 10)
  .next (if t.tctl.getLsbD 0 && !n.clkOff && period ≤ (n.cycle - n.syncAt).toNat then
    (s.modNode node fun n => { n with syncAt := n.cycle }).sync node 0
  else s)

/-- The instruction that an instance fetches next is marked, within SPER/4 of the period; one at a time (DESIGN CHOICE, log 36). -/
def execSampleMark (i : Inst) (s : State) : Host.Outcome State Fault Refusal :=
  let n := s.node i.node
  let t := (s.pkg (pkgOf i.node)).tephra
  .next (if t.tctl.getLsbD 0 && t.tctl.getLsbD 1 && n.mark.isNone && t.sper - t.sper / 4 ≤ n.sample && (s.ctx i).act != .idle then
    s.mark i
  else s)

/-! ### Monitors (R392) -/

/-- The node that a monitor's CORE names in a package. -/
def monNode (p : Nat) (ctl : Word) : Option Nat :=
  let c := natBits ctl.toNat 24 20
  let x := c / 16 % 32
  if c / 2048 % 16 != p || 16 < x then none else some (nodeAt p (c / 512 % 4) x (c % 16))

/-- The level that a source names. -/
def State.level (s : State) (g src : Nat) : Option Nat :=
  let m := s.live g
  match src with
  | 4 => some m.qL.length
  | 5 => some m.vent.length
  | 6 => some m.main.osc
  | _ => none

/-- Levels are sampled once in 1,024 cycles of their core. -/
def execMonitorSample (p : Nat) (s : State) : Host.Outcome State Fault Refusal :=
  let mons := (s.pkg p).tephra.mons.map fun m =>
    match monNode p m.2.ctl with
    | none => m
    | some g =>
      let cyc := (s.node g).cycle
      match s.level g (natBits m.2.ctl.toNat 8 4) with
      | some v => if 1024 ≤ (cyc - m.2.last).toNat then (m.1, { m.2.see v with last := cyc }) else m
      | none => m
  .next (s.modPkg p fun k => { k with tephra := { k.tephra with mons := mons } })

/-- A write to word 0 configures a monitor and clears it. -/
def execMon (p : Nat) (secure : Bool) (n : Nat) (v : Word) (s : State) : Host.Outcome State Fault Refusal :=
  let ctl := BitVec.ofNat 64 (natBits v.toNat 8 36 * 256)
  let ok := match monNode p ctl with
    | some g => s.session p secure g
    | none => (s.pkg p).sessions
  let mon : Monitor := { ctl := ctl, last := ((monNode p ctl).map fun g => (s.node g).cycle).getD 0 }
  .next (if n < 16 && ok then s.modPkg p fun k => { k with tephra := { k.tephra with mons := k.tephra.mons.put n mon } }
  else s)

/-! ### Stop commands (R394, R395) -/

/-- Act on the context that TSEL selects, when the session reaches its core. -/
def State.dcmd (s : State) (p : Nat) (secure : Bool) (f : Inst → State) : State :=
  match (s.pkg p).tephra.sel p with
  | some i => if s.session p secure i.node then f i else s
  | none => s

/-- The cores of the partition that is live on a core, in every package of its span (R363); a core outside every partition stands alone. -/
def State.mates (s : State) (g : Nat) : List Nat :=
  if isCaldera g then [g]
  else
    match (s.live g).part with
    | some q => ((s.span (pkgOf g) q).flatMap fun p => s.coresOf p q).filter fun t => (s.live t).part == some q
    | none => [g]

def execStopCore (p : Nat) (secure : Bool) (s : State) : Host.Outcome State Fault Refusal :=
  .next (s.dcmd p secure fun i => s.stopNode i.node 0 none)

def execStopPartition (p : Nat) (secure : Bool) (s : State) : Host.Outcome State Fault Refusal :=
  .next (s.dcmd p secure fun i => (s.mates i.node).foldl (fun s g => s.stopNode g 0 none) s)

def execResume (p : Nat) (secure : Bool) (s : State) : Host.Outcome State Fault Refusal :=
  .next (s.dcmd p secure fun i => (s.mates i.node).foldl (fun s g =>
    (s.modNode g fun n => { n with stop := none, stepping := none }).clockCheck g) s)

/-- Let the selected context of a stopped core go on, for one instruction or one activation. -/
def State.stepOne (s : State) (p : Nat) (secure act : Bool) : State :=
  s.dcmd p secure fun i =>
    if (s.node i.node).stop.isSome then (s.modNode i.node fun n => { n with stepping := some (i.ctx, act) }).clockCheck i.node else s

def execStepInstruction (p : Nat) (secure : Bool) (s : State) : Host.Outcome State Fault Refusal :=
  .next (s.stepOne p secure false)
def execStepActivation (p : Nat) (secure : Bool) (s : State) : Host.Outcome State Fault Refusal :=
  .next (s.stepOne p secure true)

end Sys2Proof.Machine
end

