-- ==== Sys2Proof/Machine/Form.lean ====
section
/-! DEFINITION. The formula instructions (R117 to R128). -/

namespace Sys2Proof.Machine

/-- Formula slots of a context (R13, R117). -/
def slotCount : CtxId → Nat
  | .main => 16
  | .work => 8
  | _ => 0

/-- What a formula instruction uses: MAIN or WORK, and a slot that the context has (R117). -/
def formUse (s : State) (slot : Nat) (reads writes : List Reg) : Use :=
  { reads := reads, writes := writes, ctxs := [.main, .work], illegal := slotCount s.cur.ctx ≤ slot }

/-- The s registers that a slot reads. BIND, FRUN and FEVAL of a stateful slot, which only take its running value, wait for them and
take their poison too (DEDUCED, log 27). -/
def slotReads (s : State) (slot : Nat) : List Reg :=
  (((s.ctx s.cur).slot slot).srcs.filter (· < 64)).map .s

/-- Loads a slot from a descriptor in the own scratchpad (R118, R120). The manual gives no EADDR for the protection fault but
'Address' (R229): it is the offset, ra[19:0] (DEDUCED, log 27). -/
def execFld (slot : Fin 64) (a : SReg) (s : State) : Host.Outcome State Fault Refusal :=
  run (.fld slot a) (formUse s slot [.s a] []) s fun s =>
    let i := s.cur
    let c := s.ctx i
    let off := (c.sr a).toNat % 2 ^ 20
    if off % 32 ≠ 0 then .trap { cause := .alignment, eaddr := c.sr a }
    else if !backed i.node (off + 31) then .trap { cause := .protection, eaddr := BitVec.ofNat 64 off }
    else if s.ownBusy i off 32 then .stall s
    else
      ownWords s off 4 fun d =>
        if !descOk d then .trap { cause := .illegalInstruction, eaddr := BitVec.ofNat 64 off }
        else if (c.slot slot).valid then .trap (trapped .illegalSequence)
        else
          let k := { c.slot slot with desc := BitVec.ofNat 256 d, accum := initialAccum d, held := false }
          .done (s.setCtx i (c.setSlot slot k)) [] .seq

/-- A check failure of one slot's own evaluation becomes pending (R125). -/
def Ctx.noteCheck (c : Ctx) (slot : Nat) (fails : Bool) : Ctx :=
  if fails && c.fcheck.isNone then { c with fcheck := some ⟨slot, some c.pc⟩ } else c

/-- Evaluate a slot outside `eval_bindings`: a stateless formula afresh, a stateful one as its running value (R121,
R128). -/
def Ctx.evalOnce (c : Ctx) (m : Img) (slot : Nat) : Ctx :=
  let k := c.slot slot
  if descStateful k.desc.toNat then c.setS k.dest k.accum
  else
    let r := k.eval m c
    (c.setS k.dest r.1).noteCheck slot r.2.2

/-- Binds a register to a slot (R121). -/
def execBind (d : SReg) (slot : Fin 64) (s : State) : Host.Outcome State Fault Refusal :=
  let u := formUse s slot (slotReads s slot) [.s d]
  run (.bind d slot) { u with illegal := u.illegal || d == 0 } s fun s =>
    let i := s.cur
    let c := s.ctx i
    let k := c.slot slot
    let c' := c.setSlot slot { k with dest := d, valid := true }
    if k.srcs.any (c.downstream true 16 [d.val]).contains then .trap { cause := .bindingCycle, code := 0 }
    else if k.hasOps && (List.range 16).any (fun j => (c'.slot j).valid && 4 < c'.depthOf 17 j) then
      .trap { cause := .bindingCycle, code := 1 }
    else if k.valid || !k.hasOps then .trap (trapped .illegalSequence)
    else .done (s.setCtx i (c'.redepth.evalOnce (s.live i.node) slot)) [.s d] .seq

/-- Clear VALID and HELD of a slot. -/
def Ctx.unbind (c : Ctx) (slot : Nat) : Ctx := c.setSlot slot { c.slot slot with valid := false, held := false }

/-- Removes the binding of a register. It waits for no source of the slot: a reply that comes later evaluates no binding (R126, DEDUCED,
log 11). -/
def execUnbind (d : SReg) (s : State) : Host.Outcome State Fault Refusal :=
  let u := formUse s 0 [] []
  run (.unbind d) { u with illegal := u.illegal || !regOk s.cur.ctx (.s d) } s fun s =>
    .done (s.modCtx s.cur fun c =>
      match c.boundSlot d with
      | some k => (c.unbind k).redepth
      | none => c) [] .seq

/-- Removes every binding, as UNBIND does (R126, DEDUCED, log 11). -/
def execUnbinda (s : State) : Host.Outcome State Fault Refusal :=
  run .unbinda (formUse s 0 [] []) s fun s =>
    .done (s.modCtx s.cur fun c => (List.range 16).foldl (fun c k => c.unbind k) c) [] .seq

/-- The binding state of a register (R127). -/
def bindState (c : Ctx) (n : Nat) : Word :=
  match c.boundSlot n with
  | none => 0
  | some k =>
    let sl := c.slot k
    BitVec.ofNat 64 (2 ^ 63 + (if sl.held then 128 else 0) + sl.depth % 8 * 16 + k)

/-- Queries a binding: ra's number is read, not its value (R127). -/
def execBindq (d a : SReg) (s : State) : Host.Outcome State Fault Refusal :=
  let u := formUse s 0 [] [.s d]
  run (.bindq d a) { u with illegal := u.illegal || !regOk s.cur.ctx (.s a) } s fun s =>
    writeS s d (bindState (s.ctx s.cur) a)

/-- Holds a slot (R128). -/
def execFhold (slot : Fin 64) (s : State) : Host.Outcome State Fault Refusal :=
  run (.fhold slot) (formUse s slot [] []) s fun s =>
    let c := s.ctx s.cur
    if !(c.slot slot).valid then .trap (trapped .illegalSequence)
    else .done (s.setCtx s.cur (c.setSlot slot { c.slot slot with held := true })) [] .seq

/-- Releases a slot and evaluates it once (R128). -/
def execFrun (slot : Fin 64) (s : State) : Host.Outcome State Fault Refusal :=
  run (.frun slot) (formUse s slot (slotReads s slot) []) s fun s =>
    let c := s.ctx s.cur
    if !(c.slot slot).valid then .trap (trapped .illegalSequence)
    else
      let c := c.setSlot slot { c.slot slot with held := false }
      .done (s.setCtx s.cur (c.evalOnce (s.live s.cur.node) slot)) [.s (c.slot slot).dest] .seq

/-- Evaluates a slot once; HELD is unchanged (R128). -/
def execFeval (slot : Fin 64) (s : State) : Host.Outcome State Fault Refusal :=
  run (.feval slot) (formUse s slot (slotReads s slot) []) s fun s =>
    let c := s.ctx s.cur
    if !(c.slot slot).valid then .trap (trapped .illegalSequence)
    else .done (s.setCtx s.cur (c.evalOnce (s.live s.cur.node) slot)) [.s (c.slot slot).dest] .seq

end Sys2Proof.Machine
end

