-- ==== Sys2Proof/Machine/Net.lean ====
section
/-! DEFINITION. The Vent and interaction nets: POP, PUSHP, NALLOC, NFREE, LINK, RULE, NSYM, STEAL (R175 to R185). -/

namespace Sys2Proof.Machine

/-- What a NET instruction uses: a Caldera core has no Vent (R175). -/
def netUse (s : State) (reads writes : List Reg) (ctxs : List CtxId) : Use :=
  { reads := reads, writes := writes, ctxs := ctxs, illegal := isCaldera s.cur.node }

def allCtxs : List CtxId := [.main, .work, .msgL, .msgH]

/-- The trap of a full Vent or an ill-formed push (R180), and of a pair without a rule (R184). -/
def trap126 : Trap := { cause := .trap, code := 126 }
def trap127 : Trap := { cause := .trap, code := 127 }

/-! ### Posted sequences -/

/-- Check every operation in order, then perform or send each; nothing happens when one cannot (R135, R227). `k` continues
after the last. -/
def postAll (s0 s : State) : List MemOp → (State → Out) → Out
  | [], k => k s
  | op :: ops, k =>
    match memory s op with
    | .done s' _ _ => postAll s0 (s'.modCtx s'.cur fun c => { c with groups := (s.ctx s.cur).groups }) ops k
    | .trap t => .trap t
    | .trapAt s t => .trapAt s t
    | _ => .stall s0

/-- A posted store of 8 bytes, and a posted FE operation. -/
def wordStore (v x : Word) : MemOp :=
  { need := .store, mode := .as, size := 8, lanes := [⟨0, v, .store 8 x⟩], dst := .none, data := x }
def wordFe (op : FeOp) (v x : Word) : MemOp :=
  { need := .fe op, mode := .as, size := 8, lanes := [⟨0, v, .fe op x⟩], dst := .none, data := x }

/-! ### POP and STEAL -/

def popRegs (d : SReg) : List Reg := .s d :: .s 63 :: (List.range 5).map fun k => .s (k + 1)

/-- An entry that POP takes: its tag becomes the instance's, and its activation starts here unless a thief began it
(R178, R390). -/
def State.takeEntry (s : State) (i : Inst) (e : VentEntry) (rest : List VentEntry) (kind : Nat) : State :=
  let s := s.modLive i.node fun m => m.ventSet rest
  let s : State := match e.began with
    | some _ => s
    | none => s.noteWait i.node (absCoord e.by_ 0) e.sent
  s.modCtx i fun c => { c with tag := e.tag, act := .work kind e.by_ e.tag, born := e.began.getD (s.node i.node).cycle }

/-- POP (R178). While the TAKEs of a pair wait, the instruction is executed again. -/
def execPop (d : SReg) (s : State) : Host.Outcome State Fault Refusal :=
  run (.pop d) (netUse s [] (popRegs d) [.work]) s fun s =>
    let i := s.cur
    let c := s.ctx i
    let after := c.pc + 4
    let fin (s : State) (x : Word) (ws : List Reg) : Out :=
      .done (s.modCtx i fun c => (c.setS d x).setS 63 after) (.s d :: .s 63 :: ws) .seq
    let pairRegs : List Reg := [.s 1, .s 2]
    match c.wait with
    | .pop g => if c.groups.any (fun x => x.id == g) then .wait s (.pop g) else fin s 1 pairRegs
    | _ =>
      match (s.live i.node).vent with
      | [] => writeS s d 0
      | e :: rest =>
        match e.item with
        | .task entry x1 x2 x3 x4 =>
          let s := s.takeEntry i e rest 4
          let s := s.modCtx i fun c => ((((c.setS 1 x1).setS 2 x2).setS 3 x3).setS 4 x4).setS 5 entry
          let s := s.startAct i (.work 4 e.by_ e.tag) (s.ctx i).born entry (absCoord e.by_ 0)
          fin s 2 ((List.range 5).map fun k => .s (k + 1))
        | .pair a b =>
          let p := a + 8
          let q := b + 8
          let lo := if p.ult q then p else q
          let hi := if p.ult q then q else p
          let op : MemOp := { need := .fe .take, mode := .as, size := 8, dst := .pop
                              lanes := [⟨0, lo, .fe .take 0⟩, ⟨0, hi, .fe .take 0⟩] }
          match memory s op with
          | .done s' _ _ =>
            let s' := (s'.takeEntry i e rest 6).modCtx i fun c => (c.setS 1 a).setS 2 b
            let before := c.groups.length
            match (s'.ctx i).groups.drop before with
            | g :: _ => .wait s' (.pop g.id)
            | [] => fin s' 1 pairRegs
          | x => x

/-- The neighbour in a direction on the issuer's die: N, E, S, W (R179). -/
def neighbour (g dir : Nat) : Option Nat :=
  let x := xOf g
  let y := yOf g
  let at_ (x y : Nat) : Option Nat := some (nodeAt (pkgOf g) (dieOf g) x y)
  match dir with
  | 0 => if y = 0 then none else at_ x (y - 1)
  | 1 => if x = 15 then none else at_ (x + 1) y
  | 2 => if y = 15 then none else at_ x (y + 1)
  | _ => if x = 0 then none else at_ (x - 1) y

/-- A thief may take from a neighbour: one partition, more entries than STEALWIN, awake and not stopped (R179, R287, R394). -/
def State.stealable (s : State) (g t : Nat) : Bool :=
  let m := s.live t
  m.part == (s.live g).part && m.stealwin < m.vent.length && !(s.node t).gated && (s.node t).stop.isNone

/-- Move the oldest entry of a neighbour to the issuer's Vent as its newest; the activation starts for the accounts
(R179, R390). -/
def State.steal (s : State) (i : Inst) (t : Nat) : State :=
  match (s.live t).vent.getLast? with
  | none => s
  | some e =>
    let s := (s.modLive t fun m => m.ventSet m.vent.dropLast).clockCheck t
    let s := s.noteWait i.node (absCoord e.by_ 0) e.sent
    let e := { e with began := some (s.node i.node).cycle }
    (s.modLive i.node fun m => m.ventSet (e :: m.vent)).ventSpill i.node

/-- The looks of a STEAL from its look `k` on, `n` of them left: each is a Vent operation of its neighbour. Split, other operations may
come between two looks (DEDUCED, log 18). VENTN = 4,096 is tested at the start alone, so a push of another context between two looks may
leave 4,097 entries (DESIGN CHOICE, log 69). -/
def stealFrom (d : SReg) (s : State) : Nat → Nat → Out
  | 0, _ => writeS (s.modLive s.cur.node fun m => { m with stealStart := (m.stealStart + 1) % 4 }) d 0
  | n + 1, k =>
    let g := s.cur.node
    let dir := ((s.live g).stealStart + k) % 4
    match (neighbour g dir).filter (s.stealable g) with
    | some t => writeS ((s.steal s.cur t).modLive g fun m => { m with stealStart := (dir + 1) % 4 }) d 1
    | none => if s.split && n != 0 then .wait s (.steal (k + 1)) else stealFrom d s n (k + 1)

/-- STEAL (R179). -/
def execSteal (d : SReg) (s : State) : Host.Outcome State Fault Refusal :=
  run (.steal d) (netUse s [] [.s d] [.work]) s fun s =>
    match (s.ctx s.cur).wait with
    | .steal k => stealFrom d s (4 - k) k
    | _ => if (s.live s.cur.node).ventFull then writeS s d 0 else stealFrom d s 4 0

/-! ### PUSHP and LINK -/

/-- Pushes a pair (R180). -/
def execPushp (a b : SReg) (s : State) : Host.Outcome State Fault Refusal :=
  run (.pushp a b) (netUse s [.s a, .s b] [] allCtxs) s fun s =>
    let c := s.ctx s.cur
    let p := c.sr a
    let q := c.sr b
    if (s.live s.cur.node).ventFull || p.toNat % 64 != 0 || q.toNat % 64 != 0 then .trap trap126
    else .done (s.push s.cur (.pair p q)) [] .seq

/-- The word of a node that an address names, 1 to 4 for a port (R182). -/
def portNo (p : Word) : Nat := natBits p.toNat 3 3
def isPort (p : Word) : Bool := 1 ≤ portNo p && portNo p ≤ 4

/-- Wires two port words, and pushes the pair of two principal ports (R182). -/
def execLink (a b : SReg) (s : State) : Host.Outcome State Fault Refusal :=
  run (.link a b) (netUse s [.s a, .s b] [] allCtxs) s fun s =>
    let c := s.ctx s.cur
    let p := c.sr a
    let q := c.sr b
    let pair := portNo p == 1 && portNo q == 1 && p != q
    if p.toNat % 8 ≠ 0 then .trap { cause := .alignment, eaddr := p }
    else if q.toNat % 8 ≠ 0 then .trap { cause := .alignment, eaddr := q }
    else if !isPort p || !isPort q then .trap (trapped .illegalSequence)
    else
      let lo := if p.ult q then p else q
      let hi := if p.ult q then q else p
      let ops := if p = q then [wordFe .putf p p] else [wordFe .putf lo hi, wordFe .putf hi lo]
      postAll s s ops fun s' =>
        if !pair then .done s' [] .seq
        else if (s.live s.cur.node).ventFull then .trap trap126
        else .done (s'.push s'.cur (.pair (p - 8) (q - 8))) [] .seq

/-! ### Node pools (R181) -/

/-- A fresh node: words 0, 5, 6, 7 stored, words 1 to 4 emptied. -/
def freshNode (a : Word) : List MemOp :=
  [wordStore a 0, wordStore (a + 40) 0, wordStore (a + 48) 0, wordStore (a + 56) 0,
   wordFe .ste (a + 8) 0, wordFe .ste (a + 16) 0, wordFe .ste (a + 24) 0, wordFe .ste (a + 32) 0]

/-- Allocates a node from the free list or the bump region. -/
def execNalloc (d : SReg) (s : State) : Host.Outcome State Fault Refusal :=
  run (.nalloc d) (netUse s [] [.s d] allCtxs) s fun s0 =>
    let i := s0.cur
    let c := s0.ctx i
    let m := s0.live i.node
    -- the checks of the stores' addresses come before the machine-check of the word read (R230)
    let take (s : State) (a : Word) (t : Option Trap) (f : Img → Img) : Out :=
      postAll s0 s (freshNode a) fun s => match t with
        | some t => .trapAt s t
        | none => writeS (s.modLive i.node f) d a
    if s0.acqOpen i then .stall s0
    else if m.nfreehd ≠ 0 then
      let a := m.nfreehd
      if !s0.readOk i (a + 8).toNat then .stall s0
      else then_ (s0.readNow i (a + 8).toNat) s0 fun s (x, bad) =>
        take (s.noteReads i [a + 8]) a (if bad then some (c.readTrap (a + 8).toNat .machineCheck 0 false) else none)
          fun m => { m with nfreehd := masked x (2 ^ 64 - 64) }
    else if m.npool ≠ 0 then
      let next := m.npool + 64
      take s0 m.npool none fun m => { m with npool := if next.toNat % 2 ^ 16 < 64 then 0 else next }
    else writeS s0 d 0

/-- Returns a node to the issuer's free list. -/
def execNfree (a : SReg) (s : State) : Host.Outcome State Fault Refusal :=
  run (.nfree a) (netUse s [.s a] [] allCtxs) s fun s0 =>
    let i := s0.cur
    let v := (s0.ctx i).sr a
    if v.toNat % 64 ≠ 0 then .trap { cause := .alignment, eaddr := v }
    else if !s0.readOk i v.toNat then .stall s0
    else
      then_ (s0.readNow i v.toNat) s0 fun s (h, bad) =>
        -- the checks of the stores' addresses, then the header's, then its machine-check (R230)
        let head := (s.live i.node).nfreehd
        postAll s0 (s.noteReads i [v]) [wordStore v 0x4000, wordStore (v + 8) head] fun s =>
          if bad then .trapAt s ((s0.ctx i).readTrap v.toNat .machineCheck 0 false)
          else if h.getLsbD 14 then .trapAt s (trapped .illegalSequence)
          else .done (s.modLive i.node fun m => { m with nfreehd := v }) [] .seq

/-! ### RULE and NSYM -/

/-- The outcome of the probe of a rule table: the code address, and whether s1 and s2 are exchanged. R233 and R382 name no
machine-check for an entry with an uncorrectable error: the bytes held are used (DESIGN CHOICE, log 65). -/
def State.findRule (s : State) (p base ha hb : Nat) : Nat → Nat → Option (Word × Bool)
  | 0, _ => none
  | n + 1, h =>
    let t := h % 16384
    let w0 := (s.dramWord p (base + 16 * t)).toNat
    let sa := natBits w0 0 12
    let sb := natBits w0 12 12
    if !natBit w0 63 then none
    else if (sa = ha && sb = hb) || (sa = hb && sb = ha) then
      some (s.dramWord p (base + 16 * t + 8), hb = sa && ha ≠ sa)
    else s.findRule p base ha hb n (h + 1)

/-- The rule of two headers in the table of an instance's partition (R184). -/
def State.ruleFor (s : State) (i : Inst) (ha hb : Word) : Option (Word × Bool) :=
  match s.partOf i with
  | some part =>
    let x := ha.toNat % 4096
    let y := hb.toNat % 4096
    s.findRule (pkgOf i.node) (s.partWord (pkgOf i.node) part 5).toNat x y 16 ((min x y * 2654 + max x y) % 16384)
  | none => none

/-- Dispatches the pair in s1 and s2 (R184). -/
def execRule (s : State) : Host.Outcome State Fault Refusal :=
  let u := netUse s [.s 1, .s 2] [.s 1, .s 2, .s 3, .s 4] [.work]
  run .rule { u with noSlot := true, noEnd := true } s fun s0 =>
    let i := s0.cur
    let c := s0.ctx i
    let p := c.sr 1
    let q := c.sr 2
    if p.toNat % 8 ≠ 0 then .trap { cause := .alignment, eaddr := p }
    else if q.toNat % 8 ≠ 0 then .trap { cause := .alignment, eaddr := q }
    else
      readEach s0 (fun s w =>
        let ha := w.ws.getD 0 0
        let hb := w.ws.getD 1 0
        match w.trap c 0, s.ruleFor i ha hb with
        | some t, _ => .trapAt s t
        | none, none => .trap trap127
        | none, some (code, swap) =>
            let s := (s.noteReads i [p, q]).modCtx i fun c =>
              if swap then (((c.setS 1 q).setS 2 p).setS 3 hb).setS 4 ha else (c.setS 3 ha).setS 4 hb
            let ws : List Reg := if swap then [.s 1, .s 2, .s 3, .s 4] else [.s 3, .s 4]
            let s : State := match c.act with
              | .work 6 by_ tag | .work 3 by_ tag => s.startAct i (.work 3 by_ tag) c.born code (absCoord by_ 0)
              | _ => s
            .done s ws (.goto code)) s0 ([p, q].drop c.wordsRead.length) c.gotWords

def nsymMem (d : SReg) (v : Word) : MemOp :=
  { need := .load, mode := .as, size := 8, lanes := [⟨0, v, .load 8⟩], dst := .sym d }

/-- Reads a node's symbol and arity (R185). -/
def execNsym (d a : SReg) (s : State) : Host.Outcome State Fault Refusal :=
  run (.nsym d a) (netUse s [.s a] [.s d] allCtxs) s fun s =>
    let c := s.ctx s.cur
    let v := c.sr a
    if v.toNat % 64 ≠ 0 then .trap (c.trapOf (.alignment, 0) v.toNat { acc := 1 })
    else memory s (nsymMem d v)

end Sys2Proof.Machine
end

