-- ==== Sys2Proof/Machine/Order.lean ====
section
/-! DEFINITION. The ordering instructions: FENCE, FLUSH, PHASE, QUIET, GBAR (R146 to R150). An instruction that waits is
executed again until its wait has ended. -/

namespace Sys2Proof.Machine

def execFence (sc : Scope) (s : State) : Host.Outcome State Fault Refusal :=
  run (.fence sc) {} s fun s =>
    if !s.acqOpen s.cur && s.fenceDone s.cur sc then .done s [] .seq else .wait s .fence

/-- An access of kind SO to the own core has not been performed: it waits for an FE bit, or is granted apart (R133, R148). -/
def State.ownOrdered (s : State) (i : Inst) : Bool :=
  (s.mine i).any fun m => m.so && m.unperformed && sameDest m.tgt (.node i.node 0)

/-- FLUSH sends a probe on the ordered class and waits for its return; to the own core no message travels, and it waits for the
accesses of kind SO there (R148). -/
def execFlush (a : SReg) (s : State) : Host.Outcome State Fault Refusal :=
  run (.flush a) { reads := [.s a] } s fun s =>
    let i := s.cur
    let c := s.ctx i
    let v := c.sr a
    match c.wait with
    | .ended => .done s [] .seq
    | .flush m => .wait s (.flush m)
    | _ =>
      if s.acqOpen i then .wait s .fence
      else if v.toNat % 8 ≠ 0 then .trap (c.trapOf (.alignment, 0) v.toNat { acc := 7 })
      else
        match s.find1 i .read .as 8 v.toNat with
        | (s, .error e) => .trapAt s (c.trapOf e v.toNat { acc := 7 })
        | (s, .ok f) =>
          if f.own.isSome then (if s.ownOrdered i then .wait s .fence else .done s [] .seq)
          else
            let op : MemOp := { need := .read, mode := .as, size := 8, lanes := [], dst := .none }
            let m := s.msgFor i op 0 ⟨0, v, .flush⟩ { f with ordered := true, so := false }
            .wait (s.post m) (.flush s.nextId)

/-- PHASE inverts the instance's phase tag (R149). -/
def execPhase (s : State) : Host.Outcome State Fault Refusal :=
  run .phase { ctxs := [.main, .work] } s fun s => .done (s.modCtx s.cur fun c => { c with tag := !c.tag }) [] .seq

/-- SYSTEM acts as DOMAIN in QUIET and GBAR (R146). -/
def domScope : Scope → Scope
  | .sys => .dom
  | sc => sc

/-- QUIET waits for collection waves of the tag opposite the issuer's (R149). -/
def execQuiet (sc : Scope) (s : State) : Host.Outcome State Fault Refusal :=
  run (.quiet sc) {} s fun s =>
    let c := s.ctx s.cur
    match c.wait with
    | .ended => .done s [] .seq
    | .quiet sc t l => .wait s (.quiet sc t l)
    | _ => .wait s (.quiet (domScope sc) (!c.sendTag) none)

/-- GBAR first performs the FENCE, then arrives and waits (R150). -/
def execGbar (sc : Scope) (s : State) : Host.Outcome State Fault Refusal :=
  run (.gbar sc) { ctxs := [.main] } s fun s =>
    let c := s.ctx s.cur
    match c.wait with
    | .ended => .done s [] .seq
    | .gbar sc => .wait s (.gbar sc)
    | _ =>
      if !s.acqOpen s.cur && s.fenceDone s.cur (domScope sc) then .wait s (.gbar (domScope sc)) else .wait s .gfence

end Sys2Proof.Machine
end

