-- ==== Sys2Proof/Machine/Vint.lean ====
section
/-! DEFINITION. Integer lane arithmetic (R214, R215) and the lane machinery that the vector families share (R205 to R208). -/

namespace Sys2Proof.Machine

/-! ### Lanes under a predicate -/

/-- The governing predicate and inactive-lane rule of a form; a base form has p0 and keeps (R207). -/
def pmOf (x : Option PmZm) : Nat := (x.map fun x => x.pm.val).getD 0
def zmOf (x : Option PmZm) : Bool := (x.map fun x => x.zm).getD false

/-- A vector result: `f` on active lanes, the old lane or zero elsewhere (R207). An instruction that keeps lanes does not read vd by that,
and its write clears the poison of vd (R233, DESIGN CHOICE, log 71). -/
def lanesUnder (c : Ctx) (d pm : Nat) (zm : Bool) (e : Nat) (f : Nat → Nat) : VecReg :=
  ofLanes e ((List.range (64 / e)).map fun l =>
    if laneOn (c.pr pm) e l then f l else if zm then 0 else lane (c.vr d) e l)

/-- Lane `l` of an operand b, and the registers it reads (R214). -/
def vbLane (c : Ctx) (b : VB) (e l : Nat) : Nat :=
  match b with
  | .v r _ => lane (c.vr r) e l
  | .s r _ => (c.sr r).toNat % 2 ^ (8 * e)
def vbPmZm : VB → Option PmZm
  | .v _ x => x
  | .s _ x => some x
def vbRegs (b : VB) : List Reg :=
  .p (pmOf (vbPmZm b)) :: [match b with
    | .v r _ => Reg.v r
    | .s r _ => Reg.s r]

/-- Write one vector register. -/
def writeV (s : State) (d : Nat) (x : VecReg) : Out := .done (s.modCtx s.cur fun c => c.setV d x) [.v d] .seq

/-! ### Integer lanes -/

/-- An integer lane instruction from its lane operation at a width in bits (R215). -/
def vint (x : Instr) (o : VInt) (s : State) (f : Nat → Nat → Nat → Nat) : Host.Outcome State Fault Refusal :=
  run x { reads := .v o.a :: vbRegs o.b, writes := [.v o.d] } s fun s =>
    let c := s.ctx s.cur
    let e := o.w.bytes
    let p := vbPmZm o.b
    writeV s o.d (lanesUnder c o.d (pmOf p) (zmOf p) e fun l => f (8 * e) (lane (c.vr o.a) e l) (vbLane c o.b e l))

def sraLane (w a b : Nat) : Nat := intMod w (natSigned w a / (2 ^ (b % w) : Nat))
def minLane (w a b : Nat) : Nat := if natSigned w b < natSigned w a then b else a
def maxLane (w a b : Nat) : Nat := if natSigned w a < natSigned w b then b else a
def mulhLane (w a b : Nat) : Nat := intMod w (natSigned w a * natSigned w b / (2 ^ w : Nat))
def addsLane (w a b : Nat) : Nat := intSat false w (natSigned w a + natSigned w b)
def subsLane (w a b : Nat) : Nat := intSat false w (natSigned w a - natSigned w b)

def execVadd (o : VInt) (s : State) : Host.Outcome State Fault Refusal := vint (.vadd o) o s (fun _ a b => a + b)
def execVsub (o : VInt) (s : State) : Host.Outcome State Fault Refusal := vint (.vsub o) o s (fun w a b => a + (2 ^ w - b))
def execVmul (o : VInt) (s : State) : Host.Outcome State Fault Refusal := vint (.vmul o) o s (fun _ a b => a * b)
def execVmulh (o : VInt) (s : State) : Host.Outcome State Fault Refusal := vint (.vmulh o) o s mulhLane
def execVand (o : VInt) (s : State) : Host.Outcome State Fault Refusal := vint (.vand o) o s (fun _ a b => Nat.land a b)
def execVor (o : VInt) (s : State) : Host.Outcome State Fault Refusal := vint (.vor o) o s (fun _ a b => Nat.lor a b)
def execVxor (o : VInt) (s : State) : Host.Outcome State Fault Refusal := vint (.vxor o) o s (fun _ a b => Nat.xor a b)
def execVsll (o : VInt) (s : State) : Host.Outcome State Fault Refusal := vint (.vsll o) o s (fun w a b => a * 2 ^ (b % w))
def execVsrl (o : VInt) (s : State) : Host.Outcome State Fault Refusal := vint (.vsrl o) o s (fun w a b => a / 2 ^ (b % w))
def execVsra (o : VInt) (s : State) : Host.Outcome State Fault Refusal := vint (.vsra o) o s sraLane
def execVmin (o : VInt) (s : State) : Host.Outcome State Fault Refusal := vint (.vmin o) o s minLane
def execVmax (o : VInt) (s : State) : Host.Outcome State Fault Refusal := vint (.vmax o) o s maxLane
def execVminu (o : VInt) (s : State) : Host.Outcome State Fault Refusal := vint (.vminu o) o s (fun _ a b => min a b)
def execVmaxu (o : VInt) (s : State) : Host.Outcome State Fault Refusal := vint (.vmaxu o) o s (fun _ a b => max a b)
def execVadds (o : VInt) (s : State) : Host.Outcome State Fault Refusal := vint (.vadds o) o s addsLane
def execVsubs (o : VInt) (s : State) : Host.Outcome State Fault Refusal := vint (.vsubs o) o s subsLane

end Sys2Proof.Machine
end

