-- ==== Sys2Proof/Machine/Vfp.lean ====
section
/-! DEFINITION. Floating-point lanes, dot products and scaled accumulation (R216 to R220). -/

namespace Sys2Proof

/-- The element format of a lane format. -/
def VFmt.fmt : VFmt → Fmt
  | .f64 => .f64
  | .f32 => .f32
  | .f16 => .f16
  | .bf16 => .bf16

end Sys2Proof

namespace Sys2Proof.Machine

/-! ### Lanes with flags -/

/-- A lane-by-lane rounded result: the vector, the flags of the active lanes and their Wedge8 overflow (R207, R208). -/
def lanesRounded (c : Ctx) (d pm : Nat) (zm : Bool) (e : Nat) (f : Nat → Rounded) : VecReg × FFlags × Bool :=
  let on := activeLanes (c.pr pm) e
  let rs := on.map f
  (lanesUnder c d pm zm e fun l => (f l).bits,
    rs.foldl (fun a r => a ||| r.flags) 0, rs.any (·.ovf))

/-- Write a vector with its flags. -/
def writeVF (s : State) (d : Nat) (r : VecReg × FFlags × Bool) : Out :=
  .done (s.modCtx s.cur fun c => ((c.raise r.2.1).raiseOvf d r.2.2).setV d r.1) [.v d] .seq

/-- The extension of a rounding form: RNE, p0 and keep in the base form (R208, R216). -/
def fxRm (x : Option FX) : RMode := (x.map fun x => x.rm).getD .rne
def fxPm (x : Option FX) : Nat := (x.map fun x => x.pm.val).getD 0
def fxZm (x : Option FX) : Bool := (x.map fun x => x.zm).getD false

def vfbX : VFB → Option FX
  | .v _ x => x
  | .s _ x => some x
def vfbLane (c : Ctx) (b : VFB) (e l : Nat) : Nat :=
  match b with
  | .v r _ => lane (c.vr r) e l
  | .s r _ => (c.sr r).toNat % 2 ^ (8 * e)
def vfbRegs (b : VFB) : List Reg :=
  .p (fxPm (vfbX b)) :: [match b with
    | .v r _ => Reg.v r
    | .s r _ => Reg.s r]

/-- A rounding operation of two operands, lane by lane (R217). -/
def vf2 (x : Instr) (o : VF2) (s : State) (f : Fmt → REnv → RMode → Nat → Nat → Nat → Rounded) : Host.Outcome State Fault Refusal :=
  run x { reads := .v o.a :: vfbRegs o.b, writes := [.v o.d] } s fun s =>
    let c := s.ctx s.cur
    let e := o.f.fmt.bytes
    let m := vfbX o.b
    writeVF s o.d (lanesRounded c o.d (fxPm m) (fxZm m) e fun l =>
      f o.f.fmt c.env (fxRm m) l (lane (c.vr o.a) e l) (vfbLane c o.b e l))

/-- VFMIN and VFMAX (R217). -/
def vf2s (x : Instr) (o : VF2s) (s : State) (isMax : Bool) : Host.Outcome State Fault Refusal :=
  run x { reads := .v o.a :: vbRegs o.b, writes := [.v o.d] } s fun s =>
    let c := s.ctx s.cur
    let e := o.f.fmt.bytes
    let p := vbPmZm o.b
    writeVF s o.d (lanesRounded c o.d (pmOf p) (zmOf p) e fun l =>
      o.f.fmt.minmaxBits isMax (lane (c.vr o.a) e l) (vbLane c o.b e l))

/-- VFNEG and VFABS (R217). -/
def vf1s (x : Instr) (o : VF1s) (s : State) (f : Fmt → Nat → Nat) : Host.Outcome State Fault Refusal :=
  run x { reads := [.v o.a, .p (pmOf o.x)], writes := [.v o.d] } s fun s =>
    let c := s.ctx s.cur
    let e := o.f.fmt.bytes
    writeV s o.d (lanesUnder c o.d (pmOf o.x) (zmOf o.x) e fun l => f o.f.fmt (lane (c.vr o.a) e l))

/-! ### Meanings -/

def execVfadd (o : VF2) (s : State) : Host.Outcome State Fault Refusal := vf2 (.vfadd o) o s Fmt.addBits
def execVfsub (o : VF2) (s : State) : Host.Outcome State Fault Refusal := vf2 (.vfsub o) o s Fmt.subBits
def execVfmul (o : VF2) (s : State) : Host.Outcome State Fault Refusal := vf2 (.vfmul o) o s Fmt.mulBits
def execVfdiv (o : VF2) (s : State) : Host.Outcome State Fault Refusal := vf2 (.vfdiv o) o s Fmt.divBits
def execVfsqrt (o : VF1) (s : State) : Host.Outcome State Fault Refusal :=
  run (.vfsqrt o) { reads := [.v o.a, .p (fxPm o.x)], writes := [.v o.d] } s fun s =>
    let c := s.ctx s.cur
    let e := o.f.fmt.bytes
    writeVF s o.d (lanesRounded c o.d (fxPm o.x) (fxZm o.x) e fun l =>
      o.f.fmt.sqrtBits c.env (fxRm o.x) l (lane (c.vr o.a) e l))
def execVfmin (o : VF2s) (s : State) : Host.Outcome State Fault Refusal := vf2s (.vfmin o) o s false
def execVfmax (o : VF2s) (s : State) : Host.Outcome State Fault Refusal := vf2s (.vfmax o) o s true
def execVfneg (o : VF1s) (s : State) : Host.Outcome State Fault Refusal := vf1s (.vfneg o) o s Fmt.negBits
def execVfabs (o : VF1s) (s : State) : Host.Outcome State Fault Refusal := vf1s (.vfabs o) o s Fmt.absBits
/-- One rounding of va × vb + vc in each lane (R218). -/
def execVfma (o : VF3) (s : State) : Host.Outcome State Fault Refusal :=
  run (.vfma o) { reads := [.v o.a, .v o.b, .v o.c, .p o.x.pm], writes := [.v o.d] } s fun s =>
    let c := s.ctx s.cur
    let e := o.f.fmt.bytes
    writeVF s o.d (lanesRounded c o.d o.x.pm o.x.zm e fun l =>
      o.f.fmt.fmaBits c.env o.x.rm l (lane (c.vr o.a) e l) (lane (c.vr o.b) e l) (lane (c.vr o.c) e l))

/-- A dot product into lane 0 of the accumulator format (R63, R219). -/
def execVdot (o : VDot) (s : State) : Host.Outcome State Fault Refusal :=
  run (.vdot o) { reads := [.v o.d, .v o.a, .v o.b, .p o.pm], writes := [.v o.d] } s fun s =>
    let c := s.ctx s.cur
    let e := o.p.src.bytes
    let ea := o.p.acc.bytes
    let ab := (List.range (64 / e)).map fun k =>
      if laneOn (c.pr o.pm) e k then some (lane (c.vr o.a) e k, lane (c.vr o.b) e k) else none
    let r := dotProduct o.p c.env 0 8 (lane (c.vr o.d) ea 0) ab
    .done (s.modCtx s.cur fun c => (c.raise r.2).setV o.d (putLane (c.vr o.d) ea 0 r.1)) [.v o.d] .seq

/-- Scaled accumulation in each of the 16 lanes (R66, R220). -/
def execVscacc (o : VScacc) (s : State) : Host.Outcome State Fault Refusal :=
  run (.vscacc o) { reads := [.v o.d, .v o.a, .s o.b, .p o.x.pm], writes := [.v o.d] } s fun s =>
    let c := s.ctx s.cur
    let f : Fmt := if o.int then .i32 else .f32
    writeVF s o.d (lanesRounded c o.d o.x.pm o.x.zm 4 fun l =>
      scaleAdd c.env o.x.rm l (lane (c.vr o.d) 4 l) (f.num c.wtop (lane (c.vr o.a) 4 l)) (c.sr o.b).toNat)

end Sys2Proof.Machine
end

