-- ==== Sys2Proof/Machine/Pred.lean ====
section
/-! DEFINITION. Compares and predicate operations (R206, R225, R226). -/

namespace Sys2Proof.Machine

/-- A predicate from lane results: each granule is 1 when every active lane of it is; inactive granules follow ZM
(R206, R207). -/
def predUnder (c : Ctx) (d pm : Nat) (zm : Bool) (e : Nat) (f : Nat → Bool) : BitVec 16 :=
  let bit (k : Nat) : Bool :=
    let ls := (List.range (64 / e)).filter fun l => l * e / 4 ≤ k && k < max (l * e / 4 + 1) ((l + 1) * e / 4)
    if ls.all (fun l => laneOn (c.pr pm) e l) then ls.all f else !zm && (c.pr d).getLsbD k
  BitVec.ofNat 16 ((List.range 16).foldl (fun n k => n + (if bit k then 2 ^ k else 0)) 0)

/-- Write one predicate register. -/
def writeP (s : State) (d : Nat) (x : BitVec 16) : Out := .done (s.modCtx s.cur fun c => c.setP d x) [.p d] .seq

/-- An integer compare at a width in bits (R225). -/
def vcmp (x : Instr) (o : VCmp) (s : State) (f : Nat → Nat → Nat → Bool) : Host.Outcome State Fault Refusal :=
  run x { reads := .v o.a :: vbRegs o.b, writes := [.p o.d] } s fun s =>
    let c := s.ctx s.cur
    let e := o.w.bytes
    let p := vbPmZm o.b
    writeP s o.d (predUnder c o.d (pmOf p) (zmOf p) e fun l => f (8 * e) (lane (c.vr o.a) e l) (vbLane c o.b e l))

/-- A float compare with its flags (R103, R225). -/
def vfcmp (x : Instr) (o : VFCmp) (s : State) (f : Fmt → Nat → Nat → Bool × FFlags) : Host.Outcome State Fault Refusal :=
  run x { reads := .v o.a :: vbRegs o.b, writes := [.p o.d] } s fun s =>
    let c := s.ctx s.cur
    let e := o.f.fmt.bytes
    let p := vbPmZm o.b
    let at_ (l : Nat) : Bool × FFlags := f o.f.fmt (lane (c.vr o.a) e l) (vbLane c o.b e l)
    let fl := (activeLanes (c.pr (pmOf p)) e).foldl (fun a l => a ||| (at_ l).2) 0
    .done (s.modCtx s.cur fun c =>
      (c.raise fl).setP o.d (predUnder c o.d (pmOf p) (zmOf p) e fun l => (at_ l).1)) [.p o.d] .seq

def execVceq (o : VCmp) (s : State) : Host.Outcome State Fault Refusal := vcmp (.vceq o) o s (fun _ a b => a == b)
def execVcne (o : VCmp) (s : State) : Host.Outcome State Fault Refusal := vcmp (.vcne o) o s (fun _ a b => a != b)
def execVclt (o : VCmp) (s : State) : Host.Outcome State Fault Refusal := vcmp (.vclt o) o s (fun w a b => natSigned w a < natSigned w b)
def execVcle (o : VCmp) (s : State) : Host.Outcome State Fault Refusal := vcmp (.vcle o) o s (fun w a b => natSigned w a ≤ natSigned w b)
def execVcltu (o : VCmp) (s : State) : Host.Outcome State Fault Refusal := vcmp (.vcltu o) o s (fun _ a b => a < b)
def execVcleu (o : VCmp) (s : State) : Host.Outcome State Fault Refusal := vcmp (.vcleu o) o s (fun _ a b => a ≤ b)
def execVfceq (o : VFCmp) (s : State) : Host.Outcome State Fault Refusal := vfcmp (.vfceq o) o s Fmt.eqBits
def execVfclt (o : VFCmp) (s : State) : Host.Outcome State Fault Refusal := vfcmp (.vfclt o) o s Fmt.ltBits
def execVfcle (o : VFCmp) (s : State) : Host.Outcome State Fault Refusal := vfcmp (.vfcle o) o s Fmt.leBits

/-! ### Whole predicates (R226) -/

def pred3 (x : Instr) (o : P3) (s : State) (f : BitVec 16 → BitVec 16 → BitVec 16) : Host.Outcome State Fault Refusal :=
  run x { reads := [.p o.a, .p o.b], writes := [.p o.d] } s fun s =>
    let c := s.ctx s.cur
    writeP s o.d (f (c.pr o.a) (c.pr o.b))

def execPand (o : P3) (s : State) : Host.Outcome State Fault Refusal := pred3 (.pand o) o s fun a b => a &&& b
def execPor (o : P3) (s : State) : Host.Outcome State Fault Refusal := pred3 (.por o) o s fun a b => a ||| b
def execPxor (o : P3) (s : State) : Host.Outcome State Fault Refusal := pred3 (.pxor o) o s fun a b => a ^^^ b
def execPnot (o : P2) (s : State) : Host.Outcome State Fault Refusal :=
  run (.pnot o) { reads := [.p o.a], writes := [.p o.d] } s fun s => writeP s o.d (~~~((s.ctx s.cur).pr o.a))
def execPcnt (o : PS) (s : State) : Host.Outcome State Fault Refusal :=
  run (.pcnt o) { reads := [.p o.a], writes := [.s o.d] } s fun s =>
    writeS s o.d (BitVec.ofNat 64 (ones 16 ((s.ctx s.cur).pr o.a).toNat))
def execPfirst (o : PS) (s : State) : Host.Outcome State Fault Refusal :=
  run (.pfirst o) { reads := [.p o.a], writes := [.s o.d] } s fun s =>
    writeS s o.d (BitVec.ofNat 64 (trailing 16 ((s.ctx s.cur).pr o.a).toNat))
def execPsetw (o : PSetOp) (s : State) : Host.Outcome State Fault Refusal :=
  run (.psetw o) { reads := [.s o.a], writes := [.p o.d] } s fun s =>
    writeP s o.d (BitVec.ofNat 16 (2 ^ min ((s.ctx s.cur).sr o.a).toNat 16 - 1))

end Sys2Proof.Machine
end

