-- ==== Sys2Proof/Machine/Rec.lean ====
section
/-! DEFINITION. The REC instructions (R197 to R204). -/

namespace Sys2Proof.Machine

/-- What the issuer checks of a record address (R132, R198, R370). -/
def needRec (r w : Bool) (acc : Nat) : Need := { r := r, w := w, rec_ := true, acc := acc }

def recUse (reads writes : List Reg) : Use := { reads := reads, writes := writes, ctxs := [.main, .work] }

/-- One request to the home of the record at `v`. -/
def recOp (r w : Bool) (acc : Nat) (v : Word) (q : Req) (d : Dst) : MemOp :=
  { need := needRec r w acc, mode := .as, size := 256, lanes := [⟨0, v, q⟩], dst := d }

/-- The home of a record address after the issuer's checks, or the trap. -/
def State.recHome (s : State) (i : Inst) (n : Need) (v : Word) : State × Except Trap Nat :=
  let c := s.ctx i
  if v.toNat % 256 ≠ 0 then (s, .error (c.trapOf (.alignment, 0) v.toNat { acc := n.acc }))
  else
    match s.find1 i n .as 256 v.toNat with
    | (s, .error e) => (s, .error (c.trapOf e v.toNat { acc := n.acc }))
    | (s, .ok f) =>
      match f.tgt with
      | .home h => (s, .ok h.node)
      | .node _ _ => (s, .error { cause := .kind, eaddr := v })

/-- The sixteen lanes of a contribution (R199). -/
def gradLanes (x : VecReg) (bf16 : Bool) : List Nat := (List.range 16).map (lane x (if bf16 then 2 else 4))

/-- Sends one contribution when the window to its home has room (R199). -/
def execGrad (o : GradOp) (s : State) : Host.Outcome State Fault Refusal :=
  run (.grad o) (recUse [.s o.a, .v o.b] []) s fun s =>
    let i := s.cur
    let c := s.ctx i
    let v := c.sr o.a
    let cls := (o.x.map fun x => x.1.val).getD 0
    let bf16 := (o.x.map fun x => x.2).getD false
    if s.acqOpen i then .stall s
    else
      match s.recHome i (needRec true true 2) v with
      | (s', .error t) => .trapAt s' t
      | (s', .ok h) =>
        let w := Table.get 0 (s'.node i.node).window h
        if 32 ≤ w then .wait s' .room
        else
          let q : Req := .grad cls (gradLanes (c.vr o.b) bf16) bf16 (c.vovf.getLsbD o.b.val)
          match memory s' (recOp true true 2 v q .none) with
          | .done s2 ws f =>
            .done (s2.modNode i.node fun n => { n with window := Table.set 0 n.window h (w + 1) }) ws f
          | x => x

/-- The window of the issuing core to a record's home (R199). -/
def execGradq (o : RecQ) (s : State) : Host.Outcome State Fault Refusal :=
  run (.gradq o) (recUse [.s o.a] [.s o.d]) s fun s =>
    match s.recHome s.cur (needRec false false 7) ((s.ctx s.cur).sr o.a) with
    | (s, .error t) => .trapAt s t
    | (s, .ok h) => writeS s o.d (BitVec.ofNat 64 (Table.get 0 (s.node s.cur.node).window h))

def prldMem (o : PrldOp) (c : Ctx) : MemOp :=
  recOp true false 7 (c.sr o.a) (.prld ((o.x.map fun f => f.val).getD 0) (c.sr o.b)) (.vec o.d)
def prsetMem (o : PrsetOp) (c : Ctx) : MemOp :=
  recOp true true 2 (c.sr o.a) (.prset ((o.x.map fun f => f.val).getD 0) (c.vr o.b)) .none
def prstatMem (o : RecQ) (c : Ctx) : MemOp := recOp false false 7 (c.sr o.a) .prstat (.s o.d 8 false)

/-- Reads a committed field, waiting at the home for its step (R203). -/
def execPrld (o : PrldOp) (s : State) : Host.Outcome State Fault Refusal :=
  run (.prld o) (recUse [.s o.a, .s o.b] [.v o.d]) s fun s =>
    memory s (prldMem o (s.ctx s.cur))

/-- Completes the running record rule (R202), which writes its END record (R384). -/
def execPrst (o : PrstOp) (s : State) : Host.Outcome State Fault Refusal :=
  let vs : List Reg := if o.skip then [] else [.v 0, .v 1, .v 2]
  run (.prst o) (recUse (.s o.a :: vs) []) s fun s =>
    let i := s.cur
    let c := s.ctx i
    match s.recHome i (needRec false false 7) (c.sr o.a) with
    | (s, .error t) => .trapAt s t
    | (s, .ok _) =>
      match c.act with
      | .rule a false =>
        if i.ctx != .work || (s.recOf i.node a).va != c.sr o.a then .trap (trapped .illegalSequence)
        else
          let x := if o.skip then none else some (c.vr 0, c.vr 1, c.vr 2)
          .done (((s.endAct i).commit i.node a x).modCtx i fun c => { c with act := .rule a true }) [] .seq
      | _ => .trap (trapped .illegalSequence)

/-- Writes a field of a record (R204). -/
def execPrset (o : PrsetOp) (s : State) : Host.Outcome State Fault Refusal :=
  run (.prset o) (recUse [.s o.a, .v o.b] []) s fun s =>
    memory s (prsetMem o (s.ctx s.cur))

/-- Reads a record's status without waiting (R203). -/
def execPrstat (o : RecQ) (s : State) : Host.Outcome State Fault Refusal :=
  run (.prstat o) (recUse [.s o.a] [.s o.d]) s fun s =>
    memory s (prstatMem o (s.ctx s.cur))

end Sys2Proof.Machine
end

