-- ==== Sys2Proof/Machine/Vmisc.lean ====
section
/-! DEFINITION. Conversions, lane moves and reductions (R221 to R224). -/

namespace Sys2Proof.Machine

/-- A conversion between formats of one part (R61, R62, R222): lanes outside the target stand, whatever ZM. -/
def execVcvt (o : VCvt) (s : State) : Host.Outcome State Fault Refusal :=
  run (.vcvt o) { reads := [.v o.a, .p o.x.pm], writes := [.v o.d] } s fun s =>
    let c := s.ctx s.cur
    let es := o.fa.bytes
    let ed := o.fb.bytes
    let n := min (64 / es) (64 / ed)
    let from_ (l : Nat) : Option Nat :=
      if 64 / es < 64 / ed then (if o.q.val * n ≤ l && l < o.q.val * n + n then some (l - o.q.val * n) else none)
      else some (o.q.val * n + l)
    let cvt (l k : Nat) : Rounded := convert o.fa o.fb c.env o.x.rm l (lane (c.vr o.a) es k)
    let old (l : Nat) : Nat := lane (c.vr o.d) ed l
    let out := (List.range (64 / ed)).map fun l =>
      match from_ l with
      | none => (old l, none)
      | some k => if laneOn (c.pr o.x.pm) ed l then ((cvt l k).bits, some (cvt l k)) else (if o.x.zm then 0 else old l, none)
    let rs := out.filterMap (·.2)
    writeVF s o.d (ofLanes ed (out.map (·.1)), rs.foldl (fun a r => a ||| r.flags) 0, rs.any (·.ovf))

/-- Choice by the governing predicate (R223). -/
def execVsel (o : VSel) (s : State) : Host.Outcome State Fault Refusal :=
  let pm := (o.x.map fun p => p.val).getD 0
  run (.vsel o) { reads := [.v o.a, .v o.b, .p pm], writes := [.v o.d] } s fun s =>
    let c := s.ctx s.cur
    let e := o.w.bytes
    writeV s o.d (ofLanes e ((List.range (64 / e)).map fun l =>
      lane (c.vr (if laneOn (c.pr pm) e l then o.a else o.b)) e l))

/-- A lane move governed per R207. -/
def vmove (x : Instr) (w : Sz) (d : VReg) (m : Option PmZm) (reads : List Reg) (s : State) (f : Ctx → Nat → Nat) : Host.Outcome State Fault Refusal :=
  run x { reads := .p (pmOf m) :: reads, writes := [.v d] } s fun s =>
    let c := s.ctx s.cur
    writeV s d (lanesUnder c d (pmOf m) (zmOf m) w.bytes (f c))

def execVperm (o : VPermOp) (s : State) : Host.Outcome State Fault Refusal :=
  let e := o.w.bytes
  vmove (.vperm o) o.w o.d o.x [.v o.a, .v o.b] s fun c l => lane (c.vr o.a) e (lane (c.vr o.b) e l % (64 / e))
def execVbcast (o : VBc) (s : State) : Host.Outcome State Fault Refusal :=
  vmove (.vbcast o) o.w o.d o.x [.s o.a] s fun c _ => (c.sr o.a).toNat
def execVslup (o : VSlOp) (s : State) : Host.Outcome State Fault Refusal :=
  vmove (.vslup o) o.w o.d o.x [.v o.a, .s o.b] s fun c l =>
    let n := (c.sr o.b).toNat
    if n ≤ l then lane (c.vr o.a) o.w.bytes (l - n) else 0
def execVsldn (o : VSlOp) (s : State) : Host.Outcome State Fault Refusal :=
  vmove (.vsldn o) o.w o.d o.x [.v o.a, .s o.b] s fun c l =>
    let n := (c.sr o.b).toNat
    if l + n < 64 / o.w.bytes then lane (c.vr o.a) o.w.bytes (l + n) else 0
def execVmov (o : VMovOp) (s : State) : Host.Outcome State Fault Refusal :=
  vmove (.vmov o) o.w o.d o.x [.v o.a] s fun c l => lane (c.vr o.a) o.w.bytes l

/-- Inserts a lane; an index past the last lane writes nothing (R223). -/
def execVins (o : VInsOp) (s : State) : Host.Outcome State Fault Refusal :=
  run (.vins o) { reads := [.s o.a, .s o.b], writes := [.v o.d] } s fun s =>
    let c := s.ctx s.cur
    let e := o.w.bytes
    let l := (c.sr o.b).toNat
    if l < 64 / e then writeV s o.d (putLane (c.vr o.d) e l (c.sr o.a).toNat) else .done s [] .seq

/-- Extracts a lane (R223). -/
def execVext (o : VExtOp) (s : State) : Host.Outcome State Fault Refusal :=
  run (.vext o) { reads := [.v o.a, .s o.b], writes := [.s o.d] } s fun s =>
    let c := s.ctx s.cur
    let e := o.w.bytes
    let l := (c.sr o.b).toNat
    writeS s o.d (if l < 64 / e then extend e (o.x.getD false) (lane (c.vr o.a) e l) else 0)

/-- The active lanes of a vector. -/
def activeVals (c : Ctx) (a pm e : Nat) : List Nat := (activeLanes (c.pr pm) e).map fun l => lane (c.vr a) e l

/-- A reduction into an s register: `init` with no active lane (R224). -/
def vred (x : Instr) (o : VRed) (s : State) (sx : Bool) (init : Nat → Nat) (f : Nat → Nat → Nat → Nat) : Host.Outcome State Fault Refusal :=
  let pm := (o.x.map fun p => p.val).getD 0
  run x { reads := [.v o.a, .p pm], writes := [.s o.d] } s fun s =>
    let c := s.ctx s.cur
    let e := o.w.bytes
    let w := 8 * e
    writeS s o.d (extend e sx (((activeVals c o.a pm e).foldl (f w) (init w)) % 2 ^ w))

def execVradd (o : VRed) (s : State) : Host.Outcome State Fault Refusal := vred (.vradd o) o s true (fun _ => 0) fun _ a b => a + b
def execVrmin (o : VRed) (s : State) : Host.Outcome State Fault Refusal := vred (.vrmin o) o s true (fun w => 2 ^ (w - 1) - 1) minLane
def execVrmax (o : VRed) (s : State) : Host.Outcome State Fault Refusal := vred (.vrmax o) o s true (fun w => 2 ^ (w - 1)) maxLane
def execVrminu (o : VRed) (s : State) : Host.Outcome State Fault Refusal := vred (.vrminu o) o s false (fun w => 2 ^ w - 1) fun _ a b => min a b
def execVrmaxu (o : VRed) (s : State) : Host.Outcome State Fault Refusal := vred (.vrmaxu o) o s false (fun _ => 0) fun _ a b => max a b

/-- The exact sum of the active lanes, rounded once; +0 with none (R65, R224). -/
def execVrfadd (o : VRf) (s : State) : Host.Outcome State Fault Refusal :=
  let pm := (o.x.map fun x => x.2.val).getD 0
  run (.vrfadd o) { reads := [.v o.a, .p pm], writes := [.s o.d] } s fun s =>
    let c := s.ctx s.cur
    let f := o.p.fmt
    let vs := activeVals c o.a pm f.bytes
    let rm := (o.x.map fun x => x.1).getD .rne
    writeF s o.d (if vs.isEmpty then ⟨0, 0, false⟩ else sumRound f c.env rm 0 (vs.map (f.num c.wtop)))

end Sys2Proof.Machine
end

