-- ==== Sys2Proof/Machine/Dispatch.lean ====
section
/-! DEFINITION. The meaning of every instruction: one arm per constructor, each one call of its meaning. -/

namespace Sys2Proof.Machine

/-- What an instruction or event does to a state. An instruction runs for the instance `s.cur`. -/
def exec (i : Instr) (s : State) : Host.Outcome State Fault Refusal :=
  match i with
  | .ill => Sys2Proof.Machine.execIll s
  | .nop => Sys2Proof.Machine.execNop s
  | .align n => Sys2Proof.Machine.execAlign n s
  | .trap code => Sys2Proof.Machine.execTrap code s
  | .brk code => Sys2Proof.Machine.execBrk code s
  | .sysc code => Sys2Proof.Machine.execSysc code s
  | .eret => Sys2Proof.Machine.execEret s
  | .upret a => Sys2Proof.Machine.execUpret a s
  | .wfi a => Sys2Proof.Machine.execWfi a s
  | .shoot a b => Sys2Proof.Machine.execShoot a b s
  | .tlbil a b => Sys2Proof.Machine.execTlbil a b s
  | .savex a => Sys2Proof.Machine.execSavex a s
  | .loadx a => Sys2Proof.Machine.execLoadx a s
  | .perfr d n => Sys2Proof.Machine.execPerfr d n s
  | .tmark a tag => Sys2Proof.Machine.execTmark a tag s
  | .add o => Sys2Proof.Machine.execAdd o s
  | .sub o => Sys2Proof.Machine.execSub o s
  | .and o => Sys2Proof.Machine.execAnd o s
  | .or o => Sys2Proof.Machine.execOr o s
  | .xor o => Sys2Proof.Machine.execXor o s
  | .andn o => Sys2Proof.Machine.execAndn o s
  | .sll o => Sys2Proof.Machine.execSll o s
  | .srl o => Sys2Proof.Machine.execSrl o s
  | .sra o => Sys2Proof.Machine.execSra o s
  | .slt o => Sys2Proof.Machine.execSlt o s
  | .sltu o => Sys2Proof.Machine.execSltu o s
  | .seq o => Sys2Proof.Machine.execSeq o s
  | .min o => Sys2Proof.Machine.execMin o s
  | .max o => Sys2Proof.Machine.execMax o s
  | .minu o => Sys2Proof.Machine.execMinu o s
  | .maxu o => Sys2Proof.Machine.execMaxu o s
  | .clz o => Sys2Proof.Machine.execClz o s
  | .ctz o => Sys2Proof.Machine.execCtz o s
  | .popc o => Sys2Proof.Machine.execPopc o s
  | .bfx o => Sys2Proof.Machine.execBfx o s
  | .bfxu o => Sys2Proof.Machine.execBfxu o s
  | .bfi o => Sys2Proof.Machine.execBfi o s
  | .adds o => Sys2Proof.Machine.execAdds o s
  | .subs o => Sys2Proof.Machine.execSubs o s
  | .caddr o => Sys2Proof.Machine.execCaddr o s
  | .crel o => Sys2Proof.Machine.execCrel o s
  | .addi o => Sys2Proof.Machine.execAddi o s
  | .andi o => Sys2Proof.Machine.execAndi o s
  | .ori o => Sys2Proof.Machine.execOri o s
  | .xori o => Sys2Proof.Machine.execXori o s
  | .slli o => Sys2Proof.Machine.execSlli o s
  | .srli o => Sys2Proof.Machine.execSrli o s
  | .srai o => Sys2Proof.Machine.execSrai o s
  | .slti o => Sys2Proof.Machine.execSlti o s
  | .sltiu o => Sys2Proof.Machine.execSltiu o s
  | .seqi o => Sys2Proof.Machine.execSeqi o s
  | .cmovnz o => Sys2Proof.Machine.execCmovnz o s
  | .cmovz o => Sys2Proof.Machine.execCmovz o s
  | .mul o => Sys2Proof.Machine.execMul o s
  | .mulh o => Sys2Proof.Machine.execMulh o s
  | .mulhu o => Sys2Proof.Machine.execMulhu o s
  | .mulhsu o => Sys2Proof.Machine.execMulhsu o s
  | .div o => Sys2Proof.Machine.execDiv o s
  | .divu o => Sys2Proof.Machine.execDivu o s
  | .rem o => Sys2Proof.Machine.execRem o s
  | .remu o => Sys2Proof.Machine.execRemu o s
  | .fadd o => Sys2Proof.Machine.execFadd o s
  | .fsub o => Sys2Proof.Machine.execFsub o s
  | .fmul o => Sys2Proof.Machine.execFmul o s
  | .fdiv o => Sys2Proof.Machine.execFdiv o s
  | .fsqrt o => Sys2Proof.Machine.execFsqrt o s
  | .fmin o => Sys2Proof.Machine.execFmin o s
  | .fmax o => Sys2Proof.Machine.execFmax o s
  | .feq o => Sys2Proof.Machine.execFeq o s
  | .flt o => Sys2Proof.Machine.execFlt o s
  | .fle o => Sys2Proof.Machine.execFle o s
  | .fclass o => Sys2Proof.Machine.execFclass o s
  | .fneg o => Sys2Proof.Machine.execFneg o s
  | .fabs o => Sys2Proof.Machine.execFabs o s
  | .fma o => Sys2Proof.Machine.execFma o s
  | .fcvt o => Sys2Proof.Machine.execFcvt o s
  | .ftoi o => Sys2Proof.Machine.execFtoi o s
  | .itof o => Sys2Proof.Machine.execItof o s
  | .br disp => Sys2Proof.Machine.execBr disp s
  | .brc o => Sys2Proof.Machine.execBrc o s
  | .brz o => Sys2Proof.Machine.execBrz o s
  | .brnz o => Sys2Proof.Machine.execBrnz o s
  | .brlz o => Sys2Proof.Machine.execBrlz o s
  | .brgez o => Sys2Proof.Machine.execBrgez o s
  | .call disp => Sys2Proof.Machine.execCall disp s
  | .jr a => Sys2Proof.Machine.execJr a s
  | .callr a => Sys2Proof.Machine.execCallr a s
  | .ret => Sys2Proof.Machine.execRet s
  | .jt a b => Sys2Proof.Machine.execJt a b s
  | .loop o => Sys2Proof.Machine.execLoop o s
  | .loopi o => Sys2Proof.Machine.execLoopi o s
  | .ld o => Sys2Proof.Machine.execLd o s
  | .st o => Sys2Proof.Machine.execSt o s
  | .ldx o => Sys2Proof.Machine.execLdx o s
  | .stx o => Sys2Proof.Machine.execStx o s
  | .ldf o => Sys2Proof.Machine.execLdf o s
  | .take o => Sys2Proof.Machine.execTake o s
  | .putf o => Sys2Proof.Machine.execPutf o s
  | .stf o => Sys2Proof.Machine.execStf o s
  | .ste o => Sys2Proof.Machine.execSte o s
  | .feqFe o => Sys2Proof.Machine.execFeqFe o s
  | .feclr o => Sys2Proof.Machine.execFeclr o s
  | .aadd o => Sys2Proof.Machine.execAadd o s
  | .aand o => Sys2Proof.Machine.execAand o s
  | .aor o => Sys2Proof.Machine.execAor o s
  | .axor o => Sys2Proof.Machine.execAxor o s
  | .amin o => Sys2Proof.Machine.execAmin o s
  | .amax o => Sys2Proof.Machine.execAmax o s
  | .aminu o => Sys2Proof.Machine.execAminu o s
  | .amaxu o => Sys2Proof.Machine.execAmaxu o s
  | .aswp o => Sys2Proof.Machine.execAswp o s
  | .acas o => Sys2Proof.Machine.execAcas o s
  | .afadd o => Sys2Proof.Machine.execAfadd o s
  | .fence sc => Sys2Proof.Machine.execFence sc s
  | .flush a => Sys2Proof.Machine.execFlush a s
  | .phase => Sys2Proof.Machine.execPhase s
  | .quiet sc => Sys2Proof.Machine.execQuiet sc s
  | .gbar sc => Sys2Proof.Machine.execGbar sc s
  | .fld slot a => Sys2Proof.Machine.execFld slot a s
  | .bind d slot => Sys2Proof.Machine.execBind d slot s
  | .unbind d => Sys2Proof.Machine.execUnbind d s
  | .unbinda => Sys2Proof.Machine.execUnbinda s
  | .bindq d a => Sys2Proof.Machine.execBindq d a s
  | .fhold slot => Sys2Proof.Machine.execFhold slot s
  | .frun slot => Sys2Proof.Machine.execFrun slot s
  | .feval slot => Sys2Proof.Machine.execFeval slot s
  | .send o => Sys2Proof.Machine.execSend o s
  | .sendh o => Sys2Proof.Machine.execSendh o s
  | .migr o => Sys2Proof.Machine.execMigr o s
  | .spawn d b => Sys2Proof.Machine.execSpawn d b s
  | .done => Sys2Proof.Machine.execDone s
  | .msgq d => Sys2Proof.Machine.execMsgq d s
  | .pop d => Sys2Proof.Machine.execPop d s
  | .pushp a b => Sys2Proof.Machine.execPushp a b s
  | .nalloc d => Sys2Proof.Machine.execNalloc d s
  | .nfree a => Sys2Proof.Machine.execNfree a s
  | .link a b => Sys2Proof.Machine.execLink a b s
  | .rule => Sys2Proof.Machine.execRule s
  | .nsym d a => Sys2Proof.Machine.execNsym d a s
  | .steal d => Sys2Proof.Machine.execSteal d s
  | .copy o => Sys2Proof.Machine.execCopy o s
  | .cwait n => Sys2Proof.Machine.execCwait n s
  | .cstat d n => Sys2Proof.Machine.execCstat d n s
  | .qfence mask => Sys2Proof.Machine.execQfence mask s
  | .cabort n => Sys2Proof.Machine.execCabort n s
  | .hset h a tie => Sys2Proof.Machine.execHset h a tie s
  | .hwait d h n => Sys2Proof.Machine.execHwait d h n s
  | .hspace d h n => Sys2Proof.Machine.execHspace d h n s
  | .hadv o => Sys2Proof.Machine.execHadv o s
  | .hrel o => Sys2Proof.Machine.execHrel o s
  | .hq d h => Sys2Proof.Machine.execHq d h s
  | .tshp b => Sys2Proof.Machine.execTshp b s
  | .tld o => Sys2Proof.Machine.execTld o s
  | .tst o => Sys2Proof.Machine.execTst o s
  | .dmov o => Sys2Proof.Machine.execDmov o s
  | .dinc o => Sys2Proof.Machine.execDinc o s
  | .vld o => Sys2Proof.Machine.execVld o s
  | .vst o => Sys2Proof.Machine.execVst o s
  | .vlds o => Sys2Proof.Machine.execVlds o s
  | .vsts o => Sys2Proof.Machine.execVsts o s
  | .vgath o => Sys2Proof.Machine.execVgath o s
  | .vscat o => Sys2Proof.Machine.execVscat o s
  | .vldbc o => Sys2Proof.Machine.execVldbc o s
  | .vadd o => Sys2Proof.Machine.execVadd o s
  | .vsub o => Sys2Proof.Machine.execVsub o s
  | .vmul o => Sys2Proof.Machine.execVmul o s
  | .vmulh o => Sys2Proof.Machine.execVmulh o s
  | .vand o => Sys2Proof.Machine.execVand o s
  | .vor o => Sys2Proof.Machine.execVor o s
  | .vxor o => Sys2Proof.Machine.execVxor o s
  | .vsll o => Sys2Proof.Machine.execVsll o s
  | .vsrl o => Sys2Proof.Machine.execVsrl o s
  | .vsra o => Sys2Proof.Machine.execVsra o s
  | .vmin o => Sys2Proof.Machine.execVmin o s
  | .vmax o => Sys2Proof.Machine.execVmax o s
  | .vminu o => Sys2Proof.Machine.execVminu o s
  | .vmaxu o => Sys2Proof.Machine.execVmaxu o s
  | .vadds o => Sys2Proof.Machine.execVadds o s
  | .vsubs o => Sys2Proof.Machine.execVsubs o s
  | .vfadd o => Sys2Proof.Machine.execVfadd o s
  | .vfsub o => Sys2Proof.Machine.execVfsub o s
  | .vfmul o => Sys2Proof.Machine.execVfmul o s
  | .vfdiv o => Sys2Proof.Machine.execVfdiv o s
  | .vfsqrt o => Sys2Proof.Machine.execVfsqrt o s
  | .vfmin o => Sys2Proof.Machine.execVfmin o s
  | .vfmax o => Sys2Proof.Machine.execVfmax o s
  | .vfma o => Sys2Proof.Machine.execVfma o s
  | .vfneg o => Sys2Proof.Machine.execVfneg o s
  | .vfabs o => Sys2Proof.Machine.execVfabs o s
  | .vdot o => Sys2Proof.Machine.execVdot o s
  | .vscacc o => Sys2Proof.Machine.execVscacc o s
  | .vcvt o => Sys2Proof.Machine.execVcvt o s
  | .vsel o => Sys2Proof.Machine.execVsel o s
  | .vperm o => Sys2Proof.Machine.execVperm o s
  | .vbcast o => Sys2Proof.Machine.execVbcast o s
  | .vins o => Sys2Proof.Machine.execVins o s
  | .vext o => Sys2Proof.Machine.execVext o s
  | .vslup o => Sys2Proof.Machine.execVslup o s
  | .vsldn o => Sys2Proof.Machine.execVsldn o s
  | .vradd o => Sys2Proof.Machine.execVradd o s
  | .vrmin o => Sys2Proof.Machine.execVrmin o s
  | .vrmax o => Sys2Proof.Machine.execVrmax o s
  | .vrminu o => Sys2Proof.Machine.execVrminu o s
  | .vrmaxu o => Sys2Proof.Machine.execVrmaxu o s
  | .vrfadd o => Sys2Proof.Machine.execVrfadd o s
  | .vmov o => Sys2Proof.Machine.execVmov o s
  | .vceq o => Sys2Proof.Machine.execVceq o s
  | .vcne o => Sys2Proof.Machine.execVcne o s
  | .vclt o => Sys2Proof.Machine.execVclt o s
  | .vcle o => Sys2Proof.Machine.execVcle o s
  | .vcltu o => Sys2Proof.Machine.execVcltu o s
  | .vcleu o => Sys2Proof.Machine.execVcleu o s
  | .vfceq o => Sys2Proof.Machine.execVfceq o s
  | .vfclt o => Sys2Proof.Machine.execVfclt o s
  | .vfcle o => Sys2Proof.Machine.execVfcle o s
  | .pand o => Sys2Proof.Machine.execPand o s
  | .por o => Sys2Proof.Machine.execPor o s
  | .pxor o => Sys2Proof.Machine.execPxor o s
  | .pnot o => Sys2Proof.Machine.execPnot o s
  | .pcnt o => Sys2Proof.Machine.execPcnt o s
  | .pfirst o => Sys2Proof.Machine.execPfirst o s
  | .psetw o => Sys2Proof.Machine.execPsetw o s
  | .gmma o => Sys2Proof.Machine.execGmma o s
  | .azero o => Sys2Proof.Machine.execAzero o s
  | .aldt o => Sys2Proof.Machine.execAldt o s
  | .astt o => Sys2Proof.Machine.execAstt o s
  | .acvt o => Sys2Proof.Machine.execAcvt o s
  | .ascale o => Sys2Proof.Machine.execAscale o s
  | .amovv o => Sys2Proof.Machine.execAmovv o s
  | .aflag o => Sys2Proof.Machine.execAflag o s
  | .grad o => Sys2Proof.Machine.execGrad o s
  | .gradq o => Sys2Proof.Machine.execGradq o s
  | .prld o => Sys2Proof.Machine.execPrld o s
  | .prst o => Sys2Proof.Machine.execPrst o s
  | .prset o => Sys2Proof.Machine.execPrset o s
  | .prstat o => Sys2Proof.Machine.execPrstat o s
  | .csrr o => Sys2Proof.Machine.execCsrr o s
  | .csrw o => Sys2Proof.Machine.execCsrw o s
  | .csrs o => Sys2Proof.Machine.execCsrs o s
  | .csrc o => Sys2Proof.Machine.execCsrc o s
  | .memoryRequest m => Sys2Proof.Machine.execMemoryRequest m s
  | .negativeAcknowledgement m => Sys2Proof.Machine.execNegativeAcknowledgement m s
  | .feRequest m => Sys2Proof.Machine.execFeRequest m s
  | .waiterRetry m => Sys2Proof.Machine.execWaiterRetry m s
  | .atomicRequest m => Sys2Proof.Machine.execAtomicRequest m s
  | .replyArrival m poison => Sys2Proof.Machine.execReplyArrival m poison s
  | .acknowledgement m => Sys2Proof.Machine.execAcknowledgement m s
  | .deferredFault j => Sys2Proof.Machine.execDeferredFault j s
  | .flushProbe m => Sys2Proof.Machine.execFlushProbe m s
  | .boundaryEvaluation j => Sys2Proof.Machine.execBoundaryEvaluation j s
  | .formulaCheck j => Sys2Proof.Machine.execFormulaCheck j s
  | .alignTimeout j => Sys2Proof.Machine.execAlignTimeout j s
  | .quietWave j => Sys2Proof.Machine.execQuietWave j s
  | .gbarComplete j => Sys2Proof.Machine.execGbarComplete j s
  | .wfiWake j => Sys2Proof.Machine.execWfiWake j s
  | .interrupt node => Sys2Proof.Machine.execInterrupt node s
  | .watchpointMatch j => Sys2Proof.Machine.execWatchpointMatch j s
  | .channelGroup node ch => Sys2Proof.Machine.execChannelGroup node ch s
  | .channelComplete node ch => Sys2Proof.Machine.execChannelComplete node ch s
  | .channelFault node ch uncorrectable => Sys2Proof.Machine.execChannelFault node ch uncorrectable s
  | .chordClose node => Sys2Proof.Machine.execChordClose node s
  | .gmmaStart node => Sys2Proof.Machine.execGmmaStart node s
  | .gmmaComplete node => Sys2Proof.Machine.execGmmaComplete node s
  | .parcelArrival m => Sys2Proof.Machine.execParcelArrival m s
  | .parcelResend m => Sys2Proof.Machine.execParcelResend m s
  | .handlerStart node => Sys2Proof.Machine.execHandlerStart node s
  | .handlerWatchdog j => Sys2Proof.Machine.execHandlerWatchdog j s
  | .gradContribution m => Sys2Proof.Machine.execGradContribution m s
  | .recordRuleStart node => Sys2Proof.Machine.execRecordRuleStart node s
  | .prldServe m => Sys2Proof.Machine.execPrldServe m s
  | .prldRetry m => Sys2Proof.Machine.execPrldRetry m s
  | .prsetServe m => Sys2Proof.Machine.execPrsetServe m s
  | .prstatServe m => Sys2Proof.Machine.execPrstatServe m s
  | .coreGate node => Sys2Proof.Machine.execCoreGate node s
  | .doorbell p q v => Sys2Proof.Machine.execDoorbell p q v s
  | .registerWrite p off v => Sys2Proof.Machine.execRegisterWrite p off v s
  | .alloc p part => Sys2Proof.Machine.execAlloc p part s
  | .free p part => Sys2Proof.Machine.execFree p part s
  | .reside p part => Sys2Proof.Machine.execReside p part s
  | .store p part => Sys2Proof.Machine.execStore p part s
  | .hostint p v => Sys2Proof.Machine.execHostint p v s
  | .queueNop p q => Sys2Proof.Machine.execQueueNop p q s
  | .launch p q => Sys2Proof.Machine.execLaunch p q s
  | .wait p q => Sys2Proof.Machine.execWait p q s
  | .signal p q => Sys2Proof.Machine.execSignal p q s
  | .cancel p q n => Sys2Proof.Machine.execCancel p q n s
  | .entryCompletion p q n => Sys2Proof.Machine.execEntryCompletion p q n s
  | .slotAssignment p q => Sys2Proof.Machine.execSlotAssignment p q s
  | .grainPlacement p l n core => Sys2Proof.Machine.execGrainPlacement p l n core s
  | .launchShare p l dest => Sys2Proof.Machine.execLaunchShare p l dest s
  | .sliceWarning p part => Sys2Proof.Machine.execSliceWarning p part s
  | .sliceEnd p part => Sys2Proof.Machine.execSliceEnd p part s
  | .partitionSwap p part next => Sys2Proof.Machine.execPartitionSwap p part next s
  | .shootCluster p part cluster => Sys2Proof.Machine.execShootCluster p part cluster s
  | .shootMailbox p part node => Sys2Proof.Machine.execShootMailbox p part node s
  | .shootHomeCache p part home => Sys2Proof.Machine.execShootHomeCache p part home s
  | .shootTephra p part => Sys2Proof.Machine.execShootTephra p part s
  | .shootAcknowledgement p part => Sys2Proof.Machine.execShootAcknowledgement p part s
  | .traceRecord p => Sys2Proof.Machine.execTraceRecord p s
  | .periodicSync node => Sys2Proof.Machine.execPeriodicSync node s
  | .sampleMark j => Sys2Proof.Machine.execSampleMark j s
  | .monitorSample p => Sys2Proof.Machine.execMonitorSample p s
  | .tctl p secure v => Sys2Proof.Machine.execTctl p secure v s
  | .mon p secure n v => Sys2Proof.Machine.execMon p secure n v s
  | .stopCore p secure => Sys2Proof.Machine.execStopCore p secure s
  | .stopPartition p secure => Sys2Proof.Machine.execStopPartition p secure s
  | .resume p secure => Sys2Proof.Machine.execResume p secure s
  | .stepInstruction p secure => Sys2Proof.Machine.execStepInstruction p secure s
  | .stepActivation p secure => Sys2Proof.Machine.execStepActivation p secure s
  | .boot p => Sys2Proof.Machine.execBoot p s
  | .recoveryFetch p => Sys2Proof.Machine.execRecoveryFetch p s
  | .quote p nonce => Sys2Proof.Machine.execQuote p nonce s
  | .firmwareUpdate p => Sys2Proof.Machine.execFirmwareUpdate p s
  | .timeFlit p => Sys2Proof.Machine.execTimeFlit p s
  | .laneFailure p l out => Sys2Proof.Machine.execLaneFailure p l out s
  | .telemetryRefresh p n unit v => Sys2Proof.Machine.execTelemetryRefresh p n unit v s
  | .errorLogMove p => Sys2Proof.Machine.execErrorLogMove p s
  | .dramScrubError p addr => Sys2Proof.Machine.execDramScrubError p addr s
  | .coreRetire p core => Sys2Proof.Machine.execCoreRetire p core s
  | .rowSpare p chan bank row => Sys2Proof.Machine.execRowSpare p chan bank row s
  | .bankSpare p chan bank => Sys2Proof.Machine.execBankSpare p chan bank s
  | .mcFirmwareUpdate p => Sys2Proof.Machine.execMcFirmwareUpdate p s
  | .currentCheck p die amps => Sys2Proof.Machine.execCurrentCheck p die amps s
  | .powerWindow p die watts => Sys2Proof.Machine.execPowerWindow p die watts s
  | .thermalStep p die t => Sys2Proof.Machine.execThermalStep p die t s
  | .thermalClamp p die t => Sys2Proof.Machine.execThermalClamp p die t s
  | .thermalTrip p die t => Sys2Proof.Machine.execThermalTrip p die t s
  | .setPl p pl ceil => Sys2Proof.Machine.execSetPl p pl ceil s
  | .setPcap p part cap ceil => Sys2Proof.Machine.execSetPcap p part cap ceil s
  | .deviceReset p secure => Sys2Proof.Machine.execDeviceReset p secure s
  | .linksReset p secure => Sys2Proof.Machine.execLinksReset p secure s
  | .gatedCoreWake node => Sys2Proof.Machine.execGatedCoreWake node s
  | .powerLoss p => Sys2Proof.Machine.execPowerLoss p s
  | .mililoLinkDown p l => Sys2Proof.Machine.execMililoLinkDown p l s
  | .mililoLinkUp p l => Sys2Proof.Machine.execMililoLinkUp p l s
  | .partcmdComplete p => Sys2Proof.Machine.execPartcmdComplete p s
  | .mcRestartComplete p => Sys2Proof.Machine.execMcRestartComplete p s
  | .queueEntryBadKind p q => Sys2Proof.Machine.execQueueEntryBadKind p q s
  | .illegalInstruction => Sys2Proof.Machine.execIllegalInstruction s

end Sys2Proof.Machine
end

