-- ==== Sys2Proof/Machine/Cycle.lean ====
section
/-! DEFINITION. How time passes, how a core fetches and issues for one of its contexts, and the order in which the parts of
the domain take their turns when the agenda names none (R5, R69 to R71, R171, R283, R364, R387, R393, R395). -/

namespace Sys2Proof

/-- What may stand on the agenda: the events that no fetch brings about. -/
def Instr.happens (e : Instr) : Bool :=
  match e with
  | .illegalInstruction => false
  | e => e.enc.isNone

end Sys2Proof

namespace Sys2Proof.Machine

/-! ### Time (R3, R5, R171, R364, R386) -/

/-- The cycles of a bank count for the watchdog while it is the active MSG bank; those of WORK while it runs a record rule. -/
def Img.countCycles (m : Img) (k : Nat) : Img :=
  let m : Img :=
    if m.msgH.act ≠ .idle then { m with msgH := { m.msgH with hcount := m.msgH.hcount + k } }
    else if m.msgL.act ≠ .idle then { m with msgL := { m.msgL with hcount := m.msgL.hcount + k } }
    else m
  match m.work.act with
  | .rule _ _ => { m with work := { m.work with hcount := m.work.hcount + k } }
  | _ => m

/-- PERFR's counter of the cycles that a context spends in its wait, if any (R244). -/
def Ctx.stallCounter (c : Ctx) : Option Nat :=
  match c.wait with
  | .fence | .gfence | .flush _ | .quiet _ _ _ | .gbar _ | .align _ _ _ => some 3
  | .hwait | .hspace | .room => some 4
  | .wfi _ => some 9
  | _ => if c.stalled.any c.pendingRegs.contains then some 2 else none

/-- `k` cycles count in an instance's counters. -/
def Ctx.countStall (c : Ctx) (k : Nat) : Ctx :=
  match c.stallCounter with
  | some n => if c.act = .idle || k = 0 then c else c.countBy n k
  | none => c

def Img.countStalls (m : Img) (k : Nat) : Img :=
  { m with main := m.main.countStall k, work := m.work.countStall k, msgL := m.msgL.countStall k, msgH := m.msgH.countStall k }

/-- `n` units of 0.4 ns pass at a node whose die runs at `mhz`: CYCLE advances unless the clock is stopped. -/
def Node.pass (g : Node) (n mhz : Nat) : Node :=
  let t := g.frac + n * mhz
  let k := t / 2500
  if g.clkOff then { g with issued := g.issued && k == 0, frac := t % 2500 }
  else
    let live := if g.stop.isSome then g.live else (g.live.countCycles k).countStalls k
    { g with issued := g.issued && k == 0, frac := t % 2500, cycle := g.cycle + BitVec.ofNat 64 k, live := live }

/-- The clock of a die, in MHz. -/
def State.mhz (s : State) (p die : Nat) : Nat := (Table.get ({} : DiePower) (s.pkg p).dies die).mhz

/-- `n` units of 0.4 ns pass in the whole domain; the cores of a package that has not booted or has tripped stand still (R396, R407). -/
def State.passTime (s : State) (n : Nat) : State :=
  { s with
    nodes := s.nodes.map fun g => (g.1, if s.up (pkgOf g.1) then g.2.pass n (s.mhz (pkgOf g.1) (dieOf g.1)) else g.2)
    pkgs := s.pkgs.map fun p =>
      let t := p.2.gtFrac + 2 * n
      if p.2.powered then (p.1, { p.2 with gt := p.2.gt + BitVec.ofNat 64 (t / 5), gtFrac := t % 5 }) else p }

/-- Time passes, and the wakes that fall due happen. -/
def State.elapse (s : State) (n : Nat) : State := (s.passTime n).wakeDue

/-- The units that hold a cycle at a clock. -/
def cycleUnits (mhz : Nat) : Nat := (2500 + mhz - 1) / mhz

/-! ### Breakpoints (R393) -/

/-- The breakpoints that match before the instruction at the program counter, lowest first; once their records and their stop are made,
those that trap. -/
def State.breaks (s : State) (i : Inst) : List (Nat × Nat) :=
  let d := s.dbg i
  let c := s.ctx i
  if c.wait != .none || d.bpc.isEmpty then []
  else (List.range 4).filterMap fun n =>
    let ctl : Word := Table.get 0 d.bpc n
    let act := natBits ctl.toNat 22 2
    if s.armed i ctl && Table.get 0 d.bpa n == c.pc && (!c.bpDone || act == 2) then some (n, act) else none

/-- Each takes its effect before the instruction executes: the trace records, then a stop, and, when the core goes on, the debug trap of
the lowest that asks for one. The flag tells whether the instruction still executes. -/
def State.breakpoints (s : State) (i : Inst) : State × Bool :=
  match s.breaks i with
  | [] => (s, true)
  | l =>
    let pc := (s.ctx i).pc
    let s := (l.filter fun b => b.2 == 0).foldl (fun s b => s.matchRecord none i b.1 0 pc pc) s
    let s := s.modCtx i fun c => { c with bpDone := true }
    if l.any fun b => b.2 == 1 then (s.stopNode i.node 1 (some i.ctx), false)
    else
      match l.find? fun b => b.2 == 2 with
      | none => (s, true)
      | some (n, _) => (s.takeTrap i { cause := .debug, code := 0xF0 + n }, false)

/-! ### Fetching (R69 to R71) -/

/-- The instruction at the program counter: a trap of its fetch, an unlisted pattern (`none`), or an instruction. The length
and the major come from the base word, before any further word is fetched. The base word of a delay slot, which its branch has read for
the length, is fetched again here: a fault that arises between the two is the slot's, with DSB = 1 (R82, DEDUCED, log 56). -/
def State.fetchInstr (s : State) (i : Inst) : State × Read (Option Instr) :=
  let pc := (s.ctx i).pc
  if pc.toNat % 4 ≠ 0 then (s, .error { cause := .alignment, eaddr := pc })
  else
    match s.fetch i pc with
    | (s, .error t) => (s, .error t)
    | (s, .held) => (s, .held)
    | (s, .ok base) =>
      if reservedMajor base then (s, .ok none)
      else
        match s.fetchWords i (pc + 4) (lenOfBase base / 4 - 1) with
        | (s, .error t) => (s, .error t)
        | (s, .held) => (s, .held)
        | (s, .ok rest) =>
          match decodeWords base (rest % 2 ^ 64) (rest / 2 ^ 64) with
          | .ok x => (s, .ok (some x))
          | .error _ => (s, .ok none)

/-! ### After an instruction -/

/-- Instructions that an instance has retired. -/
def Ctx.count0 (c : Ctx) : Word := Table.get 0 c.perf 0

/-- An attempt to issue was granted: the instruction retired, trapped, or began to wait. -/
def State.granted (s t : State) (i : Inst) : Bool :=
  let b := s.ctx i
  let c := t.ctx i
  c.count0 != b.count0 || Table.get 0 c.perf 11 != Table.get 0 b.perf 11 || (b.wait == .none && c.wait != .none)

/-- An instruction that waits is kept by its context. -/
def keeping (i : Inst) (x : Instr) (o : Host.Outcome State Fault Refusal) : Host.Outcome State Fault Refusal :=
  match o with
  | .next s => .next (s.modCtx i fun c => { c with insn := if c.wait = .none then none else some x })
  | .fault f => .fault f
  | .refused r => .refused r

/-- The instruction of an instance: the one that has issued and waits, which is executed again without a fetch, else the one at the
program counter, once it is fetched (R227). -/
def State.attempt (s : State) (i : Inst) : Host.Outcome State Fault Refusal :=
  match if (s.ctx i).wait = .none then none else (s.ctx i).insn with
  | some x => keeping i x (exec x s)
  | none =>
    match s.fetchInstr i with
    | (s, .error t) => .next (s.takeTrap i t)
    | (s, .held) => .next s
    | (s, .ok none) => exec .illegalInstruction s
    | (s, .ok (some x)) => keeping i x (exec x s)

/-- A context is ready in this cycle: nothing waits at its boundary, its next instruction is fetched, and an issue would be granted
(R283). -/
def State.isReady (s : State) (i : Inst) : Bool :=
  let c := s.ctx i
  s.mayIssue i && !c.late && c.changed.isEmpty && (s.due i).isNone &&
    match { s with cur := i }.attempt i with
    | .next t => s.granted t i
    | _ => true

/-- The contexts of a core from its pointer on; the active bank stands for MSG. -/
def State.issueOrder (s : State) (g : Nat) : List CtxId :=
  let bank : CtxId := if (s.live g).msgH.act = .idle then .msgL else .msgH
  match (s.node g).ptr with
  | .main => [.main, .work, bank]
  | .work => [.work, bank, .main]
  | _ => [bank, .main, .work]

/-- A ready context stands before an instance in its core's order (R283, R285). -/
def State.outranked (s : State) (i : Inst) : Bool :=
  ((s.issueOrder i.node).takeWhile (· != i.ctx)).any fun k => s.isReady ⟨i.node, k⟩

/-- Count what an issue of an instance costs the others: a cycle in which they were ready (R244). -/
def State.countReady (before s : State) (i : Inst) : State :=
  ((before.issueOrder i.node).filter fun k => k != i.ctx && before.isReady ⟨i.node, k⟩).foldl
    (fun s k => s.modCtx ⟨i.node, k⟩ fun c => c.count 1) s

/-- The issue slot of a granted instruction: the order among contexts moves on, and the counters follow (R244, R283). -/
def State.grantSlot (before s : State) (i : Inst) : State :=
  let nextPtr : CtxId := match i.ctx with
    | .main => .work
    | .work => .msgL
    | _ => .main
  let s := before.countReady s i
  let trapped := Table.get 0 (s.ctx i).perf 11 != Table.get 0 (before.ctx i).perf 11
  let s := if trapped then s.modCtx i fun c => c.count 10 else s
  s.modNode i.node fun n => { n with ptr := nextPtr, issued := true }

/-- Sampling after an instruction that is `left`: it counts, a mark that is due while one is in flight is skipped, and the marked
instruction writes its record when it retires (R387). -/
def State.sampled (before s : State) (i : Inst) (retired left : Bool) : State :=
  let t := (s.pkg (pkgOf i.node)).tephra
  let n := s.node i.node
  let k := if left then n.sample + 1 else n.sample
  let late := n.mark.isSome && t.sper + t.sper / 4 ≤ k
  let s := s.modNode i.node fun n => { n with sample := if late then 0 else k }
  match n.mark with
  | some (j, pc) =>
    if j == i && pc == (before.ctx i).pc && left then
      let s := s.modNode i.node fun n => { n with mark := none }
      if retired then
        let (x, s) := s.free
        let (y, s) := s.free
        s.emit i 4 pc x y
      else s
    else s
  | none => s

/-- After an attempt, from the state before: the issue slot, sampling, and the end of a single step; a step of a WORK activation ends at
DONE (R283, R387, R395). -/
def State.settle (before s : State) (i : Inst) : State :=
  let b := before.ctx i
  let c := s.ctx i
  let retired := c.count0 != b.count0
  let granted := before.granted s i
  let left := retired || (granted && c.wait == .none)
  let s := if granted then before.grantSlot s i else s
  let s := before.sampled s i retired left
  let s : State := match (s.node i.node).stepping with
    | some (k, act) =>
      let ended := if act then (b.act != c.act && (c.act == .idle || c.act == .loop)) || c.acts != b.acts
        else left && c.dslot.isNone
      if k == i.ctx && ended then s.modNode i.node fun n => { n with stepping := none } else s
    | none => s
  s.clockCheck i.node

/-- `settle` after an outcome. -/
def settled (before : State) (i : Inst) (o : Host.Outcome State Fault Refusal) : Host.Outcome State Fault Refusal :=
  match o with
  | .next s => .next (before.settle s i)
  | .fault f => .fault f
  | .refused r => .refused r

/-! ### One issue (R230, R231, R283) -/

/-- The core has one issue in each cycle: a second one comes a cycle later. -/
def State.nextCycle (s : State) (g : Nat) : State :=
  if (s.node g).issued then s.elapse (cycleUnits (s.mhz (pkgOf g) (dieOf g))) else s

/-- An instruction at the far end of its period's window is marked when none has been (R387). -/
def State.lastMark (s : State) (i : Inst) : State :=
  let t := (s.pkg (pkgOf i.node)).tephra
  let n := s.node i.node
  if t.tctl.getLsbD 0 && t.tctl.getLsbD 1 && n.mark.isNone && t.sper + t.sper / 4 ≤ n.sample + 1 then s.mark i else s

/-- Run the instruction at the program counter of the current instance. -/
def State.runNext (s : State) : Host.Outcome State Fault Refusal :=
  let i := s.cur
  match (s.breakpoints i).2 with
  | false => .next ((s.unmarked i).breakpoints i).1
  | true =>
    let t := (s.breakpoints i).1.lastMark i
    settled t i (t.attempt i)

/-- The event of a condition that is due at a boundary. -/
def Pend.take (p : Pend) (i : Inst) (s : State) : Host.Outcome State Fault Refusal :=
  match p with
  | .mcheck _ | .deferred _ => execDeferredFault i s
  | .fcheck _ => execFormulaCheck i s
  | .watchdog => execHandlerWatchdog i s
  | .watch _ _ => execWatchpointMatch i s
  | .interrupt _ => execInterrupt i.node s

/-- One issue for an instance: a handler that is due on its core first, then what its boundary asks for, else its next instruction when no
ready context stands before it (R169, R231, R283). A WFI that is over ends first (R238). -/
def State.issueFor (s : State) (i : Inst) : Host.Outcome State Fault Refusal :=
  let s := { s with cur := i }
  let s := if (s.ctx i).late then s.modCtx i fun c => { c with late := false } else s
  let s := if s.wfiOver i then s.endWfi i else s
  if (s.handlerDue i.node).isSome then execHandlerStart i.node s
  else if !s.mayIssue i then .next s
  else if (s.ctx i).atBoundary && !(s.ctx i).changed.isEmpty then execBoundaryEvaluation i s
  else
    match s.due i with
    | some p => p.take i s
    | none =>
      let s := s.nextCycle i.node
      if s.outranked i then .next s else s.runNext

/-! ### The default order (DESIGN CHOICE, log 4) -/

/-- One thing that may happen next. -/
abbrev Move := State → Host.Outcome State Fault Refusal

/-- The event that moves a message on. -/
def Msg.moves (m : Msg) : List Move :=
  match m.phase, m.req with
  | .req, .load _ | .req, .store _ _ => [execMemoryRequest m.id]
  | .req, .fe _ _ => [execFeRequest m.id]
  | .req, .atom _ _ _ _ _ _ => [execAtomicRequest m.id]
  | .req, .flush => [execFlushProbe m.id]
  | .req, .parcel _ => [execParcelArrival m.id]
  | .req, .grad _ _ _ _ => [execGradContribution m.id]
  | .req, .prld _ _ => [execPrldServe m.id]
  | .req, .prset _ _ => [execPrsetServe m.id]
  | .req, .prstat => [execPrstatServe m.id]
  | .retry, .parcel _ => [execParcelResend m.id]
  | .retry, .prld _ _ => [execPrldRetry m.id]
  | .retry, _ => [execWaiterRetry m.id]
  | .waiting _, _ => []
  | .nack, _ => [execNegativeAcknowledgement m.id]
  | .ok _ _ _, _ | .refused _, _ => if m.dst = .none then [execAcknowledgement m.id] else [execReplyArrival m.id false]

/-- The events that a wait of an instance looks for. -/
def waitMoves (i : Inst) (w : Wait) : List Move :=
  match w with
  | .align _ _ _ => [execAlignTimeout i]
  | .gbar _ => [execGbarComplete i]
  | .quiet _ _ _ => [execQuietWave i]
  | .wfi _ => [execWfiWake i]
  | _ => []

/-- What a node may do next. -/
def State.nodeMoves (s : State) (g : Nat) : List Move :=
  let n := s.node g
  let m := n.live
  let tracing := (s.pkg (pkgOf g)).tephra.tctl.getLsbD 0
  let issue := ((s.issueOrder g).filter fun k => s.mayIssue ⟨g, k⟩).map fun k => (fun s => s.issueFor ⟨g, k⟩ : Move)
  let waits := [CtxId.main, .work].flatMap fun k => waitMoves ⟨g, k⟩ (m.ctx k).wait
  let chans := ([0, 1, 2, 3] : List (Fin 4)).flatMap fun (ch : Fin 4) =>
    if (m.chan ch).queue.isEmpty || (m.chan ch).stopped.isSome then []
    else [execChannelGroup g ch, execChannelComplete g ch, execChannelFault g ch false]
  let matrix : List Move := match m.gmma with
    | none => []
    | some x => match x.phase with
      | .arrived => [execChordClose g]
      | .closed _ | .reading _ _ _ => [execGmmaStart g]
      | .running _ _ _ => [execGmmaComplete g]
  let starts : List Move := (if m.nextHandler.isSome then [execHandlerStart g] else []) ++
    (if n.lock.isEmpty then [] else [execRecordRuleStart g]) ++ (if (s.irqOf g).isSome then [execInterrupt g] else []) ++
    (if n.gated && n.waking then [execGatedCoreWake g] else [])
  let trace : List Move := if tracing then [execPeriodicSync g, execSampleMark ⟨g, n.ptr⟩] else []
  issue ++ waits ++ chans ++ matrix ++ starts ++ trace

/-- The next entry of a queue, as an event. -/
def State.queueMoves (s : State) (p q : Nat) : List Move :=
  match (s.nextEntry p q).2 with
  | none => []
  | some (_, none) => [execQueueEntryBadKind p q]
  | some (_, some w) =>
    match natBits (w.getD 0 0) 0 4 with
    | 0 => [execQueueNop p q]
    | 1 => [execLaunch p q]
    | 2 => [execWait p q]
    | 3 => [execSignal p q]
    | 4 => []
    | _ => [execQueueEntryBadKind p q]

/-- The next grain of a launch that has no core yet, with the cores that may take it. -/
def State.placements (s : State) (p : Nat) (l : Launch) : List Move :=
  match (List.range (l.grains.length + 1)).find? fun n => n < l.total && !l.grains.any fun g => g.1 == n with
  | none => []
  | some n => ((s.coresOf p l.part).filter (s.freeMain l.part)).map fun c => execGrainPlacement p l.id n c

/-- What the scheduler of a package may do next. -/
def State.schedMoves (s : State) (p : Nat) : List Move :=
  let k := s.pkg p
  let queues := (k.queues.map (·.1)).flatMap fun q =>
    [execSlotAssignment p q] ++ s.queueMoves p q ++ (s.qdesc p q).visible.map (execCancel p q ·) ++
      (s.queue p q).open_.map fun e => execEntryCompletion p q e.pos
  let launches := k.launches.flatMap fun l => s.placements p l ++ (s.span p l.part).map (execLaunchShare p l.id ·)
  let parts := s.valids p
  let slices := parts.flatMap fun q => [execSliceWarning p q, execSliceEnd p q]
  let swaps := parts.flatMap fun q => parts.map fun r => execPartitionSwap p q r
  queues ++ launches ++ slices ++ swaps

/-- What a package may do next. -/
def State.pkgMoves (s : State) (p : Nat) : List Move :=
  let k := s.pkg p
  if !k.powered then []
  else if !k.fw.booted then [execBoot p]
  else
    let shoots := k.shoots.flatMap fun x =>
      x.clusters.map (execShootCluster p x.part ·) ++ x.mail.map (fun m => execShootMailbox p x.part m.1) ++
        x.homes.map (execShootHomeCache p x.part ·) ++ (if x.tephra then [execShootTephra p x.part] else []) ++
        [execShootAcknowledgement p x.part]
    (if k.dieBuf.isEmpty then [] else [execErrorLogMove p]) ++ (if k.partBusy.isSome then [execPartcmdComplete p] else []) ++
      (if k.tephra.flight.isEmpty then [] else [execTraceRecord p]) ++ (if k.tephra.mons.isEmpty then [] else [execMonitorSample p]) ++
      (if k.anyUp then [execTimeFlit p] else []) ++ shoots ++ (if k.sched then s.schedMoves p else [])

/-- Everything that may be tried next; the last choice lets 0.4 ns pass. -/
def State.moves (s : State) : List Move :=
  s.net.flatMap Msg.moves ++ (s.nodes.map (·.1)).flatMap s.nodeMoves ++ (s.pkgs.map (·.1)).flatMap s.pkgMoves ++
    [fun s => .next (s.elapse 1)]

/-- With an empty agenda the parts take their turns. -/
def State.turnOver (s : State) : Host.Outcome State Fault Refusal :=
  let l := s.moves
  l.getD (s.rotor % l.length) .next { s with rotor := s.rotor + 1 }

def State.happen (s : State) (e : Instr) : Host.Outcome State Fault Refusal :=
  if e.happens then exec e s else .next s

/-- The grants of one instruction only are split. -/
def unsplit (o : Host.Outcome State Fault Refusal) : Host.Outcome State Fault Refusal :=
  match o with
  | .next s => .next { s with split := false }
  | .fault f => .fault f
  | .refused r => .refused r

/-- Take one choice. -/
def State.takeChoice (s : State) (c : Choice) : Host.Outcome State Fault Refusal :=
  match c with
  | .issue i => s.issueFor i
  | .split i => unsplit ({ s with split := true }.issueFor i)
  | .upset p => .next (s.upset p)
  | .late i => .next (s.modCtx i fun c => { c with late := true })
  | .event e => s.happen e
  | .lapse n => .next (s.elapse n)

/-- One step: the head of the agenda, else the part whose turn it is. -/
def State.advance (s : State) : Host.Outcome State Fault Refusal :=
  match s.agenda with
  | c :: rest => { s with agenda := rest }.takeChoice c
  | [] => s.turnOver

end Sys2Proof.Machine
end

