-- ==== Sys2Proof/Machine/Load.lean ====
section
/-! DEFINITION. Placing one instruction where package 0's first core fetches next: what system software, the scheduler and a
launch bring about before a program runs (R281, R350, R353, R366; DESIGN CHOICE, log 1). Nothing here is an operation of the machine. -/

namespace Sys2Proof.Machine

/-- Write words of 4 bytes into bonded DRAM. -/
def State.putCode (s : State) (a : Nat) : Nat → Nat → State
  | 0, _ => s
  | n + 1, w => State.putCode (s.writePlace (.dram a) 4 (w % 2 ^ 32)) (a + 4) n (w / 2 ^ 32)

/-- A program counter that a 1 GiB page can hold with what follows it. -/
def loadPc (pc : Word) : Word :=
  if pc.toNat % 4 = 0 ∧ pc.toNat < 2 ^ 48 ∧ pc.toNat % 2 ^ 30 + 64 ≤ 2 ^ 30 then pc else 0

/-- MAIN between instructions, with an activation and nothing pending at its boundary. -/
def Ctx.ready (c : Ctx) : Ctx :=
  { c with
    act := if c.act = .idle then .loop else c.act, wait := .none, dslot := none, deferred := [], fcheck := none
    mcheck := [], watch := [], stalled := [], late := false, changed := [], hwdog := 0, pc := loadPc c.pc }

/-- The core awake and running an image of a partition, with no entry of that partition in its route TLB. -/
def Node.ready (n : Node) (part : Nat) : Node :=
  let keep (m : Img) : Bool := m.part != some part
  { n with
    live := { n.live with part := some part, main := n.live.main.ready }
    shadows := n.shadows.filter keep, stored := n.stored.filter keep
    irq0 := n.irq0.filter (· != part), irq1 := n.irq1.filter (· != part)
    ns := false, gated := false, stop := none, stepping := none, issued := false, ptr := .main
    tlb := n.tlb.filter fun e => e.part != part }

/-- The package running, its caches without entries of the partition, and no debug control on the instance. -/
def Pkg.ready (k : Pkg) (part key : Nat) : Pkg :=
  let keep (t : Table (List TlbEntry)) : Table (List TlbEntry) := t.map fun x => (x.1, x.2.filter fun e => e.part != part)
  { k with
    powered := true, fw := { k.fw with booted := true }, dies := k.dies.map fun d => (d.1, { d.2 with trip := false })
    l2 := keep k.l2, homes := keep k.homes, dbg := Table.erase k.dbg key }

/-- A leaf that admits every access to a frame of a die: RC, pinned (R366). -/
def loadLeaf (die : Nat) : Nat := 0x3F + 1 * 2 ^ 6 + 1 * 2 ^ 8 + die * 2 ^ 10

/-- A table entry (R366). -/
def loadTable (dpa : Nat) : Nat := 2 ^ 63 + dpa + 1

/-- The partition's descriptor, its page table of two entries and the code. The three lie in different dies. -/
def State.putProgram (s : State) (part : Nat) (pc : Word) (w : Nat) : State :=
  let desc := (s.pkg 0).ptbase.toNat + 256 * part
  let k := desc / 2 ^ 35
  let table := (k + 1) % 4 * 2 ^ 35
  let die := (k + 2) % 4
  let put (s : State) (a x : Nat) : State := s.setDramWord 0 a (BitVec.ofNat 64 x)
  let s := put s (desc + 8 * 0) 1
  let s := put s (desc + 8 * 2) (2 ^ 63)
  let s := put s (desc + 8 * 11) table
  let s := put s (table + 8 * natBits pc.toNat 39 9) (loadTable (table + 0x1000))
  let s := put s (table + 0x1000 + 8 * natBits pc.toNat 30 9) (loadLeaf die)
  s.putCode (dramKey 0 (die * 2 ^ 35 + pc.toNat % 2 ^ 30)) 5 w

/-- The whole of it: the next step issues for MAIN of node 0. -/
def State.loadFirst (s : State) (w : Nat) : State :=
  let i : Inst := ⟨0, .main⟩
  let part := (s.live 0).part.getD 0
  let s := (s.modNode 0 fun n => n.ready part).modPkg 0 fun k => k.ready part i.key
  let s := s.putProgram part (s.ctx i).pc w
  { s with agenda := [.issue i] }

end Sys2Proof.Machine
end

