-- ==== Sys2Proof/Machine/Step.lean ====
section
/-! DEFINITION. One step of the machine, and the placing of an instruction for the next one. -/

namespace Sys2Proof.Machine

/-- One step: the head of the agenda, else the part of the domain whose turn it is (DESIGN CHOICE, log 4). -/
def step (s : State) : Host.Outcome State Fault Refusal := s.advance

/-- `s` with an instruction whose bits are `w`, of `nbits` bits with zeros above them, where core 0 of package 0 fetches
next, and that core's turn next (DESIGN CHOICE, log 1). -/
def State.withFetchWord (s : State) (nbits w : Nat) : State := s.loadFirst (w % 2 ^ nbits)

end Sys2Proof.Machine
end

