-- ==== Sys2Proof/Machine/Window.lean ====
section
/-! DEFINITION. What reads of the device's registers give: PF BAR0, a virtual function's BAR0 and the Tephra window (R339, R340,
R354, R362, R383, R391 to R393). A read changes nothing. -/

namespace Sys2Proof.Machine

/-! ### The functions' registers (R339, R340, R354, R362) -/

/-- DEVID: 0x0F9B and the stepping (R340). -/
def devid (p : Nat) : Nat := 0x0F9B + (Config.stepping p).toNat * 2 ^ 16

/-- The links of a package that are up, a bit for each. -/
def Pkg.linksUp (k : Pkg) : Nat := (((List.range 8).filter fun l => (Table.get ({} : Link) k.links l).up).map fun l => 2 ^ l).sum

/-- A read of 8 bytes of PF BAR0: what R340 and R362 list, and zero elsewhere. -/
def State.readBar0 (s : State) (p off : Nat) : Word :=
  let k := s.pkg p
  BitVec.ofNat 64 (match off with
    | 0x0000 => devid p
    | 0x0010 => k.qtbase.toNat
    | 0x0018 => k.ptbase.toNat
    | 0x0020 => (if k.sched then 1 else 0) + k.defslice * 2 ^ 8
    | 0x0048 => (if k.partBusy.isSome then 1 else 0) + k.partResult * 2 ^ 8
    | 0x0100 => p % 16 + k.mask % 2 ^ 16 * 2 ^ 16 + k.linksUp * 2 ^ 32 + if k.tsync then 2 ^ 40 else 0
    | _ => if 0x200 ≤ off ∧ off < 0x280 ∧ off % 8 = 0 then Table.get 0 k.lroute ((off - 0x200) / 8) else 0)

/-- The partition that a virtual function is bound to: that of its first enabled queue (R339, R353, DEDUCED, log 60). -/
def State.vfPart (s : State) (p n : Nat) : Option Nat :=
  ((List.range 128).find? fun k => (s.qdesc p (128 * n + k)).en).map fun k => (s.qdesc p (128 * n + k)).part

/-- A read of VF n's BAR0: its status at offset 0. -/
def State.readVf (s : State) (p n off : Nat) : Word :=
  match s.vfPart p n with
  | some q => if off = 0 then BitVec.ofNat 64 (q + 2 ^ 8) else 0
  | none => 0

/-! ### The Tephra window (R383) -/

/-- A word of the delay account table (R391). -/
def Delay.word (d : Delay) (k : Nat) : Word :=
  match k with
  | 0 => d.sender ||| 1
  | 1 => BitVec.ofNat 64 d.count
  | 2 => BitVec.ofNat 64 d.transit
  | _ => BitVec.ofNat 64 (d.run * 2 ^ 32 + d.wait)

/-- The debug registers of a context (R393). -/
def Dbg.read (d : Dbg) (off : Nat) : Word :=
  let n := off % 32 / 8
  match off / 32 with
  | 0 => Table.get 0 d.bpa n
  | 1 => Table.get 0 d.bpc n
  | 2 => Table.get 0 d.wpb n
  | 3 => Table.get 0 d.wpl n
  | 4 => Table.get 0 d.wpc n
  | _ => 0

/-- DSTAT of a core (R383). -/
def Node.dstat (n : Node) : Word :=
  match n.stop with
  | some t => BitVec.ofNat 64 (1 + 2 * t.reason)
  | none => 0

/-- The results of a monitor: its minimum and maximum (R392). -/
def Monitor.word1 (m : Monitor) : Word := BitVec.ofNat 64 (m.lo + m.hi * 2 ^ 32)

/-- Two bins of a monitor, as 32-bit counts (R392). -/
def Monitor.binPair (m : Monitor) (k : Nat) : Word := BitVec.ofNat 64 (Table.get 0 m.bins (2 * k) + Table.get 0 m.bins (2 * k + 1) * 2 ^ 32)

/-- A session that may not see a node's debug state reads zero (R383). -/
def State.asSession (s : State) (p : Nat) (secure : Bool) (g : Option Nat) (w : Word) : Word :=
  match g with
  | some g => if s.session p secure g then w else 0
  | none => if (s.pkg p).sessions then w else 0

/-- A read of 8 bytes of the Tephra window by a session of a world. -/
def State.readTephra (s : State) (p : Nat) (secure : Bool) (off : Nat) : Word :=
  let t := (s.pkg p).tephra
  let open_ (w : Nat) : Word := s.asSession p secure none (BitVec.ofNat 64 w)
  let sel (f : Inst → Word) : Word := match t.sel p with
    | some i => s.asSession p secure (some i.node) (f i)
    | none => 0
  let mon (n : Nat) (f : Monitor → Word) : Word :=
    let m := Table.get {} t.mons n
    s.asSession p secure (monNode p m.ctl) (f m)
  match off with
  | 0x000 => open_ t.tctl.toNat
  | 0x008 => open_ t.tbase.toNat
  | 0x010 => open_ t.tsize
  | 0x018 => open_ (t.placed % (t.tsize * 4096))
  | 0x020 => open_ t.tloss
  | 0x028 => open_ t.sper
  | 0x030 => open_ t.tsel.toNat
  | 0x040 => sel fun i => (s.node i.node).dstat
  | _ =>
    if off < 0x100 then 0
    else if off < 0x200 then mon ((off - 0x100) / 16) fun m => if off % 16 = 0 then m.ctl else m.word1
    else if 0x400 ≤ off ∧ off < 0x800 then mon ((off - 0x400) / 64) fun m => m.binPair (off % 64 / 8)
    else if 0x800 ≤ off ∧ off < 0x8A0 then sel fun i => (Table.get {} (s.pkg p).dbg i.key : Dbg).read (off - 0x800)
    else if 0x1000 ≤ off ∧ off < 0x1800 then
      sel fun i => match (s.node i.node).delays[(off - 0x1000) / 32]? with
        | some d => d.word (off % 32 / 8)
        | none => 0
    else 0

end Sys2Proof.Machine
end

