-- ==== Sys2Proof/Safety.lean ====
section
/-! DEFINITION. The terms in which claims are stated: an instruction that may issue, what the end of an instruction leaves
alone, bytes that stay, memory in canonical form, and a step that stops. -/

namespace Sys2Proof.Machine

/-- The current instance may issue an instruction with these uses: no check of R230 that stands before its effect fails, no
register it uses is pending (R92), and none it reads is poisoned (R233). -/
def State.ready (s : State) (u : Use) : Prop :=
  s.precheck u = none ∧ (s.ctx s.cur).interlocked u = false ∧ (s.ctx s.cur).poisonedAt u.reads = none

/-- The context of the current instance. -/
abbrev State.now (s : State) : Ctx := s.ctx s.cur

/-- The instruction begins: the context does not stand between two reads of it (R247). -/
def Ctx.begins (c : Ctx) : Prop := (∀ l, c.wait ≠ .jt l) ∧ ∀ ws b, c.wait ≠ .words ws b

/-- The reads of an instruction, and its accesses to the own core, are granted in one step: the choice of this step has not split
them (log 18). -/
def State.whole (s : State) : Prop := s.split = false ∧ s.now.begins

/-- The `n` words of a record in the own scratchpad are all read in this step, and `x` is the number that they make: at once, or after
words that earlier steps have read (R247). -/
def State.ownRead (s : State) (off n x : Nat) : Prop :=
  (s.whole ∧ x = s.ownNat s.cur off (8 * n)) ∨
    ∃ ws b, s.now.wait = .words ws b ∧ 0 < ws.length ∧ ws.length < n ∧ (s.split = true → ws.length + 1 = n) ∧
      x = wordsNat (ws ++ (List.range (n - ws.length)).map fun j => BitVec.ofNat 64 (s.ownNat s.cur (off + 8 * (ws.length + j)) 8))

/-- One more word of such a record is read in this step, and others are still to be read: `ws` are the words read by then. -/
def State.ownMore (s : State) (off n : Nat) (ws : List Word) : Prop :=
  s.split = true ∧ ws.length < n ∧ ∃ got b, ((s.now.begins ∧ got = []) ∨ s.now.wait = .words got b) ∧
    ws = got ++ [BitVec.ofNat 64 (s.ownNat s.cur (off + 8 * got.length) 8)]

/-- Every byte and every FE bit of every place is as before. -/
def State.sameBytes (s t : State) : Prop := ∀ p : Place, (∀ n, t.readPlace p n = s.readPlace p n) ∧ t.full p = s.full p

/-- Every context but one is as before. -/
def State.sameOthers (s t : State) (i : Inst) : Prop := ∀ j, j ≠ i → t.ctx j = s.ctx j

/-- Registers, flags and special registers of a context that the end of an instruction leaves alone: all but the program
counter, ICTR, the loop counters, the retirement counter, the poison of written registers and what formulas write. -/
def Ctx.keeps (c d : Ctx) : Prop :=
  (∀ n, c.boundSlot n = none → d.sr n = c.sr n) ∧ d.v = c.v ∧ d.p = c.p ∧ d.d = c.d ∧ d.h = c.h ∧ d.fstat = c.fstat ∧
    d.vovf = c.vovf ∧ d.wtop = c.wtop ∧ d.srseed = c.srseed ∧ d.priv = c.priv ∧ d.ie = c.ie ∧ d.upact = c.upact ∧
    d.upvec = c.upvec ∧ d.upinfo = c.upinfo ∧ d.epc = c.epc ∧ d.ecause = c.ecause ∧ d.eaddr = c.eaddr ∧ d.einfo = c.einfo ∧
    d.btarget = c.btarget ∧ d.lbeg0 = c.lbeg0 ∧ d.lend0 = c.lend0 ∧ d.lbeg1 = c.lbeg1 ∧ d.lend1 = c.lend1 ∧ d.osc = c.osc ∧
    d.lreq = c.lreq ∧ d.rreq = c.rreq ∧ d.tag = c.tag ∧ d.seq = c.seq ∧ d.act = c.act ∧ d.groups = c.groups ∧
    d.deferred = c.deferred

/-! ### Next states of instructions that complete -/

/-- The next state of an instruction of `len` bytes that writes one s register, and of those that write a v or a p register or
nothing. -/
def State.putS (s : State) (len d : Nat) (x : Word) : State := (s.modCtx s.cur fun c => c.setS d x).retire len [.s d] .seq
def State.putV (s : State) (len d : Nat) (x : VecReg) : State := (s.modCtx s.cur fun c => c.setV d x).retire len [.v d] .seq
def State.putP (s : State) (len d : Nat) (x : BitVec 16) : State := (s.modCtx s.cur fun c => c.setP d x).retire len [.p d] .seq
def State.pass (s : State) (len : Nat) : State := s.retire len [] .seq

/-- The next state of a floating-point instruction: its flags are raised and its result written (R21, R56). -/
def State.putF (s : State) (len d : Nat) (r : Rounded) : State :=
  (s.modCtx s.cur fun c => (c.raise r.flags).setS d (BitVec.ofNat 64 r.bits)).retire len [.s d] .seq
def State.putVF (s : State) (len d : Nat) (r : VecReg × FFlags × Bool) : State :=
  (s.modCtx s.cur fun c => ((c.raise r.2.1).raiseOvf d r.2.2).setV d r.1).retire len [.v d] .seq

/-- A branch of `len` bytes outside a delay slot reads the base word of its slot first: `t` is the state after that read, `n`
the length of the slot (R80, R82). -/
def State.slotRead (s : State) (len : Nat) (t : State) (n : Nat) : Prop :=
  s.now.dslot = none ∧ s.slotLen s.cur (s.now.pc + BitVec.ofNat 64 len) = (t, .ok n)

/-- What a branch uses: it stands neither in a slot nor at the end of an active loop (R81, R111). -/
def branchUse (reads writes : List Reg) : Use := { reads := reads, writes := writes, noSlot := true, noEnd := true }

/-- The next state of a conditional branch to a displacement of bytes (R107). -/
def State.branched (t : State) (len n : Nat) (taken : Bool) (disp : Int) : State :=
  t.retire len [] (.slot (if taken then t.now.pc + BitVec.ofInt 64 disp else t.now.pc + BitVec.ofNat 64 (len + n)))

/-- The next state of an instruction that begins to wait (R283). -/
def State.waits (s : State) (w : Wait) : State := s.modCtx s.cur fun c => { c with wait := w }

/-- The accesses of a memory instruction are admitted: no acquire is open, every address is a multiple of the size, every one
is located and passes the issuer's checks, none on the own core waits, and OSC has room. `t` is the state after the
translations. -/
def State.admits (s : State) (op : MemOp) (fs : List (LaneAcc × Found)) (t : State) : Prop :=
  s.acqOpen s.cur = false ∧ (∀ a ∈ op.lanes, a.v.toNat % op.size = 0) ∧
    s.findAll s.cur op.need op.mode op.size op.lanes = (t, .ok fs) ∧ (∀ af ∈ fs, t.ownWaits s.cur op af.2 = false) ∧
    s.now.osc + oscNeed op fs ≤ 256

/-- The next state of a memory instruction whose accesses are admitted. -/
def State.access (t : State) (len : Nat) (op : MemOp) (fs : List (LaneAcc × Found)) : State :=
  (t.performAll op fs).1.retire len (t.performAll op fs).2 .seq

/-- `m` bytes at `q` share no byte with `n` bytes at `p`. Scratchpads of one node are told apart by offset alone, since two
partitions may name one image (DEDUCED, log 10). -/
def Place.apart (p : Place) (n : Nat) (q : Place) (m : Nat) : Prop :=
  match p, q with
  | .spm g _ a, .spm h _ b => g = h → a + n ≤ b ∨ b + m ≤ a
  | .dram a, .dram b => a + n ≤ b ∨ b + m ≤ a
  | .cxl a, .cxl b => a + n ≤ b ∨ b + m ≤ a
  | .host a, .host b => a + n ≤ b ∨ b + m ≤ a
  | _, _ => True

/-- Every byte but the `n` at `p` is as before. -/
def State.sameBut (s t : State) (p : Place) (n : Nat) : Prop := ∀ q m, p.apart n q m → t.readPlace q m = s.readPlace q m

/-- Every FE bit is as before. -/
def State.sameFull (s t : State) : Prop := ∀ p : Place, t.full p = s.full p

/-! ### Vectors -/

/-- `r` holds `f`, cut to the lane, in the lanes that the predicate makes active, and zero or the old lane of vd elsewhere
(R206, R207). -/
def lanesAre (c : Ctx) (d pm : Nat) (zm : Bool) (e : Nat) (f : Nat → Nat) (r : VecReg) : Prop :=
  ∀ l, l < 64 / e → lane r e l = if (c.pr pm).getLsbD (l * e / 4) then f l % 2 ^ (8 * e) else if zm then 0 else lane (c.vr d) e l

/-- An instruction completes with `f` in the active lanes of vd. -/
def writesLanes (s : State) (x : Instr) (d pm : Nat) (zm : Bool) (e : Nat) (f : Nat → Nat) : Prop :=
  ∃ r, exec x s = .next (s.putV x.len d r) ∧ lanesAre s.now d pm zm e f r

/-- An instruction completes with rounded results in the active lanes of vd; only these raise flags (R208). -/
def roundsLanes (s : State) (x : Instr) (d pm : Nat) (zm : Bool) (e : Nat) (f : Nat → Rounded) : Prop :=
  let on := activeLanes (s.now.pr pm) e
  ∃ r, exec x s = .next (s.putVF x.len d
      (r, on.foldl (fun a l => a ||| (f l).flags) 0, on.any fun l => (f l).ovf)) ∧
    lanesAre s.now d pm zm e (fun l => (f l).bits) r

/-! ### Whole states -/

/-- The memories behind the global virtual addresses are in their one canonical form. -/
def State.memWf (s : State) : Prop := s.dram.wf = true ∧ s.cxl.wf = true ∧ s.host.wf = true

/-- The scratchpads of every image of a node, live, shadow or stored, are in their one canonical form. -/
def State.padsWf (s : State) : Prop :=
  ∀ g, (s.live g).spm.wf = true ∧ ∀ m, m ∈ (s.node g).shadows ∨ m ∈ (s.node g).stored → m.spm.wf = true

/-- A step that stops: with a fault, or with a refusal. -/
def stops (o : Host.Outcome State Fault Refusal) : Prop :=
  match o with
  | .next _ => False
  | .fault _ => True
  | .refused _ => True

end Sys2Proof.Machine
end

