-- ==== Sys2Proof/Certificates/Slice0/Obligations.lean ====
section
/-! DEFINITION. The statements for the provers. -/

open Sys2Proof Sys2Proof.Machine

/-! ### Scalar integers -/

/-- R94: what each two-operand ALU instruction writes. -/
def TwoOperand : Prop :=
  ∀ (s : State) (o : Rrr), s.ready (useRrr o) →
    let a := s.now.sr o.a
    let b := s.now.opnd o.b
    let sh := b.toNat % 64
    exec (.add o) s = .next (s.putS (Instr.add o).len o.d (a + b)) ∧
    exec (.sub o) s = .next (s.putS (Instr.sub o).len o.d (a - b)) ∧
    exec (.and o) s = .next (s.putS (Instr.and o).len o.d (a &&& b)) ∧
    exec (.or o) s = .next (s.putS (Instr.or o).len o.d (a ||| b)) ∧
    exec (.xor o) s = .next (s.putS (Instr.xor o).len o.d (a ^^^ b)) ∧
    exec (.andn o) s = .next (s.putS (Instr.andn o).len o.d (a &&& ~~~b)) ∧
    exec (.sll o) s = .next (s.putS (Instr.sll o).len o.d (a <<< sh)) ∧
    exec (.srl o) s = .next (s.putS (Instr.srl o).len o.d (a >>> sh)) ∧
    exec (.sra o) s = .next (s.putS (Instr.sra o).len o.d (a.sshiftRight sh)) ∧
    exec (.slt o) s = .next (s.putS (Instr.slt o).len o.d (if a.toInt < b.toInt then 1 else 0)) ∧
    exec (.sltu o) s = .next (s.putS (Instr.sltu o).len o.d (if a.toNat < b.toNat then 1 else 0)) ∧
    exec (.seq o) s = .next (s.putS (Instr.seq o).len o.d (if a = b then 1 else 0)) ∧
    exec (.min o) s = .next (s.putS (Instr.min o).len o.d (if a.toInt < b.toInt then a else b)) ∧
    exec (.max o) s = .next (s.putS (Instr.max o).len o.d (if a.toInt < b.toInt then b else a)) ∧
    exec (.minu o) s = .next (s.putS (Instr.minu o).len o.d (if a.toNat < b.toNat then a else b)) ∧
    exec (.maxu o) s = .next (s.putS (Instr.maxu o).len o.d (if a.toNat < b.toNat then b else a)) ∧
    (∃ x, exec (.adds o) s = .next (s.putS (Instr.adds o).len o.d x) ∧
      x.toInt = max (-2 ^ 63) (min (2 ^ 63 - 1) (a.toInt + b.toInt))) ∧
    (∃ x, exec (.subs o) s = .next (s.putS (Instr.subs o).len o.d x) ∧
      x.toInt = max (-2 ^ 63) (min (2 ^ 63 - 1) (a.toInt - b.toInt)))

/-- R94: the bit counts, by what they count. -/
def BitCounts : Prop :=
  ∀ (s : State) (o : Rr), s.ready { reads := [.s o.a], writes := [.s o.d] } →
    let a := s.now.sr o.a
    (∃ n, n ≤ 64 ∧ exec (.clz o) s = .next (s.putS (Instr.clz o).len o.d (BitVec.ofNat 64 n)) ∧
      (∀ k, k < n → a.getLsbD (63 - k) = false) ∧ (n < 64 → a.getLsbD (63 - n) = true)) ∧
    (∃ n, n ≤ 64 ∧ exec (.ctz o) s = .next (s.putS (Instr.ctz o).len o.d (BitVec.ofNat 64 n)) ∧
      (∀ k, k < n → a.getLsbD k = false) ∧ (n < 64 → a.getLsbD n = true)) ∧
    exec (.popc o) s = .next (s.putS (Instr.popc o).len o.d
      (BitVec.ofNat 64 ((List.range 64).filter fun k => a.getLsbD k).length))

/-- R73, R97: the immediate instructions; an immediate of form B is extended, a literal stands as it is. -/
def Immediates : Prop :=
  (∀ (s : State) (o : Rri 12), s.ready { reads := [.s o.a], writes := [.s o.d] } →
    let a := s.now.sr o.a
    let sx : Word := match o.i with
      | .short i => i.signExtend 64
      | .lit w => w
    let zx : Word := match o.i with
      | .short i => i.setWidth 64
      | .lit w => w
    exec (.addi o) s = .next (s.putS (Instr.addi o).len o.d (a + sx)) ∧
    exec (.andi o) s = .next (s.putS (Instr.andi o).len o.d (a &&& zx)) ∧
    exec (.ori o) s = .next (s.putS (Instr.ori o).len o.d (a ||| zx)) ∧
    exec (.xori o) s = .next (s.putS (Instr.xori o).len o.d (a ^^^ zx))) ∧
  (∀ (s : State) (o : Rri 10), s.ready { reads := [.s o.a], writes := [.s o.d] } →
    let a := s.now.sr o.a
    let sx : Word := match o.i with
      | .short i => i.signExtend 64
      | .lit w => w
    exec (.slti o) s = .next (s.putS (Instr.slti o).len o.d (if a.toInt < sx.toInt then 1 else 0)) ∧
    exec (.sltiu o) s = .next (s.putS (Instr.sltiu o).len o.d (if a.toNat < sx.toNat then 1 else 0)) ∧
    exec (.seqi o) s = .next (s.putS (Instr.seqi o).len o.d (if a = sx then 1 else 0))) ∧
  (∀ (s : State) (o : Shi), s.ready { reads := [.s o.a], writes := [.s o.d] } →
    let a := s.now.sr o.a
    exec (.slli o) s = .next (s.putS (Instr.slli o).len o.d (a <<< o.n.val)) ∧
    exec (.srli o) s = .next (s.putS (Instr.srli o).len o.d (a >>> o.n.val)) ∧
    exec (.srai o) s = .next (s.putS (Instr.srai o).len o.d (a.sshiftRight o.n.val)))

/-- R98: the conditional moves; a failing condition writes nothing. -/
def CondMoves : Prop :=
  ∀ (s : State) (o : Rrr), s.ready (useRrr o) →
    let a := s.now.sr o.a
    let b := s.now.opnd o.b
    exec (.cmovnz o) s = .next
      (if a ≠ 0 then s.putS (Instr.cmovnz o).len o.d b else s.pass (Instr.cmovnz o).len) ∧
    exec (.cmovz o) s = .next
      (if a = 0 then s.putS (Instr.cmovz o).len o.d b else s.pass (Instr.cmovz o).len)

/-- R73, R94, R97, R98: the ALU instructions but for the bit fields (R95) and the addresses (R138), the immediate instructions and
the conditional moves. -/
def Obligations.AluResults : Prop := TwoOperand ∧ BitCounts ∧ Immediates ∧ CondMoves

/-- R95: the bit fields. `lo` and `w` are the field's first bit and width as the operand b gives them. -/
def BitFields : Prop :=
  ∀ (s : State) (o : Rrr),
    let a := s.now.sr o.a
    let b := s.now.opnd o.b
    let d := s.now.sr o.d
    let lo := b.toNat % 64
    let w := min (b.toNat / 64 % 64 + 1) (64 - lo)
    (s.ready (useRrr o) →
      (∃ x : Word, exec (.bfx o) s = .next (s.putS (Instr.bfx o).len o.d x) ∧
        ∀ k, k < 64 → x.getLsbD k = if k < w then a.getLsbD (lo + k) else a.getLsbD (lo + w - 1)) ∧
      (∃ x : Word, exec (.bfxu o) s = .next (s.putS (Instr.bfxu o).len o.d x) ∧
        ∀ k, k < 64 → x.getLsbD k = (decide (k < w) && a.getLsbD (lo + k)))) ∧
    (s.ready { useRrr o with reads := .s o.d :: (useRrr o).reads } →
      ∃ x : Word, exec (.bfi o) s = .next (s.putS (Instr.bfi o).len o.d x) ∧
        ∀ k, k < 64 → x.getLsbD k = if lo ≤ k ∧ k < lo + w then a.getLsbD (k - lo) else d.getLsbD k)

/-- R95: the bit fields, and the word of the example. -/
def Obligations.BitResults : Prop := BitFields ∧ decodeTableWord 32 0x010420C1 = some (.sub ⟨1, 2, .reg 3⟩)

/-- R99: the products and their high halves. -/
def Products : Prop :=
  ∀ (s : State) (o : Rrr), s.ready (useRrr o) →
    let a := s.now.sr o.a
    let b := s.now.opnd o.b
    (∃ x : Word, exec (.mul o) s = .next (s.putS (Instr.mul o).len o.d x) ∧ x.toNat = a.toNat * b.toNat % 2 ^ 64) ∧
    (∃ x : Word, exec (.mulh o) s = .next (s.putS (Instr.mulh o).len o.d x) ∧ x.toInt = a.toInt * b.toInt / 2 ^ 64) ∧
    (∃ x : Word, exec (.mulhu o) s = .next (s.putS (Instr.mulhu o).len o.d x) ∧ x.toNat = a.toNat * b.toNat / 2 ^ 64) ∧
    (∃ x : Word, exec (.mulhsu o) s = .next (s.putS (Instr.mulhsu o).len o.d x) ∧ x.toInt = a.toInt * b.toNat / 2 ^ 64)

/-- R99: quotients and remainders away from the borderline operands. -/
def Quotients : Prop :=
  ∀ (s : State) (o : Rrr), s.ready (useRrr o) →
    let a := s.now.sr o.a
    let b := s.now.opnd o.b
    b ≠ 0 →
    (∃ x : Word, exec (.div o) s = .next (s.putS (Instr.div o).len o.d x) ∧
      (¬(a.toInt = -2 ^ 63 ∧ b.toInt = -1) → x.toInt = a.toInt.tdiv b.toInt)) ∧
    (∃ x : Word, exec (.divu o) s = .next (s.putS (Instr.divu o).len o.d x) ∧ x.toNat = a.toNat / b.toNat) ∧
    (∃ x : Word, exec (.rem o) s = .next (s.putS (Instr.rem o).len o.d x) ∧ x.toInt = a.toInt.tmod b.toInt) ∧
    (∃ x : Word, exec (.remu o) s = .next (s.putS (Instr.remu o).len o.d x) ∧ x.toNat = a.toNat % b.toNat)

/-- R99: products, quotients and remainders. -/
def Obligations.MulDivResults : Prop := Products ∧ Quotients

/-- R100: division never traps and sets no flag, its results for the borderline operands, and the word of its example. -/
def Obligations.DivisionBorderlines : Prop :=
  (∀ (s : State) (o : Rrr), s.ready (useRrr o) →
    let a := s.now.sr o.a
    let b := s.now.opnd o.b
    let ends (i : Instr) (x : Word) : Prop :=
      exec i s = .next (s.putS i.len o.d x) ∧ (s.putS i.len o.d x).now.fstat = s.now.fstat
    (∃ q r q' r', ends (.div o) q ∧ ends (.rem o) r ∧ ends (.divu o) q' ∧ ends (.remu o) r') ∧
    (b = 0 → ends (.div o) (-1) ∧ ends (.divu o) (BitVec.ofNat 64 (2 ^ 64 - 1)) ∧ ends (.rem o) a ∧ ends (.remu o) a) ∧
    (a.toInt = -2 ^ 63 → b.toInt = -1 → ends (.div o) (BitVec.ofInt 64 (-2 ^ 63)) ∧ ends (.rem o) 0)) ∧
  decodeTableWord 32 0x091820C0 = some (.mul ⟨6, 2, .reg 3⟩)

/-- R138: the addresses that CADDR and CREL compute, field by field. -/
def Obligations.CoordinateAddresses : Prop :=
  ∀ (s : State) (o : Rrr), s.ready (useRrr o) →
    let a := (s.now.sr o.a).toNat
    let b := (s.now.opnd o.b).toNat
    let g := s.cur.node
    let far := a / 2 ^ 31 % 2 = 0
    let place := a / 2 ^ 30 % 2 = 0
    (∃ x, exec (.caddr o) s = .next (s.putS (Instr.caddr o).len o.d x) ∧
      x.toNat / 2 ^ 61 = 4 ∧ x.toNat % 2 ^ 46 = b % 2 ^ 20 ∧
      x.toNat / 2 ^ 57 % 16 = (if far then a / 2 ^ 24 % 16 else pkgOf g % 16) ∧
      x.toNat / 2 ^ 55 % 4 = (if far then a / 2 ^ 16 % 4 else dieOf g % 4) ∧
      x.toNat / 2 ^ 50 % 32 = (if place then a % 32 else xOf g) ∧
      x.toNat / 2 ^ 46 % 16 = (if place then a / 2 ^ 8 % 16 else yOf g)) ∧
    (∃ x, exec (.crel o) s = .next (s.putS (Instr.crel o).len o.d x) ∧
      x.toNat / 2 ^ 61 = 5 ∧ x.toNat % 2 ^ 46 = b % 2 ^ 20 ∧ x.toNat / 2 ^ 55 % 64 = 0 ∧
      x.toNat / 2 ^ 50 % 32 = a % 32 ∧ x.toNat / 2 ^ 46 % 16 = a / 2 ^ 8 % 16)

/-! ### Values and rounding -/

/-- The value of a finite number. -/
def numVal : XNum → Rat
  | .fin neg m e => (if neg then -1 else 1) * m * 2 ^ e
  | _ => 0

/-- The exponent bits, the fraction bits and the bias of an IEEE format (R47). -/
def ieeeShape : Fmt → Nat × Nat × Int
  | .f64 => (11, 52, 1023)
  | .f32 => (8, 23, 127)
  | .f16 => (5, 10, 15)
  | _ => (8, 7, 127)

/-- The canonical NaN of a float format (R47, R51). -/
def nanOf : Fmt → Nat
  | .f64 => 0x7FF8000000000000
  | .f32 => 0x7FC00000
  | .f16 => 0x7E00
  | .bf16 => 0x7FC0
  | _ => 0x80

/-- The magnitude code that stands for overflow, and the value at which it stands: the code of an infinity, at the step above the
largest finite value; for Wedge8 under WTOP = 0 the point 8.0 above all codes (R57, R58). -/
def topCode (f : Fmt) (wtop : Bool) : Nat :=
  match f with
  | .f64 => 0x7FF0000000000000
  | .f32 => 0x7F800000
  | .f16 => 0x7C00
  | .bf16 => 0x7F80
  | _ => if wtop then 127 else 128
def topVal (f : Fmt) (wtop : Bool) : Rat :=
  match f with
  | .f64 => 2 ^ 1024
  | .f32 | .bf16 => 2 ^ 128
  | .f16 => 65536
  | _ => if wtop then 31 / 4 else 8

/-- The smallest positive normal value (R47, R56). -/
def normalVal : Fmt → Rat
  | .f64 => 1 / 2 ^ 1022
  | .f32 | .bf16 => 1 / 2 ^ 126
  | .f16 => 1 / 2 ^ 14
  | _ => 1 / 2 ^ 20

/-- The grid of magnitudes of a format, by code. -/
def gridVal (f : Fmt) (wtop : Bool) (k : Nat) : Rat := if k = topCode f wtop then topVal f wtop else numVal (f.num wtop k)

/-- The draw of R59, in 32-bit words. -/
def drawOf (env : REnv) (e : Nat) : Nat :=
  let h : BitVec 32 := BitVec.ofNat 32 env.seed ^^^ (BitVec.ofNat 32 e * 0x9E3779B1) ^^^ (BitVec.ofNat 32 env.ctr * 0x85EBCA77)
  let h := h ^^^ (h >>> 15)
  let h := h * 0x2C1B3C6D
  let h := h ^^^ (h >>> 12)
  h.toNat / 2 ^ 16

/-- The grid point that a mode chooses for a magnitude between the points `lo` and `lo + 1` of the grid `g` (R55, R59): `le t` says
that `t` is at most the magnitude, `ge t` that it is at least. -/
def picks (g : Nat → Rat) (le ge : Rat → Prop) (mode : RMode) (neg : Bool) (rnd lo p : Nat) : Prop :=
  let a := g lo
  let b := g (lo + 1)
  (ge a → p = lo) ∧ (¬ge a → match mode with
    | .rne => (¬le ((a + b) / 2) → p = lo) ∧ (¬ge ((a + b) / 2) → p = lo + 1) ∧
      (le ((a + b) / 2) → ge ((a + b) / 2) → p = if lo % 2 = 0 then lo else lo + 1)
    | .rtz => p = lo
    | .rup => p = if neg then lo else lo + 1
    | .rdn => p = if neg then lo + 1 else lo
    | .rsr => (le (a + (rnd + 1) / 65536 * (b - a)) → p = lo + 1) ∧ (¬le (a + (rnd + 1) / 65536 * (b - a)) → p = lo))

/-- `r` is a magnitude above 0, with its sign, rounded into a float format, with its flags (R55 to R59). -/
def rounds (f : Fmt) (wtop : Bool) (mode : RMode) (neg : Bool) (rnd : Nat) (le ge : Rat → Prop) (r : Rounded) : Prop :=
  let g := gridVal f wtop
  let top := topCode f wtop
  let sign := if neg then 2 ^ (8 * f.bytes - 1) else 0
  ∃ p, p ≤ top ∧ (le (topVal f wtop) → p = top) ∧
    (∀ lo, lo < top → le (g lo) → ¬le (g (lo + 1)) → picks g le ge mode neg rnd lo p) ∧
    (p = top → f = .w8 → wtop = false → r = ⟨128, FFlags.ovf, true⟩) ∧
    (p = top → f ≠ .w8 ∨ wtop = true →
      r = ⟨sign + (if mode = .rne ∨ mode = .rsr ∨ (mode = .rup ∧ neg = false) ∨ (mode = .rdn ∧ neg = true) then top else top - 1),
        FFlags.ovf, false⟩) ∧
    (p < top → r.bits = (if f = .w8 ∧ p = 0 then 0 else sign + p) ∧ r.ovf = false ∧
      (le (g p) ∧ ge (g p) → r.flags = 0) ∧
      (¬(le (g p) ∧ ge (g p)) → (le (normalVal f) → r.flags = FFlags.nx) ∧ (¬le (normalVal f) → r.flags = FFlags.nx ||| FFlags.uf)))

/-- `rounds` for a rational number other than 0. -/
def roundsRat (f : Fmt) (wtop : Bool) (mode : RMode) (rnd : Nat) (v : Rat) (r : Rounded) : Prop :=
  rounds f wtop mode (decide (v < 0)) rnd (fun t => t ≤ |v|) (fun t => |v| ≤ t) r

/-- A zero of a sign in a float format (R56: Wedge8 has one). -/
def zeroOf (f : Fmt) (neg : Bool) : Nat := if neg ∧ f ≠ .w8 then 2 ^ (8 * f.bytes - 1) else 0

/-- An infinity of a sign in an IEEE format. -/
def infOf (f : Fmt) (neg : Bool) : Nat := topCode f false + zeroOf f neg

/-- R65, R102: sums of finite terms are rounded once; a zero sum takes its sign from its terms. NaN and infinities. -/
def SumValues : Prop :=
  (∀ (f : Fmt) (env : REnv) (mode : RMode) (e : Nat) (l : List XNum), f.isFloat = true →
    (∀ x ∈ l, ∃ s m k, x = .fin s m k) → let v := (l.map numVal).sum
    (v ≠ 0 → roundsRat f env.wtop mode (drawOf env e) v (sumRound f env mode e l)) ∧
    (v = 0 → l ≠ [] → let allN := ∀ x ∈ l, ∃ k, x = .fin true 0 k
      let allP := ∀ x ∈ l, ∃ k, x = .fin false 0 k
      (allN → sumRound f env mode e l = ⟨zeroOf f true, 0, false⟩) ∧ (allP → sumRound f env mode e l = ⟨zeroOf f false, 0, false⟩) ∧
      (¬allN → ¬allP → sumRound f env mode e l = ⟨zeroOf f (decide (mode = .rdn)), 0, false⟩))) ∧
  (∀ (f : Fmt) (env : REnv) (mode : RMode) (e : Nat) (l : List XNum), f.isFloat = true → f ≠ .w8 →
    let r := sumRound f env mode e l
    let opp := .inf false ∈ l ∧ .inf true ∈ l
    let sig := ∃ x ∈ l, x.isSig = true
    let nan := ∃ x ∈ l, x.isNan = true
    (nan ∨ opp → r.bits = nanOf f ∧ (sig ∨ opp → r.flags = FFlags.nv) ∧ (¬(sig ∨ opp) → r.flags = 0)) ∧
    (∀ neg, ¬nan → ¬opp → .inf neg ∈ l → r = ⟨infOf f neg, 0, false⟩)) ∧
  (∀ (s t : Bool) (m n : Nat) (e k : Int),
    numVal ((XNum.fin s m e).mul (.fin t n k)) = numVal (.fin s m e) * numVal (.fin t n k) ∧
    (∃ p q, (XNum.fin s m e).mul (.fin t n k) = .fin (s != t) p q) ∧
    (XNum.inf s).mul (.inf t) = .inf (s != t) ∧
    (XNum.inf s).mul (.fin t n k) = (if n = 0 then .nan true else .inf (s != t)) ∧
    (XNum.fin t n k).mul (.inf s) = (if n = 0 then .nan true else .inf (t != s))) ∧
  ∀ (x : XNum) (sig : Bool), ((XNum.nan sig).mul x).isNan = true ∧ (x.mul (.nan sig)).isNan = true ∧
    ((XNum.nan sig).mul x).isSig = (sig || x.isSig) ∧ (x.mul (.nan sig)).isSig = (x.isSig || sig)

/-- R102: quotients and square roots are rounded once from their exact values; x / 0 sets DZ, 0 / 0, ∞ / ∞ and the root of a
negative value NV. -/
def QuotientValues : Prop :=
  ∀ (f : Fmt) (env : REnv) (mode : RMode) (e a b : Nat), f.isFloat = true → f ≠ .w8 →
    let x := f.num env.wtop a
    let y := f.num env.wtop b
    let r := f.divBits env mode e a b
    let q := f.sqrtBits env mode e a
    let rnd := drawOf env e
    (x.isNan = true ∨ y.isNan = true → r = ⟨nanOf f, if x.isSig || y.isSig then FFlags.nv else 0, false⟩) ∧
    (∀ s t, x = .inf s → y = .inf t → r = ⟨nanOf f, FFlags.nv, false⟩) ∧
    (∀ s t n k, x = .inf s → y = .fin t n k → r = ⟨infOf f (s != t), 0, false⟩) ∧
    (∀ s t m k, x = .fin s m k → y = .inf t → r = ⟨zeroOf f (s != t), 0, false⟩) ∧
    (∀ s t m n k l, x = .fin s m k → y = .fin t n l →
      (n = 0 → m = 0 → r = ⟨nanOf f, FFlags.nv, false⟩) ∧ (n = 0 → m ≠ 0 → r = ⟨infOf f (s != t), FFlags.dz, false⟩) ∧
      (n ≠ 0 → m = 0 → r = ⟨zeroOf f (s != t), 0, false⟩) ∧
      (n ≠ 0 → m ≠ 0 → roundsRat f env.wtop mode rnd (numVal x / numVal y) r)) ∧
    (x.isNan = true → q = ⟨nanOf f, if x.isSig then FFlags.nv else 0, false⟩) ∧
    (x = .inf false → q = ⟨infOf f false, 0, false⟩) ∧ (x = .inf true → q = ⟨nanOf f, FFlags.nv, false⟩) ∧
    (∀ s m k, x = .fin s m k → (m = 0 → q = ⟨zeroOf f s, 0, false⟩) ∧ (m ≠ 0 → s = true → q = ⟨nanOf f, FFlags.nv, false⟩) ∧
      (m ≠ 0 → s = false → rounds f env.wtop mode false rnd (fun t => t ^ 2 ≤ numVal x) (fun t => numVal x ≤ t ^ 2) q))

/-- The order of two values that are no NaN (R103). -/
def less : XNum → XNum → Prop
  | .nan _, _ | _, .nan _ => False
  | .inf s, .inf t => s = true ∧ t = false
  | .inf s, .fin _ _ _ => s = true
  | .fin _ _ _, .inf t => t = false
  | .fin s m e, .fin t n k => numVal (.fin s m e) < numVal (.fin t n k)

/-- R102, R103: selections, compares, FCLASS, FNEG and FABS, by the codes of their operands. -/
def CompareValues : Prop :=
  ∀ (f : Fmt) (a b : Nat), f.isFloat = true → f ≠ .w8 →
    let w := 8 * f.bytes
    let sh := ieeeShape f
    let x := f.num false a
    let y := f.num false b
    let nan := x.isNan || y.isNan
    let sig := if x.isSig || y.isSig then FFlags.nv else 0
    let quiet := if nan then FFlags.nv else 0
    ((f.eqBits a b).1 = true ↔ nan = false ∧ ¬less x y ∧ ¬less y x) ∧ (f.eqBits a b).2 = sig ∧
    ((f.ltBits a b).1 = true ↔ less x y) ∧ (f.ltBits a b).2 = quiet ∧
    ((f.leBits a b).1 = true ↔ nan = false ∧ ¬less y x) ∧ (f.leBits a b).2 = quiet ∧
    (∀ mx, let r := f.minmaxBits mx a b
      r.flags = sig ∧ (x.isNan = true → y.isNan = true → r.bits = nanOf f) ∧
      (x.isNan = true → y.isNan = false → r.bits = b % 2 ^ w) ∧ (x.isNan = false → y.isNan = true → r.bits = a % 2 ^ w) ∧
      (nan = false → (less x y → r.bits = (if mx then b else a) % 2 ^ w) ∧ (less y x → r.bits = (if mx then a else b) % 2 ^ w) ∧
        (¬less x y → ¬less y x → r.bits = (if natBit a (w - 1) != mx then a else b) % 2 ^ w))) ∧
    (let neg := natBit a (w - 1)
      let ex := natBits a sh.2.1 sh.1
      let fr := a % 2 ^ sh.2.1
      f.classBits a = 2 ^ (if ex = 2 ^ sh.1 - 1 then (if fr = 0 then (if neg then 0 else 7) else if fr < 2 ^ (sh.2.1 - 1) then 8 else 9)
        else if ex = 0 then (if fr = 0 then (if neg then 3 else 4) else if neg then 2 else 5) else if neg then 1 else 6)) ∧
    f.negBits a = Nat.xor (a % 2 ^ w) (2 ^ (w - 1)) ∧ f.absBits a = a % 2 ^ (w - 1)

/-- R61, R62, R105: conversions: a copy, a saturation, a rounding into a float format, or one into an integer. -/
def ConversionValues : Prop :=
  (∀ (fa fb : Fmt) (env : REnv) (mode : RMode) (e x : Nat),
    (fa = fb → convert fa fb env mode e x = ⟨x % 2 ^ (8 * fa.bytes), 0, false⟩) ∧
    (fa ≠ fb → fb.isFloat = true → convert fa fb env mode e x = roundTo fb env mode e (fa.num env.wtop x)) ∧
    (fa = .i8 → fb = .i32 → ∃ n, convert fa fb env mode e x = ⟨n, 0, false⟩ ∧ n < 2 ^ 32 ∧ natSigned 32 n = natSigned 8 x) ∧
    (fa = .i32 → fb = .i8 → ∃ n, convert fa fb env mode e x = ⟨n, 0, false⟩ ∧ n < 2 ^ 8 ∧
      natSigned 8 n = max (-128) (min 127 (natSigned 32 x))) ∧
    (fa.isFloat = true → fb.isFloat = false →
      convert fa fb env mode e x = toIntRound false (8 * fb.bytes) mode (fa.num env.wtop x) (drawOf env e))) ∧
  (∀ i : Int, numVal (.ofInt i) = i) ∧
  ∀ (uns : Bool) (w : Nat) (mode : RMode) (x : XNum) (rnd : Nat), 1 ≤ w →
    let lo : Int := if uns then 0 else -2 ^ (w - 1)
    let hi : Int := if uns then 2 ^ w - 1 else 2 ^ (w - 1) - 1
    let r := toIntRound uns w mode x rnd
    let is (i : Int) (fl : FFlags) : Prop := r.bits < 2 ^ w ∧ (r.bits : Int) % 2 ^ w = i % 2 ^ w ∧ r.flags = fl
    (x.isNan = true → is 0 FFlags.nv) ∧ (∀ neg, x = .inf neg → is (if neg then lo else hi) FFlags.nv) ∧
    (∀ neg m e, x = .fin neg m e → let v := numVal x
      ∃ p : Nat, let i : Int := if neg then -p else p
        (∀ k : Nat, (k : Rat) ≤ |v| → |v| < k + 1 → picks (fun n => n) (fun t => t ≤ |v|) (fun t => |v| ≤ t) mode neg rnd k p) ∧
        (i < lo → is lo FFlags.nv) ∧ (hi < i → is hi FFlags.nv) ∧
        (lo ≤ i → i ≤ hi → is i (if (i : Rat) = v then 0 else FFlags.nx)))

/-! ### Scalar floating point -/

/-- R101 to R105: the results and flags of the FPS instructions, in terms of the operations whose values are stated above. -/
def FloatForms : Prop :=
  (∀ (s : State) (o : F2), s.ready { reads := .s o.a :: opndRegs o.b, writes := [.s o.d] } →
    let f := o.p.fmt
    let env := s.now.env
    let rm := o.rm.getD .rne
    let a := f.num env.wtop (s.now.sr o.a).toNat
    let b := f.num env.wtop (s.now.opnd o.b).toNat
    exec (.fadd o) s = .next (s.putF (Instr.fadd o).len o.d (sumRound f env rm 0 [a, b])) ∧
    exec (.fsub o) s = .next (s.putF (Instr.fsub o).len o.d (sumRound f env rm 0 [a, b.neg])) ∧
    exec (.fmul o) s = .next (s.putF (Instr.fmul o).len o.d (roundTo f env rm 0 (a.mul b))) ∧
    exec (.fdiv o) s = .next (s.putF (Instr.fdiv o).len o.d
      (f.divBits env rm 0 (s.now.sr o.a).toNat (s.now.opnd o.b).toNat))) ∧
  (∀ (s : State) (o : F1), s.ready { reads := [.s o.a], writes := [.s o.d] } →
    exec (.fsqrt o) s = .next (s.putF (Instr.fsqrt o).len o.d
      (o.p.fmt.sqrtBits s.now.env (o.rm.getD .rne) 0 (s.now.sr o.a).toNat))) ∧
  (∀ (s : State) (o : F2s), s.ready { reads := .s o.a :: opndRegs o.b, writes := [.s o.d] } →
    let f := o.p.fmt
    let a := (s.now.sr o.a).toNat
    let b := (s.now.opnd o.b).toNat
    exec (.fmin o) s = .next (s.putF (Instr.fmin o).len o.d (f.minmaxBits false a b)) ∧
    exec (.fmax o) s = .next (s.putF (Instr.fmax o).len o.d (f.minmaxBits true a b)) ∧
    exec (.feq o) s = .next (s.putF (Instr.feq o).len o.d (boolRes (f.eqBits a b))) ∧
    exec (.flt o) s = .next (s.putF (Instr.flt o).len o.d (boolRes (f.ltBits a b))) ∧
    exec (.fle o) s = .next (s.putF (Instr.fle o).len o.d (boolRes (f.leBits a b)))) ∧
  (∀ (s : State) (o : F1s), s.ready { reads := [.s o.a], writes := [.s o.d] } →
    let f := o.p.fmt
    let a := (s.now.sr o.a).toNat
    exec (.fclass o) s = .next (s.putS (Instr.fclass o).len o.d (BitVec.ofNat 64 (f.classBits a))) ∧
    exec (.fneg o) s = .next (s.putS (Instr.fneg o).len o.d (BitVec.ofNat 64 (f.negBits a))) ∧
    exec (.fabs o) s = .next (s.putS (Instr.fabs o).len o.d (BitVec.ofNat 64 (f.absBits a)))) ∧
  (∀ (s : State) (o : F3), s.ready { reads := .s o.a :: .s o.c :: opndRegs o.b, writes := [.s o.d] } →
    let f := o.p.fmt
    let env := s.now.env
    exec (.fma o) s = .next (s.putF (Instr.fma o).len o.d (sumRound f env o.rm 0
      [(f.num env.wtop (s.now.sr o.a).toNat).mul (f.num env.wtop (s.now.opnd o.b).toNat),
       f.num env.wtop (s.now.sr o.c).toNat]))) ∧
  (∀ (s : State) (o : FCvt), s.ready { reads := [.s o.a], writes := [.s o.d] } →
    exec (.fcvt o) s = .next (s.putF (Instr.fcvt o).len o.d (convert o.fa o.fb s.now.env o.rm 0 (s.now.sr o.a).toNat))) ∧
  (∀ (s : State) (o : FInt), s.ready { reads := [.s o.a], writes := [.s o.d] } →
    let env := s.now.env
    let w := 8 * o.ty.sz.bytes
    let a := (s.now.sr o.a).toNat
    let r := toIntRound o.ty.uns w o.rm (o.f.num env.wtop a) (envRnd env 0)
    exec (.ftoi o) s = .next (s.putF (Instr.ftoi o).len o.d
      { r with bits := if o.ty.uns then r.bits else intMod 64 (natSigned w r.bits) }) ∧
    exec (.itof o) s = .next (s.putF (Instr.itof o).len o.d (roundTo o.f env o.rm 0
      (.ofInt (if o.ty.uns then (a % 2 ^ w : Nat) else natSigned w (a % 2 ^ w))))))

/-- R61, R62, R65, R101 to R105: the results and flags of the FPS instructions, and the values of the operations that they perform:
exact operations rounded once (R45, R48). That a Wedge8 NaN converts to the integer 0 with NV is the model's choice (DEDUCED, log 16):
R48 and the row of R62 differ there. -/
def Obligations.FloatResults : Prop := FloatForms ∧ SumValues ∧ QuotientValues ∧ CompareValues ∧ ConversionValues

/-- R47, R52, R53: the values of codes. Each row of the list is a first code, E and fw of R52. -/
def CodeValues : Prop :=
  (∀ (f : Fmt) (wtop neg : Bool) (ex fr : Nat), f ∈ [Fmt.f64, .f32, .f16, .bf16] → let sh := ieeeShape f
    ex < 2 ^ sh.1 → fr < 2 ^ sh.2.1 → let x := f.num wtop ((if neg then 2 ^ (sh.1 + sh.2.1) else 0) + ex * 2 ^ sh.2.1 + fr)
    let sign : Rat := if neg then -1 else 1
    (ex = 2 ^ sh.1 - 1 → x = if fr = 0 then .inf neg else .nan (decide (fr < 2 ^ (sh.2.1 - 1)))) ∧
    (0 < ex → ex < 2 ^ sh.1 - 1 → x.isNan = false ∧ numVal x = sign * 2 ^ (ex - sh.2.2) * (1 + fr / 2 ^ sh.2.1)) ∧
    (ex = 0 → (∃ k, x = .fin neg fr k) ∧ numVal x = sign * 2 ^ (1 - sh.2.2) * (fr / 2 ^ sh.2.1))) ∧
  (∀ (wtop neg : Bool), let at_ (c : Nat) : XNum := Fmt.w8.num wtop (c + if neg then 128 else 0)
    (∀ c e fw, (c, e, fw) ∈ ([(1, -20, 0), (2, -19, 0), (3, -18, 0), (4, -17, 0), (5, -16, 0), (6, -15, 0), (7, -14, 0), (8, -13, 1),
        (10, -12, 1), (12, -11, 1), (14, -10, 1), (16, -9, 2), (20, -8, 2), (24, -7, 2), (28, -6, 2), (32, -5, 3), (40, -4, 3),
        (48, -3, 3), (56, -2, 3), (64, -1, 4), (80, 0, 4), (96, 1, 4), (112, 2, 4)] : List (Nat × Int × Nat)) →
      ∀ k, k < 2 ^ fw → c + k ≠ 127 ∨ wtop = false →
        (at_ (c + k)).isNan = false ∧ numVal (at_ (c + k)) = (if neg then -1 else 1) * 2 ^ e * (1 + k / 2 ^ fw)) ∧
    (wtop = true → at_ 127 = .inf neg) ∧ at_ 0 = if neg then .nan false else .zero)

/-- R55 to R60: every exact value is rounded once, by the mode, among the points of the format's grid, with the flags of R56, the
overflow of R57 and R58, and the draw of R59. -/
def RoundedValues : Prop :=
  (∀ (f : Fmt) (wtop : Bool), f.isFloat = true →
    gridVal f wtop 0 = 0 ∧ ∀ k, k < topCode f wtop → gridVal f wtop k < gridVal f wtop (k + 1)) ∧
  ∀ (f : Fmt) (env : REnv) (mode : RMode) (e : Nat), f.isFloat = true →
    (∀ neg m q, m ≠ 0 → roundsRat f env.wtop mode (drawOf env e) (numVal (.fin neg m q)) (roundTo f env mode e (.fin neg m q))) ∧
    (∀ neg q, roundTo f env mode e (.fin neg 0 q) = ⟨zeroOf f neg, 0, false⟩) ∧
    (∀ sig, roundTo f env mode e (.nan sig) = ⟨nanOf f, if sig then FFlags.nv else 0, false⟩) ∧
    (∀ neg, (f ≠ .w8 → roundTo f env mode e (.inf neg) = ⟨infOf f neg, 0, false⟩) ∧
      (f = .w8 → roundTo f env mode e (.inf neg) =
        if env.wtop then ⟨if neg then 255 else 127, 0, false⟩ else ⟨128, FFlags.ovf, true⟩))

/-- R55: a value of a float format rounds to its own code in every mode, with no flag. -/
def Representable : Prop :=
  ∀ (f : Fmt) (env : REnv) (mode : RMode) (e x : Nat), f.isFloat = true → x < 2 ^ (8 * f.bytes) →
    (f.num env.wtop x).isNan = false → roundTo f env mode e (f.num env.wtop x) = ⟨x, 0, false⟩

/-- R47, R48, R52, R53, R55 to R60: the values of codes, a representable value rounds to its own code with no flag, and every other value
is rounded once as its mode says. -/
def Obligations.RoundingKeepsRepresentable : Prop := Representable ∧ CodeValues ∧ RoundedValues

/-! ### Branches and loops -/

/-- R80, R106 to R109, R247: where execution continues after the slot of each branch, and what CALL and CALLR write. The slot's
base word is read first (R82). The two reads of JT are two accesses; whether others may be granted between them is the step's
choice (DEDUCED, log 18). -/
def BranchesTaken : Prop :=
  (∀ (s t : State) (n : Nat) (disp : Imm 24),
    (s.slotRead (Instr.br disp).len t n → t.ready (branchUse [] []) →
      exec (.br disp) s = .next (t.branched (Instr.br disp).len n true disp.dispBytes)) ∧
    (s.slotRead (Instr.call disp).len t n → t.ready (branchUse [] [.s 63]) →
      exec (.call disp) s = .next
        ((t.modCtx t.cur fun c => c.setS 63 (t.now.pc + BitVec.ofNat 64 ((Instr.call disp).len + n))).retire
          (Instr.call disp).len [.s 63] (.slot (t.now.pc + BitVec.ofInt 64 disp.dispBytes))))) ∧
  (∀ (s t : State) (n : Nat) (o : BrcOp), s.slotRead (Instr.brc o).len t n → t.ready (branchUse [.s o.c, .s o.e] []) →
    let a := t.now.sr o.c
    let b := t.now.sr o.e
    exec (.brc o) s = .next (t.branched (Instr.brc o).len n
      (match o.cond with
        | .eq => decide (a = b)
        | .ne => decide (a ≠ b)
        | .lt => decide (a.toInt < b.toInt)
        | .ge => decide (b.toInt ≤ a.toInt)
        | .ltu => decide (a.toNat < b.toNat)
        | .geu => decide (b.toNat ≤ a.toNat)) o.disp.dispBytes)) ∧
  (∀ (s t : State) (n : Nat) (o : BzOp), s.slotRead (Instr.brz o).len t n → t.ready (branchUse [.s o.a] []) →
    let a := t.now.sr o.a
    let len := (Instr.brz o).len
    exec (.brz o) s = .next (t.branched len n (decide (a = 0)) o.disp.dispBytes) ∧
    exec (.brnz o) s = .next (t.branched len n (decide (a ≠ 0)) o.disp.dispBytes) ∧
    exec (.brlz o) s = .next (t.branched len n (decide (a.toInt < 0)) o.disp.dispBytes) ∧
    exec (.brgez o) s = .next (t.branched len n (decide (0 ≤ a.toInt)) o.disp.dispBytes)) ∧
  (∀ (s t : State) (n : Nat) (a : SReg), s.slotRead 4 t n →
    (t.ready (branchUse [.s a] []) → (t.now.sr a).toNat % 4 = 0 →
      exec (.jr a) s = .next (t.retire 4 [] (.slot (t.now.sr a)))) ∧
    (t.ready (branchUse [.s a] [.s 63]) → (t.now.sr a).toNat % 4 = 0 →
      exec (.callr a) s = .next ((t.modCtx t.cur fun c => c.setS 63 (t.now.pc + BitVec.ofNat 64 (4 + n))).retire 4 [.s 63]
        (.slot (t.now.sr a)))) ∧
    (t.ready (branchUse [.s 63] []) → (t.now.sr 63).toNat % 4 = 0 →
      exec .ret s = .next (t.retire 4 [] (.slot (t.now.sr 63))))) ∧
  (∀ (s t : State) (n : Nat) (a b : SReg) (l : Word), s.slotRead 4 t n → t.ready (branchUse [.s a, .s b] []) →
    let w := t.now.sr a + 8 + 8 * (if (t.now.sr b).toNat < l.toNat then t.now.sr b else l)
    (∀ t1, t.now.begins → (t.now.sr a).toNat % 8 = 0 → t.readOk t.cur (t.now.sr a).toNat = true →
      t.loadNow t.cur (t.now.sr a).toNat 0 = (t1, .ok l) →
      (t.split = true → exec (.jt a b) s = .next (t1.waits (.jt l))) ∧
      (∀ t2 target, t.split = false → t1.readOk t.cur w.toNat = true → t1.loadNow t.cur w.toNat 0 = (t2, .ok target) →
        target.toNat % 4 = 0 → exec (.jt a b) s = .next ((t2.noteReads t.cur [t.now.sr a, w]).retire 4 [] (.slot target)))) ∧
    (∀ t2 target, t.now.wait = .jt l → t.readOk t.cur w.toNat = true → t.loadNow t.cur w.toNat 0 = (t2, .ok target) →
      target.toNat % 4 = 0 → exec (.jt a b) s = .next ((t2.noteReads t.cur [t.now.sr a, w]).retire 4 [] (.slot target))))

/-- R70, R80, R81, R108, R109: where a branch does not complete. A target that is not a multiple of 4, and a table of JT that is not a
multiple of 8, raise the alignment trap with that address in EADDR; a branch or loop instruction in a delay slot whose registers the
context has raises the illegal-sequence trap. -/
def BranchesTrap : Prop :=
  (∀ (s t : State) (n : Nat) (a : SReg), s.slotRead 4 t n →
    let off (x : Instr) (v : Word) : Prop := v.toNat % 4 ≠ 0 →
      exec x s = .next (t.takeTrap t.cur { cause := .alignment, eaddr := v })
    (t.ready (branchUse [.s a] []) → off (.jr a) (t.now.sr a)) ∧
    (t.ready (branchUse [.s a] [.s 63]) → off (.callr a) (t.now.sr a)) ∧
    (t.ready (branchUse [.s 63] []) → off .ret (t.now.sr 63))) ∧
  (∀ (s t : State) (n : Nat) (a b : SReg) (l : Word), s.slotRead 4 t n → t.ready (branchUse [.s a, .s b] []) →
    let v := t.now.sr a
    let w := v + 8 + 8 * (if (t.now.sr b).toNat < l.toNat then t.now.sr b else l)
    let off (u : State) (x : Word) : Prop := exec (.jt a b) s = .next (u.takeTrap t.cur { cause := .alignment, eaddr := x })
    (t.now.begins → v.toNat % 8 ≠ 0 → off t v) ∧
    (t.now.wait = .jt l → ∀ t2 target, t.readOk t.cur w.toNat = true → t.loadNow t.cur w.toNat 0 = (t2, .ok target) →
      target.toNat % 4 ≠ 0 → off (t.keepWalks t2 t.cur) target) ∧
    (t.whole → v.toNat % 8 = 0 → ∀ t1 t2 target, t.readOk t.cur v.toNat = true → t.loadNow t.cur v.toNat 0 = (t1, .ok l) →
      t1.readOk t.cur w.toNat = true → t1.loadNow t.cur w.toNat 0 = (t2, .ok target) → target.toNat % 4 ≠ 0 →
      off (t.keepWalks t2 t.cur) target)) ∧
  (∀ (s : State) (target : Word), s.now.dslot = some target →
    let has (a : SReg) : Prop := regOk s.cur.ctx (.s a) = true
    let traps (x : Instr) : Prop := exec x s = .next (s.takeTrap s.cur { cause := .illegalSequence })
    (∀ disp, traps (.br disp) ∧ (has 63 → traps (.call disp))) ∧
    (∀ o : BrcOp, has o.c → has o.e → traps (.brc o)) ∧
    (∀ o : BzOp, has o.a → traps (.brz o) ∧ traps (.brnz o) ∧ traps (.brlz o) ∧ traps (.brgez o)) ∧
    (∀ a, has a → traps (.jr a) ∧ (has 63 → traps (.callr a))) ∧ (has 63 → traps .ret) ∧
    (∀ a b, has a → has b → traps (.jt a b)) ∧
    (s.cur.ctx = .main ∨ s.cur.ctx = .work → (∀ o : LoopOp, has o.a → traps (.loop o)) ∧ ∀ o : LoopiOp, traps (.loopi o)))

/-- R80 to R82, R106 to R109: where branches go, and where they trap. Whether others may be granted between the two
reads of JT is the step's choice (DEDUCED, log 18). -/
def Obligations.Branches : Prop := BranchesTaken ∧ BranchesTrap

/-- R111: LOOP and LOOPI with a count above zero activate the free level; with a count of zero they skip the body; with both
levels active they trap. -/
def LoopActivation : Prop :=
  ∀ (s : State) (count : BitVec 32) (disp : Int) (x : Instr) (rs : List Reg),
    ((∃ o : LoopOp, x = .loop o ∧ rs = [.s o.a] ∧ count = (s.now.sr o.a).setWidth 32 ∧ disp = o.disp.dispBytes) ∨
     (∃ o : LoopiOp, x = .loopi o ∧ rs = [] ∧ disp = o.disp.toInt * 4 ∧ count = match o.n with
        | .short n => BitVec.ofNat 32 n.val
        | .lit n => n)) →
    s.ready { reads := rs, ctxs := [.main, .work], noSlot := true, noEnd := true } →
    let fin := s.now.pc + BitVec.ofInt 64 disp
    let body := s.now.pc + BitVec.ofNat 64 x.len
    (s.now.lc1 ≠ 0 → exec x s = .next (s.takeTrap s.cur { cause := .loopDepth })) ∧
    (s.now.lc1 = 0 → count ≠ 0 → s.now.lc0 = 0 → exec x s = .next
      ((s.modCtx s.cur fun c => { c with lc0 := count, lbeg0 := body, lend0 := fin }).retire x.len [] (.goto body))) ∧
    (s.now.lc1 = 0 → count ≠ 0 → s.now.lc0 ≠ 0 → exec x s = .next
      ((s.modCtx s.cur fun c => { c with lc1 := count, lbeg1 := body, lend1 := fin }).retire x.len [] (.goto body))) ∧
    (∀ (t : State) (n : Nat), s.now.lc1 = 0 → count = 0 → s.slotLen s.cur fin = (t, .ok n) →
      exec x s = .next (t.retire x.len [] (.goto (fin + BitVec.ofNat 64 n))))


/-- R80, R112, R113: where execution continues when an instruction retires: by the loop-end test, inner level first, which every
instruction makes with the loop registers as it leaves them, one in a delay slot too; else at the branch's target after a delay
slot, at the address that the instruction names, or behind it. After a branch the slot is next and its target is kept, and a return
from an upcall goes where the frame says: neither makes the loop-end test. -/
def RetirementContinues : Prop :=
  (∀ (c : Ctx) (m : Img) (len : Nat) (ws : List Reg) (f : Flow) (after : Word),
    ((f = .seq ∨ f = .keep) ∧ after = c.dslot.getD (c.pc + BitVec.ofNat 64 len)) ∨ f = .goto after →
    let d := c.retire m len ws f
    let in1 := c.lc1 ≠ 0 ∧ c.pc = c.lend1
    let in0 := c.lc0 ≠ 0 ∧ c.pc = c.lend0
    d.dslot = none ∧
    (in1 → d.lc1 = c.lc1 - 1) ∧ (¬in1 → d.lc1 = c.lc1) ∧
    (in1 → c.lc1 ≠ 1 → d.pc = c.lbeg1 ∧ d.lc0 = c.lc0) ∧
    ((in1 → c.lc1 = 1) →
      (in0 → d.lc0 = c.lc0 - 1) ∧ (¬in0 → d.lc0 = c.lc0) ∧ (in0 → c.lc0 ≠ 1 → d.pc = c.lbeg0) ∧
      ((in0 → c.lc0 = 1) → d.pc = after))) ∧
  ∀ (c : Ctx) (m : Img) (len : Nat) (ws : List Reg) (f : Flow) (p : Word) (t : Option Word),
    (f = .slot (t.getD 0) ∧ t.isSome ∧ p = c.pc + BitVec.ofNat 64 len) ∨ f = .resume p t →
    let d := c.retire m len ws f
    d.pc = p ∧ d.dslot = t ∧ d.lc0 = c.lc0 ∧ d.lc1 = c.lc1

/-- R80, R111 to R113: LOOP and LOOPI, and where execution continues when an instruction retires. -/
def Obligations.Loops : Prop := LoopActivation ∧ RetirementContinues

/-! ### Formulas -/

/-- R120, R121, R126, R128: the formula instructions, where their checks pass. Whether others may be granted between the words of FLD's
descriptor is the step's choice (DEDUCED, log 18). -/
def FormulaForms : Prop :=
  (∀ (s : State) (slot : Fin 64) (a : SReg), s.ready (formUse s slot [.s a] []) →
    let off := (s.now.sr a).toNat % 2 ^ 20
    off % 32 = 0 → backed s.cur.node (off + 31) = true → s.ownBusy s.cur off 32 = false →
    (∀ ws, s.ownMore off 4 ws → exec (.fld slot a) s = .next (s.waits (.words ws []))) ∧
    ∀ d, s.ownRead off 4 d → descOk d = true → (s.now.slot slot).valid = false →
      exec (.fld slot a) s = .next ((s.modCtx s.cur fun c => c.setSlot slot
      { c.slot slot with desc := BitVec.ofNat 256 d, accum := initialAccum d, held := false }).retire 4 [] .seq)) ∧
  (∀ (s : State) (d : SReg) (slot : Fin 64), d ≠ 0 → s.ready (formUse s slot (slotReads s slot) [.s d]) →
    let k := s.now.slot slot
    let c := s.now.setSlot slot { k with dest := d, valid := true }
    k.valid = false → k.hasOps = true → k.srcs.any (s.now.downstream true 16 [d.val]).contains = false →
    (∀ j, j < 16 → (c.slot j).valid = true → c.depthOf 17 j ≤ 4) →
    exec (.bind d slot) s =
      .next ((s.setCtx s.cur (c.redepth.evalOnce (s.live s.cur.node) slot)).retire 4 [.s d] .seq)) ∧
  (∀ (s : State) (d : SReg), s.ready (formUse s 0 [] []) → regOk s.cur.ctx (.s d) = true →
    (s.now.boundSlot d = none → exec (.unbind d) s = .next (s.pass 4)) ∧
    (∀ k, s.now.boundSlot d = some k → exec (.unbind d) s = .next
      ((s.modCtx s.cur fun c => (c.setSlot k { c.slot k with valid := false, held := false }).redepth).retire 4 [] .seq))) ∧
  (∀ s : State, s.ready (formUse s 0 [] []) → ∃ t, exec .unbinda s = .next t ∧
    ∀ k, k < 16 → (t.now.slot k) = { s.now.slot k with valid := false, held := false }) ∧
  (∀ (s : State) (slot : Fin 64), (s.now.slot slot).valid = true →
    (s.ready (formUse s slot [] []) → exec (.fhold slot) s = .next
      ((s.modCtx s.cur fun c => c.setSlot slot { c.slot slot with held := true }).retire 4 [] .seq)) ∧
    (s.ready (formUse s slot (slotReads s slot) []) →
      exec (.frun slot) s = .next ((s.modCtx s.cur fun c =>
        (c.setSlot slot { c.slot slot with held := false }).evalOnce (s.live s.cur.node) slot).retire 4
          [.s (s.now.slot slot).dest] .seq) ∧
      exec (.feval slot) s = .next ((s.modCtx s.cur fun c => c.evalOnce (s.live s.cur.node) slot).retire 4
          [.s (s.now.slot slot).dest] .seq)))

/-- R127: BINDQ's map. It reads the number of ra, not its value: no register is read. -/
def Obligations.BindingQuery : Prop :=
  ∀ (s : State) (d a : SReg), regOk s.cur.ctx (.s a) = true →
    (s.ready (formUse s 0 [] [.s d]) →
      ∃ x : Word, exec (.bindq d a) s = .next (s.putS 4 d x) ∧
        (s.now.boundSlot a = none → x = 0) ∧
        (∀ k, s.now.boundSlot a = some k →
          x.getLsbD 63 = true ∧ (∀ j, 8 ≤ j → j < 63 → x.getLsbD j = false) ∧
          x.getLsbD 7 = (s.now.slot k).held ∧ x.toNat / 16 % 8 = (s.now.slot k).depth % 8 ∧ x.toNat % 16 = k)) ∧
    (s.cur.ctx = .main ∨ s.cur.ctx = .work → regOk s.cur.ctx (.s d) = true → s.now.dslot = none →
      (s.now.boundSlot d).isSome = true →
      exec (.bindq d a) s = .next (s.takeTrap s.cur { cause := .boundWrite }))

/-- R45, R119, R123: a register bound to a stateless formula holds, after an instruction that writes one of its sources, the
formula's value over the registers as they then stand. -/
def FormulasTrack : Prop :=
  ∀ (c : Ctx) (m : Img) (k n len : Nat) (f : Flow), k < 16 → n < 64 →
    (∀ j, j < 16 → ((c.slot j).valid && !(c.slot j).held) = true → j = k) →
    (c.slot k).valid = true → (c.slot k).held = false → descStateful (c.slot k).desc.toNat = false →
    n ∈ (c.slot k).srcs → (c.slot k).dest ∉ (c.slot k).srcs → (c.slot k).dest ≠ 0 →
    (c.retire m len [.s n] f).sr (c.slot k).dest = ((c.slot k).eval m c).1 ∧
    (∀ r, r ≠ (c.slot k).dest → (c.retire m len [.s n] f).sr r = c.sr r)

/-- Slots in topological order: no source of a slot is the register of a later one; and a slot of a lower number stands later only
because some slot that is not done yet still gives a source of it (R45, R123). -/
def inOrder (c : Ctx) : List Nat → Prop
  | [] => True
  | k :: rest =>
    (∀ r ∈ (c.slot k).srcs, ∀ j ∈ rest, (c.slot j).dest ≠ r) ∧
    (∀ j ∈ rest, j < k → ∃ r ∈ (c.slot j).srcs, ∃ i ∈ k :: rest, i ≠ j ∧ (c.slot i).dest = r) ∧ inOrder c rest

/-- The source code of a unit's count that changed: 64 to 67 for WP0 to WP3, 68 for VENTN (R118). -/
def unitCode : Src → Option Nat
  | .wp n => if n < 4 then some (64 + n) else none
  | .ventn => some 68
  | .fill _ => none

/-- Evaluation of slots one after another: one of whose sources is a dirty register or a changed unit has its value over the registers
as they now stand written to its register, which is dirty from then on. With the context come the slots whose check failed, first
failure first (R45, R124, R125). -/
def evalChain (m : Img) (units : List Src) (c : Ctx) (dirty : List Nat) : List Nat → Ctx × List Nat
  | [] => (c, [])
  | k :: rest =>
    if (c.slot k).srcs.any (fun r => if r < 64 then dirty.contains r else units.any fun x => unitCode x == some r) then
      let r := (c.slot k).eval m c
      let q := evalChain m units ((c.setSlot k { c.slot k with accum := r.2.1 }).setS (c.slot k).dest r.1)
        ((c.slot k).dest :: dirty) rest
      (q.1, if r.2.2 then k :: q.2 else q.2)
    else evalChain m units c dirty rest

/-- R45, R123 to R125: retirement evaluates the slots that are VALID and not HELD, each once, in topological order, ties in ascending
number; the first failing check becomes pending with the instruction's address. That a check which is pending already stays is
the model's choice (DEDUCED, log 27). -/
def FormulasInOrder : Prop :=
  ∀ (c : Ctx) (m : Img) (ns l : List Nat) (len : Nat) (f : Flow), ns ≠ [] → l.Nodup →
    (∀ k, k ∈ l ↔ k < 16 ∧ (c.slot k).valid = true ∧ (c.slot k).held = false) → inOrder c l →
    let d := c.retire m len (ns.map .s) f
    let q := evalChain m [] c ns l
    (∀ r, d.sr r = q.1.sr r) ∧ (∀ k, d.slot k = q.1.slot k) ∧
    d.fcheck = (c.fcheck.or (q.2.head?.map fun k => ⟨k, some c.pc⟩))

/-- What operation `i` of a formula does, by its code (R119, R124): `val` gives the results of the operations, which the selectors 8 to 10
name. -/
def operationIs (m : Img) (c : Ctx) (k : Slot) (val : Nat → Word) (i : Nat) : Prop :=
  let d := k.desc.toNat
  let o := fOp d i
  let v (j : Nat) : Word :=
    if opSel o j = 0 then 0 else if opSel o j ≤ 3 then srcVal m c (fSrc d (opSel o j - 1))
    else if opSel o j ≤ 7 then fK d (opSel o j - 4) else val (opSel o j - 8)
  let x := v 0
  let y := v 1
  let z := v 2
  let is (code : Nat) (w : Word) : Prop := opOpc o = code → val i = w
  let running (code : Nat) (w init : Word) : Prop := opOpc o = code → val i = w ∧ initialAccum d = init
  is 0x01 (x + y) ∧ is 0x02 (x - y) ∧ is 0x03 (x * y) ∧ is 0x04 (x <<< (y.toNat % 64)) ∧ is 0x05 (x.sshiftRight (y.toNat % 64)) ∧
  is 0x06 (x &&& y) ∧ is 0x07 (x ||| y) ∧ is 0x08 (if x.toInt < y.toInt then x else y) ∧
  is 0x09 (if x.toInt < y.toInt then y else x) ∧ is 0x0A (if x.toInt < y.toInt then 1 else 0) ∧
  is 0x0B (if x.toNat < y.toNat then 1 else 0) ∧ is 0x0C (if x ≠ 0 then y else z) ∧
  (opOpc o = 0x0D → (val i).toInt = min (max x.toInt y.toInt) z.toInt) ∧
  is 0x0E (if y.toInt ≤ x.toInt ∧ x.toInt ≤ z.toInt then 1 else 0) ∧ is 0x0F x ∧
  running 0x10 (k.accum + x) 0 ∧ running 0x11 (if k.accum.toInt < x.toInt then x else k.accum) (BitVec.ofInt 64 (-2 ^ 63)) ∧
  running 0x12 (if x.toInt < k.accum.toInt then x else k.accum) (BitVec.ofInt 64 (2 ^ 63 - 1)) ∧
  running 0x13 (if x ≠ 0 then k.accum + 1 else k.accum) 0

/-- Operation `i` of a formula is a check that fails (R125). -/
def checkFails (m : Img) (c : Ctx) (k : Slot) (val : Nat → Word) (i : Nat) : Prop :=
  let d := k.desc.toNat
  let o := fOp d i
  let v (j : Nat) : Int := (if opSel o j = 0 then 0 else if opSel o j ≤ 3 then srcVal m c (fSrc d (opSel o j - 1))
    else if opSel o j ≤ 7 then fK d (opSel o j - 4) else val (opSel o j - 8) : Word).toInt
  opOpc o = 0x0F ∧ ¬(v 1 ≤ v 0 ∧ v 0 ≤ v 2)

/-- R119, R124, R125: the value of a formula is its last operation's, each operation taking the results of earlier ones; the running value
that a stateful one leaves; and the checks that fail. -/
def OperationCodes : Prop :=
  ∀ (m : Img) (c : Ctx) (k : Slot), let d := k.desc.toNat
    (∀ i j, i < fOps d → j < 3 → opSel (fOp d i) j < 8 + i) → (∀ i, i + 1 < fOps d → opOpc (fOp d i) < 0x10) →
    let r := k.eval m c
    let last := fOps d - 1
    ∃ val : Nat → Word, (∀ i, i < fOps d → operationIs m c k val i) ∧ r.1 = val last ∧
      (opOpc (fOp d last) < 0x10 → r.2.1 = k.accum) ∧ (0x10 ≤ opOpc (fOp d last) → opOpc (fOp d last) ≤ 0x13 → r.2.1 = val last) ∧
      (r.2.2 = true ↔ ∃ i, i < fOps d ∧ checkFails m c k val i)

/-- R121, R125, R128: what BIND, FRUN and FEVAL evaluate: a stateless formula afresh, a stateful one as its running value. It is written to
the slot's register; a failing check becomes pending. That a check which is pending already stays is the model's choice (DEDUCED,
log 27). -/
def EvaluatedOnce : Prop :=
  ∀ (c : Ctx) (m : Img) (slot : Nat), let k := c.slot slot
    k.dest ≠ 0 → k.dest < 64 → let d := c.evalOnce m slot
    d.sr k.dest = (if descStateful k.desc.toNat then k.accum else (k.eval m c).1) ∧ (∀ r, r ≠ k.dest → d.sr r = c.sr r) ∧
    (∀ j, d.slot j = c.slot j) ∧ d.pc = c.pc ∧
    d.fcheck = c.fcheck.or (if descStateful k.desc.toNat = false ∧ (k.eval m c).2.2 = true then some ⟨slot, some c.pc⟩ else none)

/-- R45, R119 to R121, R123 to R126, R128: the formula instructions, what a binding keeps true, the order of evaluation, and the
operations, chained ones too. That BIND, FRUN and FEVAL of a stateful slot wait for its sources is the model's choice (DEDUCED, log 27). -/
def Obligations.Formulas : Prop := FormulaForms ∧ FormulasTrack ∧ FormulasInOrder ∧ OperationCodes ∧ EvaluatedOnce

/-! ### Control registers -/

/-- R18, R230, R246: the CSR instructions, by the access that the level has to the register, and where they trap. -/
def CsrForms : Prop :=
  ∀ (s : State) (o : CsrOp),
    let i := s.cur
    let n := csrNo o.n
    let a := s.now.sr o.a
    (∀ old, csrRead s i n = some old → csrAcc n s.now.priv ≠ .none →
      (s.ready { writes := [.s o.d] } → exec (.csrr o) s = .next (s.putS (Instr.csrr o).len o.d old)) ∧
      (s.ready { reads := [.s o.a], writes := [.s o.d] } →
        let len := (Instr.csrw o).len
        let put (x : Word) : Host.Outcome State Fault Refusal :=
          .next (((csrWrite s i n x).modCtx i fun c => c.setS o.d old).retire len [.s o.d] (if n = 0x005 then .keep else .seq))
        (csrAcc n s.now.priv = .rw →
          exec (.csrw o) s = put a ∧ exec (.csrs o) s = put (old ||| a) ∧ exec (.csrc o) s = put (old &&& ~~~a)) ∧
        (csrAcc n s.now.priv = .w1c → exec (.csrw o) s = put a ∧ exec (.csrs o) s = put a ∧ exec (.csrc o) s = put a) ∧
        (csrAcc n s.now.priv = .ro →
          exec (.csrw o) s = .next (s.putS len o.d old) ∧ exec (.csrs o) s = .next (s.putS len o.d old) ∧
          exec (.csrc o) s = .next (s.putS len o.d old)))) ∧
    (∀ t : Trap, (csrRead s i n = none ∧ t = { cause := .illegalInstruction }) ∨
        (regOk i.ctx (.s o.d) = true ∧ regOk i.ctx (.s o.a) = true ∧ (csrRead s i n).isSome = true ∧ csrAcc n s.now.priv = .none ∧
          t = { cause := .privilege }) →
      ∀ x ∈ [Instr.csrr o, .csrw o, .csrs o, .csrc o], exec x s = .next (s.takeTrap i t))

/-- The bits of a writable control register that a write sets; the others read as zero (R18 to R25, R40). That EINFO, 0x033, can be
written is the model's choice (DEDUCED, log 31): R18 has it RW and R24 RO. -/
def csrBits (n : Nat) : Nat :=
  match n with
  | 0x001 => 0x1F
  | 0x002 => 1
  | 0x003 | 0x014 | 0x080 | 0x083 => 0xFFFFFFFF
  | 0x010 => 3
  | 0x011 => 15
  | 0x020 => 0xFFFFFFFFFFFFFFFC
  | 0x031 => 0xFF
  | 0x033 => 0x3FFFF
  | 0x042 | 0x043 => 0xFFFFFFFFFFFFFFC0
  | _ => if 0x110 ≤ n then 0xFFFC0 else if 0x100 ≤ n then 0xFE0FFFC0 else 0xFFFFFFFFFFFFFFFF

/-- R18 to R25, R40, R46: what a write of a control register leaves in it, and that it leaves every other control register of
the instance as it was. VOVF clears the bits written as one; QSPILL and STEALWIN are clamped; PSTAT keeps CTX and NS. The model's
choices here (DEDUCED, log 31) are a clamp of the whole value, and an EINFO that S writes. -/
def CsrFields : Prop :=
  ∀ (s : State) (i : Inst) (n : Nat) (x : Word), (csrRead s i n).isSome = true →
    csrAcc n true = .rw ∨ csrAcc n true = .w1c →
    let t := csrWrite s i n x
    (∀ m, m ≠ n → csrRead t i m = csrRead s i m) ∧
    (n ≠ 0x004 → n ≠ 0x006 → n ≠ 0x012 → n ≠ 0x013 → csrRead t i n = some (x &&& BitVec.ofNat 64 (csrBits n))) ∧
    csrRead (csrWrite s i 0x004 x) i 0x004 = some ((s.ctx i).vovf.setWidth 64 &&& ~~~x) ∧
    csrRead (csrWrite s i 0x006 x) i 0x006 =
      some ((x &&& 0xD) ||| (pstatOf i (s.node i.node).ns (s.ctx i) &&& 0x32)) ∧
    csrRead (csrWrite s i 0x012 x) i 0x012 = some (BitVec.ofNat 64 (max 4 (min x.toNat 64))) ∧
    csrRead (csrWrite s i 0x013 x) i 0x013 = some (BitVec.ofNat 64 (min x.toNat 256))

/-- R18 to R25, R40, R246: the CSR instructions and the control registers. The clamp of a whole value and an EINFO that S writes (0x033 of
`csrBits`) are the model's choices (DEDUCED, log 31). -/
def Obligations.ControlRegisters : Prop := CsrForms ∧ CsrFields

/-! ### Rings, copy channels, tensors -/

/-- R155 to R158: the ring instructions, where their checks pass. FILL and DRAIN count modulo 2^16. -/
def Obligations.RingInstructions : Prop :=
  (∀ (s : State) (h : HReg) (a : SReg) (tie : Fin 64), s.ready (ringUse [.s a] [.h h]) →
    let off := (s.now.sr a).toNat % 2 ^ 20
    let w := s.ownNat s.cur off 8
    let base := natBits w 0 20
    let sz := natBits w 20 4
    let cnt := natBits w 24 9
    (tie = 0 ∨ 4 ≤ tie.val ∧ tie.val ≤ 7) → off % 8 = 0 → backed s.cur.node (off + 7) = true →
    s.ownBusy s.cur off 8 = false → natBits w 33 31 = 0 → base % 64 = 0 → 2 ≤ cnt → cnt ≤ 256 → 6 ≤ sz →
    backed s.cur.node (base + cnt * 2 ^ sz - 1) = true →
    ∃ t x, exec (.hset h a tie) s = .next t ∧ t.now.hr h = x ∧ hValid x = true ∧ hTie x = tie.val ∧ hCnt x = cnt ∧
      hSz x = sz ∧ hBase x = base ∧ hFill x = 0 ∧ hDrain x = 0 ∧ (∀ k, k ≠ h.val → t.now.hr k = s.now.hr k)) ∧
  (∀ (s : State) (d : SReg) (h : HReg) (n : Fin 64),
    let x := s.now.hr h
    let k := if n = 0 then 1 else n.val
    s.ready (ringUse [.h h] [.s d]) → hValid x = true →
      (k ≤ hFilled x → k ≤ hCnt x → exec (.hwait d h n) s = .next (s.putS 4 d
        (BitVec.ofNat 64 (hBase x + hDrain x % hCnt x * 2 ^ hSz x)))) ∧
      (k ≤ hFree x → k ≤ hCnt x → exec (.hspace d h n) s = .next (s.putS 4 d
        (BitVec.ofNat 64 (hBase x + hFill x % hCnt x * 2 ^ hSz x)))) ∧
      exec (.hq d h) s = .next (s.putS 4 d
        (BitVec.ofNat 64 (hFilled x + hFree x * 2 ^ 16 + hFill x * 2 ^ 32 + hDrain x * 2 ^ 48)))) ∧
  (∀ (s : State) (d : SReg) (h : HReg), s.ready (ringUse [.h h] [.s d]) → hValid (s.now.hr h) = false →
    exec (.hq d h) s = .next (s.putS 4 d 0)) ∧
  (∀ (s : State) (o : HAdvOp), s.ready (ringUse [.h o.h] [.h o.h]) →
    let x := s.now.hr o.h
    let n := match o.n with
      | .short i => i.toNat
      | .lit w => w.toNat
    hValid x = true →
      (hTie x = 0 → n ≤ hFree x → ∃ t, exec (.hadv o) s = .next t ∧
        hFill (t.now.hr o.h) = (hFill x + n) % 2 ^ 16 ∧ hDrain (t.now.hr o.h) = hDrain x) ∧
      (n ≤ hFilled x → ∃ t, exec (.hrel o) s = .next t ∧
        hDrain (t.now.hr o.h) = (hDrain x + n) % 2 ^ 16 ∧ hFill (t.now.hr o.h) = hFill x))

/-- The addresses of a transfer are ones that the issuer checks (R152). -/
def chanAddrsOk (s : State) (mode : Mode) (vs : List Word) : Prop := ∀ v ∈ vs, (s.locate s.cur.node mode v.toNat).isSome = true

/-- R151 to R154: the copy instructions, where their checks pass and their channel has room. A join is discharged at once
where no channel holds an earlier entry. The model's choices: CABORT waits for no acknowledgement, since every write is acknowledged
as it is made (DESIGN CHOICE, log 22); whether others may be granted between the words of a shape record is the step's choice
(DEDUCED, log 18). -/
def Obligations.ChannelInstructions : Prop :=
  (∀ (s : State) (o : CopyOp), s.ready { reads := .s o.d :: .s o.a :: opndRegs o.b } →
    chanAddrsOk s o.mode [s.now.sr o.d, s.now.sr o.a] → s.chanReady o.ch = true →
    let b := (s.now.opnd o.b).toNat
    (o.shape = false → b < 2 ^ 32 → exec (.copy o) s = .next
      ((s.enqueue o.ch (.bytes (s.now.sr o.d) (s.now.sr o.a) o.mode b) none).retire (Instr.copy o).len [] .seq)) ∧
    (∀ r sh, o.shape = true → s.ownBusy s.cur (b % 2 ^ 20) 64 = false → shapePlace s.cur.node (b % 2 ^ 20) = true →
      s.ownRead (b % 2 ^ 20) 8 r → shapeIn r = some sh → shCount sh * shEsz sh < 2 ^ 32 → exec (.copy o) s = .next
        ((s.enqueue o.ch (.shaped (s.now.sr o.d) (s.now.sr o.a) o.mode sh) none).retire (Instr.copy o).len [] .seq))) ∧
  (∀ (s : State) (n : Fin 64), n.val ≤ 3 →
    let k := (s.live s.cur.node).chan n
    (s.ready {} → k.stopped = none → k.entries = 0 → exec (.cwait n) s = .next (s.pass 4)) ∧
    (s.ready {} → ∃ t, exec (.cabort n) s = .next t ∧ (t.live s.cur.node).chan n = {}) ∧
    (∀ d : SReg, s.ready { writes := [.s d] } → ∃ x : Word, exec (.cstat d n) s = .next (s.putS 4 d x) ∧
      (k.stopped = none → k.queue = [] → x = 0) ∧
      (k.stopped = none → k.entries ≤ 16 → (∀ e c u a r p l, k.queue = .entry e c u a r p :: l → x.toNat = k.entries + 256) ∧
        (∀ id mask l, k.queue = .join id mask :: l → x.toNat = k.entries)) ∧
      (∀ tr, k.stopped = some tr → k.entries ≤ 16 →
        x.toNat / 2 ^ 16 = tr.cause.code ∧ x.toNat / 256 % 4 = 2 ∧ x.toNat % 256 = k.entries))) ∧
  (∀ (s : State) (mask : Fin 64), s.ready {} → 1 ≤ mask.val → mask.val ≤ 15 →
    let q (k : Nat) : List ChanItem := ((s.live s.cur.node).chan k).queue
    ((∀ k, k < 4 → q k = []) → ∃ t, exec (.qfence mask) s = .next t ∧
      ∀ k, k < 4 → ((t.live s.cur.node).chan k).queue = []) ∧
    ((∀ k, k < 4 → q k = [] ∨ ∃ x c u a r p l, q k = .entry x c u a r p :: l) →
      (∃ k, k < 4 ∧ natBit mask.val k = true ∧ q k ≠ []) →
      ∃ t, exec (.qfence mask) s = .next t ∧
        ∀ k, k < 4 → ((t.live s.cur.node).chan k).queue = q k ++ if natBit mask.val k then [.join s.nextId mask.val] else []))

/-- R160, R247: an instruction that reads a shape record and may not read all of it in this step waits with the words it has read. -/
def RecordsInPart : Prop :=
  ∀ (s : State) (x : Instr) (u : Use) (b : Opnd) (ws : List Word), let off := (s.now.opnd b).toNat % 2 ^ 20
    ((∃ o : CopyOp, x = .copy o ∧ o.b = b ∧ o.shape = true ∧ u = { reads := .s o.d :: .s o.a :: opndRegs o.b } ∧
        chanAddrsOk s o.mode [s.now.sr o.d, s.now.sr o.a]) ∨
      (x = .tshp b ∧ u = tenUse (opndRegs b) ((List.range 7).map Reg.d)) ∨
      (∃ o : DincOp, x = .dinc o ∧ o.b = b ∧ u = tenUse (opndRegs o.b) [.s o.d]) ∨
      (∃ (o : TldOp) (r : Reg), x = .tld o ∧ o.b = b ∧ u = tenUse (r :: .s o.a :: opndRegs o.b) [] ∧
        ((∃ d, o.dst = .tile d ∧ r = .s d) ∨ ∃ h, o.dst = .ring h ∧ r = .h h)) ∨
      ∃ o : TstOp, x = .tst o ∧ o.b = b ∧ u = tenUse (.s o.d :: .s o.a :: opndRegs o.b) []) →
    s.ready u → s.ownBusy s.cur off 64 = false → shapePlace s.cur.node off = true → ws.length < 8 → s.ownMore off 8 ws →
    exec x s = .next (s.waits (.words ws []))

/-- R159, R161 to R164: the tensor instructions, where their checks pass and their channel has room. That DINC adds modulo 2^32 and
that offsets of shapes and tiles are bits [19:0] are the model's choices (DEDUCED, log 26). -/
def TensorForms : Prop :=
  (∀ (s : State) (b : Opnd) (r : Nat) (sh : Shape), s.ready (tenUse (opndRegs b) ((List.range 7).map Reg.d)) →
    let off := (s.now.opnd b).toNat % 2 ^ 20
    s.ownBusy s.cur off 64 = false → shapePlace s.cur.node off = true → s.ownRead off 8 r → shapeIn r = some sh →
    ∃ t, exec (.tshp b) s = .next t ∧ ∀ k, t.now.dr k = 0) ∧
  (∀ (s : State) (d : DReg) (a : SReg) (l : Option Word), s.ready (tenUse [.s a] [.d d]) → let x := Instr.dmov (.toD d a l)
    exec x s = .next ((s.modCtx s.cur fun c => c.setD d ((s.now.sr a).setWidth 32)).retire x.len [.d d] .seq)) ∧
  (∀ (s : State) (d : SReg) (a : DReg) (l : Option Word), s.ready (tenUse [.d a] [.s d]) → let x := Instr.dmov (.toS d a l)
    exec x s = .next (s.putS x.len d ((s.now.dr a).signExtend 64))) ∧
  (∀ (s : State) (o : DincOp) (r : Nat) (sh : Shape), s.ready (tenUse (opndRegs o.b) [.s o.d]) →
    let off := (s.now.opnd o.b).toNat % 2 ^ 20
    s.ownBusy s.cur off 64 = false → shapePlace s.cur.node off = true → s.ownRead off 8 r → shapeIn r = some sh →
    o.k.val < sh.dims.length →
    let step (j : Nat) : Nat := if j = 0 then sh.tcols else if j = 1 then sh.trows else 1
    let next (j : Nat) : Int := (s.now.dr j + BitVec.ofNat 32 (step j)).toInt
    let ext (j : Nat) : Int := (sh.dims.getD j (0, 0, 0)).1
    ∃ t, exec (.dinc o) s = .next t ∧
      (∀ j, j < o.k.val ∨ sh.dims.length ≤ j → t.now.dr j = s.now.dr j) ∧
      (∀ j, o.k.val ≤ j → j < sh.dims.length → (∀ i, o.k.val ≤ i → i < j → ext i ≤ next i) →
        (t.now.dr j).toInt = if ext j ≤ next j then 0 else next j) ∧
      (∀ j i, o.k.val ≤ i → i < j → next i < ext i → t.now.dr j = s.now.dr j) ∧
      (o.d ≠ 0 → (t.now.sr o.d = 1 ↔ ∀ j, o.k.val ≤ j → j < sh.dims.length → ext j ≤ next j))) ∧
  (∀ (s : State) (o : TldOp) (d : SReg) (r : Nat) (sh : Shape), o.dst = .tile d →
    s.ready (tenUse (.s d :: .s o.a :: opndRegs o.b) []) →
    chanAddrsOk s (if o.loc then .loc else .as) [s.now.sr o.a] → s.chanReady o.ch = true →
    let off := (s.now.opnd o.b).toNat % 2 ^ 20
    let n := sh.trows * (64 * 2 ^ sh.esz)
    let tile := (s.now.sr d).toNat % 2 ^ 20
    s.ownBusy s.cur off 64 = false → shapePlace s.cur.node off = true → s.ownRead off 8 r → shapeIn r = some sh →
    backed s.cur.node (tile + n - 1) = true →
    exec (.tld o) s = .next
      ((s.enqueue o.ch (.tld tile (s.now.sr o.a) o.loc sh s.now.coords n) none).retire (Instr.tld o).len [] .seq)) ∧
  (∀ (s : State) (o : TldOp) (h : HReg) (r : Nat) (sh : Shape), o.dst = .ring h →
    s.ready (tenUse (.h h :: .s o.a :: opndRegs o.b) []) →
    chanAddrsOk s (if o.loc then .loc else .as) [s.now.sr o.a] → s.chanReady o.ch = true →
    let off := (s.now.opnd o.b).toNat % 2 ^ 20
    let x := s.now.hr h
    let given := (Table.get 0 s.now.part h.val + ((s.live s.cur.node).chan o.ch).owed) / 2 ^ hSz x
    s.ownBusy s.cur off 64 = false → shapePlace s.cur.node off = true → s.ownRead off 8 r → shapeIn r = some sh →
    hValid x = true → hTie x = o.ch.val + 4 →
    sh.trows * (64 * 2 ^ sh.esz) ≤ 2 ^ hSz x → given < hFree x →
    exec (.tld o) s = .next ((s.enqueue o.ch
      (.tld (hBase x + (hFill x + given) % 65536 % hCnt x * 2 ^ hSz x) (s.now.sr o.a) o.loc sh s.now.coords (2 ^ hSz x))
      (some h.val)).retire (Instr.tld o).len [] .seq)) ∧
  (∀ (s : State) (o : TstOp) (r : Nat) (sh : Shape), s.ready (tenUse (.s o.d :: .s o.a :: opndRegs o.b) []) →
    chanAddrsOk s (if o.loc then .loc else .as) [s.now.sr o.a] → s.chanReady o.ch = true →
    let off := (s.now.opnd o.b).toNat % 2 ^ 20
    let tile := (s.now.sr o.d).toNat % 2 ^ 20
    s.ownBusy s.cur off 64 = false → shapePlace s.cur.node off = true → s.ownRead off 8 r → shapeIn r = some sh →
    backed s.cur.node (tile + sh.trows * (64 * 2 ^ sh.esz) - 1) = true →
    exec (.tst o) s = .next
      ((s.enqueue o.ch (.tst tile (s.now.sr o.a) o.loc sh s.now.coords) none).retire (Instr.tst o).len [] .seq))

/-- R163: where an element of a tile lies. The bank permutation is one to one on the elements of each size, and `tileElem` inverts
it. -/
def TileLayout : Prop :=
  ∀ (z i j b : Nat), z ≤ 3 → i < 64 → j < 64 → b < 2 ^ z →
    let e := 2 ^ z
    let row := 64 * e
    let words := row / 8
    tileByte e i j = i * row + (j * e / 8 ^^^ i % words) * 8 + j * e % 8 ∧
    tileByte e i j < 64 * row ∧ tileElem e (tileByte e i j + b) = (i, j, b)

/-- R163: what a channel moves for TLD and TST, byte by byte: an element in bounds from or to its tensor address, and zero for the
others of a TLD. `c` are the coordinates. -/
def TileMoves : Prop :=
  ∀ (sh : Shape) (c : List Int) (i j b tile : Nat) (base : Word) (loc : Bool), sh.esz ≤ 3 → i < sh.trows → sh.trows ≤ 64 → j < 64 →
    b < 2 ^ sh.esz → 1 ≤ sh.dims.length → sh.dims.length ≤ 7 → c.length = 7 → (sh.dims.length = 1 → sh.trows = 1) →
    let e := 2 ^ sh.esz
    let mode : Mode := if loc then .loc else .as
    let at_ (k : Nat) : Int := c.getD k 0 + (if k = 0 then (j : Int) else if k = 1 then (i : Int) else 0)
    let inside := j < sh.tcols ∧ ∀ k, k < sh.dims.length → 0 ≤ at_ k ∧ at_ k < (sh.dims.getD k (0, 0, 0)).1
    let addr : Int := (List.range sh.dims.length).foldl (fun a k => a + at_ k * (sh.dims.getD k (0, 0, 0)).2.1) 0
    let q := tileByte e i j + b
    (xferByte (.tld tile base loc sh c (sh.trows * (64 * e))) q).2 = (Mode.loc, BitVec.ofNat 64 (tile + q)) ∧
    (inside → (xferByte (.tld tile base loc sh c (sh.trows * (64 * e))) q).1 = some (mode, base + BitVec.ofInt 64 (addr + b))) ∧
    (¬inside → (xferByte (.tld tile base loc sh c (sh.trows * (64 * e))) q).1 = none) ∧
    (inside → ∃ n, n < xferTotal (.tst tile base loc sh c) ∧ xferByte (.tst tile base loc sh c) n =
      (some (Mode.loc, BitVec.ofNat 64 (tile + q)), (mode, base + BitVec.ofInt 64 (addr + b))))

/-- R159, R161 to R164: the tensor instructions, the layout of a tile, and what its transfers move. DINC modulo 2^32 and the offset
bits are the model's choices (DEDUCED, log 26). -/
def Obligations.Tensors : Prop := RecordsInPart ∧ TensorForms ∧ TileLayout ∧ TileMoves

/-! ### Vectors -/

/-- R206, R207, R215: the integer lane instructions, lane by lane, at every width. `x` and `y` are the lanes as signed
integers. -/
def Obligations.VectorIntegerResults : Prop :=
  ∀ (s : State) (o : VInt), s.ready { reads := .v o.a :: vbRegs o.b, writes := [.v o.d] } →
    let e := o.w.bytes
    let w := 8 * e
    let p := vbPmZm o.b
    let a (l : Nat) : Nat := lane (s.now.vr o.a) e l
    let b (l : Nat) : Nat := vbLane s.now o.b e l
    let x (l : Nat) : Int := natSigned w (a l)
    let y (l : Nat) : Int := natSigned w (b l)
    let low (i : Int) : Nat := (i % 2 ^ w).toNat
    let sat (i : Int) : Nat := low (max (-2 ^ (w - 1)) (min (2 ^ (w - 1) - 1) i))
    let is (i : Instr) (f : Nat → Nat) : Prop := writesLanes s i o.d (pmOf p) (zmOf p) e f
    is (.vadd o) (fun l => a l + b l) ∧ is (.vsub o) (fun l => low (x l - y l)) ∧ is (.vmul o) (fun l => a l * b l) ∧
    is (.vmulh o) (fun l => low (x l * y l / 2 ^ w)) ∧
    is (.vand o) (fun l => a l &&& b l) ∧ is (.vor o) (fun l => a l ||| b l) ∧ is (.vxor o) (fun l => a l ^^^ b l) ∧
    is (.vsll o) (fun l => a l * 2 ^ (b l % w)) ∧ is (.vsrl o) (fun l => a l / 2 ^ (b l % w)) ∧
    is (.vsra o) (fun l => low (x l / 2 ^ (b l % w))) ∧
    is (.vmin o) (fun l => if y l < x l then b l else a l) ∧ is (.vmax o) (fun l => if x l < y l then b l else a l) ∧
    is (.vminu o) (fun l => min (a l) (b l)) ∧ is (.vmaxu o) (fun l => max (a l) (b l)) ∧
    is (.vadds o) (fun l => sat (x l + y l)) ∧ is (.vsubs o) (fun l => sat (x l - y l))

/-- R207, R208, R217, R218: the float lane instructions, each lane an exact operation rounded once under element index `l`. -/
def Obligations.VectorFloatResults : Prop :=
  (∀ (s : State) (o : VF2), s.ready { reads := .v o.a :: vfbRegs o.b, writes := [.v o.d] } →
    let f := o.f.fmt
    let m := vfbX o.b
    let env := s.now.env
    let a (l : Nat) : Nat := lane (s.now.vr o.a) f.bytes l
    let b (l : Nat) : Nat := vfbLane s.now o.b f.bytes l
    let num (x : Nat) : XNum := f.num env.wtop x
    let is (i : Instr) (g : Nat → Rounded) : Prop := roundsLanes s i o.d (fxPm m) (fxZm m) f.bytes g
    is (.vfadd o) (fun l => sumRound f env (fxRm m) l [num (a l), num (b l)]) ∧
    is (.vfsub o) (fun l => sumRound f env (fxRm m) l [num (a l), (num (b l)).neg]) ∧
    is (.vfmul o) (fun l => roundTo f env (fxRm m) l ((num (a l)).mul (num (b l)))) ∧
    is (.vfdiv o) (fun l => f.divBits env (fxRm m) l (a l) (b l))) ∧
  (∀ (s : State) (o : VF1), s.ready { reads := [.v o.a, .p (fxPm o.x)], writes := [.v o.d] } →
    let f := o.f.fmt
    roundsLanes s (.vfsqrt o) o.d (fxPm o.x) (fxZm o.x) f.bytes
      (fun l => f.sqrtBits s.now.env (fxRm o.x) l (lane (s.now.vr o.a) f.bytes l))) ∧
  (∀ (s : State) (o : VF2s), s.ready { reads := .v o.a :: vbRegs o.b, writes := [.v o.d] } →
    let f := o.f.fmt
    let p := vbPmZm o.b
    let a (l : Nat) : Nat := lane (s.now.vr o.a) f.bytes l
    let b (l : Nat) : Nat := vbLane s.now o.b f.bytes l
    roundsLanes s (.vfmin o) o.d (pmOf p) (zmOf p) f.bytes (fun l => f.minmaxBits false (a l) (b l)) ∧
    roundsLanes s (.vfmax o) o.d (pmOf p) (zmOf p) f.bytes (fun l => f.minmaxBits true (a l) (b l))) ∧
  (∀ (s : State) (o : VF1s), s.ready { reads := [.v o.a, .p (pmOf o.x)], writes := [.v o.d] } →
    let f := o.f.fmt
    let top := 2 ^ (8 * f.bytes - 1)
    let a (l : Nat) : Nat := lane (s.now.vr o.a) f.bytes l
    writesLanes s (.vfneg o) o.d (pmOf o.x) (zmOf o.x) f.bytes (fun l => if a l < top then a l + top else a l - top) ∧
    writesLanes s (.vfabs o) o.d (pmOf o.x) (zmOf o.x) f.bytes (fun l => a l % top)) ∧
  (∀ (s : State) (o : VF3), s.ready { reads := [.v o.a, .v o.b, .v o.c, .p o.x.pm], writes := [.v o.d] } →
    let f := o.f.fmt
    let env := s.now.env
    let num (r : VReg) (l : Nat) : XNum := f.num env.wtop (lane (s.now.vr r) f.bytes l)
    roundsLanes s (.vfma o) o.d o.x.pm o.x.zm f.bytes
      (fun l => sumRound f env o.x.rm l [(num o.a l).mul (num o.b l), num o.c l]))

/-- R63, R64: a dot product takes its products in groups of sixteen places in ascending k, and rounds or saturates once for each group;
`acc` are the accumulator's values, the destination's first. -/
def DotValues : Prop :=
  ∀ (p : DotPair) (env : REnv) (e fuel n c : Nat) (ab : List (Option (Nat × Nat))), ab.length ≤ 16 * n → 16 * n < ab.length + 16 →
    n ≤ fuel → ∃ (acc : Nat → Nat) (fl : Nat → FFlags), acc 0 = c ∧ (dotProduct p env e fuel c ab).1 = acc n ∧
      (∀ b, (dotProduct p env e fuel c ab).2.getLsbD b = true ↔ ∃ g, g < n ∧ (fl g).getLsbD b = true) ∧
      ∀ g, g < n → let group := ((ab.drop (16 * g)).take 16).filterMap id
        (p = .i8 → fl g = 0 ∧ acc (g + 1) < 2 ^ 32 ∧ natSigned 32 (acc (g + 1)) = max (-2 ^ 31) (min (2 ^ 31 - 1)
          (natSigned 32 (acc g) + (group.map fun q => natSigned 8 q.1 * natSigned 8 q.2).sum))) ∧
        (p ≠ .i8 → ∀ r, r = sumRound p.acc env p.rm e (p.acc.num env.wtop (acc g) ::
            group.map fun q => (p.src.num env.wtop q.1).mul (p.src.num env.wtop q.2)) →
          acc (g + 1) = r.bits ∧ fl g = r.flags)

/-- R63, R66, R219, R220: the dot product into lane 0, and the scaled accumulation of the 16 lanes. -/
def VectorDots : Prop :=
  (∀ (s : State) (o : VDot), s.ready { reads := [.v o.d, .v o.a, .v o.b, .p o.pm], writes := [.v o.d] } →
    let e := o.p.src.bytes
    let ea := o.p.acc.bytes
    let old := s.now.vr o.d
    let dot := dotProduct o.p s.now.env 0 8 (lane old ea 0) ((List.range (64 / e)).map fun k =>
      if (s.now.pr o.pm).getLsbD (k * e / 4) then some (lane (s.now.vr o.a) e k, lane (s.now.vr o.b) e k) else none)
    ∃ r, exec (.vdot o) s = .next (s.putVF (Instr.vdot o).len o.d (r, dot.2, false)) ∧
      lane r ea 0 = dot.1 % 2 ^ (8 * ea) ∧ ∀ l, 1 ≤ l → l < 64 / ea → lane r ea l = lane old ea l) ∧
  (∀ (s : State) (o : VScacc), s.ready { reads := [.v o.d, .v o.a, .s o.b, .p o.x.pm], writes := [.v o.d] } →
    let f : Fmt := if o.int then .i32 else .f32
    let env := s.now.env
    let scale := (s.now.sr o.b).toNat % 2 ^ 32
    roundsLanes s (.vscacc o) o.d o.x.pm o.x.zm 4 fun l => sumRound .f32 env o.x.rm l
      [Fmt.f32.num env.wtop (lane (s.now.vr o.d) 4 l),
        (f.num env.wtop (lane (s.now.vr o.a) 4 l)).mul (Fmt.f32.num env.wtop scale)])

/-- R222: VCVT converts the lanes of part q that are active at the destination width; the other lanes stand. -/
def VectorConverts : Prop :=
  ∀ (s : State) (o : VCvt), s.ready { reads := [.v o.a, .p o.x.pm], writes := [.v o.d] } →
    let ls := 64 / o.fa.bytes
    let ld := 64 / o.fb.bytes
    let n := min ls ld
    let q := o.q.val
    let target (l : Nat) : Prop := ls < ld → q * n ≤ l ∧ l < q * n + n
    let source (l : Nat) : Nat := if ls < ld then l - q * n else q * n + l
    let on (l : Nat) : Bool := (s.now.pr o.x.pm).getLsbD (l * o.fb.bytes / 4)
    let val (l : Nat) : Rounded := convert o.fa o.fb s.now.env o.x.rm l (lane (s.now.vr o.a) o.fa.bytes (source l))
    ∃ r fl ov, exec (.vcvt o) s = .next (s.putVF (Instr.vcvt o).len o.d (r, fl, ov)) ∧
      (∀ l, l < ld → target l → on l = true → lane r o.fb.bytes l = (val l).bits % 2 ^ (8 * o.fb.bytes)) ∧
      (∀ l, l < ld → target l → on l = false → lane r o.fb.bytes l = if o.x.zm then 0 else lane (s.now.vr o.d) o.fb.bytes l) ∧
      (∀ l, l < ld → ¬target l → lane r o.fb.bytes l = lane (s.now.vr o.d) o.fb.bytes l) ∧
      (∀ k, fl.getLsbD k = true ↔ ∃ l, l < ld ∧ target l ∧ on l = true ∧ (val l).flags.getLsbD k = true) ∧
      (ov = true ↔ ∃ l, l < ld ∧ target l ∧ on l = true ∧ (val l).ovf = true)

/-- R223: the lane moves. -/
def LaneMoves : Prop :=
  (∀ (s : State) (o : VSel), let pm := (o.x.map fun p => p.val).getD 0
    s.ready { reads := [.v o.a, .v o.b, .p pm], writes := [.v o.d] } →
    let e := o.w.bytes
    ∃ r, exec (.vsel o) s = .next (s.putV (Instr.vsel o).len o.d r) ∧
      ∀ l, l < 64 / e → lane r e l = lane (s.now.vr (if (s.now.pr pm).getLsbD (l * e / 4) then o.a else o.b)) e l) ∧
  (∀ (s : State) (o : VPermOp), s.ready { reads := .p (pmOf o.x) :: [.v o.a, .v o.b], writes := [.v o.d] } →
    let e := o.w.bytes
    writesLanes s (.vperm o) o.d (pmOf o.x) (zmOf o.x) e
      (fun l => lane (s.now.vr o.a) e (lane (s.now.vr o.b) e l % (64 / e)))) ∧
  (∀ (s : State) (o : VBc), s.ready { reads := .p (pmOf o.x) :: [.s o.a], writes := [.v o.d] } →
    writesLanes s (.vbcast o) o.d (pmOf o.x) (zmOf o.x) o.w.bytes (fun _ => (s.now.sr o.a).toNat)) ∧
  (∀ (s : State) (o : VSlOp), s.ready { reads := .p (pmOf o.x) :: [.v o.a, .s o.b], writes := [.v o.d] } →
    let e := o.w.bytes
    let n := (s.now.sr o.b).toNat
    let a (l : Nat) : Nat := if l < 64 / e then lane (s.now.vr o.a) e l else 0
    writesLanes s (.vslup o) o.d (pmOf o.x) (zmOf o.x) e (fun l => if l < n then 0 else a (l - n)) ∧
    writesLanes s (.vsldn o) o.d (pmOf o.x) (zmOf o.x) e (fun l => a (l + n))) ∧
  (∀ (s : State) (o : VMovOp), s.ready { reads := .p (pmOf o.x) :: [.v o.a], writes := [.v o.d] } →
    writesLanes s (.vmov o) o.d (pmOf o.x) (zmOf o.x) o.w.bytes (fun l => lane (s.now.vr o.a) o.w.bytes l)) ∧
  (∀ (s : State) (o : VInsOp), s.ready { reads := [.s o.a, .s o.b], writes := [.v o.d] } →
    let e := o.w.bytes
    let k := (s.now.sr o.b).toNat
    (k < 64 / e → ∃ r, exec (.vins o) s = .next (s.putV (Instr.vins o).len o.d r) ∧
      ∀ l, l < 64 / e → lane r e l = if l = k then (s.now.sr o.a).toNat % 2 ^ (8 * e) else lane (s.now.vr o.d) e l) ∧
    (64 / e ≤ k → exec (.vins o) s = .next (s.pass (Instr.vins o).len))) ∧
  (∀ (s : State) (o : VExtOp), s.ready { reads := [.v o.a, .s o.b], writes := [.s o.d] } →
    let e := o.w.bytes
    let k := (s.now.sr o.b).toNat
    let x := lane (s.now.vr o.a) e k
    exec (.vext o) s = .next (s.putS (Instr.vext o).len o.d
      (if k < 64 / e then (if o.x.getD false then BitVec.ofInt 64 (natSigned (8 * e) x) else BitVec.ofNat 64 x) else 0)))

/-- R63, R64, R66, R219, R220, R222, R223: dot products, scaled accumulation, conversions and lane moves. -/
def Obligations.VectorSumsAndMoves : Prop := DotValues ∧ VectorDots ∧ VectorConverts ∧ LaneMoves

/-- R65, R224: the reductions over the active lanes. -/
def Reductions : Prop :=
  (∀ (s : State) (o : VRed), let pm := (o.x.map fun p => p.val).getD 0
    s.ready { reads := [.v o.a, .p pm], writes := [.s o.d] } →
    let e := o.w.bytes
    let w := 8 * e
    let xs := (activeLanes (s.now.pr pm) e).map fun l => lane (s.now.vr o.a) e l
    let ys := xs.map (natSigned w)
    (∃ x : Word, exec (.vradd o) s = .next (s.putS (Instr.vradd o).len o.d x) ∧ x.toInt = natSigned w (xs.sum % 2 ^ w)) ∧
    (∃ x : Word, exec (.vrmin o) s = .next (s.putS (Instr.vrmin o).len o.d x) ∧ (∀ y ∈ ys, x.toInt ≤ y) ∧
      (x.toInt ∈ ys ∨ ys = [] ∧ x.toInt = 2 ^ (w - 1) - 1)) ∧
    (∃ x : Word, exec (.vrmax o) s = .next (s.putS (Instr.vrmax o).len o.d x) ∧ (∀ y ∈ ys, y ≤ x.toInt) ∧
      (x.toInt ∈ ys ∨ ys = [] ∧ x.toInt = -2 ^ (w - 1))) ∧
    (∃ x : Word, exec (.vrminu o) s = .next (s.putS (Instr.vrminu o).len o.d x) ∧ (∀ y ∈ xs, x.toNat ≤ y) ∧
      (x.toNat ∈ xs ∨ xs = [] ∧ x.toNat = 2 ^ w - 1)) ∧
    (∃ x : Word, exec (.vrmaxu o) s = .next (s.putS (Instr.vrmaxu o).len o.d x) ∧ (∀ y ∈ xs, y ≤ x.toNat) ∧
      (x.toNat ∈ xs ∨ xs = [] ∧ x = 0))) ∧
  (∀ (s : State) (o : VRf), let pm := (o.x.map fun x => x.2.val).getD 0
    s.ready { reads := [.v o.a, .p pm], writes := [.s o.d] } →
    let f := o.p.fmt
    let xs := (activeLanes (s.now.pr pm) f.bytes).map fun l => lane (s.now.vr o.a) f.bytes l
    exec (.vrfadd o) s = .next (s.putF (Instr.vrfadd o).len o.d
      (if xs = [] then ⟨0, 0, false⟩
       else sumRound f s.now.env ((o.x.map fun x => x.1).getD .rne) 0 (xs.map (f.num s.now.wtop)))))

/-- Bit `k` of a predicate result: 1 when every active lane of its granule holds, or, in an inactive granule, zero or the old
bit (R206, R207, R225). -/
def predIs (c : Ctx) (d pm : Nat) (zm : Bool) (e : Nat) (f : Nat → Bool) (r : BitVec 16) : Prop :=
  ∀ k, k < 16 →
    let on := (c.pr pm).getLsbD k
    (4 ≤ e → r.getLsbD k = if (c.pr pm).getLsbD (k * 4 / e * e / 4) then f (k * 4 / e) else !zm && (c.pr d).getLsbD k) ∧
    (e < 4 → r.getLsbD k = if on then (List.range (4 / e)).all (fun j => f (k * 4 / e + j)) else !zm && (c.pr d).getLsbD k)

/-- R225, R226: the compares and the operations on whole predicates. -/
def PredicateForms : Prop :=
  (∀ (s : State) (o : VCmp), s.ready { reads := .v o.a :: vbRegs o.b, writes := [.p o.d] } →
    let e := o.w.bytes
    let w := 8 * e
    let p := vbPmZm o.b
    let a (l : Nat) : Nat := lane (s.now.vr o.a) e l
    let b (l : Nat) : Nat := vbLane s.now o.b e l
    let is (i : Instr) (f : Nat → Bool) : Prop :=
      ∃ r, exec i s = .next (s.putP i.len o.d r) ∧ predIs s.now o.d (pmOf p) (zmOf p) e f r
    is (.vceq o) (fun l => decide (a l = b l)) ∧ is (.vcne o) (fun l => decide (a l ≠ b l)) ∧
    is (.vclt o) (fun l => decide (natSigned w (a l) < natSigned w (b l))) ∧
    is (.vcle o) (fun l => decide (natSigned w (a l) ≤ natSigned w (b l))) ∧
    is (.vcltu o) (fun l => decide (a l < b l)) ∧ is (.vcleu o) (fun l => decide (a l ≤ b l))) ∧
  (∀ (s : State) (o : VFCmp), s.ready { reads := .v o.a :: vbRegs o.b, writes := [.p o.d] } →
    let f := o.f.fmt
    let e := f.bytes
    let p := vbPmZm o.b
    let a (l : Nat) : Nat := lane (s.now.vr o.a) e l
    let b (l : Nat) : Nat := vbLane s.now o.b e l
    let is (i : Instr) (g : Nat → Nat → Bool × FFlags) : Prop :=
      ∃ r, exec i s = .next ((s.modCtx s.cur fun c => (c.raise ((activeLanes (s.now.pr (pmOf p)) e).foldl
          (fun x l => x ||| (g (a l) (b l)).2) 0)).setP o.d r).retire i.len [.p o.d] .seq) ∧
        predIs s.now o.d (pmOf p) (zmOf p) e (fun l => (g (a l) (b l)).1) r
    is (.vfceq o) f.eqBits ∧ is (.vfclt o) f.ltBits ∧ is (.vfcle o) f.leBits) ∧
  (∀ (s : State) (o : P3), s.ready { reads := [.p o.a, .p o.b], writes := [.p o.d] } →
    exec (.pand o) s = .next (s.putP (Instr.pand o).len o.d (s.now.pr o.a &&& s.now.pr o.b)) ∧
    exec (.por o) s = .next (s.putP (Instr.por o).len o.d (s.now.pr o.a ||| s.now.pr o.b)) ∧
    exec (.pxor o) s = .next (s.putP (Instr.pxor o).len o.d (s.now.pr o.a ^^^ s.now.pr o.b))) ∧
  (∀ (s : State) (o : P2), s.ready { reads := [.p o.a], writes := [.p o.d] } →
    exec (.pnot o) s = .next (s.putP (Instr.pnot o).len o.d (~~~(s.now.pr o.a)))) ∧
  (∀ (s : State) (o : PS), s.ready { reads := [.p o.a], writes := [.s o.d] } →
    let x := s.now.pr o.a
    exec (.pcnt o) s = .next (s.putS (Instr.pcnt o).len o.d
      (BitVec.ofNat 64 ((List.range 16).filter fun k => x.getLsbD k).length)) ∧
    exec (.pfirst o) s = .next (s.putS (Instr.pfirst o).len o.d
      (BitVec.ofNat 64 (((List.range 16).find? fun k => x.getLsbD k).getD 16)))) ∧
  (∀ (s : State) (o : PSetOp), s.ready { reads := [.s o.a], writes := [.p o.d] } →
    ∃ r : BitVec 16, exec (.psetw o) s = .next (s.putP (Instr.psetw o).len o.d r) ∧
      ∀ k, k < 16 → (r.getLsbD k = true ↔ k < (s.now.sr o.a).toNat))

/-- R224 to R226: reductions, compares and predicate operations. -/
def Obligations.ReductionsAndPredicates : Prop := Reductions ∧ PredicateForms

/-! ### Memory -/

/-- What is said of every instruction that accesses memory, with the registers that it uses and the accesses that its own definition
gives (`ldMem` and its like); of NSYM where ra is a multiple of 64 (R185). -/
def eachAccess (s : State) (holds : Instr → Use → MemOp → Prop) : Prop :=
  let c := s.now
  (∀ o, holds (.ld o) (ldUse o) (ldMem o c)) ∧ (∀ o, holds (.st o) (stUse o) (stMem o c)) ∧
  (∀ o, holds (.ldx o) (ldxUse o) (ldxMem o c)) ∧ (∀ o, holds (.stx o) (stxUse o) (stxMem o c)) ∧
  (∀ o, holds (.ldf o) (feReadUse o) (feReadMem o .ldf c) ∧ holds (.take o) (feReadUse o) (feReadMem o .take c) ∧
    holds (.feqFe o) (feReadUse o) (feReadMem o .feq c) ∧ holds (.putf o) (feWriteUse o) (feWriteMem o .putf c) ∧
    holds (.stf o) (feWriteUse o) (feWriteMem o .stf c) ∧ holds (.ste o) (feWriteUse o) (feWriteMem o .ste c)) ∧
  (∀ o, holds (.feclr o) (feClrUse o) (feClrMem o c)) ∧
  (∀ o : AtomOp, let u := atomUse o.d o.a o.b []
    holds (.aadd o) u (atomMem o .add c) ∧ holds (.aand o) u (atomMem o .and c) ∧ holds (.aor o) u (atomMem o .or c) ∧
    holds (.axor o) u (atomMem o .xor c) ∧ holds (.amin o) u (atomMem o .min c) ∧ holds (.amax o) u (atomMem o .max c) ∧
    holds (.aminu o) u (atomMem o .minu c) ∧ holds (.amaxu o) u (atomMem o .maxu c) ∧ holds (.aswp o) u (atomMem o .swp c)) ∧
  (∀ o : CasOp, holds (.acas o) (atomUse o.d o.a o.b [.s o.c]) (casMem o c)) ∧
  (∀ o : AfaddOp, holds (.afadd o) (atomUse o.d o.a o.b []) (afaddMem o c)) ∧
  (∀ o, let u := vldUse o.d o.a (vldMode o.x) (opndRegs o.b)
    holds (.vld o) u (vldMem o c) ∧ holds (.vlds o) u (vldsMem o c) ∧ holds (.vldbc o) u (vldbcMem o c)) ∧
  (∀ o, let u := vstUse o.d o.a (vstMode o.x) (opndRegs o.b)
    holds (.vst o) u (vstMem o c) ∧ holds (.vsts o) u (vstsMem o c)) ∧
  (∀ o, holds (.vgath o) (vldUse o.d o.a (vldMode o.x) [.v o.b]) (vgathMem o c)) ∧
  (∀ o, holds (.vscat o) (vstUse o.d o.a (vstMode o.x) [.v o.b]) (vscatMem o c)) ∧
  (∀ d a : SReg, (c.sr a).toNat % 64 = 0 → holds (.nsym d a) (netUse s [.s a] [.s d] allCtxs) (nsymMem d (c.sr a))) ∧
  (∀ o, holds (.prld o) (recUse [.s o.a, .s o.b] [.v o.d]) (prldMem o c)) ∧
  (∀ o, holds (.prset o) (recUse [.s o.a, .v o.b] []) (prsetMem o c)) ∧
  (∀ o, holds (.prstat o) (recUse [.s o.a] [.s o.d]) (prstatMem o c))

/-- R130 to R137, R139, R144, R198, R203, R204, R210, R211: every instruction that accesses memory completes once its accesses are
admitted. What OSC counts of a vector access is the model's reading (DEDUCED, log 19). -/
def Obligations.MemoryCompletes : Prop :=
  ∀ (s t : State) (fs : List (LaneAcc × Found)),
    eachAccess s fun x u op => s.ready u → s.admits op fs t → exec x s = .next (t.access x.len op fs)

/-- R131, R137, R185, R211, R230: where an instruction that accesses memory traps: at its first lane that is misaligned; with all lanes
aligned, at the first lane whose location refuses it, for the reason that `find1` gives (AddressTranslation). The trap names the lane's
address, and its lane for a vector access; no byte, no message and no register of the context but the trap record changes. -/
def Obligations.MemoryTraps : Prop :=
  (∀ s : State, eachAccess s fun x u op => s.ready u → s.acqOpen s.cur = false →
    ∀ (pre post : List LaneAcc) (a : LaneAcc), op.lanes = pre ++ a :: post →
      let traps (k : Cause) (code : Nat) : Prop := ∃ (v : State) (t : Trap), exec x s = .next (v.takeTrap s.cur t) ∧
        t.cause = k ∧ t.eaddr = a.v ∧ t.code = code ∧ t.remote = false ∧
        s.sameBytes v ∧ v.net = s.net ∧ s.sameOthers v s.cur ∧ v.now = { s.now with perf := v.now.perf }
      ((∀ b ∈ pre, b.v.toNat % op.size = 0) → a.v.toNat % op.size ≠ 0 → traps .alignment (if op.vec then a.lane else 0)) ∧
      ((∀ b ∈ op.lanes, b.v.toNat % op.size = 0) → ∀ v w fs k e, s.findAll s.cur op.need op.mode op.size pre = (v, .ok fs) →
        v.find1 s.cur op.need op.mode op.size a.v.toNat = (w, .error (k, e)) →
        traps k (if op.vec = true ∧ k ≠ .kind ∧ k ≠ .machineCheck then a.lane else e))) ∧
  (∀ (s : State) (d a : SReg), s.ready (netUse s [.s a] [.s d] allCtxs) → (s.now.sr a).toNat % 64 ≠ 0 →
    ∃ t : Trap, t.cause = .alignment ∧ t.eaddr = s.now.sr a ∧ exec (.nsym d a) s = .next (s.takeTrap s.cur t))

/-- R26 to R30: where an address lies under AS, LOC and CLI, as the issuer on node `g` locates it. A place on the issuer's own core must
be backed; another node checks that itself. -/
def AddressesLocated : Prop :=
  ∀ (s : State) (g : Nat) (v : Word),
    let f (lo n : Nat) : Nat := natBits v.toNat lo n
    let own (off : Nat) : Option Where := if off < (if isCaldera g then 0x40000 else 0x90000) then some (.own off) else none
    let lies (mode : Mode) (t off : Nat) : Prop := s.locate g mode v.toNat = if t = g then own off else some (.far t off)
    (v.getLsbD 63 = false → s.locate g .as v.toNat = some .virt) ∧
    (v.getLsbD 63 = true → f 20 26 ≠ 0 ∨ 2 ≤ f 61 2 ∨ (f 61 2 = 1 ∧ (f 55 6 ≠ 0 ∨ isCaldera g = true)) ∨
        (f 61 2 = 0 ∧ (natBit (s.pkg (pkgOf g)).mask (f 57 4) = false ∨ 16 < f 50 5)) →
      s.locate g .as v.toNat = none) ∧
    (v.getLsbD 63 = true → f 20 26 = 0 → f 61 2 = 0 → natBit (s.pkg (pkgOf g)).mask (f 57 4) = true → f 50 5 ≤ 16 →
      ∃ t, pkgOf t = f 57 4 ∧ dieOf t = f 55 2 ∧ xOf t = f 50 5 ∧ yOf t = f 46 4 ∧ (isCaldera t = true ↔ f 50 5 = 16) ∧
        lies .as t (f 0 20)) ∧
    (v.getLsbD 63 = true → f 20 26 = 0 → f 61 2 = 1 → f 55 6 = 0 → isCaldera g = false →
      ∃ t, pkgOf t = pkgOf g ∧ dieOf t = dieOf g ∧ isCaldera t = false ∧ (xOf t : Int) = (xOf g + natSigned 5 (f 50 5)) % 16 ∧
        (yOf t : Int) = (yOf g + natSigned 4 (f 46 4)) % 16 ∧ lies .as t (f 0 20)) ∧
    s.locate g .loc v.toNat = own (f 0 20) ∧
    (isCaldera g = true → s.locate g .cli v.toNat = none) ∧
    (isCaldera g = false → ∃ t, pkgOf t = pkgOf g ∧ dieOf t = dieOf g ∧ isCaldera t = false ∧ yOf t = yOf g ∧
      xOf t = xOf g / 8 * 8 + f 3 19 % 8 ∧ lies .cli t (f 3 19 / 8 * 8 + f 0 3))

/-- R41: what a node's protection regions answer. `mine`: the requester is of the owner's partition; `ns`, `home`: its world and the
node's. -/
def RegionChecks : Prop :=
  ∀ (m : Img) (mine ns home : Bool) (need : Need) (off n : Nat),
    let b (k : Nat) : Nat := (Table.get 0 m.prb k).toNat
    let l (k : Nat) : Nat := (Table.get 0 m.prl k).toNat
    let holds (k : Nat) : Prop := natBit (b k) 31 = true ∧ natBits (b k) 6 14 ≤ off / 64 ∧ off / 64 ≤ natBits (l k) 6 14
    let kind := m.regionKind mine ns home need off n
    ((∀ k, k < 16 → ¬holds k) → kind = if mine = true ∧ ns = home then some 1 else none) ∧
    (∀ k, k < 16 → holds k → (∀ j, j < k → ¬holds j) →
      let admits := off + n ≤ (natBits (l k) 6 14 + 1) * 64 ∧ (ns = true → natBit (b k) 30 = true) ∧
        (need.rd = true → natBit (b k) 27 = true) ∧ (need.wr = true → natBit (b k) 26 = true) ∧
        (natBit (b k) 25 = true → mine = true) ∧ natBits (b k) 28 2 ≠ 3
      (admits → kind = some (natBits (b k) 28 2)) ∧ (¬admits → kind = none))

/-- R366, R367: a walk that has come down to level `k` through table entries, `T` giving each level's table. -/
def PageWalks : Prop :=
  (∀ (s : State) (p q va : Nat), 2 ^ 48 ≤ va → s.walk p (some q) va = .absent) ∧
  ∀ (s : State) (p q va k : Nat) (T : Nat → Nat), va < 2 ^ 48 → k ≤ 3 → T 3 = (s.partWord p q 11).toNat →
    let dpa (j : Nat) : Nat := T j + 8 * natBits va (12 + 9 * j) 9
    let e (j : Nat) : Nat := (s.dramWord p (dpa j)).toNat
    let open_ (j : Nat) : Prop := s.dramOk p (s.partNs p q) (dpa j) = true
    let bad (j : Nat) : Prop := dramKey p (dpa j) / 8 ∈ s.dramBad
    let clean (j : Nat) : Prop := natBits (e j) 1 11 = 0 ∧ natBits (e j) 37 15 = 0 ∧ natBits (e j) 52 11 = 0
    (∀ j, k < j → j ≤ 3 → open_ j ∧ ¬bad j ∧ natBit (e j) 0 = true ∧ natBit (e j) 63 = true ∧ clean j ∧
      T (j - 1) = natBits (e j) 12 25 * 4096) →
    let w := s.walk p (some q) va
    (¬open_ k → w = .malformed) ∧ (open_ k → bad k → w = .error) ∧
    (open_ k → ¬bad k → (natBit (e k) 0 = false → w = .absent) ∧
      (natBit (e k) 0 = true → natBit (e k) 63 = true → k = 0 ∨ ¬clean k → w = .malformed) ∧
      (natBit (e k) 0 = true → natBit (e k) 63 = false →
        let size := 2 ^ (12 + 9 * k)
        let good := k < 3 ∧ natBits (e k) 57 6 = 0 ∧ natBits (e k) 12 40 * 4096 % size = 0 ∧
          (natBits (e k) 8 2 < 2 → natBits (e k) 35 17 = 0) ∧ (natBits (e k) 8 2 = 2 → natBits (e k) 42 10 = 0) ∧
          (natBit (e k) 56 = true → natBit (s.pkg p).mask (natBits (e k) 52 4) = true)
        (good → w = .leaf (e k) size) ∧ (¬good → w = .malformed)))

/-- R368: the home of an access, and the place behind a frame there. -/
def PageHomes : Prop :=
  ∀ (p leaf va size : Nat),
    let q := if natBit leaf 56 then natBits leaf 52 4 else p
    let h := homeOf p leaf va
    let a := natBits leaf 12 40 * 4096 + va % size
    let die (j : Nat) : Bool := (natBit va (12 + j)).xor ((natBit va (16 + j)).xor (natBit va (20 + j)))
    (natBits leaf 8 2 = 0 → ∃ d, d < 4 ∧ natBit d 0 = die 0 ∧ natBit d 1 = die 1 ∧ h = .mem q d (natBits va 8 4)) ∧
    (natBits leaf 8 2 = 1 → h = .mem q (natBits leaf 10 2) (natBits va 8 4)) ∧
    (natBits leaf 8 2 = 2 → h = .cxl p ∧ framePlace h leaf size va = .cxl (p * 2 ^ 42 + a % 2 ^ 42)) ∧
    (natBits leaf 8 2 = 3 → h = .host p ∧ framePlace h leaf size va = .host (p * 2 ^ 64 + a)) ∧
    (∀ d c, d < 4 → h = .mem q d c → framePlace h leaf size va = .dram (q * 2 ^ 37 + d * 2 ^ 35 + a % 2 ^ 35))

/-- R132, R198, R370: the kinds and permissions that accesses need in a leaf: kind before permission. -/
def PageNeeds : Prop :=
  ∀ (user ns r w : Bool) (acc leaf : Nat) (op : FeOp),
    let kind := natBits leaf 6 2
    let place := natBits leaf 8 2
    let bit (k : Nat) : Prop := natBit leaf k = true
    let level := (user = true → bit 4) ∧ (ns = true → bit 5)
    let asks (n : Need) (k p : Prop) : Prop := let c := pageCheck n user ns leaf
      (¬k → c = some .kind) ∧ (k → ¬(p ∧ level) → c = some .permission) ∧ (k → p ∧ level → c = none)
    asks .load (kind ≠ 3) (bit 1) ∧ asks .read (kind ≠ 3) (bit 1) ∧ asks .store (kind ≠ 3) (bit 2) ∧
    asks .atomic (kind ≠ 3 ∧ place ≠ 3) (bit 1 ∧ bit 2) ∧ asks (.fe op) (kind ≠ 3 ∧ place < 2) (bit 1 ∧ bit 2) ∧
    asks (needRec r w acc) (kind = 3 ∧ place < 2) ((r = true → bit 1) ∧ (w = true → bit 2)) ∧
    asks .fetch (¬(kind = 3 ∧ 2 ≤ place)) (bit 3)

/-- R28, R41, R132, R369, R370: what locating one access answers: the place it goes to, with its class, or the fault. A cached leaf that
admits the access serves it; else a fresh walk alone decides. -/
def AccessesFound : Prop :=
  ∀ (s : State) (i : Inst) (need : Need) (mode : Mode) (n v : Nat),
    let g := i.node
    let at_ := s.locate g mode v
    let r := s.find1 i need mode n v
    let refused (k : Cause) (code : Nat) : Prop := ∃ u, r = (u, .error (k, code))
    (at_ = none → refused .protection 0) ∧
    (∀ t off, at_ = some (.far t off) → (need.rec_ = true → refused .kind 0) ∧
      (need.rec_ = false → ∃ u f, r = (u, .ok f) ∧ f.own = none ∧ f.tgt = .node t off ∧ f.ordered = true)) ∧
    (∀ off, at_ = some (.own off) → (need.rec_ = true → refused .kind 0) ∧ (need.rec_ = false →
      let kind := (s.live g).regionKind true (s.node g).ns (s.node g).ns need off n
      (kind = none → refused .protection 0) ∧
      (∀ k, kind = some k → ∃ u f, r = (u, .ok f) ∧ f.own = some off ∧ f.tgt = .node g off ∧ f.so = decide (k = 2) ∧
        f.noted = decide (k = 1)))) ∧
    (at_ = some .virt → let part := s.partOf i
      let check := pageCheck need (!(s.ctx i).priv) (s.node g).ns
      let goes (leaf : Nat) : Prop := ∃ u f, r = (u, .ok f) ∧ f.own = none ∧ f.tgt = .home (homeOf (pkgOf g) leaf v) ∧
        f.ordered = decide (natBits leaf 6 2 = 2) ∧ f.noted = decide (natBits leaf 6 2 = 1)
      let cached := (s.cachedPage g part v).filter fun e => (check e.1.leaf).isNone
      (∀ e, cached = some e → goes e.1.leaf) ∧
      (cached = none → let w := s.walk (pkgOf g) part v
        (w = .absent → refused .pageNotPresent 0) ∧ (w = .malformed → refused .machineCheck 6) ∧ (w = .error → refused .machineCheck 5) ∧
        (∀ leaf size, w = .leaf leaf size → (check leaf = none → goes leaf) ∧ (∀ k, check leaf = some k → refused k 0))))

/-- R26 to R30, R41, R132, R198, R366 to R370: where an address lies, what regions, pages and homes answer, and what a memory access
therefore finds. -/
def Obligations.AddressTranslation : Prop :=
  AddressesLocated ∧ RegionChecks ∧ PageWalks ∧ PageHomes ∧ PageNeeds ∧ AccessesFound

/-- The lanes that are active under a predicate, at a width in bytes (R206). -/
def onLanes (p : BitVec 16) (e : Nat) : List Nat := (List.range (64 / e)).filter fun l => p.getLsbD (l * e / 4)

/-- An instruction makes accesses of `e` bytes in these lanes and no others, each at its address. -/
def accessesAt (op : MemOp) (e : Nat) (ls : List Nat) (f : Nat → Word) : Prop :=
  op.size = e ∧ op.lanes.map (fun a => (a.lane, a.v)) = ls.map fun l => (l, f l)

/-- R136, R137, R139, R144, R184, R198, R211: the accesses that each memory instruction makes, lane by lane, and their addresses before
the mode locates them. VLDBC makes one, for the lowest active lane. -/
def Obligations.AccessAddresses : Prop :=
  (∀ (c : Ctx),
    let one (op : MemOp) (n : Nat) (v : Word) : Prop := accessesAt op n [0] fun _ => v
    (∀ o : LdOp, one (ldMem o c) (ldBytes o) (c.sr o.a + (match o.off with
      | .short i => BitVec.ofInt 64 (i.toInt * ldBytes o)
      | .lit w => w))) ∧
    (∀ o : StOp, one (stMem o c) (stBytes o) (c.sr o.a + (match o.off with
      | .short i => BitVec.ofInt 64 (i.toInt * stBytes o)
      | .lit w => w))) ∧
    (∀ o : LdxOp, one (ldxMem o c) (ldxMem o c).size (c.sr o.a + c.sr o.c)) ∧
    (∀ o : StxOp, one (stxMem o c) (stxMem o c).size (c.sr o.a + c.sr o.c)) ∧
    (∀ (o : FeOpnds) (f : FeOp), one (feReadMem o f c) 8 (c.sr o.a + c.opnd o.b) ∧ one (feWriteMem o f c) 8 (c.sr o.a + c.opnd o.b)) ∧
    (∀ o : FeClr, one (feClrMem o c) 8 (c.sr o.a + c.opnd o.b)) ∧
    (∀ (o : AtomOp) (f : AtomFn), one (atomMem o f c) (match o.x with
      | none => 8
      | some x => aszBytes x.sz) (c.sr o.a)) ∧
    (∀ o : CasOp, one (casMem o c) (aszBytes o.x.sz) (c.sr o.a)) ∧ (∀ o : AfaddOp, one (afaddMem o c) (afaddBytes o) (c.sr o.a)) ∧
    (∀ (d : SReg) (v : Word), one (nsymMem d v) 8 v) ∧ (∀ o : PrldOp, one (prldMem o c) 256 (c.sr o.a)) ∧
    (∀ o : PrsetOp, one (prsetMem o c) 256 (c.sr o.a)) ∧ (∀ o : RecQ, one (prstatMem o c) 256 (c.sr o.a)) ∧
    ∀ r w acc v q d, one (recOp r w acc v q d) 256 v) ∧
  (∀ (c : Ctx) (o : VldOp),
    let m := vldMode o.x
    let base := c.sr o.a + m.disp
    let on := onLanes (c.pr m.pm) m.e
    accessesAt (vldMem o c) m.e on (fun l => base + c.opnd o.b + BitVec.ofNat 64 (l * m.e)) ∧
    accessesAt (vldsMem o c) m.e on (fun l => base + BitVec.ofNat 64 l * c.opnd o.b) ∧
    accessesAt (vldbcMem o c) m.e (on.take 1) (fun _ => base + c.opnd o.b)) ∧
  (∀ (c : Ctx) (o : VstOp),
    let m := vstMode o.x
    let base := c.sr o.a + m.disp
    let on := onLanes (c.pr m.pm) m.e
    accessesAt (vstMem o c) m.e on (fun l => base + c.opnd o.b + BitVec.ofNat 64 (l * m.e)) ∧
    accessesAt (vstsMem o c) m.e on (fun l => base + BitVec.ofNat 64 l * c.opnd o.b)) ∧
  (∀ (c : Ctx) (o : VgaOp),
    let m := vldMode o.x
    accessesAt (vgathMem o c) m.e (onLanes (c.pr m.pm) m.e)
      fun l => c.sr o.a + m.disp + BitVec.ofInt 64 (natSigned (8 * m.e) (lane (c.vr o.b) m.e l) * m.e)) ∧
  (∀ (c : Ctx) (o : VscOp),
    let m := vstMode o.x
    accessesAt (vscatMem o c) m.e (onLanes (c.pr m.pm) m.e)
      fun l => c.sr o.a + m.disp + BitVec.ofInt 64 (natSigned (8 * m.e) (lane (c.vr o.b) m.e l) * m.e))

/-- R134, R137: a scalar load from the own core reads the bytes as they are, and changes no byte, no FE bit, and no register but
its destination and those that formulas write. -/
def OwnLoads : Prop :=
  ∀ (t : State) (d : SReg) (mode : Mode) (n len off : Nat) (sx : Bool) (acq : Option Scope) (v : Word) (f : Found),
    f.own = some off → t.split = false →
    let op := loadOp d mode n sx acq v
    let u := t.access len op [(⟨0, v, .load n⟩, f)]
    let x := t.readPlace (.spm t.cur.node (t.live t.cur.node).part off) n
    (d ≠ 0 → t.now.boundSlot d = none →
      u.now.sr d = if sx then BitVec.ofInt 64 (natSigned (8 * n) x) else BitVec.ofNat 64 x) ∧
    t.sameBytes u ∧ u.net = t.net ∧ t.sameOthers u t.cur ∧
    (∀ r, r ≠ d.val → t.now.boundSlot r = none → u.now.sr r = t.now.sr r) ∧
    u.now.v = t.now.v ∧ u.now.p = t.now.p ∧ u.now.fstat = t.now.fstat ∧ u.now.osc = t.now.osc ∧
    u.now.groups = t.now.groups

/-- R33, R207, R211: VST, VSTS and VSCAT to the own core write the bytes of each active lane at that lane's place, a later lane over an
earlier one that shares bytes with it, and nothing else. -/
def OwnVectorStores : Prop :=
  ∀ (t : State) (d : VReg) (m : VMode) (mem : MemOp) (len : Nat) (off : Nat → Nat) (f : Nat → Found), t.split = false →
    (∀ l, (f l).own = some (off l)) →
    ((∃ o : VstOp, o.d = d ∧ m = vstMode o.x ∧ (mem = vstMem o t.now ∨ mem = vstsMem o t.now)) ∨
     (∃ o : VscOp, o.d = d ∧ m = vstMode o.x ∧ mem = vscatMem o t.now)) →
    let u := t.access len mem (mem.lanes.map fun a => (a, f a.lane))
    let p (l : Nat) : Place := .spm t.cur.node (t.live t.cur.node).part (off l)
    let on (l : Nat) : Prop := l < 64 / m.e ∧ (t.now.pr m.pm).getLsbD (l * m.e / 4) = true
    (∀ l, on l → (∀ k, on k → l < k → (p l).apart m.e (p k) m.e) → u.readPlace (p l) m.e = lane (t.now.vr d) m.e l) ∧
    (∀ q n, (∀ l, on l → (p l).apart m.e q n) → u.readPlace q n = t.readPlace q n) ∧
    t.sameFull u ∧ u.net = t.net ∧ t.sameOthers u t.cur ∧ (∀ r, u.now.sr r = t.now.sr r) ∧ u.now.v = t.now.v ∧
    u.now.p = t.now.p ∧ u.now.fstat = t.now.fstat ∧ u.now.osc = t.now.osc ∧ u.now.groups = t.now.groups

/-- R33, R134, R137, R207, R211: a store to the own core writes its bytes and nothing else: no other byte, no FE bit and no register
but those that formulas write. That it is performed at issue is the model's choice (DEDUCED, log 18). -/
def StoresToTheOwnCore : Prop :=
  (∀ (t : State) (x : Word) (mode : Mode) (n len off : Nat) (rel : Option Scope) (v : Word) (f : Found),
    f.own = some off → t.split = false → n ≤ 8 →
    let op := storeOp x mode n rel v
    let p := Place.spm t.cur.node (t.live t.cur.node).part off
    let u := t.access len op (op.lanes.map fun a => (a, f))
    u.readPlace p n = x.toNat % 2 ^ (8 * n) ∧ t.sameBut u p n ∧ t.sameFull u ∧ u.net = t.net ∧ t.sameOthers u t.cur ∧
    (∀ r, u.now.sr r = t.now.sr r) ∧ u.now.v = t.now.v ∧ u.now.p = t.now.p ∧ u.now.fstat = t.now.fstat ∧
    u.now.osc = t.now.osc ∧ u.now.groups = t.now.groups) ∧
  OwnVectorStores

/-- R132, R134, R135: an access elsewhere is sent: one message in flight, with the register it will write pending, and no byte,
no FE bit and no register changed. A posted access to another core counts in OSC. An own access of a split step is sent too (log
18). -/
def AccessesSent : Prop :=
  ∀ (t : State) (op : MemOp) (a : LaneAcc) (f : Found) (len : Nat), f.own = none ∨ t.split = true → op.lanes = [a] →
    let u := t.access len op [(a, f)]
    let posted := f.own.isNone && a.req.posted op.dst
    (∃ m : Msg, u.net = t.net ++ [m] ∧ m.src = t.cur ∧ m.req = a.req ∧ m.va = a.v ∧ m.tgt = f.tgt ∧ m.dst = op.dst ∧
      m.phase = .req ∧ m.ordered = f.ordered ∧ m.osc = posted ∧ m.acq = (f.noted && op.acq.isSome) ∧ m.tag = t.now.sendTag ∧
      ∃ g : Group, u.now.groups = t.now.groups ++ [g] ∧ g.id = m.grp ∧ g.reg = op.dst.reg ∧ g.left = 1) ∧
    u.now.osc = (if posted then t.now.osc + 1 else t.now.osc) ∧
    t.sameBytes u ∧ t.sameOthers u t.cur ∧ (∀ r, u.now.sr r = t.now.sr r) ∧ u.now.v = t.now.v ∧ u.now.p = t.now.p ∧
    u.now.fstat = t.now.fstat

/-- R132, R244, R367 to R369: the translations of an access change no byte, no FE bit, no message and no register. -/
def TranslationsKeep : Prop :=
  ∀ (s t : State) (op : MemOp) (fs : List (LaneAcc × Found)), s.admits op fs t →
    s.sameBytes t ∧ t.net = s.net ∧ t.cur = s.cur ∧ s.sameOthers t s.cur ∧ t.now = { s.now with perf := t.now.perf }

/-- R132, R134, R135, R244, R367 to R369: locating an access changes only caches and counts; an access elsewhere is sent. -/
def Obligations.AccessesElsewhere : Prop := AccessesSent ∧ TranslationsKeep

/-- R32, R33, R140: what each FE operation does to a word that is full and to one that is empty. `none` is an operation that
waits. -/
def FullEmptyEffects : Prop :=
  ∀ (s : State) (p : Place) (d : Word), (∃ g part off, p = .spm g part off) ∨ (∃ a, p = .dram a) →
    let old := s.readPlace p 8
    (s.feTry p .feclr d = some (s.setFull p false, 0)) ∧
    (s.full p = true → s.feTry p .ldf d = some (s, old) ∧ s.feTry p .take d = some (s.setFull p false, old) ∧
      s.feTry p .putf d = none ∧ s.feTry p .feq d = some (s, 1)) ∧
    (s.full p = false → s.feTry p .ldf d = none ∧ s.feTry p .take d = none ∧ s.feTry p .feq d = some (s, 0) ∧
      s.feTry p .putf d = s.feTry p .stf d) ∧
    (∃ t, s.feTry p .stf d = some (t, 0) ∧ t.readPlace p 8 = d.toNat ∧ t.full p = true ∧ s.sameBut t p 8) ∧
    (∃ t, s.feTry p .ste d = some (t, 0) ∧ t.readPlace p 8 = d.toNat ∧ t.full p = false ∧ s.sameBut t p 8) ∧
    (∀ b, (s.setFull p b).full p = b ∧ ∀ q n, (s.setFull p b).readPlace q n = s.readPlace q n)

/-- R33, R139 to R141: an FE operation on an own word that no operation awaits: one that may proceed returns its value and leaves the
word and its bit as R140 says; another waits in an entry of the bank, or is turned away to be repeated, with its register
pending. -/
def OwnFullEmpty : Prop :=
  ∀ (t : State) (mem : MemOp) (op : FeOp) (data : Word) (dst : Option SReg) (f : Found) (len off : Nat), f.own = some off →
    t.split = false →
    ((∃ o : FeOpnds, (op = .ldf ∨ op = .take ∨ op = .feq) ∧ mem = feReadMem o op t.now ∧ dst = some o.d ∧ data = 0) ∨
     (∃ o : FeOpnds, (op = .putf ∨ op = .stf ∨ op = .ste) ∧ mem = feWriteMem o op t.now ∧ dst = none ∧ data = t.now.sr o.d) ∨
     (∃ o : FeClr, op = .feclr ∧ mem = feClrMem o t.now ∧ dst = none ∧ data = 0)) →
    let p := Place.spm t.cur.node (t.live t.cur.node).part off
    let u := t.access len mem (mem.lanes.map fun a => (a, f))
    let may := ((op = .ldf ∨ op = .take) → t.full p = true) ∧ (op = .putf → t.full p = false)
    let writes := op = .putf ∨ op = .stf ∨ op = .ste
    t.waiters p .ldf = [] → t.waiters p .take = [] → t.waiters p .putf = [] →
    t.sameOthers u t.cur ∧ (∀ r, (∀ d, dst = some d → r ≠ d.val) → t.now.boundSlot r = none → u.now.sr r = t.now.sr r) ∧
    u.now.v = t.now.v ∧ u.now.p = t.now.p ∧ u.now.fstat = t.now.fstat ∧ u.now.osc = t.now.osc ∧
    (may →
      (∀ d, dst = some d → d ≠ 0 → t.now.boundSlot d = none → u.now.sr d =
        if op = .feq then (if t.full p then 1 else 0) else BitVec.ofNat 64 (t.readPlace p 8)) ∧
      u.full p = (match op with
        | .ldf | .feq => t.full p
        | .putf | .stf => true
        | .take | .ste | .feclr => false) ∧
      (writes → u.readPlace p 8 = data.toNat ∧ t.sameBut u p 8) ∧ (¬writes → ∀ q n, u.readPlace q n = t.readPlace q n) ∧
      (∀ q, p.word.apart 8 q 1 → u.full q = t.full q) ∧ u.net = t.net) ∧
    (¬may → t.sameBytes u ∧
      ∃ m : Msg, u.net = t.net ++ [m] ∧ m.at_ = some p ∧ m.req = .fe op data ∧
        m.phase = (if t.waiterFree p then .waiting t.stamp else .retry) ∧
        ∃ g : Group, u.now.groups = t.now.groups ++ [g] ∧ g.reg = dst.map fun d => .s d.val)

/-- R33, R140: the operations that an own FE operation serves in its grant. An STF serves every waiting LDF and the oldest waiting
TAKE; a TAKE of a full word lets the oldest waiting PUTF fill it. The waiters are ones that the regions of the core still admit
(R42, R256). -/
def WaitersServed : Prop :=
  ∀ (t : State) (o : FeOpnds) (f : Found) (len off : Nat), f.own = some off → t.split = false →
    let p := Place.spm t.cur.node (t.live t.cur.node).part off
    let fill := feWriteMem o .stf t.now
    let drain := feReadMem o .take t.now
    let u := t.access len fill (fill.lanes.map fun a => (a, f))
    let w := t.access len drain (drain.lanes.map fun a => (a, f))
    let done (s : State) (m : Msg) (x : Nat) : Prop := ∃ y ∈ s.net, y.id = m.id ∧ y.phase = .ok x 0 false
    let ldfs := t.waiters p .ldf
    let takes := t.waiters p .take
    let putfs := t.waiters p .putf
    (∀ m ∈ ldfs, t.admitted m p (.fe .ldf) = true) → (∀ m ∈ takes, t.admitted m p (.fe .take) = true) →
    (∀ m ∈ putfs, t.admitted m p (.fe .putf) = true) → (∀ m ∈ ldfs, ∀ y ∈ takes, m.id ≠ y.id) →
    (putfs = [] →
      u.readPlace p 8 = (t.now.sr o.d).toNat ∧ (∀ m ∈ ldfs, done u m (t.now.sr o.d).toNat) ∧ (takes = [] → u.full p = true) ∧
      (∀ m rest, takes = m :: rest → done u m (t.now.sr o.d).toNat ∧ u.full p = false)) ∧
    (∀ m rest x, ldfs = [] → takes = [] → putfs = m :: rest → m.req = .fe .putf x → t.full p = true →
      done w m 0 ∧ w.full p = true ∧ w.readPlace p 8 = x.toNat ∧
      (o.d ≠ 0 → t.now.boundSlot o.d = none → w.now.sr o.d = BitVec.ofNat 64 (t.readPlace p 8)))

/-- R33, R139 to R141: FE operations on own words, and the waiters that they serve. That they are performed at issue is the model's
choice (DEDUCED, log 18). -/
def Obligations.FullEmpty : Prop := FullEmptyEffects ∧ OwnFullEmpty ∧ WaitersServed

/-- R145: the new value of each atomic, with the old value as returned. -/
def AtomicValues : Prop :=
  ∀ (n old b c : Nat) (rm : RMode) (env : REnv), n = 4 ∨ n = 8 → old < 2 ^ (8 * n) → b < 2 ^ (8 * n) →
    let w := 8 * n
    let is (f : AtomFn) (x : Nat) : Prop := atomVal f n old b c rm env = (x, 0)
    let sold := natSigned w old
    let sb := natSigned w b
    is .add ((old + b) % 2 ^ w) ∧ is .and (old &&& b) ∧ is .or (old ||| b) ∧ is .xor (old ^^^ b) ∧
    is .min (if sb < sold then b else old) ∧ is .max (if sold < sb then b else old) ∧
    is .minu (min old b) ∧ is .maxu (max old b) ∧ is .swp b ∧ is .cas (if old = c % 2 ^ w then b else old) ∧
    (let f : Fmt := if n = 8 then .f64 else .f32
     let r := sumRound f env rm 0 [f.num env.wtop old, f.num env.wtop b]
     atomVal .fadd n old b c rm env = (r.bits, r.flags))

/-- R145: an atomic on the own core is one grant: it reads the old value, writes the new one, and returns the old value unless rd
is s0. FE bits stand. The flags of AFADD reach FSTAT. -/
def OwnAtomics : Prop :=
  ∀ (t : State) (f : Found) (len off : Nat), f.own = some off → t.split = false →
    let p := Place.spm t.cur.node (t.live t.cur.node).part off
    let grants (mem : MemOp) (n : Nat) (d : SReg) (fn : AtomFn) (b cmp : Word) (rm : RMode) : Prop :=
      let u := t.access len mem (mem.lanes.map fun a => (a, f))
      let old := t.readPlace p n
      let r := atomVal fn n old (b.toNat % 2 ^ (8 * n)) cmp.toNat rm t.now.env
      u.readPlace p n = r.1 % 2 ^ (8 * n) ∧ t.sameBut u p n ∧ t.sameFull u ∧ u.net = t.net ∧ t.sameOthers u t.cur ∧
      (d ≠ 0 → t.now.boundSlot d = none → u.now.sr d = BitVec.ofNat 64 old) ∧
      (∀ r, r ≠ d.val → t.now.boundSlot r = none → u.now.sr r = t.now.sr r) ∧ u.now.v = t.now.v ∧ u.now.p = t.now.p ∧
      u.now.fstat = t.now.fstat ||| r.2 ∧ u.now.osc = t.now.osc ∧ u.now.groups = t.now.groups
    (∀ (o : AtomOp) (fn : AtomFn), fn ≠ .cas → fn ≠ .fadd →
      grants (atomMem o fn t.now) ((o.x.map fun x => aszBytes x.sz).getD 8) o.d fn (t.now.opnd o.b) 0 .rne) ∧
    (∀ o : CasOp, grants (casMem o t.now) (aszBytes o.x.sz) o.d .cas (t.now.opnd o.b) (t.now.sr o.c) .rne) ∧
    (∀ o : AfaddOp, grants (afaddMem o t.now) (afaddBytes o) o.d .fadd (t.now.opnd o.b) 0 ((o.x.map fun x => x.rm).getD .rne))

/-- R145: the atomics. That an own one is performed at issue is the model's choice (DEDUCED, log 18). -/
def Obligations.Atomics : Prop := AtomicValues ∧ OwnAtomics

/-- R207, R211: a vector load from the own core puts the bytes of each active lane in its place; the other lanes are kept or
zero. VLDBC puts the bytes of its one read into every active lane. -/
def OwnVectorLoads : Prop :=
  ∀ (t : State) (d : VReg) (m : VMode) (mem : MemOp) (len : Nat) (off : Nat → Nat) (f : Nat → Found), t.split = false →
    (∀ l, (f l).own = some (off l)) →
    ((∃ o : VldOp, o.d = d ∧ m = vldMode o.x ∧ (mem = vldMem o t.now ∨ mem = vldsMem o t.now)) ∨
     (∃ o : VgaOp, o.d = d ∧ m = vldMode o.x ∧ mem = vgathMem o t.now) ∨
     (∃ o : VldOp, o.d = d ∧ m = vldMode o.x ∧ mem = vldbcMem o t.now ∧ ∀ l, off l = off 0)) →
    let u := t.access len mem (mem.lanes.map fun a => (a, f a.lane))
    let part := (t.live t.cur.node).part
    lanesAre t.now d m.pm m.zm m.e (fun l => t.readPlace (.spm t.cur.node part (off l)) m.e) (u.now.vr d) ∧
    t.sameBytes u ∧ u.net = t.net ∧ t.sameOthers u t.cur ∧ (∀ r, r ≠ d.val → u.now.vr r = t.now.vr r) ∧
    (∀ r, t.now.boundSlot r = none → u.now.sr r = t.now.sr r) ∧ u.now.p = t.now.p ∧ u.now.fstat = t.now.fstat ∧
    u.now.osc = t.now.osc ∧ u.now.groups = t.now.groups

/-- R33, R134, R137, R207, R211: stores to the own core and loads from it. That they are performed at issue is the model's choice (DEDUCED,
log 18). -/
def Obligations.AccessesToTheOwnCore : Prop := StoresToTheOwnCore ∧ OwnLoads ∧ OwnVectorLoads

/-! ### Ordering -/

/-- R144: the locations inside each scope of an issuer on node `g`. -/
def ScopeTable : Prop :=
  ∀ (g : Nat) (sc : Scope),
    (∀ t off, insideScope g sc (.node t off) = true ↔ match sc with
      | .core => t = g
      | .clu => t = g ∨ (isCaldera g = false ∧ isCaldera t = false ∧ pkgOf t = pkgOf g ∧ clusterOf t = clusterOf g)
      | .die => pkgOf t = pkgOf g ∧ dieOf t = dieOf g
      | .pkg => pkgOf t = pkgOf g
      | .dom | .sys => True) ∧
    (∀ q die ch, insideScope g sc (.home (.mem q die ch)) = true ↔ match sc with
      | .core | .clu => False
      | .die => q = pkgOf g ∧ die = dieOf g
      | .pkg => q = pkgOf g
      | .dom | .sys => True) ∧
    (∀ q, insideScope g sc (.home (.cxl q)) = true ↔ match sc with
      | .core | .clu | .die => False
      | .pkg => q = pkgOf g
      | .dom | .sys => True) ∧
    ∀ q, insideScope g sc (.home (.host q)) = true ↔ sc = .sys

/-- R144, R146 to R150: FENCE completes when what it waits for is done; FLUSH sends its probe and waits for its return; PHASE inverts
the tag; QUIET and GBAR wait, and complete once their wait has ended. A FENCE waits for every read of the instance, for the writes and
FE changes inside its scope, and at SYSTEM for parcels, contributions and record updates too: the model's reading (DEDUCED, log 13). -/
def Obligations.OrderingInstructions : Prop :=
  (∀ (s : State) (sc : Scope), s.ready {} → s.acqOpen s.cur = false →
    (s.fenceDone s.cur sc = true → exec (.fence sc) s = .next (s.pass 4)) ∧
    (s.fenceDone s.cur sc = false → exec (.fence sc) s = .next (s.waits .fence))) ∧
  (∀ (s : State) (a : SReg), s.ready { reads := [.s a] } →
    (s.now.wait = .ended → exec (.flush a) s = .next (s.pass 4)) ∧
    (∀ t f, s.now.wait = .none → s.acqOpen s.cur = false → (s.now.sr a).toNat % 8 = 0 →
      s.find1 s.cur .read .as 8 (s.now.sr a).toNat = (t, .ok f) →
      (f.own.isSome = true → exec (.flush a) s = .next (t.pass 4)) ∧
      (f.own = none → ∃ u m, exec (.flush a) s = .next u ∧ u.net = t.net ++ [m] ∧ m.id = t.nextId ∧ m.req = .flush ∧
        m.tgt = f.tgt ∧ m.ordered = true ∧ u.now.wait = .flush t.nextId ∧ u.now.pc = t.now.pc))) ∧
  (∀ s : State, s.ready { ctxs := [.main, .work] } →
    exec .phase s = .next ((s.modCtx s.cur fun c => { c with tag := !c.tag }).retire 4 [] .seq)) ∧
  (∀ (s : State) (sc : Scope), s.ready {} →
    let wide := if sc = .sys then Scope.dom else sc
    (s.now.wait = .ended → exec (.quiet sc) s = .next (s.pass 4)) ∧
    (s.now.wait = .none → exec (.quiet sc) s = .next (s.waits (.quiet wide (!s.now.sendTag) none)))) ∧
  (∀ (s : State) (sc : Scope), s.ready { ctxs := [.main] } →
    let wide := if sc = .sys then Scope.dom else sc
    (s.now.wait = .ended → exec (.gbar sc) s = .next (s.pass 4)) ∧
    (s.now.wait = .none → s.acqOpen s.cur = false →
      (s.fenceDone s.cur wide = true → exec (.gbar sc) s = .next (s.waits (.gbar wide))) ∧
      (s.fenceDone s.cur wide = false → exec (.gbar sc) s = .next (s.waits .gfence)))) ∧
  (∀ (s : State) (i : Inst) (sc : Scope), s.fenceDone i sc = true ↔ ∀ m ∈ s.net, m.src = i → m.part = s.partOf i →
    match m.req with
    | .load _ | .fe .ldf _ | .fe .take _ | .fe .feq _ | .prld _ _ | .prstat => False
    | .store _ _ | .fe _ _ | .atom _ _ _ _ _ _ => insideScope i.node sc m.tgt = false
    | .parcel _ | .grad _ _ _ _ | .prset _ _ => sc ≠ .sys
    | .flush => True) ∧
  ScopeTable

/-! ### Parcels, tasks and nets -/

/-- The message that carries a parcel of the instance to a node's bank (R166). -/
def carries (s : State) (o : SendOp) (high : Bool) (t : Nat) (m : Msg) : Prop :=
  m.src = s.cur ∧ m.tgt = .node t (if high then 0x100001 else 0x100000) ∧ m.osc = true ∧ m.phase = .req ∧
    ∃ p : Parcel, m.req = .parcel p ∧ p.entry = s.now.opnd o.b ∧ p.pay = (List.range o.n).map (fun k => s.now.sr (k + 1)) ∧
      p.sender = absCoord s.cur.node 0 ∧ p.sent = (s.pkg (pkgOf s.cur.node)).gt ∧ p.tag = s.now.sendTag ∧ p.w8 = o.w8 ∧
      p.wtop = s.now.wtop ∧ p.part = s.partOf s.cur

/-- R165, R166: SEND, SENDH and MIGR send one parcel, which OSC counts. MIGR then ends the activation, here a handler's. -/
def ParcelsSent : Prop :=
  ∀ (s : State) (o : SendOp) (t : Nat), (s.now.opnd o.b).toNat % 4 = 0 → s.parcelNode s.cur.node (s.now.sr o.a) = some t →
    s.now.osc < 256 →
    let sends (i : Instr) (high : Bool) (act : Activity) : Prop :=
      ∃ u m, exec i s = .next u ∧ u.net = s.net ++ [m] ∧ carries s o high t m ∧ u.now.osc = s.now.osc + 1 ∧
        u.now.act = act ∧ s.sameBytes u ∧ (∀ r, u.now.sr r = s.now.sr r)
    (s.ready { reads := sendRegs o } → sends (.send o) false s.now.act ∧ sends (.sendh o) true s.now.act) ∧
    (s.ready (doneUse s (sendRegs o)) → (s.cur.ctx = .msgL ∨ s.cur.ctx = .msgH) → s.now.wait = .none →
      sends (.migr o) false .idle)

/-- R149, R172: DONE in each context. In MAIN it waits as FENCE.sys first; in WORK the entry retires under the tag it was sent with. -/
def DoneEnds : Prop :=
  ∀ s : State, s.ready (doneUse s []) →
    (s.cur.ctx = .main → s.acqOpen s.cur = false →
      (s.fenceDone s.cur .sys = false → exec .done s = .next (s.waits .busy)) ∧
      (s.fenceDone s.cur .sys = true → ∃ u, exec .done s = .next u ∧ u.now.act = .idle ∧
        ∀ l k x, s.now.act = .grain l k → s.launch (pkgOf s.cur.node) l = some x →
          ∃ y, u.launch (pkgOf s.cur.node) l = some y ∧ y.grains = x.grains.put k .done)) ∧
    (s.cur.ctx = .work → ∀ k by_ tag, s.now.act = .work k by_ tag →
      ∃ t : State, exec .done s = .next (t.retire 4 [] (.goto (s.now.sr 63))) ∧ t.now.act = .loop ∧ t.now.pc = s.now.pc ∧
        let key := tagKey (s.partOf s.cur) tag
        Table.get 0 (t.node s.cur.node).retired key = Table.get 0 (s.node s.cur.node).retired key + 1) ∧
    (s.cur.ctx = .work → ∀ a made, s.now.act = .rule a made →
      ∃ t : State, exec .done s = .next (t.retire 4 [] (.goto (s.now.sr 63))) ∧ t.now.act = .idle ∧ t.now.pc = s.now.pc ∧
        (made = true → s.sameBytes t ∧ t.net = s.net) ∧
        (made = false → s.heldUpdates s.cur.node = [] → t.epoch a = (s.epoch a + 1) % 2 ^ 32 ∧ t.arr a = 0 ∧ t.exp a = s.exp a ∧
          natBit (t.recWord a 1) 18 = true ∧ natBit (t.recWord a 1) 16 = false ∧ t.busy a = false ∧
          t.dram.readNat (a + 32) 160 = s.dram.readNat (a + 32) 160 ∧ t.dram.readNat (a + 192) 64 = 0 ∧
          (t.recOf s.cur.node a).sums = [] ∧ (t.node s.cur.node).lock = (s.node s.cur.node).lock.filter (· != a) ∧
          s.sameBut t (.dram a) 256 ∧ s.sameFull t)) ∧
    (s.cur.ctx = .msgL ∨ s.cur.ctx = .msgH → ∃ u, exec .done s = .next u ∧ u.now.act = .idle ∧ u.now.apart = none)

/-- R165, R166, R172, R202: parcels and DONE. DONE of a record rule, which first performs PRST #1 where the rule made none, ends the
activation: the model's choice (DEDUCED, log 17). -/
def Obligations.ParcelsAndDone : Prop := ParcelsSent ∧ DoneEnds

/-- R173, R174, R180: SPAWN and PUSHP push the newest entry; MSGQ reads the arrival queues. -/
def TasksPushed : Prop :=
  (∀ (s : State) (d : SReg) (b : Opnd), isCaldera s.cur.node = false →
    s.ready { reads := opndRegs b ++ (List.range 4).map fun k => Reg.s (k + 1), writes := [.s d] } →
    (s.now.opnd b).toNat % 4 = 0 →
    let m := s.live s.cur.node
    (4096 ≤ m.vent.length → exec (.spawn d b) s = .next (s.putS (Instr.spawn d b).len d 0)) ∧
    (m.vent.length < 4096 → ∃ u e, exec (.spawn d b) s = .next u ∧ (u.live s.cur.node).vent = e :: m.vent ∧
      e.item = .task (s.now.opnd b) (s.now.sr 1) (s.now.sr 2) (s.now.sr 3) (s.now.sr 4) ∧ e.tag = s.now.sendTag ∧
      (d ≠ 0 → u.now.sr d = 1))) ∧
  (∀ (s : State) (a b : SReg), s.ready (netUse s [.s a, .s b] [] allCtxs) →
    let m := s.live s.cur.node
    m.vent.length < 4096 → (s.now.sr a).toNat % 64 = 0 → (s.now.sr b).toNat % 64 = 0 →
    ∃ u e, exec (.pushp a b) s = .next u ∧ (u.live s.cur.node).vent = e :: m.vent ∧
      e.item = .pair (s.now.sr a) (s.now.sr b) ∧ e.tag = s.now.sendTag) ∧
  (∀ (s : State) (d : SReg), s.ready { writes := [.s d] } →
    let m := s.live s.cur.node
    ∃ x : Word, exec (.msgq d) s = .next (s.putS 4 d x) ∧
      (m.qL.length < 2 ^ 7 → m.qLover.length < 2 ^ 17 → m.qH.length < 2 ^ 5 →
        x.toNat % 2 ^ 8 = m.qL.length ∧ x.toNat / 2 ^ 8 % 2 ^ 17 = m.qLover.length ∧ x.toNat / 2 ^ 25 = m.qH.length))

/-- R178, R179: POP takes the newest entry: nothing from an empty Vent, a task with its values, a pair with its two node addresses,
whose TAKEs are performed or sent and which completes once both have been granted. STEAL looks at its neighbours in turn, from look `k0`
on, and takes the oldest entry of the first that has one to give. Whether other operations may come between its looks is the step's
choice (DEDUCED, log 18). -/
def VentTakes : Prop :=
  (∀ (s : State) (d : SReg), s.ready (netUse s [] (popRegs d) [.work]) →
    let m := s.live s.cur.node
    (s.now.wait = .none → m.vent = [] → exec (.pop d) s = .next (s.putS 4 d 0)) ∧
    (∀ e rest entry x1 x2 x3 x4, s.now.wait = .none → m.vent = e :: rest → e.item = .task entry x1 x2 x3 x4 →
      ∃ u, exec (.pop d) s = .next u ∧ (u.live s.cur.node).vent = rest ∧ u.now.tag = e.tag ∧ u.now.act = .work 4 e.by_ e.tag ∧
        u.now.sr 63 = s.now.pc + 4 ∧ (d ≠ 0 → d ≠ 63 → u.now.sr d = 2) ∧
        (∀ k, 1 ≤ k → k ≤ 5 → d.val ≠ k → u.now.sr k = [x1, x2, x3, x4, entry].getD (k - 1) 0)) ∧
    (∀ g, s.now.wait = .pop g → s.now.groups.any (fun x => x.id == g) = false → exec (.pop d) s = .next
      ((s.modCtx s.cur fun c => (c.setS d 1).setS 63 (s.now.pc + 4)).retire 4 [.s d, .s 63, .s 1, .s 2] .seq)) ∧
    (∀ e rest a b fs t, s.now.wait = .none → m.vent = e :: rest → e.item = .pair a b →
      let p := a + 8
      let q := b + 8
      let lo := if p.toNat < q.toNat then p else q
      let hi := if p.toNat < q.toNat then q else p
      let op : MemOp := { need := .fe .take, mode := .as, size := 8, dst := .pop
                          lanes := [⟨0, lo, .fe .take 0⟩, ⟨0, hi, .fe .take 0⟩] }
      s.admits op fs t → let v := (t.performAll op fs).1
      ∃ u, exec (.pop d) s = .next u ∧ (u.live s.cur.node).vent = rest ∧ u.now.tag = e.tag ∧ u.now.act = .work 6 e.by_ e.tag ∧
        (d.val ≠ 1 → u.now.sr 1 = a) ∧ (d.val ≠ 2 → u.now.sr 2 = b) ∧ u.net = v.net ∧ v.sameBytes u ∧
        ((∀ af ∈ fs, af.2.own = none) → ∃ x y, u.net = t.net ++ [x, y] ∧ x.req = .fe .take 0 ∧ y.req = .fe .take 0 ∧
          x.va = lo ∧ y.va = hi ∧ x.src = s.cur ∧ y.src = s.cur ∧ u.now.wait = .pop x.grp))) ∧
  (∀ (s : State) (d : SReg), s.ready (netUse s [] [.s d] [.work]) →
    let g := s.cur.node
    let m := s.live g
    let look (k : Nat) : Nat := (m.stealStart + k) % 4
    let gives (k : Nat) : Bool := ((neighbour g (look k)).map (s.stealable g)).getD false
    (s.now.wait = .none → 4096 ≤ m.vent.length → exec (.steal d) s = .next (s.putS 4 d 0)) ∧
    (∀ k0, k0 < 4 → (s.now.wait = .none ∧ m.vent.length < 4096 ∧ k0 = 0) ∨ s.now.wait = .steal k0 →
      (∀ k t e, k0 ≤ k → k < 4 → (∀ j, k0 ≤ j → j < k → gives j = false) → (s.split = true → k = k0) →
        neighbour g (look k) = some t → s.stealable g t = true → (s.live t).vent.getLast? = some e →
        ∃ u, exec (.steal d) s = .next u ∧ (u.live t).vent = (s.live t).vent.dropLast ∧
          (u.live g).vent = { e with began := some (s.node g).cycle } :: m.vent ∧ (u.live g).stealStart = (look k + 1) % 4 ∧
          (d ≠ 0 → u.now.sr d = 1)) ∧
      (gives k0 = false → s.split = true → k0 < 3 → exec (.steal d) s = .next (s.waits (.steal (k0 + 1)))) ∧
      ((∀ j, k0 ≤ j → j < 4 → gives j = false) → s.split = false ∨ k0 = 3 → exec (.steal d) s = .next
        ((s.modLive g fun m => { m with stealStart := (m.stealStart + 1) % 4 }).putS 4 d 0))))

/-- R173, R174, R178 to R180: the Vent and the arrival queues. Whether other operations may come between STEAL's
looks is the step's choice (DEDUCED, log 18). -/
def Obligations.TasksAndQueues : Prop := TasksPushed ∧ VentTakes

/-- A sequence of posted operations is admitted, and leaves `t` (R135, R227). -/
def posts (s : State) (ops : List MemOp) (t : State) : Prop := postAll s s ops (fun u => .done u [] .seq) = .done t [] .seq

/-- R135, R227: posted operations are performed or sent one after another; none of their answers is waited for. -/
def PostedInTurn : Prop :=
  ∀ (s0 s t : State) (op : MemOp) (ops : List MemOp) (k : State → Out) (fs : List (LaneAcc × Found)),
    postAll s0 s [] k = k s ∧
    (s.admits op fs t → let v := (t.performAll op fs).1
      postAll s0 s (op :: ops) k = postAll s0 (v.modCtx v.cur fun c => { c with groups := s.now.groups }) ops k)

/-- R184: the probe of the rule table at `base` from slot `h` on, `n` slots at most: the first entry that holds both symbols gives the code
and whether the pair is exchanged; an empty entry before it, or none, ends the probe. -/
def RuleTable : Prop :=
  ∀ (s : State) (p base ha hb n h : Nat),
    let w0 (k : Nat) : Word := s.dramWord p (base + 16 * ((h + k) % 16384))
    let sa (k : Nat) : Nat := (w0 k).toNat % 4096
    let sb (k : Nat) : Nat := (w0 k).toNat / 4096 % 4096
    let hit (k : Nat) : Prop := (sa k = ha ∧ sb k = hb) ∨ (sa k = hb ∧ sb k = ha)
    let goesOn (k : Nat) : Prop := (w0 k).getLsbD 63 = true ∧ ¬hit k
    (∀ k, k < n → (∀ j, j < k → goesOn j) → (w0 k).getLsbD 63 = true → hit k → s.findRule p base ha hb n h =
      some (s.dramWord p (base + 16 * ((h + k) % 16384) + 8), decide (hb = sa k ∧ ha ≠ sa k))) ∧
    (∀ k, k < n → (∀ j, j < k → goesOn j) → (w0 k).getLsbD 63 = false → s.findRule p base ha hb n h = none) ∧
    ((∀ j, j < n → goesOn j) → s.findRule p base ha hb n h = none)

/-- R184: how RULE ends in a state `t` in which both headers have been read: by the trap of a pair without a rule, or at the rule's code with
the pair and its headers in s1 to s4. -/
def dispatches (s t : State) (ha hb : Word) (part : Nat) : Prop :=
  let p := s.now.sr 1
  let q := s.now.sr 2
  let x := ha.toNat % 4096
  let y := hb.toNat % 4096
  let found := t.findRule (pkgOf s.cur.node) (t.partWord (pkgOf s.cur.node) part 5).toNat x y 16 ((min x y * 2654 + max x y) % 16384)
  (found = none → exec .rule s = .next (s.takeTrap s.cur { cause := .trap, code := 127 })) ∧
    (∀ code, found = some (code, false) → ∃ u : State, exec .rule s = .next (u.retire 4 [.s 3, .s 4] (.goto code)) ∧
      u.now.sr 1 = p ∧ u.now.sr 2 = q ∧ u.now.sr 3 = ha ∧ u.now.sr 4 = hb) ∧
    (∀ code, found = some (code, true) → ∃ u : State, exec .rule s = .next (u.retire 4 [.s 1, .s 2, .s 3, .s 4] (.goto code)) ∧
      u.now.sr 1 = q ∧ u.now.sr 2 = p ∧ u.now.sr 3 = hb ∧ u.now.sr 4 = ha)

/-- R182, R185: what a fresh node gets, and what NSYM writes. The header, the slots of a node's payload words 5 to 7 get 0 by stores, and
each of the ports 1 to 4 is left empty with 0; NSYM reads the header and writes its bits 13:0, here of a header in the own core. -/
def NodeWords : Prop :=
  (∀ a : Word, (freshNode a).map (fun op => op.lanes.map fun l => (l.v, l.req)) =
    [0, 40, 48, 56].map (fun k : Nat => [(a + BitVec.ofNat 64 k, Req.store 8 0)]) ++
    [8, 16, 24, 32].map (fun k : Nat => [(a + BitVec.ofNat 64 k, Req.fe .ste 0)])) ∧
  (∀ (c : Ctx) (d : SReg) (v : Word) (data : Nat) (buf : VecReg),
    (nsymMem d v).dst.write c data buf = c.setS d (BitVec.ofNat 64 (data % 2 ^ 14))) ∧
  ∀ (t : State) (d : SReg) (v : Word) (f : Found) (off : Nat), f.own = some off → t.split = false →
    let u := t.access 4 (nsymMem d v) [(⟨0, v, .load 8⟩, f)]
    (d ≠ 0 → t.now.boundSlot d = none →
      u.now.sr d = BitVec.ofNat 64 (t.readPlace (.spm t.cur.node (t.live t.cur.node).part off) 8 % 2 ^ 14)) ∧
    t.sameBytes u ∧ u.net = t.net

/-- R180 to R184: wiring two ports, allocating and returning nodes, and dispatching a pair by the partition's rule table. The model's
choices (DEDUCED, log 18): NALLOC and NFREE read their word and post their stores in one step wherever the words lie, the words of the
rule table are read in one step, and whether others may be granted between the two headers that RULE reads is the step's choice. An
uncorrectable word that NALLOC or NFREE reads traps after the checks of the stores' addresses (R230). -/
def Obligations.NetInstructions : Prop :=
  PostedInTurn ∧ RuleTable ∧ NodeWords ∧
  (∀ (s t : State) (a b : SReg), s.ready (netUse s [.s a, .s b] [] allCtxs) →
    let p := s.now.sr a
    let q := s.now.sr b
    let lo := if p.toNat < q.toNat then p else q
    let hi := if p.toNat < q.toNat then q else p
    p.toNat % 8 = 0 → q.toNat % 8 = 0 → isPort p = true → isPort q = true →
    posts s (if p = q then [wordFe .putf p p] else [wordFe .putf lo hi, wordFe .putf hi lo]) t →
    ((portNo p ≠ 1 ∨ portNo q ≠ 1 ∨ p = q) → exec (.link a b) s = .next (t.retire 4 [] .seq)) ∧
    (portNo p = 1 → portNo q = 1 → p ≠ q → (s.live s.cur.node).ventFull = false →
      exec (.link a b) s = .next ((t.push t.cur (.pair (p - 8) (q - 8))).retire 4 [] .seq))) ∧
  (∀ (s t t' : State) (d : SReg) (x : Word), s.ready (netUse s [] [.s d] allCtxs) → s.acqOpen s.cur = false →
    let m := s.live s.cur.node
    let v := m.nfreehd + 8
    let put (a : Word) (f : Img → Img) : Host.Outcome State Fault Refusal :=
      .next (((t.modLive s.cur.node f).modCtx t.cur fun c => c.setS d a).retire 4 [.s d] .seq)
    (∀ bad, m.nfreehd ≠ 0 → s.readOk s.cur v.toNat = true → s.readNow s.cur v.toNat = (t', .ok (x, bad)) →
      postAll s (t'.noteReads s.cur [v]) (freshNode m.nfreehd) (fun u => .done u [] .seq) = .done t [] .seq →
      (bad = false →
        exec (.nalloc d) s = put m.nfreehd fun m => { m with nfreehd := x &&& BitVec.ofNat 64 (2 ^ 64 - 64) }) ∧
      (bad = true → ∃ z : Trap, z.cause = .machineCheck ∧ z.eaddr = v ∧
        exec (.nalloc d) s = .next ((s.keepWalks t s.cur).takeTrap s.cur z))) ∧
    (m.nfreehd = 0 → m.npool ≠ 0 → posts s (freshNode m.npool) t → exec (.nalloc d) s = put m.npool fun m' =>
      { m' with npool := if (m.npool + 64).toNat % 2 ^ 16 < 64 then 0 else m.npool + 64 }) ∧
    (m.nfreehd = 0 → m.npool = 0 → exec (.nalloc d) s = .next (s.putS 4 d 0))) ∧
  (∀ (s t t' : State) (a : SReg) (h : Word), s.ready (netUse s [.s a] [] allCtxs) →
    let v := s.now.sr a
    ∀ bad, v.toNat % 64 = 0 → s.readOk s.cur v.toNat = true → s.readNow s.cur v.toNat = (t', .ok (h, bad)) →
    postAll s (t'.noteReads s.cur [v]) [wordStore v 0x4000, wordStore (v + 8) (s.live s.cur.node).nfreehd]
      (fun u => .done u [] .seq) = .done t [] .seq →
    let traps (z : Trap) : Prop := exec (.nfree a) s = .next ((s.keepWalks t s.cur).takeTrap s.cur z)
    (bad = true → ∃ z : Trap, z.cause = .machineCheck ∧ z.eaddr = v ∧ traps z) ∧
    (bad = false → h.getLsbD 14 = true → traps { cause := .illegalSequence }) ∧
    (bad = false → h.getLsbD 14 = false →
      exec (.nfree a) s = .next ((t.modLive s.cur.node fun m => { m with nfreehd := v }).retire 4 [] .seq))) ∧
  (∀ (s t1 t2 : State) (ha hb : Word) (part : Nat),
    s.ready { netUse s [.s 1, .s 2] [.s 1, .s 2, .s 3, .s 4] [.work] with noSlot := true, noEnd := true } →
    let p := s.now.sr 1
    let q := s.now.sr 2
    p.toNat % 8 = 0 → q.toNat % 8 = 0 →
    (∀ e, s.now.begins → s.readOk s.cur p.toNat = true → s.readNow s.cur p.toNat = (t1, .ok (ha, e)) →
      (s.split = true → exec .rule s = .next (t1.waits (.words [ha] (if e then [p] else [])))) ∧
      (s.split = false → e = false → t1.readOk s.cur q.toNat = true → t1.readNow s.cur q.toNat = (t2, .ok (hb, false)) →
        t2.partOf s.cur = some part → dispatches s t2 ha hb part)) ∧
    (s.now.wait = .words [ha] [] → s.readOk s.cur q.toNat = true → s.readNow s.cur q.toNat = (t2, .ok (hb, false)) →
      t2.partOf s.cur = some part → dispatches s t2 ha hb part))

/-! ### Matrix unit and accumulators -/

/-- R25, R134, R187 to R189, R251: GMMA captures its operands, GANGW and GSTAG when it issues, and its rounding environment, and arrives
at the Chord, when its operand words are well formed, its rings hold a slot, the unit is free, no acquire is open, and the context's
earlier accesses to its own banks are performed; until then it waits with the GANGW and GSTAG captured. -/
def GmmaArrival : Prop :=
  ∀ (s : State) (o : GmmaOp) (a b : GSrc) (x y : Bool) (gw gt : Nat), s.ready (matUse s [.s o.a, .s o.b] []) →
    let i := s.cur
    let m := s.live i.node
    ((∀ w t, s.now.wait ≠ .gmma w t) ∧ gw = m.gangw.toNat ∧ gt = m.gstag.toNat) ∨ s.now.wait = .gmma gw gt →
    gmmaSrc s i o true (s.now.sr o.a) = some (a, x) → gmmaSrc s i o false (s.now.sr o.b) = some (b, y) →
    (pairIs64 o.p = true → o.t.val % 2 = 0) → (i.ctx = .work → gw = 0) → s.acqOpen i = false →
    let g : Gmma := { ctx := i.ctx, pair := o.p, tile := o.t, gangw := gw, gstag := gt, a := a, b := b
                      aOrd := x, bOrd := y, env := (s.now.wtop, s.now.srseed, s.now.ictr), phase := .arrived }
    let free := m.gmma = none ∧ s.ownPending i 0 256 = false ∧ s.ownPending i 0x80000 256 = false
    (ringState s i a = some true → ringState s i b = some true → free → exec (.gmma o) s = .next
      ((s.modLive i.node fun m => { m with gmma := some g }).retire (Instr.gmma o).len [] .seq)) ∧
    ((ringState s i a).isSome = true → (ringState s i b).isSome = true →
      ¬(ringState s i a = some true ∧ ringState s i b = some true ∧ free) → exec (.gmma o) s = .next (s.waits (.gmma gw gt)))

/-- R187, R188: an operand word that names a tile of the own scratchpad, as operand A. -/
def GmmaWords : Prop :=
  ∀ (s : State) (i : Inst) (o : GmmaOp) (w : Word),
    let e := o.p.src.bytes
    let off := natBits w.toNat 0 20
    w.toNat / 2 ^ 62 = 0 →
    (natBits w.toNat 20 41 = 0 ∧ (w.getLsbD 61 = true → 4 ≤ e) ∧ off % 256 = 0 ∧ backed i.node (off + 4096 * e - 1) = true →
      gmmaSrc s i o true w = some (.tile off, w.getLsbD 61)) ∧
    (natBits w.toNat 20 41 ≠ 0 ∨ (w.getLsbD 61 = true ∧ e < 4) ∨ off % 256 ≠ 0 ∨ backed i.node (off + 4096 * e - 1) = false →
      gmmaSrc s i o true w = none)

/-- R187 to R189: the operand words of GMMA, and its arrival. -/
def Obligations.Gmma : Prop := GmmaArrival ∧ GmmaWords

/-- No acquire is open, and no tile of the list is an odd half of an FP64 pair, held by the matrix unit, or the target of an earlier
access (R35, R195, R251). -/
def tilesFree (s : State) (tiles : List (Tile × Bool)) : Prop :=
  s.acqOpen s.cur = false ∧ ∀ t ∈ tiles, oddPair t.1 t.2 = false ∧
    (s.live s.cur.node).bars (tileRange t.1.val t.2).1 (tileRange t.1.val t.2).2 true = false ∧
    s.ownPending s.cur (tileRange t.1.val t.2).1 (tileRange t.1.val t.2).2 = false

/-- A scratchpad tile of `e`-byte elements may be accessed at an offset (R193). -/
def padFree (s : State) (off e : Nat) (wr : Bool) : Prop :=
  off % 256 = 0 ∧ backed s.cur.node (off + 4096 * e - 1) = true ∧ s.acqOpen s.cur = false ∧
    (s.live s.cur.node).bars off (4096 * e) wr = false ∧
    s.ownPending s.cur off (4096 * e) = false

/-- An ACC instruction completes in `u` with 64 × 64 rounded results of `e` bytes, read in `u` by `get`; their flags are raised, and
the OVF flags `ovf` exactly where one overflowed. The rest of memory, and every FE bit, stand. -/
def tileEnds (s u : State) (at_ len e : Nat) (ovf : BitVec 4) (get : Nat → Nat → Nat) (f : Nat → Nat → Rounded) : Prop :=
  let g := s.cur.node
  (∀ i j, i < 64 → j < 64 → get i j = (f i j).bits % 2 ^ (8 * e)) ∧
    (∀ k, u.now.fstat.getLsbD k = true ↔
      s.now.fstat.getLsbD k = true ∨ ∃ i j, i < 64 ∧ j < 64 ∧ (f i j).flags.getLsbD k = true) ∧
    (∀ k, (u.live g).ovf.getLsbD k = true ↔
      (s.live g).ovf.getLsbD k = true ∨ ovf.getLsbD k = true ∧ ∃ i j, i < 64 ∧ j < 64 ∧ (f i j).ovf = true) ∧
    s.sameBut u (.spm g (s.live g).part at_) len ∧ s.sameFull u ∧ (∀ r, u.now.sr r = s.now.sr r)

/-- R35, R61, R66, R192 to R194: the accumulator instructions, element by element. -/
def Obligations.AccumulatorInstructions : Prop :=
  (∀ (s : State) (o : AzeroOp), let f64 := o.x == some true
    s.ready (matUse s [] []) → tilesFree s [(o.t, f64)] →
    ∃ u, exec (.azero o) s = .next u ∧ tileEnds s u (tileRange o.t.val f64).1 (tileRange o.t.val f64).2 (if f64 then 8 else 4) 0
      (fun i j => (u.live s.cur.node).tileElem o.t.val f64 i j) (fun _ _ => ⟨0, 0, false⟩)) ∧
  (∀ (s : State) (o : AldtOp), let f := o.x.getD .f32
    let f64 := f == .f64
    let off := (s.now.sr o.a).toNat % 2 ^ 20
    let dst : Fmt := if f = .f64 then .f64 else if f = .i32 then .i32 else .f32
    s.ready (matUse s [.s o.a] []) → tilesFree s [(o.t, f64)] → padFree s off f.bytes false →
    ∃ u, exec (.aldt o) s = .next u ∧ tileEnds s u (tileRange o.t.val f64).1 (tileRange o.t.val f64).2 (if f64 then 8 else 4) 0
      (fun i j => (u.live s.cur.node).tileElem o.t.val f64 i j)
      (fun i j => convert f dst s.now.env .rne (i * 64 + j) ((s.live s.cur.node).padElem off f.bytes i j))) ∧
  (∀ (s : State) (o : AsttOp), let form := accForm o.x
    let v := form.1
    let f := form.2.1
    let off := (s.now.sr o.a).toNat % 2 ^ 20
    s.ready (matUse s [.s o.a] []) → tilesFree s [(o.t, v.is64)] → padFree s off f.bytes true →
    ∃ u, exec (.astt o) s = .next u ∧ tileEnds s u off (4096 * f.bytes) f.bytes (ovfBits o.t.val v.is64)
      (fun i j => (u.live s.cur.node).padElem off f.bytes i j)
      (fun i j => convert v.toFmt f s.now.env form.2.2 (i * 64 + j) ((s.live s.cur.node).tileElem o.t.val v.is64 i j))) ∧
  (∀ (s : State) (o : AcvtOp), let form := accForm o.x
    let v := form.1
    let f := form.2.1
    let d64 := f == .f64
    let val (i j : Nat) : Rounded :=
      convert v.toFmt f s.now.env form.2.2 (i * 64 + j) ((s.live s.cur.node).tileElem o.t.val v.is64 i j)
    s.ready (matUse s [] []) → tilesFree s [(o.t, v.is64), (o.d, d64)] →
    (d64 = v.is64 ∨ o.d.val / 2 ≠ o.t.val / 2) →
    ∃ u, exec (.acvt o) s = .next u ∧
      tileEnds s u (tileRange o.d.val d64).1 (tileRange o.d.val d64).2 (if d64 then 8 else 4) (ovfBits o.d.val d64)
        (fun i j => (u.live s.cur.node).tileElem o.d.val d64 i j)
        (fun i j => if f = .f64 ∨ f = .f32 ∨ f = .i32 then val i j
          else { val i j with bits := (convert f .f32 s.now.env .rne 0 (val i j).bits).bits })) ∧
  (∀ (s : State) (o : AscaleOp), let form := o.x.getD (false, .rne)
    let pf : Fmt := if form.1 then .i32 else .f32
    let m := s.live s.cur.node
    let env := s.now.env
    s.ready (matUse s [.s o.b] []) → tilesFree s [(o.c, false), (o.p, false)] →
    ∃ u, exec (.ascale o) s = .next u ∧
      tileEnds s u (tileRange o.c.val false).1 (tileRange o.c.val false).2 4 0
        (fun i j => (u.live s.cur.node).tileElem o.c.val false i j)
        (fun i j => sumRound .f32 env form.2 (i * 64 + j)
          [Fmt.f32.num env.wtop (m.tileElem o.c.val false i j), (pf.num env.wtop (m.tileElem o.p.val false i j)).mul
            (Fmt.f32.num env.wtop ((s.now.sr o.b).toNat % 2 ^ 32))])) ∧
  (∀ (s : State) (d : VReg) (t : Tile) (b : SReg) (x : Bool), s.ready (matUse s [.s b] [.v d]) → tilesFree s [(t, false)] →
    let at_ := 0x80000 + t.val * 0x4000 + (s.now.sr b).toNat % 64 * 256 + (s.now.sr b).toNat / 64 % 4 * 64
    exec (.amovv (.toV d t b x)) s = .next (s.putV (Instr.amovv (.toV d t b x)).len d
      (BitVec.ofNat 512 (s.ownNat s.cur at_ 64)))) ∧
  (∀ (s : State) (t : Tile) (a : VReg) (b : SReg), s.ready (matUse s [.s b, .v a] []) → tilesFree s [(t, false)] →
    let at_ := 0x80000 + t.val * 0x4000 + (s.now.sr b).toNat % 64 * 256 + (s.now.sr b).toNat / 64 % 4 * 64
    let p := Place.spm s.cur.node (s.live s.cur.node).part at_
    ∃ u, exec (.amovv (.toT t a b)) s = .next u ∧ u.readPlace p 64 = (s.now.vr a).toNat ∧ s.sameBut u p 64 ∧ s.sameFull u) ∧
  (∀ (s : State) (o : AflagOp), s.ready (matUse s [] [.s o.d]) →
    let old := (s.live s.cur.node).ovf
    ∃ u, exec (.aflag o) s = .next u ∧ (o.d ≠ 0 → u.now.sr o.d = old.setWidth 64) ∧
      ∀ k, k < 4 → (u.live s.cur.node).ovf.getLsbD k = (old.getLsbD k && !natBit o.mask.val k))

/-! ### Parameter records -/

/-- R196, R202: what completing the rule of record `a` leaves in it, where its home holds no further contribution: the fields written back
unless the update is skipped, no sums and no gradient, the next epoch with none arrived, SKIP as asked, OVF and BUSY clear; the
record leaves the lock table and its binding. -/
def RuleCommits : Prop :=
  ∀ (t : State) (g a : Nat) (x : Option (VecReg × VecReg × VecReg)), t.heldUpdates g = [] →
    let u := t.commit g a x
    (∀ w m v, x = some (w, m, v) → u.dram.readNat (a + 32) 64 = w.toNat ∧ u.dram.readNat (a + 96) 64 = m.toNat ∧
      u.dram.readNat (a + 160) 32 = v.toNat % 2 ^ 256) ∧
    (x = none → u.dram.readNat (a + 32) 160 = t.dram.readNat (a + 32) 160) ∧
    u.dram.readNat (a + 192) 64 = 0 ∧ u.epoch a = (t.epoch a + 1) % 2 ^ 32 ∧ u.arr a = 0 ∧ u.exp a = t.exp a ∧
    natBits (u.recWord a 1) 0 16 = natBits (t.recWord a 1) 0 16 ∧ natBit (u.recWord a 1) 16 = false ∧ u.busy a = false ∧
    natBit (u.recWord a 1) 18 = x.isNone ∧ natBits (u.recWord a 1) 19 45 = 0 ∧ u.recWord a 2 = t.recWord a 2 ∧
    (u.recOf g a).sums = [] ∧ (u.recOf g a).bound = none ∧ (u.node g).lock = (t.node g).lock.filter (· != a) ∧
    t.sameBut u (.dram a) 256 ∧ t.sameFull u

/-- R196, R198, R199, R202: GRAD sends its contribution while its window has room; GRADQ reads the window; PRST completes the running
rule once, with the record at the address that the rule was given. That it frees the record's entry of the lock table is the model's
choice (DESIGN CHOICE, log 66). -/
def Obligations.RecordInstructions : Prop :=
  (∀ (s t t' : State) (o : GradOp) (h : Nat) (fs : List (LaneAcc × Found)), s.ready (recUse [.s o.a, .v o.b] []) →
    let v := s.now.sr o.a
    let cls := (o.x.map fun x => x.1.val).getD 0
    let bf16 := (o.x.map fun x => x.2).getD false
    let lanes := (List.range 16).map fun l => lane (s.now.vr o.b) (if bf16 then 2 else 4) l
    let op := recOp true true 2 v (.grad cls lanes bf16 (s.now.vovf.getLsbD o.b.val)) .none
    s.acqOpen s.cur = false → s.recHome s.cur (needRec true true 2) v = (t', .ok h) →
    let w := Table.get 0 (t'.node s.cur.node).window h
    (32 ≤ w → exec (.grad o) s = .next (t'.waits .room)) ∧
    (w < 32 → t'.admits op fs t → exec (.grad o) s = .next (((t.performAll op fs).1.modNode s.cur.node fun n =>
      { n with window := Table.set 0 n.window h (w + 1) }).retire (Instr.grad o).len [] .seq))) ∧
  (∀ (s t : State) (o : RecQ) (h : Nat), s.ready (recUse [.s o.a] [.s o.d]) →
    s.recHome s.cur (needRec false false 7) (s.now.sr o.a) = (t, .ok h) →
    exec (.gradq o) s = .next (t.putS (Instr.gradq o).len o.d (BitVec.ofNat 64 (Table.get 0 (t.node s.cur.node).window h)))) ∧
  (∀ (s t : State) (o : PrstOp) (h a : Nat), s.ready (recUse (.s o.a :: if o.skip then [] else [.v 0, .v 1, .v 2]) []) →
    s.recHome s.cur (needRec false false 7) (s.now.sr o.a) = (t, .ok h) →
    (s.cur.ctx = .work → s.now.act = .rule a false → (t.recOf s.cur.node a).va = s.now.sr o.a →
      exec (.prst o) s = .next ((((t.endAct s.cur).commit s.cur.node a
        (if o.skip then none else some (s.now.vr 0, s.now.vr 1, s.now.vr 2))).modCtx s.cur fun c =>
          { c with act := .rule a true }).retire (Instr.prst o).len [] .seq)) ∧
    ((∀ b, s.now.act ≠ .rule b false) →
      exec (.prst o) s = .next (s.takeTrap s.cur { cause := .illegalSequence }))) ∧
  RuleCommits

/-! ### System instructions, traps and returns -/

/-- R114 to R116, R235, R238, R242 to R245: the system instructions that complete, and how those that wait begin and end. Counter 7 of
PERFR, whose pace the spec leaves open, is a free value (DESIGN CHOICE, log 15). That ALIGN completes at once where MAIN runs no grain is
the model's choice (DEDUCED, log 59). -/
def Obligations.SystemInstructions : Prop :=
  (∀ s : State, s.ready {} → exec .nop s = .next (s.pass 4)) ∧
  (∀ (s : State) (n : Fin 64), s.ready {} →
    (s.cur.ctx ≠ .main → exec (.align n) s = .next (s.pass 4)) ∧
    (s.now.wait = .ended → exec (.align n) s = .next (s.pass 4)) ∧
    (s.cur.ctx = .main → s.now.wait = .none → (∀ l k, s.now.act ≠ .grain l k) → exec (.align n) s = .next (s.pass 4)) ∧
    (∀ l k, s.cur.ctx = .main → s.now.wait = .none → s.now.act = .grain l k → s.cur.node ∈ s.alignGroup s.cur.node l →
      (∀ t ∈ s.alignGroup s.cur.node l, t ≠ s.cur.node → ∃ n b, (s.live t).main.wait = .align s.now.pc n b) →
      ∃ u : State, exec (.align n) s = .next (u.retire 4 [] .seq) ∧ u.now.pc = s.now.pc ∧
        ∀ t ∈ s.alignGroup s.cur.node l, (u.live t).main.wait = .ended)) ∧
  (∀ (s : State) (a : SReg), s.ready { reads := [.s a] } →
    (s.cur.ctx = .msgL ∨ s.cur.ctx = .msgH → exec (.wfi a) s = .next (s.pass 4)) ∧
    (s.now.wait = .ended → exec (.wfi a) s = .next (s.pass 4)) ∧
    (s.cur.ctx = .main → s.now.wait = .none → exec (.wfi a) s = .next (s.waits (.wfi (s.now.sr a)))) ∧
    (s.cur.ctx = .work → s.now.wait = .none →
      exec (.wfi a) s = .next ((s.haltWork s.cur.node).modCtx s.cur fun c => { c with wait := .wfi (s.now.sr a) })) ∧
    (∀ tag, exec (.tmark a tag) s = .next ((s.emit s.cur 3 (s.now.sr a) (s.pkg (pkgOf s.cur.node)).gt
      (BitVec.ofNat 64 tag.val)).retire 4 [] .seq))) ∧
  (∀ (s : State) (d : SReg) (n : Fin 64), s.ready { writes := [.s d] } →
    (n.val ∈ [1, 2, 3, 4, 5, 6, 8, 9] → exec (.perfr d n) s = .next (s.putS 4 d (Table.get 0 s.now.perf n.val))) ∧
    (n.val = 0 → exec (.perfr d n) s = .next (s.putS 4 d (Table.get 0 s.now.perf 0 + Table.get 0 s.now.perf 10))) ∧
    (n.val = 7 → ∃ x : Word, (Table.get 0 s.now.perf 7).toNat ≤ x.toNat ∧ exec (.perfr d n) s = .next
      ((({ s with fresh := s.fresh + 1 } : State).modCtx s.cur fun c => { c with perf := Table.set 0 c.perf 7 x }).putS 4 d x))) ∧
  (∀ (s : State) (a b : SReg) (part size addr : Nat), s.ready { reads := [.s a, .s b], priv := true } →
    s.selector (s.now.sr a) (s.now.sr b) = .ok (part, size, addr) →
    exec (.tlbil a b) s = .next ((s.modNode s.cur.node fun n =>
      { n with tlb := n.tlb.filter fun e => !tlbSelected part size addr e }).retire 4 [] .seq) ∧
    (s.now.wait = .ended → exec (.shoot a b) s = .next (s.pass 4)) ∧
    (s.now.wait = .none → s.acqOpen s.cur = false → s.fenceDone s.cur .sys = true →
      (∀ q ∈ s.span (pkgOf s.cur.node) part, ∀ x ∈ (s.pkg q).shoots, x.part ≠ part) →
      exec (.shoot a b) s = .next ((s.startShoot part size addr).waits (.shoot part))))

/-- The store of word `k` of a context block at `v` (R239, R240). -/
def saveLane (s : State) (v : Word) (k : Nat) : LaneAcc :=
  ⟨0, v + BitVec.ofNat 64 (8 * k), .store 8 (blockWord s s.cur s.now k)⟩

/-- R240, R241: SAVEX checks its block and then stores its words as OSC admits them, each taking its place when it is sent (in portions:
the model's choice, DESIGN CHOICE, log 23); LOADX loads a block that keeps R241, here read in one step (log 18). -/
def Obligations.ContextBlocks : Prop :=
  (∀ (s t' : State) (a : SReg) (gs : List (LaneAcc × Found)), s.ready { reads := [.s a] } → s.acqOpen s.cur = false →
    let v := s.now.sr a
    let n (k : Nat) : Nat := min (512 - k) (256 - s.now.osc)
    let lanes (k : Nat) : List LaneAcc := ((List.range (n k)).map fun j => k + j).map (saveLane s v)
    let free (k : Nat) : Prop := ∀ l ∈ lanes k, ∀ u f, s.find1 s.cur .store .as 8 l.v.toNat = (u, .ok f) →
      u.ownWaits s.cur (saveOp []) f = false
    let sent (k : Nat) : State := s.saveLanes s.cur (lanes k)
    (s.now.wait = .none → s.now.awaited = [] → v.toNat % 4096 = 0 →
      s.findAll s.cur .store .as 8 ((List.range 512).map (saveLane s v)) = (t', .ok gs) → s.now.firstPoison = none →
      n 0 ≠ 0 → free 0 → exec (.savex a) s = .next ((sent 0).waits (.savex (n 0)))) ∧
    (∀ k, s.now.wait = .savex k → k < 512 → n k ≠ 0 → free k →
      (k + n k < 512 → exec (.savex a) s = .next ((sent k).waits (.savex (k + n k)))) ∧
      (k + n k = 512 → exec (.savex a) s = .next ((sent k).retire 4 [] .seq)))) ∧
  (∀ (s u : State) (i : Inst) (a : LaneAcc) (f : Found) (l : List LaneAcc), s.find1 i .store .as 8 a.v.toNat = (u, .ok f) →
    s.saveLanes i (a :: l) = (u.performAll (saveOp [a]) [(a, f)]).1.saveLanes i l ∧ s.saveLanes i [] = s) ∧
  (∀ (s t : State) (a : SReg) (ws : List Word), s.whole → s.ready { reads := [.s a], noSlot := true, noEnd := true } →
    let v := s.now.sr a
    s.now.awaited = [] → v.toNat % 4096 = 0 →
    s.readBlock s.cur v 512 0 = (t, .ok (ws, none)) →
    let u := t.watchReads s.cur ((List.range 512).map fun k => v + BitVec.ofNat 64 (8 * k))
    let c := u.now.load s.cur ws
    (∀ k, k < 512 → blockBad s.cur c ws k = false) →
    exec (.loadx a) s = .next ((u.setCtx s.cur c).retire 4 [] (.loaded s.now.priv)))

/-- R239, R241: loading the words of a context's own block at S gives back every register, formula slot, loop level and control
register that the block holds. -/
def Obligations.ContextBlockRoundTrip : Prop :=
  ∀ (s : State) (i : Inst) (c : Ctx), i.ctx = .main → c.priv = true → (∀ j, j < 16 → (c.slot j).dest < 64) →
    let d := c.load i ((List.range 512).map (blockWord s i c))
    (∀ n, n < 64 → d.sr n = c.sr n) ∧ (∀ n, n < 32 → d.vr n = c.vr n) ∧ (∀ n, n < 8 → d.pr n = c.pr n) ∧
    (∀ n, n < 7 → d.dr n = c.dr n) ∧ (∀ n, n < 16 → d.hr n = c.hr n) ∧
    (∀ j, j < 16 → (d.slot j).desc = (c.slot j).desc ∧ (d.slot j).accum = (c.slot j).accum ∧
      (d.slot j).dest = (c.slot j).dest ∧ (d.slot j).held = (c.slot j).held ∧ (d.slot j).valid = (c.slot j).valid) ∧
    d.lc0 = c.lc0 ∧ d.lbeg0 = c.lbeg0 ∧ d.lend0 = c.lend0 ∧ d.lc1 = c.lc1 ∧ d.lbeg1 = c.lbeg1 ∧ d.lend1 = c.lend1 ∧
    d.fstat = c.fstat ∧ d.wtop = c.wtop ∧ d.srseed = c.srseed ∧ d.vovf = c.vovf ∧ d.ictr = c.ictr ∧ d.priv = c.priv ∧
    d.ie = c.ie ∧ d.upact = c.upact ∧ d.upvec = c.upvec ∧ d.upinfo = c.upinfo ∧ d.epc = c.epc ∧ d.ecause = c.ecause ∧
    d.eaddr = c.eaddr ∧ d.einfo = c.einfo ∧ d.btarget = c.btarget ∧ d.lreq = c.lreq ∧ d.rreq = c.rreq ∧ d.tag = c.tag

/-- R114, R235: the instructions whose effect is to take a trap. SYSC's record names the continuation (TrapEntry). -/
def TrapForms : Prop :=
  (∀ s : State, exec .ill s = .next (s.takeTrap s.cur { cause := .illegalInstruction })) ∧
  (∀ (s : State) (code : BitVec 8), s.ready {} →
    exec (.trap code) s = .next (s.takeTrap s.cur { cause := .trap, code := code.toNat }) ∧
    exec (.brk code) s = .next (s.takeTrap s.cur { cause := .debug, code := code.toNat }) ∧
    exec (.sysc code) s = .next (s.takeTrap s.cur { cause := .sysc, code := code.toNat }))

/-- R24, R45, R228, R229, R235: taking a trap. It writes the trap record, and enters the S vector at S level, or, for an upcall
class with UPVEC set and UPACT clear, UPVEC with UPACT set and PRIV as it was (DEDUCED, log 55). Nothing else of the context changes. -/
def TrapTaken : Prop :=
  ∀ (s : State) (i : Inst) (t : Trap), t.cause ≠ .pageNotPresent →
    let c := s.ctx i
    let u := s.takeTrap i t
    let d := u.ctx i
    let sysc := t.cause = .sysc
    let dsb := c.dslot.isSome = true ∧ ¬sysc
    let up := (t.cause = .formulaCheck ∨ t.cause = .trap ∧ t.code < 128) ∧ c.upvec ≠ 0 ∧ c.upact = false
    (sysc → d.epc = (c.dslot).getD (c.pc + 4)) ∧ (¬sysc → d.epc = c.pc) ∧
    d.ecause = BitVec.ofNat 64 t.cause.code ∧ d.eaddr = t.eaddr ∧
    (dsb → d.btarget = c.dslot.getD 0) ∧ (¬dsb → d.btarget = 0) ∧
    (d.einfo.getLsbD 0 = true ↔ dsb) ∧ (d.einfo.getLsbD 1 = true ↔ t.fslot.isSome = true) ∧
    natBits d.einfo.toNat 2 4 = (t.fslot.getD 0) % 16 ∧ natBits d.einfo.toNat 6 8 = t.code % 256 ∧
    natBits d.einfo.toNat 14 3 = i.ctx.code ∧ (d.einfo.getLsbD 17 = true ↔ t.remote = true) ∧ d.einfo.toNat < 2 ^ 18 ∧
    (up → d.upact = true ∧ d.pc = c.upvec ∧ d.priv = c.priv ∧ d.upinfo = if t.cause = .trap then BitVec.ofNat 64 t.code else 0) ∧
    (¬up → d.priv = true ∧ d.pc = s.svec i ∧ d.upact = c.upact ∧ d.upinfo = c.upinfo) ∧
    d.ie = c.ie ∧ d.upvec = c.upvec ∧ d.dslot = none ∧ d.s = c.s ∧ d.v = c.v ∧ d.p = c.p ∧ d.d = c.d ∧ d.h = c.h ∧
    d.slots = c.slots ∧ d.fstat = c.fstat ∧ d.vovf = c.vovf ∧ d.ictr = c.ictr ∧ d.lc0 = c.lc0 ∧ d.lc1 = c.lc1 ∧ d.osc = c.osc ∧
    d.tag = c.tag ∧ d.act = c.act ∧ s.sameBytes u ∧ u.net = s.net ∧ s.sameOthers u i

/-- R229: the cause codes. -/
def CauseCodes : Prop :=
  [Cause.illegalInstruction, .illegalSequence, .loopDepth, .privilege, .bindingCycle, .boundWrite, .formulaCheck, .alignment,
    .kind, .protection, .pageNotPresent, .permission, .operandFormat, .formatMode, .watchdog, .machineCheck, .debug, .trap,
    .sysc, .interrupt].map Cause.code = (List.range 20).map (· + 1)

/-- R24, R45, R228, R229, R235: taking a trap. That an upcall taken at PRIV 1 leaves PRIV as it was is the model's choice (DEDUCED, log 55):
R45 has an upcall delivered at U. -/
def Obligations.TrapEntry : Prop := TrapTaken ∧ CauseCodes

/-- R45, R378: a page-not-present upcall first writes the fault record with S privilege, advances SEQ, and sets UPINFO to the
record's address; where the record cannot be written the S vector is entered with UPINFO as it was. -/
def Obligations.FaultRecords : Prop :=
  ∀ (s s1 : State) (i : Inst) (t : Trap), t.cause = .pageNotPresent →
    let c := s.ctx i
    let a := recordAddr i c.seq
    let u := s.takeTrap i t
    (∀ p, s.reachNow i false .as .store a 64 = (s1, .ok p) →
      let w (k : Nat) : Nat := natBits (u.readPlace p 64) (64 * k) 64
      let x := t.access
      w 0 = t.eaddr.toNat ∧ natBits (w 1) 0 8 = 0x0B ∧ natBits (w 1) 8 2 = 0 ∧ natBits (w 1) 10 3 = x.acc % 8 ∧
      natBits (w 1) 13 2 = Nat.log2 x.size % 4 ∧ natBits (w 1) 15 2 = i.ctx.code ∧ natBit (w 1) 17 = t.remote ∧
      natBits (w 1) 18 6 = x.lane % 64 ∧ natBits (w 1) 24 7 = (s.partOf i).getD 0 % 128 ∧ natBit (w 1) 31 = x.vec ∧
      w 1 / 2 ^ 32 = 0 ∧ w 2 = x.epc.toNat ∧ w 3 = x.data.toNat ∧ w 4 = x.opb.toNat ∧ w 5 = (s.pkg (pkgOf i.node)).gt.toNat ∧
      w 6 = c.seq.toNat ∧ w 7 = (absCoord i.node 0).toNat ∧ s1.sameBut u p 64 ∧ (u.ctx i).seq = c.seq + 1 ∧
      (u.ctx i).upinfo = BitVec.ofNat 64 a ∧ (u.ctx i).epc = c.pc ∧ (u.ctx i).eaddr = t.eaddr ∧
      (c.upvec ≠ 0 → c.upact = false → (u.ctx i).upact = true ∧ (u.ctx i).pc = c.upvec)) ∧
    ((∀ p, (s.reachNow i false .as .store a 64).2 ≠ .ok p) →
      (u.ctx i).upinfo = c.upinfo ∧ (u.ctx i).priv = true ∧ (u.ctx i).pc = s.svec i ∧ s.sameBytes u)

/-- R236, R237: ERET and UPRET resume at the saved address, before the saved target where DSB is set, and change no register but
PSTAT.PRIV and PSTAT.UPACT; a misaligned address traps with itself in EADDR. Whether others may be granted between the reads of UPRET is
the step's choice (DEDUCED, log 18). -/
def Obligations.Returns : Prop :=
  (∀ s : State, s.ready { priv := true, noSlot := true, noEnd := true } →
    let c := s.now
    let dsb := c.einfo.getLsbD 0
    (c.epc.toNat % 4 = 0 → (dsb = true → c.btarget.toNat % 4 = 0) → ∃ u, exec .eret s = .next u ∧ u.now.priv = false ∧
      u.now.pc = c.epc ∧ u.now.dslot = (if dsb then some c.btarget else none) ∧ u.now.upact = c.upact ∧
      (∀ r, u.now.sr r = c.sr r) ∧ u.now.epc = c.epc ∧ u.now.einfo = c.einfo ∧ s.sameBytes u ∧ u.net = s.net) ∧
    (c.epc.toNat % 4 ≠ 0 → exec .eret s = .next (s.takeTrap s.cur { cause := .alignment, eaddr := c.epc }))) ∧
  (∀ s : State, s.ready (branchUse [.s 0] []) →
    let c := s.now
    let dsb := c.einfo.getLsbD 0
    (c.upact = false → exec (.upret 0) s = .next (s.takeTrap s.cur { cause := .illegalSequence })) ∧
    (c.upact = true → c.epc.toNat % 4 = 0 → (dsb = true → c.btarget.toNat % 4 = 0) → ∃ u, exec (.upret 0) s = .next u ∧
      u.now.upact = false ∧ u.now.priv = c.priv ∧ u.now.pc = c.epc ∧
      u.now.dslot = (if dsb then some c.btarget else none) ∧ (∀ r, u.now.sr r = c.sr r) ∧ s.sameBytes u)) ∧
  (∀ (s t1 t2 t3 : State) (a : SReg) (pc info bt : Word), a ≠ 0 → s.whole → s.ready (branchUse [.s a] []) → s.now.upact = true →
    let v := s.now.sr a
    let reads (u w : State) (at_ x : Word) : Prop := u.readOk s.cur at_.toNat = true ∧ u.readNow s.cur at_.toNat = (w, .ok (x, false))
    v.toNat % 8 = 0 → reads s t1 (v + 0xEA0) pc → reads t1 t2 (v + 0xEB8) info → reads t2 t3 (v + 0xEC0) bt → pc.toNat % 4 = 0 →
    (info.getLsbD 0 = true → bt.toNat % 4 = 0) →
    ∃ u, exec (.upret a) s = .next u ∧ u.now.upact = false ∧ u.now.pc = pc ∧
      u.now.dslot = (if info.getLsbD 0 then some bt else none)) ∧
  (∀ (s t : State) (a : SReg) (ws : List Word) (x : Word) (e : Bool), a ≠ 0 → s.split = true → s.ready (branchUse [.s a] []) →
    s.now.upact = true → let v := s.now.sr a
    v.toNat % 8 = 0 → (s.now.begins ∧ ws = []) ∨ s.now.wait = .words ws [] →
    let q (k : Nat) : Word := v + ([0xEA0, 0xEB8, 0xEC0] : List Word).getD k 0
    s.readOk s.cur (q ws.length).toNat = true → s.readNow s.cur (q ws.length).toNat = (t, .ok (x, e)) →
    (ws.length < 2 → exec (.upret a) s = .next (t.waits (.words (ws ++ [x]) (if e then [q ws.length] else [])))) ∧
    (ws.length = 2 → e = false → let pc := ws.getD 0 0
      let info := ws.getD 1 0
      pc.toNat % 4 = 0 → (info.getLsbD 0 = true → x.toNat % 4 = 0) →
      ∃ u, exec (.upret a) s = .next u ∧ u.now.upact = false ∧ u.now.pc = pc ∧
        u.now.dslot = (if info.getLsbD 0 then some x else none)))

/-- R14 to R17: the registers that a context has. -/
def hasReg (k : CtxId) (r : Reg) : Prop :=
  match r with
  | .s n => n < 16 ∨ ((k = .main ∨ k = .work) ∧ n < 64)
  | .v n => (k = .main ∧ n < 32) ∨ (k = .work ∧ n < 16)
  | .p n => (k = .main ∨ k = .work) ∧ n < 8
  | .d n => k = .main ∧ n < 7
  | .h n => k = .main ∧ n < 16

/-- R15, R80, R81, R122, R230, R234: the checks before the effect, in order, of any instruction from what it uses, whatever it does: an
operand field that its encoding forbids, a context that does not have it or a register that its context lacks; privilege; position, in a
delay slot or at the end of an active loop body; a destination that a formula holds. -/
def Checks : Prop :=
  (∀ (x : Instr) (u : Use) (s : State) (k : State → Out),
    let c := s.now
    let i := s.cur
    let stops (t : Trap) : Prop := run x u s k = .next (s.takeTrap i t)
    let lacks := u.illegal = true ∨ i.ctx ∉ u.ctxs ∨ ∃ r, (r ∈ u.reads ∨ r ∈ u.writes) ∧ ¬hasReg i.ctx r
    let below := u.priv = true ∧ c.priv = false
    let last := (c.lc0 ≠ 0 ∧ c.lend0 = c.pc) ∨ (c.lc1 ≠ 0 ∧ c.lend1 = c.pc)
    let misplaced := (c.dslot.isSome = true ∧ (u.noSlot = true ∨ last)) ∨ (u.noEnd = true ∧ last)
    let bound := ∃ n, .s n ∈ u.writes ∧ ∃ j, j < 16 ∧ (c.slot j).valid = true ∧ (c.slot j).dest = n
    (lacks → stops { cause := .illegalInstruction, eaddr := if u.illegal then u.at_ else 0 }) ∧
    (¬lacks → below → stops { cause := .privilege }) ∧
    (¬lacks → ¬below → misplaced → stops { cause := .illegalSequence }) ∧
    (¬lacks → ¬below → ¬misplaced → bound → stops { cause := .boundWrite }) ∧
    (¬lacks → ¬below → ¬misplaced → ¬bound → s.precheck u = none)) ∧
  (∀ s : State, s.now.priv = false → exec .eret s = .next (s.takeTrap s.cur { cause := .privilege })) ∧
  (∀ (s : State) (a b : SReg), s.now.priv = false → hasReg s.cur.ctx (.s a) → hasReg s.cur.ctx (.s b) →
    exec (.shoot a b) s = .next (s.takeTrap s.cur { cause := .privilege }) ∧
    exec (.tlbil a b) s = .next (s.takeTrap s.cur { cause := .privilege })) ∧
  (∀ (s : State) (o : Rrr), ¬hasReg s.cur.ctx (.s o.d) →
    exec (.add o) s = .next (s.takeTrap s.cur { cause := .illegalInstruction })) ∧
  (∀ (s : State) (o : Rrr), (∀ r ∈ (useRrr o).reads, hasReg s.cur.ctx r) → hasReg s.cur.ctx (.s o.d) →
    (s.now.dslot.isSome && s.now.atEnd) = false → (s.now.boundSlot o.d).isSome = true →
    exec (.add o) s = .next (s.takeTrap s.cur { cause := .boundWrite }))

/-- R15, R81, R114, R122, R230, R234, R235: the traps by design and the checks before the effect. -/
def Obligations.TrapsAndChecks : Prop := TrapForms ∧ Checks

/-! ### Requests in flight -/

/-- The message of a number is sent, nothing before it holds it back, and it reaches `p`; `t` is the state after the home's own
translation (R132 to R134, R250, R371). -/
def reaches (s : State) (x : Msg) (t : State) (p : Place) : Prop :=
  s.msg x.id = some x ∧ s.enabled x = true ∧ s.arrive x = .at_ t p

/-- The answer of a request is on its way, and the request has retired at the node that holds its place (R149). -/
def answers (t : State) (x : Msg) (p : Place) (data : Nat) (flags : BitVec 5) (bad : Bool) : State :=
  (t.modMsg x.id fun m => { m with phase := .ok data flags bad }).retired p.node x.part x.tag

/-- R32, R33, R140, R141, R145: what a unit does with a load, a store, an atomic and an FE request that reaches it. -/
def RequestsPerformed : Prop :=
  ∀ (s t : State) (x : Msg) (p : Place), reaches s x t p →
    (∀ n, x.req = .load n → exec (.memoryRequest x.id) s = .next (answers t x p (t.readPlace p n) 0 (t.bad p))) ∧
    (∀ n d, x.req = .store n d →
      exec (.memoryRequest x.id) s = .next (answers (t.writePlace p n d.toNat) x p 0 0 (t.bad p))) ∧
    (∀ f n b c rm env, x.req = .atom f n b c rm env →
      let old := t.readPlace p n
      let r := atomVal f n old b.toNat c.toNat rm env
      exec (.atomicRequest x.id) s = .next (answers (t.writePlace p n r.1) x p old r.2 (t.bad p))) ∧
    (∀ op d, x.req = .fe op d →
      (∀ t' y, t.feTry p op d = some (t', y) →
        exec (.feRequest x.id) s =
          .next (answers ((t'.feb (some x.id) x.src x.va p op).serve p (t.net.length + 1)) x p y 0 (t.bad p))) ∧
      (t.feTry p op d = none →
        (t.waiterFree p = true → exec (.feRequest x.id) s = .next
          (({ t with stamp := t.stamp + 1 } : State).modMsg x.id fun y => { y with phase := .waiting t.stamp, at_ := some p })) ∧
        (t.waiterFree p = false →
          exec (.feRequest x.id) s = .next (t.modMsg x.id fun y => { y with phase := .retry })))) ∧
    (x.req = .prstat → ∀ a, p = .dram a →
      exec (.prstatServe x.id) s = .next (answers t x p (t.recStat (a / 256 * 256)) 0 false))

/-- R141, R148, R168, R203, R371: a flush probe that its target admits returns, and one that it refuses traps; a request that was
turned away is sent again, and a negative acknowledgement makes its issuer walk again. -/
def RequestsRepeated : Prop :=
  (∀ (s t : State) (x : Msg), s.msg x.id = some x → s.enabled x = true → x.req = .flush →
    (∀ p, s.arrive x = .at_ t p → ∃ u, exec (.flushProbe x.id) s = .next u ∧ u.net = t.net.filter (fun y => y.id != x.id) ∧
      (((t.img x.src.node x.part).ctx x.src.ctx).wait = .flush x.id →
        ((u.img x.src.node x.part).ctx x.src.ctx).wait = .ended)) ∧
    (∀ y f, s.arrive x = .ended t → t.msg x.id = some y → y.phase = .refused f →
      let w : State := { t with net := t.net.filter fun z => z.id != y.id }
      y.part = w.partOf y.src → (w.ctx y.src).wait = .flush y.id →
      exec (.flushProbe x.id) s = .next (w.takeTrap y.src f))) ∧
  (∀ (s : State) (x : Msg), s.msg x.id = some x → x.phase = .retry → s.up (pkgOf x.src.node) = true →
    let again := s.modMsg x.id fun y => { y with phase := .req }
    (∀ op d, x.req = .fe op d → s.awake x = true → exec (.waiterRetry x.id) s = .next again) ∧
    (∀ q, x.req = .parcel q → exec (.parcelResend x.id) s = .next again) ∧
    (∀ f k, x.req = .prld f k → exec (.prldRetry x.id) s = .next again)) ∧
  (∀ (s t : State) (x : Msg), s.msg x.id = some x → x.phase = .nack → s.up (pkgOf x.src.node) = true →
    let g := x.src.node
    let va := x.va.toNat
    (∀ leaf size, s.walkPage g x.part va (pageCheck x.req.need x.user x.ns) = (t, .ok (leaf, size)) →
      exec (.negativeAcknowledgement x.id) s =
        .next (t.modMsg x.id fun y => { y with phase := .req, tgt := .home (homeOf (pkgOf g) leaf va) })) ∧
    (∀ c code, s.walkPage g x.part va (pageCheck x.req.need x.user x.ns) = (t, .error (c, code)) →
      let r := t.retired x.targetNode x.part x.tag
      (x.req = .flush → let w := r.logKept g x.part (x.refusal c code)
        exec (.negativeAcknowledgement x.id) s = .next (w.1.flushed x (some w.2))) ∧
      (x.req ≠ .flush → c ≠ .machineCheck → exec (.negativeAcknowledgement x.id) s =
        .next (r.modMsg x.id fun y => { y with phase := .refused (y.refusal c code) })) ∧
      (x.req ≠ .flush → c = .machineCheck → exec (.negativeAcknowledgement x.id) s = .next (r.pendCheck x code))))

/-- R20, R92, R133, R135, R137, R233: an answer reaches its context. The reply of a scalar load writes its register, which is no
longer pending, and which is poisoned when the data had an uncorrectable error; an acknowledgement leaves OSC; a refusal of a
posted operation is deferred. -/
def AnswersArrive : Prop :=
  ∀ (s : State) (x : Msg), s.msg x.id = some x → x.orphan = false → (s.dbg x.src).wpc = [] → s.up (pkgOf x.src.node) = true →
    (s.node x.src.node).held x.src.node x.part ≠ .stored →
    let c := (s.img x.src.node x.part).ctx x.src.ctx
    let osc := if x.osc then c.osc - 1 else c.osc
    (∀ (r n data : Nat) (sx poison bad : Bool) (fl : BitVec 5) (g : Group), x.dst = .s r n sx → x.req = .load n → x.vec = false →
      x.phase = .ok data fl bad → c.groups.find? (fun y => y.id == x.grp) = some g → g.left = 1 → g.reg = some (.s r) →
      g.bad = [] → g.poison = none → r ≠ 0 → c.boundSlot r = none →
      ∃ u, exec (.replyArrival x.id poison) s = .next u ∧ u.net = s.net.filter (fun y => y.id != x.id) ∧
        let d := (u.img x.src.node x.part).ctx x.src.ctx
        d.sr r = extend n sx data ∧ (∀ k, k ≠ r → c.boundSlot k = none → d.sr k = c.sr k) ∧
        d.groups = c.groups.filter (fun y => y.id != g.id) ∧ d.osc = osc ∧ d.fstat = c.fstat ||| fl ∧ d.deferred = c.deferred ∧
        ((bad || poison) = true → (.s r, x.va) ∈ d.poison) ∧ ((bad || poison) = false → ∀ y ∈ d.poison, y.1 ≠ .s r) ∧
        s.sameBytes u) ∧
    (x.dst = .none → c.groups.find? (fun y => y.id == x.grp) = none →
      (∀ data fl bad, x.phase = .ok data fl bad → ∃ u, exec (.acknowledgement x.id) s = .next u ∧
        u.net = s.net.filter (fun y => y.id != x.id) ∧
        let d := (u.img x.src.node x.part).ctx x.src.ctx
        d.osc = osc ∧ d.fstat = c.fstat ||| fl ∧ d.deferred = c.deferred ∧ d.s = c.s ∧ s.sameBytes u) ∧
      (∀ f, x.phase = .refused f → ∃ u, exec (.acknowledgement x.id) s = .next u ∧
        let d := (u.img x.src.node x.part).ctx x.src.ctx
        d.osc = osc ∧ (f.cause ≠ .machineCheck → d.deferred = c.deferred ++ [f] ∧ d.mcheck = c.mcheck) ∧
        (f.cause = .machineCheck → d.deferred = c.deferred ∧ d.mcheck = c.mcheck ++ [f]) ∧ d.s = c.s ∧ s.sameBytes u))

/-- R20, R32, R33, R92, R133, R135, R137, R140, R141, R145, R148, R149, R168, R203, R233, R371: the events of requests in flight.
Which image a request reaches, and that a walk after a negative acknowledgement that meets an error leaves the request waiting, are
the model's choices (DEDUCED, logs 10 and 54). -/
def Obligations.MessageEvents : Prop := RequestsPerformed ∧ RequestsRepeated ∧ AnswersArrive

/-! ### Parcels, handlers and records -/

/-- R16, R167 to R170, R319: a parcel is queued, turned away or refused, once a handler that is due there has
started; the oldest one starts a handler at U level, with its payload in s1 and up, the sender in s9 and the time in s10. One that was
sent under another WTOP and says so raises the format-mode trap before the handler's first instruction. An overflowed parcel changes
bytes of its area alone (log 14). -/
def ParcelEvents : Prop :=
  (∀ (s : State) (x : Msg) (q : Parcel) (t off : Nat), s.msg x.id = some x → s.enabled x = true → x.req = .parcel q →
    x.tgt = .node t off → ((s.handlerDue t).isSome = true → exec (.parcelArrival x.id) s = .next s) ∧
    (s.handlerDue t = none → let ok := s.linked (pkgOf x.src.node) (pkgOf t) && s.admitsParcel t q
    let part := if isCaldera t then none else q.part
    let room := (s.img t part).accept (off == 0x100001) (isCaldera t) { q with came := (s.pkg (pkgOf t)).gt }
    (ok = false → exec (.parcelArrival x.id) s = .next (s.refuseMsg x .protection)) ∧
    (ok = true → room = none → exec (.parcelArrival x.id) s = .next (s.modMsg x.id fun y => { y with phase := .retry })) ∧
    (∀ m, ok = true → room = some m → ∃ u, exec (.parcelArrival x.id) s = .next u ∧
      (u.img t part).qL = m.qL ∧ (u.img t part).qLover = m.qLover ∧ (u.img t part).qH = m.qH ∧
      u.net = (s.modMsg x.id fun y => { y with phase := .ok 0 0 false }).net ∧
      (m.qLover.length ≤ (s.img t part).qLover.length → s.sameBytes u) ∧
      ∀ k, part = some k → s.sameBut u (.dram (s.areaOf t k 7 (2 ^ 23))) (2 ^ 23)))) ∧
  (∀ (s : State) (node : Nat) (k : CtxId) (q : Parcel) (m : Img), (s.live node).nextHandler = some (k, q, m) →
    (s.node node).gated = false → s.handlersHeld node k = false → s.up (pkgOf node) = true → q.pay.length ≤ 8 →
    let accepted := q.w8 = false ∨ q.wtop = ((s.live node).ctx k).wtop
    ∃ u, exec (.handlerStart node) s = .next u ∧
      (u.live node).qL = m.qL ∧ (u.live node).qLover = m.qLover ∧ (u.live node).qH = m.qH ∧
      let c := u.ctx ⟨node, k⟩
      (accepted → c.pc = q.entry ∧ c.priv = false) ∧
      (¬accepted → c.pc = u.svec ⟨node, k⟩ ∧ c.priv = true ∧ c.epc = q.entry ∧ c.ecause = 0x0E ∧ c.einfo.getLsbD 0 = false) ∧
      c.act = .handler q ∧ c.upact = false ∧ c.hwdog = m.hwdog.toNat ∧ c.hcount = 0 ∧
      (∀ j, j < q.pay.length → c.sr (j + 1) = q.pay.getD j 0) ∧ (∀ j, q.pay.length < j → j < 9 → c.sr j = 0) ∧
      c.sr 9 = q.sender ∧ c.sr 10 = q.sent ∧ (∀ j, 10 < j → c.sr j = 0) ∧ s.sameBytes u)

/-- R196, R199 to R201, R203, R204, R233: the record unit. `r` is the record's key, `g` its home. The bytes of a record are stated
while its home keeps all its sums on chip; beyond, the area of the sums lies where software put it (log 15). -/
def RecordEvents : Prop :=
  (∀ (s t : State) (x : Msg) (a : Nat), reaches s x t (.dram a) →
    let p := Place.dram a
    let g := p.node
    let r := a / 256 * 256
    t.foreign g r x = false →
    (∀ field step, x.req = .prld field step →
      let f := recField field
      (t.stepReady r step = true → ∃ bad, exec (.prldServe x.id) s =
        .next (answers t x p (t.dram.readNat (r + f.1) f.2) 0 bad)) ∧
      (t.stepReady r step = false → t.prldWaiters g < 256 → exec (.prldServe x.id) s =
        .next (({ t with stamp := t.stamp + 1 } : State).modMsg x.id fun y =>
          { y with phase := .waiting t.stamp, at_ := some (.dram r) })) ∧
      (t.stepReady r step = false → 256 ≤ t.prldWaiters g → exec (.prldServe x.id) s =
        .next (t.modMsg x.id fun y => { y with phase := .retry }))) ∧
    (t.busy r = false → t.heldAt r isUpdate = [] →
      (∀ field data, x.req = .prset field data → ∃ u, exec (.prsetServe x.id) s = .next u ∧
        (field < 3 → u.dram.readNat (r + (recField field).1) (recField field).2 = data.toNat % 256 ^ (recField field).2) ∧
        (3 ≤ field → u.exp r = natBits data.toNat 0 16 ∧ u.arr r = 0 ∧ u.epoch r = natBits data.toNat 32 32 ∧
          u.recWord r 1 = natBits data.toNat 64 16 ∧ u.recWord r 2 = natBits data.toNat 128 64 ∧
          u.dram.readNat (r + 192) 64 = 0 ∧ (u.recOf g r).sums = [])) ∧
      (∀ cls l bf16 ovf, x.req = .grad cls l bf16 ovf → t.exp r ≠ 0 → cls = natBits (t.recWord r 1) 6 2 →
        let scale := natSigned 8 (natBits (t.recWord r 1) 8 8)
        let sums := (addSums scale (if bf16 then .bf16 else .f32) (t.recOf g r).sums l).1
        let onChip := x.part = none ∨ ((t.node g).recs.filter fun e => !e.2.sums.isEmpty).length < 256
        (t.arr r + 1 < t.exp r → ∃ u, exec (.gradContribution x.id) s = .next u ∧ (u.recOf g r).sums = sums ∧
          (u.recOf g r).bound = x.part ∧ (u.node g).lock = (t.node g).lock ∧
          (onChip → u.arr r = t.arr r + 1 ∧ u.exp r = t.exp r ∧ u.epoch r = t.epoch r ∧ u.busy r = false)) ∧
        (t.arr r + 1 = t.exp r → (t.node g).lock.length < 64 → ∃ u, exec (.gradContribution x.id) s = .next u ∧
          (u.recOf g r).sums = sums ∧ (u.node g).lock = (t.node g).lock ++ [r] ∧
          (onChip → u.arr r = t.exp r ∧ u.epoch r = t.epoch r ∧ u.busy r = true ∧
            ∀ k, k < 16 → u.dram.readNat (r + 192 + 4 * k) 4 = intMod 32 (clampG (sums.getD k 0))))))) ∧
  (∀ (s : State) (node a : Nat) (rest : List Nat), (s.node node).lock = a :: rest → (s.ctx ⟨node, .work⟩).act = .idle →
    (s.node node).stop = none → s.up (pkgOf node) = true →
    let q := s.recOf node a
    ∃ u, exec (.recordRuleStart node) s = .next u ∧
      let c := u.ctx ⟨node, .work⟩
      c.act = .rule a false ∧ c.priv = false ∧ c.apart = q.bound ∧ c.tag = q.tag ∧
      c.sr 1 = q.va - BitVec.ofNat 64 (q.va.toNat % 256) ∧ c.sr 2 = BitVec.ofNat 64 (s.recWord a 0) ∧
      c.sr 3 = BitVec.ofNat 64 (s.recWord a 1) ∧ c.sr 4 = BitVec.ofNat 64 (s.recWord a 2) ∧ c.sr 63 = Config.serviceCode ∧
      c.vr 0 = BitVec.ofNat 512 (s.dram.readNat (a + 32) 64) ∧ c.vr 1 = BitVec.ofNat 512 (s.dram.readNat (a + 96) 64) ∧
      c.vr 2 = BitVec.ofNat 512 (s.dram.readNat (a + 160) 32) ∧ c.vr 3 = BitVec.ofNat 512 (s.dram.readNat (a + 192) 64) ∧
      (∀ r off n, (r, off, n) ∈ fromRecord →
        ((∃ w, (r, w) ∈ c.poison) ↔ ∃ k, k < n / 8 ∧ (a + off) / 8 + k ∈ s.dramBad)) ∧ (∀ y ∈ c.groups, y.reg = none) ∧
      c.pc = s.dramWord (pkgOf node) (((q.bound.map fun k => s.partWord (pkgOf node) k 6).getD 0).toNat + 8 * (s.recWord a 1 % 64)) ∧
      s.sameBytes u)

/-- R16, R167 to R170, R196, R199 to R201, R203, R204, R233: parcels, handlers and the record unit. A late reply's loss and what a
rule's context keeps are the model's choices (DEDUCED, logs 32 and 37), and so is what an overflow area and a poisoned word hold
(DESIGN CHOICE, logs 14 and 15). -/
def Obligations.ArrivalEvents : Prop := ParcelEvents ∧ RecordEvents

/-! ### Instruction boundaries and waits -/

/-- R25, R125, R135, R171, R231, R341, R387, R393: the conditions of a boundary that are due are taken: the trap and nothing else but the
condition, and the sampling mark of the instruction that would have issued. -/
def BoundaryEvents : Prop :=
  (∀ s : State, exec .illegalInstruction s = .next (s.takeTrap s.cur { cause := .illegalInstruction })) ∧
  (∀ (s : State) (i : Inst), (s.ctx i).atBoundary = true → (s.ctx i).changed ≠ [] → s.up (pkgOf i.node) = true →
    ∃ u, exec (.boundaryEvaluation i) s = .next u ∧ (u.ctx i).changed = [] ∧ (u.ctx i).pc = (s.ctx i).pc ∧
      (∀ n, (s.ctx i).boundSlot n = none → (u.ctx i).sr n = (s.ctx i).sr n) ∧ u.net = s.net ∧ s.sameBytes u ∧ s.sameOthers u i ∧
      ∀ l : List Nat, l.Nodup → (∀ k, k ∈ l ↔ k < 16 ∧ ((s.ctx i).slot k).valid = true ∧ ((s.ctx i).slot k).held = false) →
        inOrder (s.ctx i) l →
        let q := evalChain (s.live i.node) (s.ctx i).changed (s.ctx i) [] l
        (∀ r, (u.ctx i).sr r = q.1.sr r) ∧ (∀ k, (u.ctx i).slot k = q.1.slot k) ∧
        (u.ctx i).fcheck = (s.ctx i).fcheck.or (q.2.head?.map fun k => ⟨k, none⟩)) ∧
  (∀ (s : State) (i : Inst),
    (∀ t, s.due i = some (.deferred t) → exec (.deferredFault i) s =
      .next ((s.modCtx i fun c => { c with deferred := c.deferred.drop 1 }).boundaryTrap i t)) ∧
    (∀ t, s.due i = some (.mcheck t) → exec (.deferredFault i) s =
      .next ((s.modCtx i fun c => { c with mcheck := c.mcheck.drop 1 }).boundaryTrap i t)) ∧
    (∀ f, s.due i = some (.fcheck f) → exec (.formulaCheck i) s =
      .next ((s.modCtx i fun c => { c with fcheck := none }).boundaryTrap i
        { cause := .formulaCheck, eaddr := f.at?.getD 0, code := if f.at?.isSome then 0 else 1, fslot := some f.slot })) ∧
    (s.due i = some .watchdog → exec (.handlerWatchdog i) s =
      .next ((s.modCtx i fun c => { c with hwdog := 0 }).boundaryTrap i { cause := .watchdog })) ∧
    (∀ t, s.due i = some (.watch false t) → exec (.watchpointMatch i) s =
      .next ((s.modCtx i fun c => { c with watch := c.watch.erase (false, t) }).boundaryTrap i t)) ∧
    (∀ t, s.due i = some (.watch true t) → ∃ u, exec (.watchpointMatch i) s = .next u ∧
      (u.ctx i).watch = (s.ctx i).watch.erase (true, t) ∧
      (u.node i.node).stop.isSome = true ∧ (u.ctx i).pc = (s.ctx i).pc ∧ s.sameBytes u)) ∧
  (∀ (s : State) (g k : Nat), s.irqOf g = some k →
    let i : Inst := ⟨g, .main⟩
    let keep (l : List Nat) : List Nat := l.filter fun q => some q != (s.live g).part
    ((s.node g).gated = true → ((s.node g).waking = true → exec (.interrupt g) s = .next s) ∧
      ((s.node g).waking = false → exec (.interrupt g) s =
        .next (s.modNode g fun n => { n with waking := true, wakeAt := (s.pkg (pkgOf g)).gt.toNat + 2000 }))) ∧
    ((s.node g).gated = false → (s.ctx i).act = .idle → (s.node g).stop = none → s.up (pkgOf g) = true →
      ∃ u, exec (.interrupt g) s = .next u ∧ (u.ctx i).act = .irq ∧ (u.ctx i).priv = true ∧ (u.ctx i).pc = s.svec i ∧
        (u.ctx i).epc = 0 ∧ (u.ctx i).ecause = 0x14 ∧ natBits (u.ctx i).einfo.toNat 6 8 = k ∧
        (u.node g).irq0 = (if k = 0 then keep (s.node g).irq0 else (s.node g).irq0) ∧
        (u.node g).irq1 = (if k = 0 then (s.node g).irq1 else keep (s.node g).irq1) ∧ s.sameBytes u) ∧
    ((s.node g).gated = false → (s.ctx i).act ≠ .idle → s.due i = some (.interrupt k) →
      exec (.interrupt g) s = .next ((s.clearIrq g k).boundaryTrap i { cause := .interrupt, code := k }))) ∧
  ∀ (s : State) (i : Inst) (t : Trap),
    ((s.node i.node).mark = some (i, (s.ctx i).pc) →
      s.boundaryTrap i t = (s.modNode i.node fun n => { n with mark := none }).takeTrap i t) ∧
    ((s.node i.node).mark ≠ some (i, (s.ctx i).pc) → s.boundaryTrap i t = (s.modNode i.node fun n => n).takeTrap i t)

/-- R115, R149, R150, R238: the waits of ALIGN, QUIET, GBAR and WFI end. -/
def WaitEvents : Prop :=
  (∀ (s : State) (i : Inst),
    let ended := s.modCtx i fun c => { c with wait := .ended }
    s.up (pkgOf i.node) = true →
    (∀ pc n since, (s.ctx i).wait = .align pc n since → since + 64 * (n + 1) ≤ (s.node i.node).cycle.toNat →
      exec (.alignTimeout i) s = .next ended) ∧
    (∀ d, (s.ctx i).wait = .wfi d → ∃ u, exec (.wfiWake i) s = .next u ∧ (u.ctx i).wait = .ended ∧
      (u.ctx i).pc = (s.ctx i).pc ∧ (u.ctx i).s = (s.ctx i).s ∧ s.sameBytes u ∧ s.sameOthers u i) ∧
    (∀ sc tag last, (s.ctx i).wait = .quiet sc tag last →
      let sum (f : Node → Table Nat) : Nat := ((s.waveNodes i.node sc).map fun t => Table.get 0 (f (s.node t)) (tagKey (s.partOf i) tag)).sum
      (sum (·.sent) = sum (·.retired) → last = some (sum (·.sent), sum (·.retired)) → exec (.quietWave i) s = .next ended) ∧
      (sum (·.sent) ≠ sum (·.retired) ∨ last ≠ some (sum (·.sent), sum (·.retired)) → exec (.quietWave i) s =
        .next (s.modCtx i fun c => { c with wait := .quiet sc tag (some (sum (·.sent), sum (·.retired))) })))) ∧
  (∀ (s : State) (g id k : Nat) (sc : Scope) (l : Launch),
    let i : Inst := ⟨g, .main⟩
    let p := pkgOf g
    (s.ctx i).wait = .gbar sc → (s.ctx i).act = .grain id k → s.launch p id = some l → (k, .on g) ∈ l.grains →
    (s.live g).part = some l.part → isCaldera g = false → p ∈ s.span p l.part → s.up p = true →
    (∀ q ∈ (if sc = .dom then s.sharers p l else [p]), ∃ y, s.launch q id = some y ∧ s.gbarReady q y sc g = true) →
    ∃ u, exec (.gbarComplete i) s = .next u ∧ (u.ctx i).wait = .ended ∧ (u.ctx i).pc = (s.ctx i).pc ∧ (u.ctx i).s = (s.ctx i).s ∧
      s.sameBytes u)

/-- R25, R79, R115, R125, R135, R149, R150, R171, R231, R238, R341, R393: the events of an instruction boundary. That a wave reads
all counts at one instant, source 0 comes first, a watchdog fires once, and GBAR at DOMAIN asks the packages that have a share of
the launch are the model's choices (DESIGN CHOICE, log 12; DEDUCED, logs 38, 39, 43 and 51). -/
def Obligations.BoundaryAndWaitEvents : Prop := BoundaryEvents ∧ WaitEvents

/-! ### Channels, the matrix unit and gating -/

/-- R152 to R154, R157, R233, R247: a channel reads a group of at most 64 bytes in ascending order and writes it in a grant of its own,
by which FILL of a handle tied to it advances, completes, or stops with a fault. The sub-cause of a machine-check that stops it, that of
R233, is the model's choice (DESIGN CHOICE, log 22). -/
def ChannelEvents : Prop :=
  (∀ (s t : State) (g : Nat) (ch : Fin 4), s.nextGroup g ch = .moved t → exec (.channelGroup g ch) s = .next t) ∧
  (∀ (s t : State) (g : Nat) (ch : Fin 4) (ctx : CtxId) (user : Bool) (after n : Nat) (ring : Option Nat) (rest : List ChanItem)
    (pc dst src : Word),
    let k := (s.live g).chan ch
    let part := (s.live g).part
    let at_ (v : Word) (j : Nat) : Place := .spm g part (v.toNat % 2 ^ 20 + k.prog + j)
    let m := min 64 (n - k.prog)
    let k' := (t.live g).chan ch
    k.queue = .entry (.bytes dst src .loc n) ctx user after ring pc :: rest → s.nextGroup g ch = .moved t →
    (k.buf = none → src.toNat % 2 ^ 20 + n ≤ 2 ^ 20 → ∃ bs, k'.buf = some bs ∧ bs.length = m ∧
      (∀ j, j < m → bs.getD j 0 = s.readPlace (at_ src j) 1) ∧ k'.prog = k.prog ∧ k'.wp = k.wp ∧ s.sameBytes t) ∧
    (∀ bs, k.buf = some bs → bs.length = m → dst.toNat % 2 ^ 20 + n ≤ 2 ^ 20 →
      (∀ j, j < m → t.readPlace (at_ dst j) 1 = bs.getD j 0 % 256) ∧ s.sameBut t (at_ dst 0) m ∧ s.sameFull t ∧ k'.buf = none ∧
      k'.prog = k.prog + m ∧ k'.wp = k.wp + BitVec.ofNat 64 m)) ∧
  (∀ (s t : State) (g h : Nat) (ch : Fin 4) (x : Xfer) (ctx : CtxId) (user : Bool) (after : Nat) (ring : Option Nat)
    (pc : Word) (rest : List ChanItem) (bs : List Nat), h < 16 →
    let k := (s.live g).chan ch
    let n := min 64 (xferTotal x - k.prog)
    k.queue = .entry x ctx user after ring pc :: rest → k.buf = some bs → s.nextGroup g ch = .moved t →
    let v := ((s.live g).main.hr h).toNat
    let w := ((t.live g).main.hr h).toNat
    let size := 2 ^ natBits v 73 4
    let cnt := natBits v 77 9
    let filled (v : Nat) : Nat := (natBits v 102 16 + 2 ^ 16 - natBits v 86 16) % 2 ^ 16
    let part (m : Img) : Nat := Table.get 0 m.main.part h
    (natBit v 121 = true → natBits v 118 3 = ch.val + 4 → part (s.live g) < size → filled v ≤ cnt →
      filled w = min cnt (filled v + (part (s.live g) + n) / size) ∧ natBits w 0 102 = natBits v 0 102 ∧
      natBits w 118 10 = natBits v 118 10 ∧ part (t.live g) = (part (s.live g) + n) % size ∧
      (w ≠ v → Src.fill h ∈ (t.live g).main.changed)) ∧
    (natBit v 121 = false ∨ natBits v 118 3 ≠ ch.val + 4 → w = v ∧ part (t.live g) = part (s.live g))) ∧
  (∀ (s : State) (g : Nat) (ch : Fin 4) (x : Xfer) (ctx : CtxId) (user : Bool) (after : Nat) (ring : Option Nat)
    (pc : Word) (rest : List ChanItem),
    let k := (s.live g).chan ch
    k.queue = .entry x ctx user after ring pc :: rest →
    (k.stopped = none → k.prog = xferTotal x → s.up (pkgOf g) = true → (∀ id m, .join id m ∉ rest) →
      ∃ u, exec (.channelComplete g ch) s = .next u ∧
      ((u.live g).chan ch).queue = rest ∧ ((u.live g).chan ch).prog = 0 ∧ s.sameBytes u) ∧
    (∀ t f, s.nextGroup g ch = .fault t f → ∃ u, exec (.channelFault g ch false) s = .next u ∧
      ((u.live g).chan ch).stopped = some { f with logged := decide (f.cause = .machineCheck) } ∧
      ((u.live g).chan ch).queue = k.queue ∧ s.sameBytes u) ∧
    (∀ t, s.nextGroup g ch = .moved t →
      (k.buf = none → ∃ u v, exec (.channelFault g ch true) s = .next u ∧
        ((u.live g).chan ch).stopped = some { chanFault ch pc false .machineCheck 2 false v with logged := true } ∧
        (((s.pkg (pkgOf g)).dieBuf.filter fun e => e.die == dieOf g).length < 64 → locOf g ≠ 2047 →
          ∃ e ∈ (u.pkg (pkgOf g)).dieBuf, e.die = dieOf g ∧ e.cls = 3 ∧ e.addr = v) ∧ s.sameBytes u) ∧
      (k.buf ≠ none → exec (.channelFault g ch true) s = .next s)))

/-- What a reading member of a gang may take for an element: the code that its storage held at the start, or the one that it holds now
(R191). `j` is the member's place; A(i, k) and B(k, n). -/
def mayReadA (m : Img) (x : Gmma) (a : List Nat) (j i k v : Nat) : Prop :=
  let n := 64 / 2 ^ x.gangw
  v = a.getD (i * n + k % n) 0 ∨ v = x.code m x.a x.aOrd i (j * n + k % n)
def mayReadB (m : Img) (x : Gmma) (b : List Nat) (k n v : Nat) : Prop := v = b.getD (k * 64 + n) 0 ∨ v = x.code m x.b x.bOrd k n

/-- R36, R63, R186, R187, R189 to R191: the Chord of a gang closes when every member has arrived with one kind; with kinds that differ,
or a member that runs no grain of the launch, each arrived member's operation is abandoned for a deferred fault; a member starts in its
turn, with the codes that its operands hold; once all have started they read, each element old or new, and a member's tile takes the
results, its operation the flags of its dot products and of its own down-converted slice; it completes with them once its cycles have
passed. -/
def MatrixEvents : Prop :=
  (∀ (s : State) (g : Nat) (x : Gmma), (s.live g).gmma = some x → x.phase = .arrived → s.up (pkgOf g) = true →
    let gang := gangOf g x.gangw
    gang.length = 1 ∨ s.strays g gang = false → (∀ n ∈ gang, (s.node n).stop = none) →
    (∀ n ∈ gang, ∃ y, s.chordOf g x.gangw n = some y ∧ y.phase = .arrived ∧ y.pair = x.pair) →
    ∃ u, exec (.chordClose g) s = .next u ∧ ∀ n ∈ gang, ∃ y z, (s.live n).gmma = some y ∧ (u.live n).gmma = some z ∧
      z = { y with phase := .closed ((s.node n).cycle.toNat + gangPos n y.gangw * y.gstag) }) ∧
  (∀ (s : State) (g : Nat) (x : Gmma), (s.live g).gmma = some x → x.phase = .arrived → s.up (pkgOf g) = true →
    let gang := gangOf g x.gangw
    (∀ n ∈ gang, (s.node n).stop = none) →
    let fails (u : State) (n : Nat) (y : Gmma) (c : Cause) (code : Nat) : Prop := (u.live n).gmma = none ∧
      ∃ t : Trap, t.cause = c ∧ t.code = code ∧ (u.ctx ⟨n, y.ctx⟩).deferred = (s.ctx ⟨n, y.ctx⟩).deferred ++ [t]
    (gang.length = 1 ∨ s.strays g gang = false → (∀ n ∈ gang, ∃ y, s.chordOf g x.gangw n = some y ∧ y.phase = .arrived) →
      (∃ n ∈ gang, ∀ y, s.chordOf g x.gangw n = some y → y.pair ≠ x.pair) →
      ∃ u, exec (.chordClose g) s = .next u ∧ s.sameBytes u ∧
        ∀ n ∈ gang, ∀ y, s.chordOf g x.gangw n = some y → fails u n y .operandFormat 1) ∧
    (1 < gang.length → (∀ l k, (s.live g).main.act = .grain l k → ∃ n ∈ gang, ∀ j, (s.live n).main.act ≠ .grain l j) →
      ∃ u, exec (.chordClose g) s = .next u ∧ s.sameBytes u ∧
        (∀ n ∈ gang, ∀ y, s.chordOf g x.gangw n = some y → y.phase = .arrived → fails u n y .illegalSequence 5) ∧
        ∀ n, (∀ y, s.chordOf g x.gangw n = some y → y.phase ≠ .arrived) → (u.live n).gmma = (s.live n).gmma)) ∧
  (∀ (s : State) (g start : Nat) (x : Gmma), (s.live g).gmma = some x → x.phase = .closed start →
    start ≤ (s.node g).cycle.toNat → s.up (pkgOf g) = true →
    (∀ n ∈ (gangOf g x.gangw).take (gangPos g x.gangw), ∀ y, (s.live n).gmma = some y → y.isClosed = false) →
    let n := 64 / 2 ^ x.gangw
    let stop := (s.node g).cycle.toNat + gmmaCycles x.pair
    ∃ a b, exec (.gmmaStart g) s =
        .next (s.modLive g fun m => { m with gmma := some { x with phase := .reading stop a b } }) ∧
      a.length = 64 * n ∧ b.length = 4096 ∧
      (∀ i k, i < 64 → k < n → a.getD (i * n + k) 0 = x.code (s.live g) x.a x.aOrd i (gangPos g x.gangw * n + k)) ∧
      (∀ k c, k < 64 → c < 64 → b.getD (k * 64 + c) 0 = x.code (s.live g) x.b x.bOrd k c)) ∧
  (∀ (s : State) (g w : Nat) (op : Nat → Gmma) (stop : Nat → Nat) (a b : Nat → List Nat), w ≤ 3 → s.up (pkgOf g) = true →
    let gang := gangOf g w
    let n := 64 / 2 ^ w
    g ∈ gang →
    (∀ t ∈ gang, (s.live t).gmma = some (op t) ∧ (op t).gangw = w ∧ (op t).phase = .reading (stop t) (a t) (b t) ∧
      (a t).length = 64 * n ∧ (b t).length = 4096) →
    ∃ (u : State) (ca cb : Nat → Nat → Nat → Nat) (fl : Nat → BitVec 5) (ovf : Nat → BitVec 4), exec (.gmmaStart g) s = .next u ∧
      (∀ q m, (∀ t ∈ gang, (Place.spm t (s.live t).part (tileRange (op t).tile (pairIs64 (op t).pair)).1).apart
        (tileRange (op t).tile (pairIs64 (op t).pair)).2 q m) → u.readPlace q m = s.readPlace q m) ∧ s.sameFull u ∧
      (∀ i, u.ctx i = s.ctx i) ∧ u.net = s.net ∧ ∀ t ∈ gang, let x := op t
        let f64 := pairIs64 x.pair
        let elemA (i k : Nat) : Rounded := let y := op (gang.getD (k / n) 0)
          y.taken y.a (i * 64 + k) (ca (gang.getD (k / n) 0) i k)
        let dot (i c : Nat) : Nat × FFlags := dotProduct x.pair x.renv (i * 64 + c) 4 ((s.live t).tileElem x.tile f64 i c)
          ((List.range 64).map fun k => some ((elemA i k).bits, (x.taken x.b (k * 64 + c) (cb t k c)).bits))
        let mine (k : Nat) : Prop := k / n = gangPos t w
        (∀ i k, i < 64 → k < 64 → mine k → mayReadA (s.live t) x (a t) (gangPos t w) i k (ca t i k)) ∧
        (∀ k c, k < 64 → c < 64 → mayReadB (s.live t) x (b t) k c (cb t k c)) ∧
        (u.live t).gmma = some { x with phase := .running (stop t) (fl t) (ovf t) } ∧
        (∀ i c, i < 64 → c < 64 → (u.live t).tileElem x.tile f64 i c = (dot i c).1 % 2 ^ (if f64 then 64 else 32)) ∧
        (∀ r, (fl t).getLsbD r = true ↔ (∃ i c, i < 64 ∧ c < 64 ∧ (dot i c).2.getLsbD r = true) ∨
          ∃ q i k, x.a = .acc q ∧ i < 64 ∧ k < 64 ∧ mine k ∧ (x.taken x.a (i * 64 + k) (ca t i k)).flags.getLsbD r = true) ∧
        (∀ r, (ovf t).getLsbD r = true ↔
          ∃ q i k, x.a = .acc q ∧ i < 64 ∧ k < 64 ∧ mine k ∧ (ovfBits q.val f64).getLsbD r = true ∧
            (x.taken x.a (i * 64 + k) (ca t i k)).ovf = true)) ∧
  (∀ (s : State) (g stop : Nat) (x : Gmma) (fl : BitVec 5) (ovf : BitVec 4), (s.live g).gmma = some x →
    x.phase = .running stop fl ovf → stop ≤ (s.node g).cycle.toNat → s.up (pkgOf g) = true →
    ∃ u, exec (.gmmaComplete g) s = .next u ∧ (u.live g).gmma = none ∧ (u.live g).ovf = (s.live g).ovf ||| ovf ∧
      (u.ctx ⟨g, x.ctx⟩).fstat = (s.ctx ⟨g, x.ctx⟩).fstat ||| fl ∧ (u.ctx ⟨g, x.ctx⟩).s = (s.ctx ⟨g, x.ctx⟩).s ∧ s.sameBytes u)

/-- R287, R375: a core that rests is gated; a woken one issues again, its route TLB empty if a shoot-down passed it. -/
def GatingEvents : Prop :=
  (∀ (s : State) (g : Nat), isCaldera g = false → s.up (pkgOf g) = true → (s.live g).rests = true → (s.node g).stop = none → s.irqOf g = none →
    ∃ u, exec (.coreGate g) s = .next u ∧ (u.node g).gated = true ∧ (u.node g).waking = false ∧ u.live g = s.live g ∧
      s.sameBytes u) ∧
  (∀ (s : State) (g : Nat), (s.node g).gated = true → (s.node g).waking = true → s.up (pkgOf g) = true →
    ∃ u, exec (.gatedCoreWake g) s = .next u ∧ (u.node g).gated = false ∧ (u.node g).marked = false ∧
      (u.node g).tlb = (if (s.node g).marked then [] else (s.node g).tlb) ∧ u.live g = s.live g ∧
      let p := pkgOf g
      ((∀ t ∈ coresOfCluster p (clusterOf g), (s.node t).gated = true) → Table.get [] (u.pkg p).l2 (clusterOf g) = []) ∧
      ((∃ t ∈ coresOfCluster p (clusterOf g), (s.node t).gated = false) → (u.pkg p).l2 = (s.pkg p).l2) ∧ s.sameBytes u)

/-- R36, R63, R152 to R154, R186, R187, R189 to R191, R233, R247, R287, R375: channels, the matrix unit and gating. That a group is
read whole and written whole, that a gang reads its operands at two instants and writes its tiles then, and which cores rest, are the
model's choices (DESIGN CHOICE, logs 22 and 30; DEDUCED, logs 40 and 52). -/
def Obligations.UnitEvents : Prop := ChannelEvents ∧ MatrixEvents ∧ GatingEvents

/-! ### The host link, partitions and the scheduler -/

/-- R339, R340, R342, R362: the host's register writes. A doorbell sets WP and leaves RP; an overrun marks the queue, enabled or not,
and clears EN. -/
def HostWrites : Prop :=
  (∀ (s : State) (p q : Nat) (v : BitVec 32), q < 65536 → (s.qdesc p q).at_ % 32 = 0 →
    let d := s.qdesc p q
    let overrun := 2 ^ d.log2n < (v.toNat + 2 ^ 32 - d.rp) % 2 ^ 32
    ∃ u, exec (.doorbell p q v) s = .next u ∧ (u.qdesc p q).wp = v.toNat ∧ (u.qdesc p q).rp = d.rp ∧
      (overrun → (u.qdesc p q).en = false) ∧ (¬overrun → (u.qdesc p q).en = d.en) ∧
      (overrun → (u.queue p q).bad = true) ∧
      (d.en = true → ¬overrun → v.toNat ≠ d.rp → (s.queue p q).slot = false → (u.queue p q).waiting.isSome = true)) ∧
  (∀ (s : State) (p : Nat) (v : Word),
    exec (.registerWrite p 0x10 v) s = .next (s.modPkg p fun k => { k with qtbase := v }) ∧
    exec (.registerWrite p 0x18 v) s = .next (s.modPkg p fun k => { k with ptbase := v }) ∧
    exec (.registerWrite p 0x20 v) s =
      .next (s.modPkg p fun k => { k with sched := v.getLsbD 0, defslice := natBits v.toNat 8 10 }) ∧
    ((s.pkg p).partBusy = none → 1 ≤ v.toNat % 8 → v.toNat % 8 ≤ 4 → exec (.registerWrite p 0x40 v) s =
      .next (s.modPkg p fun k => { k with partBusy := some (v.toNat % 8, natBits v.toNat 8 7) })) ∧
    ((s.pkg p).partBusy ≠ none → exec (.registerWrite p 0x40 v) s = .next (s.modPkg p fun k => { k with partResult := 4 })) ∧
    (∀ n, n < 16 → n ≠ p → natBit (s.pkg p).mask n = true → exec (.registerWrite p (0x200 + 8 * n) v) s =
      .next (s.modPkg p fun k => { k with lroute := Table.set 0 k.lroute n (v.toNat % 256) }))) ∧
  (∀ (s : State) (p t off : Nat) (v : Word), let part := natBits v.toNat 0 7
    2 ^ 63 ≤ v.toNat → natBits v.toNat 61 2 = 0 → s.coord (p * 2048 + 2047) v.toNat = some (.far t off) →
    isCaldera t = false → t ∈ s.coresOf (pkgOf t) part →
    ∃ u, exec (.hostint p v) s = .next u ∧ part ∈ (u.node t).irq0 ∧ u.live t = s.live t ∧ s.sameBytes u)

/-- R44, R353, R354, R360, R361: the partition commands that run; a stream that does not decode leaves the partition stored, is logged,
and leaves RESIDE running. -/
def PartitionCommands : Prop :=
  ∀ (s : State) (p part : Nat),
    let free (u : State) : Prop := (u.pkg p).partBusy = some (0, part) ∧ (u.pkg p).partResult = 0
    ((s.pkg p).partBusy = some (1, part) → s.partValid p part = false → s.descOk p part = true → s.overlapped p part = false →
      (s.pkg p).ptbase.toNat % 256 = 0 →
      ∃ u, exec (.alloc p part) s = .next u ∧ free u ∧ u.partValid p part = true ∧
        ∀ g ∈ s.coresOf p part, ({ part := some part } : Img) ∈ (u.node g).stored) ∧
    ((s.pkg p).partBusy = some (2, part) → s.partValid p part = true → s.queuesOn p part = false →
      (s.pkg p).ptbase.toNat % 256 = 0 →
      ∃ u, exec (.free p part) s = .next u ∧ free u ∧ u.partValid p part = false ∧ (∀ l ∈ (u.pkg p).launches, l.part ≠ part) ∧
        ∀ g ∈ s.coresOf p part, (u.live g).part ≠ some part ∧ (∀ m ∈ (u.node g).shadows ++ (u.node g).stored, m.part ≠ some part) ∧
          part ∉ (u.node g).irq0 ∧ part ∉ (u.node g).irq1) ∧
    ((s.pkg p).partBusy = some (3, part) → s.partValid p part = true →
      ((∀ g ∈ s.coresOf p part, (s.node g).shadows.length < 2 ∧ (∃ m ∈ (s.node g).stored, m.part = some part) ∧
          (s.streamIn g (findImg (s.node g).stored (some part))).isSome = true) →
        ∃ u, exec (.reside p part) s = .next u ∧ free u ∧ u.dram = s.dram ∧ ∀ g ∈ s.coresOf p part, ∃ m,
          s.streamIn g (findImg (s.node g).stored (some part)) = some m ∧ (u.node g).shadows = m :: (s.node g).shadows ∧
          ∀ m ∈ (u.node g).stored, m.part ≠ some part) ∧
      ((∃ g ∈ s.coresOf p part, (∃ m ∈ (s.node g).stored, m.part = some part) ∧
          s.streamIn g (findImg (s.node g).stored (some part)) = none) →
        ∃ u, exec (.reside p part) s = .next u ∧ (u.pkg p).partBusy = some (3, part) ∧ u.nodes = s.nodes ∧ s.sameBytes u ∧
          ((u.pkg p).dieBuf ≠ (s.pkg p).dieBuf ∨ (s.pkg p).lost < (u.pkg p).lost))) ∧
    ((s.pkg p).partBusy = some (4, part) → s.partValid p part = true →
      ∃ u, exec (.store p part) s = .next u ∧ free u ∧ ∀ g ∈ s.coresOf p part, (∃ m ∈ (s.node g).shadows, m.part = some part) →
        findImg (s.node g).shadows (some part) ∈ (u.node g).stored ∧ ∀ m ∈ (u.node g).shadows, m.part ≠ some part) ∧
    ((s.pkg p).partBusy = some (0, part) →
      exec (.partcmdComplete p) s = .next (s.modPkg p fun k => { k with partBusy := none }))

/-- R354: the partition commands that are refused, by the code that RESULT takes; nothing else changes. -/
def CommandsRefused : Prop :=
  ∀ (s : State) (p part : Nat),
    let refused (op : Nat) (x : Instr) (code : Nat) : Prop := (s.pkg p).partBusy = some (op, part) →
      ∃ u, exec x s = .next u ∧ (u.pkg p).partBusy = some (0, part) ∧ (u.pkg p).partResult = code ∧ u.nodes = s.nodes ∧
        (u.pkg p).launches = (s.pkg p).launches ∧ s.sameBytes u
    let valid := s.partValid p part
    (valid = true → refused 1 (.alloc p part) 5) ∧ (valid = false → s.descOk p part = false → refused 1 (.alloc p part) 1) ∧
    (valid = false → s.descOk p part = true → s.overlapped p part = true → refused 1 (.alloc p part) 2) ∧
    (valid = false → refused 2 (.free p part) 1) ∧ (valid = true → s.queuesOn p part = true → refused 2 (.free p part) 3) ∧
    (valid = false → refused 3 (.reside p part) 1 ∧ refused 4 (.store p part) 1)

/-- R358, R359: the words that streaming an image out writes, below the coded stream: the context blocks, the core-scope registers, the
record of each instance with what it waits for, and the zero areas. Nothing outside the area's 1 MiB changes. -/
def ImageAreas : Prop :=
  ∀ (s : State) (g part : Nat) (m : Img), m.part = some part →
    let u := s.streamOut g m
    let a := s.imageAt g part
    let w (off : Nat) : Nat := u.dram.readNat (a + off) 8
    let names : List CtxId := [.main, .work, .msgL, .msgH]
    (∀ n k, n < 4 → k < 512 → let x := names.getD n .main
      w (0x1000 * n + 8 * k) = (blockWord s ⟨g, x⟩ (m.ctx x) k).toNat) ∧
    w 0x4000 = m.gangw.toNat ∧ w 0x4008 = m.gstag.toNat ∧ w 0x4010 = m.qspill % 2 ^ 64 ∧ w 0x4018 = m.stealwin % 2 ^ 64 ∧
    w 0x4020 = m.hwdog.toNat ∧ w 0x4028 = m.vent.length % 2 ^ 64 ∧ w 0x4030 = m.npool.toNat ∧ w 0x4038 = m.nfreehd.toNat ∧
    (∀ j, j < 4 → w (0x4040 + 8 * j) = (m.chan j).wp.toNat) ∧
    (∀ j, j < 16 → w (0x4060 + 8 * j) = (Table.get 0 m.prb j).toNat ∧ w (0x40E0 + 8 * j) = (Table.get 0 m.prl j).toNat) ∧
    w 0x4160 % 16 = m.stealStart % 4 ∧ w 0x4160 / 16 = m.ovf.toNat ∧
    (∀ n, n < 4 → let x := names.getD n .main
      let c := m.ctx x
      let at_ (off : Nat) : Nat := w (0x4200 + 0x100 * n + off)
      at_ 0 = c.pc.toNat ∧
      (c.wait = .hwait → at_ 8 % 32 = 2) ∧ (c.wait = .hspace → at_ 8 % 32 = 3) ∧ (c.wait = .gfence → at_ 8 % 32 = 4) ∧
      (∀ sc, c.wait = .gbar sc → at_ 8 % 32 = 20) ∧ (∀ sc t l, c.wait = .quiet sc t l → at_ 8 = if t then 37 else 5) ∧
      (∀ d, c.wait = .wfi d → at_ 8 % 32 = 8) ∧
      (∀ j, j < 64 → (natBit (at_ 0x10) j = true ↔ ∃ y ∈ c.groups, y.reg = some (.s j))) ∧
      (∀ j, j < 32 → (natBit (at_ 0x18) j = true ↔ ∃ y ∈ c.groups, y.reg = some (.v j))) ∧
      (∀ j, j < 8 → (natBit (at_ 0x18) (32 + j) = true ↔ ∃ y ∈ c.groups, y.reg = some (.p j))) ∧
      at_ 0x20 = c.seq.toNat ∧
      (∀ y : Gmma, m.gmma = some y → y.ctx = x → y.phase = .arrived → natBit (at_ 0x28) 63 = true ∧
        natBits (at_ 0x28) 0 2 = y.tile.val % 4 ∧ natBits (at_ 0x28) 2 2 = y.gangw % 4 ∧ natBits (at_ 0x28) 4 4 = y.gstag % 16 ∧
        natBits (at_ 0x28) 8 3 = y.pair.codes.1.val ∧ natBits (at_ 0x28) 11 3 = y.pair.codes.2.1.val ∧
        natBits (at_ 0x28) 14 3 = y.pair.codes.2.2.val ∧ at_ 0x30 = srcWord y.a y.aOrd % 2 ^ 64 ∧ at_ 0x38 = srcWord y.b y.bOrd % 2 ^ 64 ∧
        at_ 0x40 = y.env.2.2.toNat % 2 ^ 64) ∧
      ((∀ y : Gmma, m.gmma = some y → y.ctx ≠ x ∨ y.phase ≠ .arrived) → ∀ k, 5 ≤ k → k < 9 → at_ (8 * k) = 0) ∧
      ∀ k, 9 ≤ k → k < 32 → at_ (8 * k) = 0) ∧
    (∀ k, 0x168 / 8 ≤ k → k < 0x200 / 8 ∨ 0x600 / 8 ≤ k ∧ k < 512 → w (0x4000 + 8 * k) = 0) ∧
    (∀ k, 0xC800 / 8 ≤ k → k < 0xE000 / 8 → w (8 * k) = 0) ∧
    s.sameBut u (.dram a) (2 ^ 20) ∧ s.sameFull u ∧ u.net = s.net ∧ u.nodes = s.nodes ∧ u.pkgs = s.pkgs

/-- R44, R358, R360, R361: STORE streams out the images of the partition's cores one after another, and what is streamed out streams in
again: an image of the same dirty regions gets every byte and every FE bit of them back, and keeps the rest. -/
def ImagesReturn : Prop :=
  (∀ (s : State) (p part : Nat), (s.pkg p).partBusy = some (4, part) → s.partValid p part = true →
    let one (t : State) (g : Nat) : State := if (t.node g).shadows.any fun m => m.part == some part then
        ((t.streamOut g (findImg (t.node g).shadows (some part))).modNode g fun n =>
            { n with stored := n.stored ++ [findImg (t.node g).shadows (some part)] }).modNode g fun n =>
          { n with shadows := n.shadows.filter fun m => m.part != some part }
      else t
    exec (.store p part) s = .next (((s.coresOf p part).foldl one s).partDone p part 0)) ∧
  (∀ (s : State) (g part : Nat) (m m' : Img), m.part = some part → m'.part = some part → m'.dirtyRegions = m.dirtyRegions →
    let u := s.streamOut g m
    u.imageAt g part = s.imageAt g part → ∃ x, u.streamIn g m' = some x ∧
      (∀ b, b / 4096 ∈ m.dirtyRegions → x.spm.read b = m.spm.read b ∧ x.fe.full (b / 8) = m.fe.full (b / 8)) ∧
      (∀ b, b / 4096 ∉ m.dirtyRegions → x.spm.read b = m'.spm.read b ∧ x.fe.full (b / 8) = m'.fe.full (b / 8)))

/-- R44, R339, R340, R342, R353, R354, R358 to R362: the events of the host link and of the partition commands. What a host write may
reach, and what a command does to images held elsewhere, are the model's choices (DESIGN CHOICE, logs 2 and 14; DEDUCED, log 41). -/
def Obligations.HostEvents : Prop := HostWrites ∧ PartitionCommands ∧ CommandsRefused ∧ ImageAreas ∧ ImagesReturn

/-- R360: whatever tokens the coder chooses, a coded region of 64 lines decodes to these lines, and the position behind it is that of
the next region. `k` numbers the coder's choices; `rd` gives the bytes of the stream. -/
def Obligations.CodedRegionsDecode : Prop :=
  ∀ (k pos : Nat) (ls : List (Nat × Nat)) (rd : Nat → Nat), ls.length = 64 → (∀ l ∈ ls, l.1 < 256 ∧ l.2 < 2 ^ 512) →
    let coded := codeLines 64 k none ls
    (∀ j, j < coded.length → rd (pos + j) = (coded.getD j 0).toNat) →
    coded.length ≤ 64 * 66 ∧ decodeLines rd 64 none 64 pos = some (ls, pos + coded.length)

/-- R343 to R348: what the scheduler does with the entry that is next in a ring. -/
def QueueEntries : Prop :=
  (∀ (s t : State) (p q : Nat) (d : QDesc) (w : List Nat), s.nextEntry p q = (t, some (d, some w)) →
    let e := entryOf d.rp w
    (4 < e.kind → exec (.queueEntryBadKind p q) s = .next (t.takeQ p q { e with code := some 5 })) ∧
    (entryBad w = false →
      (e.kind = 0 → exec (.queueNop p q) s = .next (t.takeQ p q { e with code := some 1 })) ∧
      (∀ t' x, e.kind = 2 → t.schedRead p d.part d.ns e.w2.toNat 1 = (t', some [x]) →
        (e.w3.toNat ≤ x → exec (.wait p q) s = .next (t'.takeQ p q { e with code := some 1 })) ∧
        (x < e.w3.toNat → exec (.wait p q) s = .next t')) ∧
      (e.kind = 3 → (t.queue p q).openBefore d.rp = [] → exec (.signal p q) s =
        .next ((t.schedWrite p d.part d.ns e.w2.toNat e.w3.toNat).takeQ p q { e with code := some 1 })) ∧
      (∀ t1 t2 r, e.kind = 1 → ((t.queue p q).open_.filterMap fun y => y.launch.bind (t.launch p)).all (t.dispatched p) = true →
        e.w2.toNat % 64 = 0 → t.schedRead p d.part d.ns e.w2.toNat 16 = (t1, some r) → t1.recordOk p d r = (t2, true) →
        ∃ u, exec (.launch p q) s = .next u ∧ ∃ l : Launch, (u.pkg p).launches = (t2.pkg p).launches ++ [l] ∧
          l.id = t2.nextId ∧ l.queue = q ∧ l.part = d.part ∧ l.entry = BitVec.ofNat 64 (r.getD 0 0) ∧
          l.data = BitVec.ofNat 64 (r.getD 1 0) ∧ l.arg = BitVec.ofNat 64 (r.getD 3 0) ∧ l.levels = recordLevels r ∧
          l.grains = []))) ∧
  (∀ (s t : State) (p q : Nat) (d : QDesc), s.nextEntry p q = (t, some (d, none)) →
    ∃ u, exec (.queueEntryBadKind p q) s = .next u ∧ (u.queue p q).bad = true)

/-- R343, R345, R346: slots, CANCEL, and the completion of an entry, of a LAUNCH once all its grains are done. -/
def QueueTurns : Prop :=
  (∀ (s : State) (p q : Nat), (s.pkg p).sched = true → s.firstWaiter p q = some q →
    let n := ((s.pkg p).queues.filter fun k => k.2.slot).length
    (n < 2048 → exec (.slotAssignment p q) s = .next (s.modQueue p q fun k => { k with slot := true, waiting := none })) ∧
    (2048 ≤ n → s.slotVictim p (s.qdesc p q).prio = none → s.waits4Slot p q = true → exec (.slotAssignment p q) s =
      .next (s.modQueue p q fun k => { k with waiting := k.waiting.or (some (s.pkg p).gt.toNat) })) ∧
    (∀ w, 2048 ≤ n → s.slotVictim p (s.qdesc p q).prio = some w → w ≠ q → ∃ u, exec (.slotAssignment p q) s = .next u ∧
      (u.queue p q).slot = true ∧ (u.queue p w).slot = false ∧ s.sameBytes u)) ∧
  (∀ (s t : State) (p q n : Nat) (w : List Nat),
    let d := s.qdesc p q
    let k := s.queue p q
    let e := entryOf n w
    let tag := natBits e.w2.toNat 0 16
    let done (u : State) (c : Nat) : Prop := ∃ x ∈ (u.queue p q).taken, x.pos = n ∧ x.kind = 4 ∧ x.code = some c
    (s.pkg p).sched = true → k.slot = true → d.ready = true → n ∈ d.visible → (∀ x ∈ k.taken, x.pos ≠ n) →
    s.ringEntry p d n = (t, some w) → e.kind = 4 → entryBad w = false →
    let found := k.open_.find? fun x => x.kind == 1 && x.tag == tag && x.code.isNone
    (found = none → (t.pendingLaunch p q tag d d.visible).2 = none → ∃ u, exec (.cancel p q n) s = .next u ∧ done u 7) ∧
    (∀ y, found = none → (t.pendingLaunch p q tag d d.visible).2 = some y → ∃ u, exec (.cancel p q n) s = .next u ∧ done u 2) ∧
    (∀ x l, found = some x → x.launch.bind (t.launch p) = some l →
      let started := ((t.copies p l).map fun y => y.grains.length).sum ≠ 0
      (¬started → ∃ u, exec (.cancel p q n) s = .next u ∧ done u 2 ∧
        ∀ r ∈ t.span p l.part, ∀ y ∈ (u.pkg r).launches, y.id ≠ l.id) ∧
      (started → natBit e.w2.toNat 16 = false → ∃ u, exec (.cancel p q n) s = .next u ∧ done u 3) ∧
      (started → natBit e.w2.toNat 16 = true → (∀ g ∈ t.runningOn p l, (t.img g (some l.part)).main.dslot = none) →
        ∃ u, exec (.cancel p q n) s = .next u ∧ done u 2))) ∧
  (∀ (s t : State) (p q n c : Nat) (e : QEntry) (a : Place),
    let d := s.qdesc p q
    (s.queue p q).open_.find? (fun x => x.pos == n) = some e → e.code = some c → e.launch = none → e.status ≠ 0 →
    e.status.toNat % 8 = 0 → s.schedPlace p d.part d.ns .store e.status.toNat = (t, some a) →
    a.apart 8 (.dram (dramKey p (d.at_ + 24))) 8 →
    ∃ u, exec (.entryCompletion p q n) s = .next u ∧ u.readPlace a 8 = c % 2 ^ 64 ∧
      (∀ x ∈ (u.queue p q).open_, x.pos ≠ n) ∧ (e.intr = true → (q, d.vec) ∈ (u.pkg p).msix)) ∧
  (∀ (s t : State) (p q n id : Nat) (e : QEntry) (l : Launch) (a : Place),
    let d := s.qdesc p q
    (s.queue p q).open_.find? (fun x => x.pos == n) = some e → e.code = none → e.launch = some id → s.launch p id = some l →
    (s.launchDone p l = false → exec (.entryCompletion p q n) s = .next s) ∧
    (s.launchDone p l = true → e.status ≠ 0 → e.status.toNat % 8 = 0 →
      s.schedPlace p d.part d.ns .store e.status.toNat = (t, some a) → a.apart 8 (.dram (dramKey p (d.at_ + 24))) 8 →
      ∃ u, exec (.entryCompletion p q n) s = .next u ∧
        ((∀ y ∈ s.copies p l, y.fault = false) → u.readPlace a 8 = 1) ∧ ((∃ y ∈ s.copies p l, y.fault = true) → u.readPlace a 8 = 4) ∧
        (∀ x ∈ (u.queue p q).open_, x.pos ≠ n) ∧ (e.intr = true → (q, d.vec) ∈ (u.pkg p).msix)))

/-- R349 to R352, R355, R356, R361, R363: placing grains, with and without a CLUSTER level, sharing a launch, slices, swaps, and the
partition that comes next, streamed in ahead of time. -/
def Placement : Prop :=
  (∀ (s : State) (p l n core : Nat) (x : Launch), s.launch p l = some x → pkgOf core = p → isCaldera core = false → n < x.total →
    (∀ g ∈ x.grains, g.1 ≠ n) → s.grainPkg p x n = p → core ∈ s.coresOf p x.part → x.unit? x.coreLevel (x.inst x.coreLevel n) = none →
    x.hasCluster = false → ((s.freeOf x.part (dieCores p (dieOf core))).filter (x.fits (s.coresOf p x.part) n)).head? = some core →
    ∃ u, exec (.grainPlacement p l n core) s = .next u ∧ (∃ y, u.launch p l = some y ∧ Table.get .unplaced y.grains n = .on core) ∧
      let c := u.ctx ⟨core, .main⟩
      c.act = .grain x.id n ∧ c.pc = x.entry ∧ c.sr 1 = x.arg ∧ c.sr 2 = BitVec.ofNat 64 n ∧
      (∀ k, 2 < k → c.sr k = 0) ∧ c.priv = false ∧ c.ie = true ∧ c.upvec = (s.ctx ⟨core, .main⟩).upvec ∧
      c.wait = .none ∧ c.dslot = none) ∧
  (∀ (s : State) (p l n core : Nat) (x : Launch) (y : List (Nat × Nat)), s.launch p l = some x → pkgOf core = p →
    isCaldera core = false → n < x.total → (∀ g ∈ x.grains, g.1 ≠ n) → s.grainPkg p x n = p → core ∈ s.coresOf p x.part →
    x.hasCluster = true → let i := x.coreLevel
    x.unit? i (x.inst i n) = none → x.inst i n % (x.levels[i]?.map (·.1)).getD 1 = 0 → n % x.size i = 0 →
    let cores := s.coresOf p x.part
    s.plan x cores (x.batch n) p (clusterOf core) = some y →
    (∀ k z, k < 32 → s.plan x cores (x.batch n) p (dieOf core * 32 + k) = some z → s.planCost y ≤ s.planCost z) →
    y.map (·.1) = x.batch n ∧
    y.map (·.2) = ((s.freeOf x.part (coresOfCluster p (clusterOf core))).filter fun c =>
      (x.batch n).all fun m => x.fits cores m c).take y.length ∧
    ∃ u, exec (.grainPlacement p l n core) s = .next u ∧ ∀ g ∈ y, (u.ctx ⟨g.2, .main⟩).act = .grain x.id g.1 ∧
      (u.ctx ⟨g.2, .main⟩).pc = x.entry ∧ ∃ w, u.launch p l = some w ∧ Table.get .unplaced w.grains g.1 = .on g.2) ∧
  (∀ (s : State) (p l dest : Nat) (x : Launch) (lv : Nat × Nat × Nat) (more : List (Nat × Nat × Nat)), s.launch p l = some x →
    x.levels = lv :: more → lv.2.1 ≤ 1 → dest ≠ p → dest ∈ s.span p x.part → dest ∉ x.shares → s.linked p dest = true →
    ∃ u, exec (.launchShare p l dest) s = .next u ∧
      (u.pkg dest).launches = (s.pkg dest).launches ++ [{ x with grains := [], units := [], shares := [] }] ∧
      ∃ y, u.launch p l = some y ∧ y.shares = x.shares ++ [dest]) ∧
  (∀ (s : State) (p part : Nat), (s.pkg p).sched = true → s.runs p part = true →
    let t := s.turn p part
    let now := (s.pkg p).gt.toNat
    let rival := ∃ q ∈ s.groupOf p part, q ≠ part ∧ ∃ b, s.partPrio p q = some b ∧ ∀ x, s.partPrio p part = some x → x ≤ b
    (t.warned = false → t.began + s.sliceNs p part ≤ now + 10000 → ∃ u, exec (.sliceWarning p part) s = .next u ∧
      (∀ g ∈ s.coresOf p part, part ∈ (u.node g).irq1) ∧ s.sameBytes u) ∧
    (t.began + s.sliceNs p part ≤ now →
      (rival → exec (.sliceEnd p part) s = .next (s.setTurn p part { t with spent := true })) ∧
      (¬rival → exec (.sliceEnd p part) s = .next (s.setTurn p part { began := now })))) ∧
  (∀ (s : State) (p part next b : Nat), s.partPrio p next = some b →
    (s.partPrio p part = none → s.yields p part next = true) ∧
    (∀ x, s.partPrio p part = some x →
      (s.yields p part next = true ↔ (8 ≤ b ∧ x % 8 < b - 8) ∨ (x ≤ b ∧ (s.turn p part).spent = true)))) ∧
  (∀ (s : State) (p part next : Nat), let cores := s.coresOf p next
    (s.pkg p).sched = true → s.up p = true → s.partValid p next = true → cores ≠ [] → (∀ g ∈ cores, (s.node g).stop = none) → part ≠ next →
    part ∈ s.groupOf p next → (∀ g ∈ cores, (s.live g).part = some part) →
    s.chooseLive p part (s.groupOf p next) = some next → s.yields p part next = true →
    (∀ g ∈ cores, (s.live g).haltable = true) → s.drained part cores = true →
    (∀ g ∈ cores, ∃ m ∈ (s.node g).shadows ++ (s.node g).stored, m.part = some next) →
    (∀ g ∈ cores, ∀ m ∈ (s.node g).stored, m.part = some next → (s.streamIn g m).isSome = true) →
    ∃ u, exec (.partitionSwap p part next) s = .next u ∧
      ∀ g ∈ cores, (u.live g).part = some next ∧ ∃ m ∈ (u.node g).shadows ++ (u.node g).stored, m.part = some part) ∧
  (∀ (s : State) (p part next : Nat), let cores := s.coresOf p next
    (s.pkg p).sched = true → s.up p = true → s.partValid p next = true → cores ≠ [] → (∀ g ∈ cores, (s.node g).stop = none) → part ≠ next →
    part ∈ s.groupOf p next → (∀ g ∈ cores, (s.live g).part = some part) →
    s.chooseLive p part (s.groupOf p next) = some next → s.yields p part next = false →
    ∃ u, exec (.partitionSwap p part next) s = .next u ∧ (∀ g ∈ cores, u.live g = s.live g) ∧
      ((∀ g ∈ cores, ∀ m ∈ (s.node g).stored, m.part = some next → (s.streamIn g m).isSome = true) →
        ∀ g ∈ cores, ∀ m ∈ (u.node g).stored, m.part ≠ some next))

/-- R343 to R352, R355, R356, R361, R363: the events of the scheduler. Unreadable rings, shares, which core takes a grain, what CANCEL
discards and what a swap drains are the model's choices (DEDUCED, logs 42 to 45). -/
def Obligations.SchedulerEvents : Prop := QueueEntries ∧ QueueTurns ∧ Placement

/-! ### Shoot-downs, Tephra and the debugger -/

/-- R242, R373 to R376, R389: each unit that holds translations drops the selected ones and acknowledges; a home cache waits while a
request to it travels or one that it has accepted inside the selector or inside an invalidated entry is open, and its record unit discards
what it holds of the partition's records there (with no contribution held back for want of a lock entry: such a one is then taken);
SHOOT ends when the last root of the span has every acknowledgement. -/
def ShootDowns : Prop :=
  ∀ (s : State) (p part : Nat) (x : Shoot), s.shootOf p part = some x →
    let gone (l : List TlbEntry) : Prop := ∀ e ∈ l, tlbSelected part x.size x.addr e = false
    (∀ c, c ∈ x.clusters → ∃ u y, exec (.shootCluster p part c) s = .next u ∧ u.shootOf p part = some y ∧
      (∀ d, d ∈ y.clusters ↔ d ∈ x.clusters ∧ d ≠ c) ∧
      (∀ g ∈ coresOfCluster p c, (s.node g).gated = true → (u.node g).marked = true) ∧
      (∀ g ∈ coresOfCluster p c, (s.node g).gated = false → (g, 0) ∈ y.mail ∧ gone (Table.get [] (u.pkg p).l2 c))) ∧
    (∀ g, x.mail.find? (fun e => e.1 == g) = some (g, 0) →
      (∀ m ∈ s.net, m.src.node = g → m.id < s.nextId → x.waitsFor m = false) →
      ∃ u y, exec (.shootMailbox p part g) s = .next u ∧ u.shootOf p part = some y ∧ (∀ e ∈ y.mail, e.1 ≠ g) ∧
        gone (u.node g).tlb) ∧
    (∀ h, h ∈ x.homes → (∀ m ∈ s.net, x.waitsFor m = false) →
      let inside (va : Nat) : Prop := ∃ e, e.hits part va = true ∧ ((h, e) ∈ x.gone ∨
        (e ∈ Table.get [] (s.pkg p).homes h ∧ tlbSelected part x.size x.addr e = true))
      let waits (m : Msg) : Prop := m.part = some part ∧ m.unperformed = true ∧ m.at_.isSome = true ∧ m.toHome p h = true ∧
        inside m.va.toNat
      ((∃ m ∈ s.net, waits m) → ∃ u y, exec (.shootHomeCache p part h) s = .next u ∧ u.shootOf p part = some y ∧ h ∈ y.homes) ∧
      ((∀ m ∈ s.net, ¬waits m) → ∃ u y, exec (.shootHomeCache p part h) s = .next u ∧
      u.shootOf p part = some y ∧ h ∉ y.homes ∧ gone (Table.get [] (u.pkg p).homes h) ∧
      (h < 64 → let g := nodeAt p (h / 16) 16 (h % 16)
        s.heldUpdates g = [] → let hit (r : Rec) : Prop := r.bound = some part ∧ (x.covers r.va.toNat = true ∨ inside r.va.toNat)
        gone (u.node g).tlb ∧ (∀ r ∈ (u.node g).recs, ¬hit r.2) ∧ (∀ r ∈ (s.node g).recs, ¬hit r.2 → r ∈ (u.node g).recs) ∧
        ∀ a, a ∈ (u.node g).lock ↔ a ∈ (s.node g).lock ∧ ¬hit (s.recOf g a)) ∧
      ((h < 64 → s.heldUpdates (nodeAt p (h / 16) 16 (h % 16)) = []) → s.sameBytes u))) ∧
    (∀ h m, m ∈ s.net → x.waitsFor m = true → m.toHome p h = true → m.at_ = none → exec (.shootHomeCache p part h) s = .next s) ∧
    (∃ u y, exec (.shootTephra p part) s = .next u ∧ u.shootOf p part = some y ∧ y.tephra = false ∧
      gone (u.pkg p).tephra.pages) ∧
    (x.clusters = [] → x.mail = [] → x.homes = [] → x.tephra = false → ∃ u, exec (.shootAcknowledgement p part) s = .next u ∧
      u.shootOf p part = none ∧
      (s.span (pkgOf x.issuer.node) part = [p] →
        ((s.img x.issuer.node x.ipart).ctx x.issuer.ctx).wait = .shoot part →
        ((u.img x.issuer.node x.ipart).ctx x.issuer.ctx).wait = .ended))

/-- R384, R385, R388: a record enters the 2,048 in flight, or is dropped and counted; the oldest in flight is written to the buffer or
dropped, and a LOSS record tells the number dropped before the next one that is written. -/
def TraceLoss : Prop :=
  (∀ (s : State) (i : Inst) (ty : Nat) (w1 w2 w3 : Word), let p := pkgOf i.node
    let a := (s.pkg p).tephra
    let b := ((s.emit i ty w1 w2 w3).pkg p).tephra
    (a.tctl.getLsbD 0 = false → b = a) ∧
    (a.tctl.getLsbD 0 = true → a.flight.length < 2048 → b = { a with flight := a.flight ++ [⟨traceWord s i ty, w1, w2, w3⟩] }) ∧
    (a.tctl.getLsbD 0 = true → 2048 ≤ a.flight.length →
      b = { a with tloss := min (a.tloss + 1) (2 ^ 32 - 1), drops := a.drops + 1 })) ∧
  (∀ (s t : State) (p : Nat) (r : TraceRec) (rest : List TraceRec), let k := s.pkg p
    let next (n : Nat) : Nat := (n + 32) % (k.tephra.tsize * 4096)
    let taken : State := s.modPkg p fun k => { k with tephra := { k.tephra with flight := rest } }
    k.tephra.flight = r :: rest → natBits r.w0.toNat 0 8 ≠ 0 → (∀ x ∈ k.shoots, x.tephra = false) →
    (taken.tracePlace p = (t, none) → ∃ u, exec (.traceRecord p) s = .next u ∧ let b := (u.pkg p).tephra
      b.flight = rest ∧ b.tloss = min (k.tephra.tloss + 1) (2 ^ 32 - 1) ∧ b.drops = k.tephra.drops + 1 ∧ b.twp = next k.tephra.twp ∧
        s.sameBytes u) ∧
    (∀ a, taken.tracePlace p = (t, some a) → k.tephra.drops ≠ 0 →
      let loss : TraceRec := ⟨9, BitVec.ofNat 64 k.tephra.drops, k.gt, 0⟩
      let t' := (t.putRecord p loss (some a)).modPkg p fun k => { k with tephra := { k.tephra with drops := 0 } }
      (∀ b, (t'.tracePlace p).2 = some b → a.apart 32 b 32 → ∃ u, exec (.traceRecord p) s = .next u ∧
        u.readPlace a 32 = wordsNat [loss.w0, loss.w1, loss.w2, loss.w3] ∧ u.readPlace b 32 = wordsNat [r.w0, r.w1, r.w2, r.w3] ∧
        (u.pkg p).tephra.drops = 0 ∧ (u.pkg p).tephra.flight = rest ∧ (u.pkg p).tephra.twp = next (next k.tephra.twp)) ∧
      ((t'.tracePlace p).2 = none → ∃ u, exec (.traceRecord p) s = .next u ∧
        u.readPlace a 32 = wordsNat [loss.w0, loss.w1, loss.w2, loss.w3] ∧ (u.pkg p).tephra.drops = 1)))

/-- R383 to R389, R392: the trace buffer, SYNC records, sampling and monitors. -/
def TraceEvents : Prop :=
  (∀ (s t : State) (p : Nat) (r : TraceRec) (rest : List TraceRec) (a : Place), let k := s.pkg p
    k.tephra.flight = r :: rest → natBits r.w0.toNat 0 8 ≠ 0 → k.tephra.drops = 0 → (∀ x ∈ k.shoots, x.tephra = false) →
    (s.modPkg p fun k => { k with tephra := { k.tephra with flight := rest } }).tracePlace p = (t, some a) →
    ∃ u, exec (.traceRecord p) s = .next u ∧ u.readPlace a 32 = wordsNat [r.w0, r.w1, r.w2, r.w3] ∧
      (u.pkg p).tephra.flight = rest ∧ (u.pkg p).tephra.twp = (k.tephra.twp + 32) % (k.tephra.tsize * 4096)) ∧
  (∀ (s : State) (g : Nat), let n := s.node g
    let t := (s.pkg (pkgOf g)).tephra
    t.tctl.getLsbD 0 = true → n.clkOff = false → 2 ^ (min 10 (natBits t.tctl.toNat 8 4) + 10) ≤ (n.cycle - n.syncAt).toNat →
    ∃ u, exec (.periodicSync g) s = .next u ∧ (u.node g).syncAt = n.cycle ∧ s.sameBytes u ∧
      (t.flight.length < 2048 → ∃ r, (u.pkg (pkgOf g)).tephra.flight = t.flight ++ [r] ∧ r.w1 = n.cycle ∧
        r.w2 = (s.pkg (pkgOf g)).gt ∧ natBits r.w0.toNat 0 15 = 5)) ∧
  (∀ (s : State) (i : Inst), let n := s.node i.node
    let t := (s.pkg (pkgOf i.node)).tephra
    t.tctl.getLsbD 0 = true → t.tctl.getLsbD 1 = true → n.mark = none → t.sper - t.sper / 4 ≤ n.sample → (s.ctx i).act ≠ .idle →
    exec (.sampleMark i) s = .next (s.modNode i.node fun n => { n with mark := some (i, (s.ctx i).pc), sample := 0 })) ∧
  (∀ (s : State) (p k g v : Nat) (m : Monitor), (k, m) ∈ (s.pkg p).tephra.mons → monNode p m.ctl = some g →
    s.level g (natBits m.ctl.toNat 8 4) = some v → 1024 ≤ ((s.node g).cycle - m.last).toNat →
    ∃ u, exec (.monitorSample p) s = .next u ∧
      (k, { m.see v with last := (s.node g).cycle }) ∈ (u.pkg p).tephra.mons) ∧
  (∀ (s : State) (p : Nat) (secure : Bool) (v : Word), (s.pkg p).sessions = true → let t := (s.pkg p).tephra
    ∃ u, exec (.tctl p secure v) s = .next u ∧ let c := (u.pkg p).tephra.tctl
      c.getLsbD 0 = v.getLsbD 0 ∧ c.getLsbD 1 = v.getLsbD 1 ∧ c.getLsbD 3 = v.getLsbD 3 ∧
      c.getLsbD 2 = (if secure then v.getLsbD 2 else t.tctl.getLsbD 2) ∧
      natBits c.toNat 8 4 = natBits v.toNat 8 4 ∧ natBits c.toNat 16 7 = natBits v.toNat 16 7 ∧
      (v.getLsbD 0 = true → t.tctl.getLsbD 0 = false → (u.pkg p).tephra.twp = 0 ∧ ∀ g ∈ packageNodes p, (u.node g).delays = [])) ∧
  (∀ (s : State) (p n g : Nat) (secure : Bool) (v : Word), n < 16 → monNode p v = some g → s.session p secure g = true →
    ∃ u m, exec (.mon p secure n v) s = .next u ∧ Table.get {} (u.pkg p).tephra.mons n = m ∧ m.any = false ∧ m.bins = [] ∧
      natBits m.ctl.toNat 8 36 = natBits v.toNat 8 36 ∧ m.last = (s.node g).cycle)

/-- R340, R383, R392: what reads of the device's registers give: DEVID, a monitor's results, and zero for the state of a secure core in a
non-secure session. -/
def WindowReads : Prop :=
  (∀ (s : State) (p : Nat), (s.readBar0 p 0).toNat = 0x0F9B + (Config.stepping p).toNat * 2 ^ 16) ∧
  (∀ (s : State) (p off : Nat) (i : Inst), (s.pkg p).tephra.sel p = some i → (s.node i.node).ns = false →
    off = 0x040 ∨ 0x800 ≤ off ∧ off < 0x8A0 ∨ 0x1000 ≤ off ∧ off < 0x1800 → s.readTephra p false off = 0) ∧
  (∀ (s : State) (p n g : Nat) (secure : Bool), n < 16 → let m := Table.get {} (s.pkg p).tephra.mons n
    monNode p m.ctl = some g → (s.session p secure g = false → s.readTephra p secure (0x108 + 16 * n) = 0) ∧
      (s.session p secure g = true → m.lo < 2 ^ 32 → m.hi < 2 ^ 32 →
        (s.readTephra p secure (0x108 + 16 * n)).toNat = m.lo + m.hi * 2 ^ 32 ∧ s.readTephra p secure (0x100 + 16 * n) = m.ctl))

/-- R394, R395: the stop commands act on the cores that TSEL selects. -/
def StopCommands : Prop :=
  ∀ (s : State) (p : Nat) (secure : Bool) (i : Inst), (s.pkg p).tephra.sel p = some i → s.session p secure i.node = true →
    (∃ u, exec (.stopCore p secure) s = .next u ∧ (u.node i.node).stop.isSome = true ∧ s.sameBytes u) ∧
    (∃ u, exec (.stopPartition p secure) s = .next u ∧ (∀ g ∈ s.mates i.node, (u.node g).stop.isSome = true) ∧ s.sameBytes u) ∧
    (∃ u, exec (.resume p secure) s = .next u ∧ (∀ g ∈ s.mates i.node, (u.node g).stop = none ∧ (u.node g).stepping = none) ∧
      s.sameBytes u) ∧
    ((s.node i.node).stop.isSome = true →
      (∃ u, exec (.stepInstruction p secure) s = .next u ∧ (u.node i.node).stepping = some (i.ctx, false) ∧ s.sameBytes u) ∧
      (∃ u, exec (.stepActivation p secure) s = .next u ∧ (u.node i.node).stepping = some (i.ctx, true) ∧ s.sameBytes u))

/-- R242, R340, R373 to R376, R383 to R389, R391, R392, R394, R395: shoot-downs, tracing and the stop commands. The mark's instant, the
accounts and the order of a shoot-down's units are the model's choices (DESIGN CHOICE, log 36; DEDUCED, logs 34, 46 and 47). -/
def Obligations.SystemUnitEvents : Prop := ShootDowns ∧ TraceEvents ∧ TraceLoss ∧ WindowReads ∧ StopCommands

/-! ### Boot, links, repair and power -/

/-- Bonded DRAM of a package is zero and empty, and its cores hold nothing (R408). -/
def dramZero (u : State) (p : Nat) : Prop :=
  ∀ a, a < 2 ^ 37 → u.dram.read (dramKey p a) = 0 ∧ u.full (.dram (dramKey p a)) = false
def nodesGone (u : State) (p : Nat) : Prop := ∀ g, pkgOf g = p → u.node g = {}

/-- A link of a package is down in `u` at both of its ends. -/
def Sys2Proof.Machine.State.downEnds (s u : State) (p l : Nat) : Prop :=
  (l < 8 → (Table.get ({} : Link) (u.pkg p).links l).up = false) ∧
    ∀ q m, s.peer p l = some (q, m) → (Table.get ({} : Link) (u.pkg q).links m).up = false

/-- R362, R396 to R400, R405, R408: boot, firmware and resets. -/
def FirmwareEvents : Prop :=
  (∀ (s : State) (p : Nat), (s.pkg p).fw.booted = false → let f := (s.pkg p).fw
    let good := f.signed && f.flashing.isNone && decide (f.rollback ≤ f.version)
    (good = true → ∃ u, exec (.boot p) s = .next u ∧ (u.pkg p).fw.booted = true ∧ (u.pkg p).fw.recovery = false ∧
      (u.pkg p).fw.alias_ = f.alias_ + 1 ∧ (u.pkg p).fw.identity = f.identity + 1 ∧ (u.pkg p).powered = true ∧ dramZero u p ∧
      (∀ k, k < 1088 → (u.node (p * 2048 + k)).ns = Config.bootWorld (p * 2048 + k) ∧
        ∀ c, c < 4 → (u.node (p * 2048 + k)).chNs.getLsbD c = Config.bootChannelWorld ((p * 2048 + k) * 4 + c)) ∧
      (∀ k, k ∈ (u.pkg p).slotNs ↔ k < 2048 ∧ Config.bootSlotWorld (p * 2048 + k) = true) ∧
      (∀ l ∈ (u.pkg p).links, l.2.ns = Config.bootLinkWorld (p * 8 + l.1)) ∧
      (∀ n k, n ∈ [8, 9, 10] → k < 256 → Table.get 0 (u.pkg p).telem (n * 256 + k) = 0) ∧
      (∀ k, k < 256 → Table.get 0 (u.pkg p).regions k = Config.bootRegion (p * 256 + k))) ∧
    (good = false → exec (.boot p) s = .next (s.modPkg p fun k => { k with powered := true, fw := { f with recovery := true } }))) ∧
  (∀ (s : State) (p : Nat),
    ((s.pkg p).fw.recovery = true → exec (.recoveryFetch p) s = .next (match s.goodImage p (s.pkg p).fw.rollback with
      | some v => s.modPkg p fun k =>
          { k with fw := { k.fw with version := v, signed := true, flashing := none, recovery := false } }
      | none => s)) ∧
    ((s.pkg p).mcDown = false →
      ((s.pkg p).fw.flashing = none → exec (.firmwareUpdate p) s = .next (match s.goodImage p (s.pkg p).fw.rollback with
        | some v => s.modPkg p fun k => { k with fw := { k.fw with signed := false, flashing := some v } }
        | none => s.modPkg p fun k => { k with fw := { k.fw with reports := k.fw.reports ++ [none] } })) ∧
      (∀ v, (s.pkg p).fw.flashing = some v → exec (.firmwareUpdate p) s = .next (s.modPkg p fun k =>
        { k with fw := { k.fw with version := v, signed := true, flashing := none, rollback := max k.fw.rollback v
                                   reports := k.fw.reports ++ [some v] } })) ∧
      exec (.mcFirmwareUpdate p) s = .next (match s.goodImage p (s.pkg p).fw.mcRollback with
        | some v => s.modPkg p fun k =>
            { k with mcDown := true, sessions := false, fw := { k.fw with mcVersion := v, mcRollback := max k.fw.mcRollback v } }
        | none => s)) ∧
    ((s.pkg p).mcDown = true →
      exec (.mcRestartComplete p) s = .next (s.modPkg p fun k => { k with mcDown := false, sessions := true }))) ∧
  (∀ (s : State) (p : Nat) (nonce : BitVec 256), (s.pkg p).fw.booted = true → let f := (s.pkg p).fw
    let g := if 65536 ≤ f.aliasUses then f.derive else f
    let q : Quote :=
      { nonce := nonce, gen := g.alias_, index := g.aliasUses, cert := g.identity, rom := Config.romDigest
        fw := Config.firmwareDigest g.running, mc := Config.managementDigest g.mcVersion, worlds := s.worldTable p
        regions := (s.pkg p).regions }
    exec (.quote p nonce) s = .next (s.modPkg p fun k =>
      { k with fw := { g with aliasUses := g.aliasUses + 1, quotes := g.quotes ++ [q] } })) ∧
  (∀ (s : State) (p : Nat) (secure : Bool), (s.pkg p).sessions = true → secure = true ∨ Config.nsReset = true →
    let k := s.pkg p
    (¬((∃ d ∈ k.dies, d.2.trip = true) ∧ ∃ d ∈ k.dies, 850 ≤ d.2.tj) → ∃ u, exec (.deviceReset p secure) s = .next u ∧
      nodesGone u p ∧ (u.pkg p).fw.booted = false ∧ (u.pkg p).fw.version = k.fw.version ∧ (u.pkg p).log = k.log ∧
      (∀ m ∈ u.net, pkgOf m.src.node ≠ p) ∧ u.dram = s.dram ∧ (∀ l, s.downEnds u p l)) ∧
    (((∃ d ∈ k.dies, d.2.trip = true) ∧ ∃ d ∈ k.dies, 850 ≤ d.2.tj) → ∃ u, exec (.deviceReset p secure) s = .next u ∧
      u.nodes = s.nodes ∧ u.net = s.net ∧ s.sameBytes u ∧ (u.pkg p).fw = k.fw ∧
      ((∃ e ∈ (u.pkg p).dieBuf, e.cls = 0x41) ∨ k.lost < (u.pkg p).lost)) ∧
    (∃ u, exec (.linksReset p secure) s = .next u ∧ u.nodes = s.nodes ∧ s.sameBytes u ∧
      ∀ l, l < 8 → (Table.get ({} : Link) (u.pkg p).links l).up = s.linkOk p l)) ∧
  (∀ (s : State) (p : Nat), ∃ u, exec (.powerLoss p) s = .next u ∧ (u.pkg p).powered = false ∧ nodesGone u p ∧ dramZero u p ∧
    (u.pkg p).fw.flashing = none ∧ (u.pkg p).fw.version = (s.pkg p).fw.version)

/-- R362, R364, R404: links and time. -/
def LinkEvents : Prop :=
  (∀ (s : State) (p : Nat), (s.pkg p).anyUp = true → let low := ((s.members p).head?).getD p
    ∃ u, exec (.timeFlit p) s = .next u ∧ (u.pkg p).tsync = true ∧ (u.pkg p).gt = (s.pkg low).gt) ∧
  (∀ (s : State) (p l : Nat), let x := Table.get ({} : Link) (s.pkg p).links l
    (∃ u, exec (.mililoLinkDown p l) s = .next u ∧ s.downEnds u p l ∧ s.sameBytes u) ∧
    (∃ u, exec (.mililoLinkUp p l) s = .next u ∧ (Table.get ({} : Link) (u.pkg p).links l).up = s.linkOk p l ∧
      (∀ q m, s.peer p l = some (q, m) → (Table.get ({} : Link) (u.pkg q).links m).up = s.linkOk p l) ∧ s.sameBytes u) ∧
    (x.far.isSome = true → x.far ≠ some p → ∃ u, exec (.laneFailure p l true) s = .next u ∧
      let y := Table.get ({} : Link) (u.pkg p).links l
      (0 < x.spareOut → 8 ≤ x.lanesOut → y = { x with spareOut := x.spareOut - 1 }) ∧
      (x.spareOut = 0 → 8 < x.lanesOut → y = { x with lanesOut := x.lanesOut - 1 }) ∧
      (x.spareOut = 0 → x.lanesOut ≤ 8 → y = { x with lanesOut := x.lanesOut - 1, up := false } ∧ s.downEnds u p l) ∧
      (∀ q m, s.peer p l = some (q, m) → let z := Table.get ({} : Link) (s.pkg q).links m
        let z' := Table.get ({} : Link) (u.pkg q).links m
        z'.spareIn = z.spareIn - 1 ∧ z'.lanesIn = (if z.spareIn = 0 then z.lanesIn - 1 else z.lanesIn))) ∧
    (x.far.isSome = true → x.far ≠ some p → ∃ u, exec (.laneFailure p l false) s = .next u ∧
      let y := Table.get ({} : Link) (u.pkg p).links l
      (0 < x.spareIn → 8 ≤ x.lanesIn → y = { x with spareIn := x.spareIn - 1 }) ∧
      (x.spareIn = 0 → 8 < x.lanesIn → y = { x with lanesIn := x.lanesIn - 1 }) ∧
      (x.spareIn = 0 → x.lanesIn ≤ 8 → y = { x with lanesIn := x.lanesIn - 1, up := false } ∧ s.downEnds u p l) ∧
      (∀ q m, s.peer p l = some (q, m) → let z := Table.get ({} : Link) (s.pkg q).links m
        let z' := Table.get ({} : Link) (u.pkg q).links m
        z'.spareOut = z.spareOut - 1 ∧ z'.lanesOut = (if z.spareOut = 0 then z.lanesOut - 1 else z.lanesOut))))

/-- R403: a repair keeps every value that can be read; words that cannot be read, among those that the spare takes over, are zero
and empty. -/
def repairs (s u : State) (hit : Nat → Prop) : Prop :=
  (∀ w, w ∉ s.dramBad ∨ ¬hit w → u.dram.readNat (8 * w) 8 = s.dram.readNat (8 * w) 8 ∧ u.dramFe.full w = s.dramFe.full w ∧
    (w ∈ u.dramBad ↔ w ∈ s.dramBad)) ∧
  (∀ w, w ∈ s.dramBad → hit w → u.dram.readNat (8 * w) 8 = 0 ∧ u.dramFe.full w = false ∧ w ∉ u.dramBad) ∧
  u.cxl = s.cxl ∧ u.host = s.host ∧ u.nodes = s.nodes

/-- The words of a bank of a channel: of a package, a die, and 256-byte lines in turn (R6, R379; which row, log 49). -/
def inBank (p chan bank w : Nat) : Prop :=
  8 * w / 2 ^ 37 = p ∧ 8 * w / 2 ^ 35 % 4 = chan / 16 % 4 ∧ 8 * w / 256 % 16 = chan % 16 ∧ (Config.dramRow w).1 = bank

/-- R382, R400 to R403, R405: telemetry, of a link's spare lanes and a die's unused spares too, the error log and repair. -/
def RepairEvents : Prop :=
  (∀ (s : State) (p n unit v : Nat), (s.pkg p).mcDown = false → let k := s.pkg p
    (n ∈ [0, 1, 2, 3, 5, 6, 7] → ∃ u, exec (.telemetryRefresh p n unit v) s = .next u ∧ Table.get 0 (u.pkg p).telem (n * 256 + unit) = v) ∧
    (n = 4 → ∃ u, exec (.telemetryRefresh p n unit v) s = .next u ∧
      Table.get 0 (u.pkg p).telem (n * 256 + unit) = (Table.get ({} : DiePower) k.dies unit).mhz) ∧
    (n ∈ [8, 9, 10] → ∃ u, exec (.telemetryRefresh p n unit v) s = .next u ∧
      Table.get 0 (u.pkg p).telem (n * 256 + unit) = max (Table.get 0 k.telem (n * 256 + unit)) (min v (2 ^ 32 - 1))) ∧
    (n = 11 → ∃ u, exec (.telemetryRefresh p n unit v) s = .next u ∧ let link := Table.get ({} : Link) k.links (unit / 2)
      Table.get 0 (u.pkg p).telem (n * 256 + unit) = if unit % 2 = 0 then link.spareIn else link.spareOut) ∧
    (n = 12 → ∃ u, exec (.telemetryRefresh p n unit v) s = .next u ∧ let x := Table.get 0 (u.pkg p).telem (n * 256 + unit)
      x < 2 ^ 16 ∧ ∀ y, y < 16 → (natBit x y = true ↔ unit * 16 + y ∉ k.spares))) ∧
  (∀ (s : State) (p : Nat), (s.pkg p).mcDown = false → (s.pkg p).dieBuf ≠ [] → let k := s.pkg p
    ∃ u e, exec (.errorLogMove p) s = .next u ∧ e ∈ k.dieBuf ∧ (∀ x ∈ k.dieBuf, e.gt.toNat ≤ x.gt.toNat) ∧
      (u.pkg p).dieBuf = k.dieBuf.erase e ∧
      (k.log.length < 4096 → (u.pkg p).log = k.log ++ [e] ∧ (u.pkg p).lost = k.lost) ∧
      (4096 ≤ k.log.length → (u.pkg p).log = k.log.drop 1 ++ [e] ∧ (u.pkg p).lost = k.lost + 1)) ∧
  (∀ (s : State) (p addr : Nat), ∃ u, exec (.dramScrubError p addr) s = .next u ∧ u.bad (.dram (dramKey p addr)) = true ∧
    s.sameBytes u ∧ u.net = s.net) ∧
  (∀ (s : State) (p core : Nat) (bad : List (Nat × Nat × Nat)), isCaldera core = false → pkgOf core = p →
    let cores := s.groupCores p core
    (rowOf core ∈ (s.pkg p).spares ∨ (s.pkg p).mcDown = true → ∃ u, exec (.coreRetire p ⟨core, bad⟩) s = .next u ∧
      u.nodes = s.nodes ∧ s.sameBytes u ∧ (u.pkg p).spares = (s.pkg p).spares) ∧
    (rowOf core ∉ (s.pkg p).spares → (s.pkg p).mcDown = false → (∀ q, (s.live core).part = some q → s.drained q cores = true) →
      (∀ g ∈ cores, (s.live g).haltable = true ∧ (s.node g).stop = none) →
      ∃ u, exec (.coreRetire p ⟨core, bad⟩) s = .next u ∧ rowOf core ∈ (u.pkg p).spares ∧
        (∀ g ∈ cores, (u.live g).part = none ∧ (u.node g).shadows = [] ∧ (u.node g).tlb = (s.node g).tlb ∧
          (u.node g).delays = (s.node g).delays) ∧
        ∀ g ∈ cores, ∀ q, (s.live g).part = some q → ∃ m ∈ (u.node g).stored, m.part = some q ∧
          ∀ w, (g, q, w) ∈ bad → m.spm.readNat (8 * w) 8 = 0 ∧ m.fe.full w = false)) ∧
  (∀ (s : State) (p chan bank row : Nat), let used := Table.get 0 (s.pkg p).rowSpares (chan * 65536 + bank)
    ∃ u, exec (.rowSpare p chan bank row) s = .next u ∧
      (used < 4 → Table.get 0 (u.pkg p).rowSpares (chan * 65536 + bank) = used + 1 ∧
        repairs s u fun w => inBank p chan bank w ∧ (Config.dramRow w).2 = row) ∧
      (4 ≤ used → (u.pkg p).rowSpares = (s.pkg p).rowSpares ∧ s.sameBytes u)) ∧
  (∀ (s : State) (p chan bank : Nat),
    let asked := Table.get 0 (s.pkg p).rowSpares (chan * 65536 + bank) < 4
    let refused := chan ∈ (s.pkg p).bankSpares ∨ (asked ∧ (s.pkg p).mcDown = true)
    ∃ u, exec (.bankSpare p chan bank) s = .next u ∧
      (refused → (u.pkg p).bankSpares = (s.pkg p).bankSpares ∧ s.sameBytes u) ∧
      (¬refused → chan ∈ (u.pkg p).bankSpares ∧ repairs s u (inBank p chan bank)))

/-- R406, R407, R409, R410: clocks, heat and limits: the power limit is the lowest of PL, the cooling envelope (in tenths of a degree and
hundredths of a litre a minute) and the caps of the partitions that are live on the die. -/
def PowerEvents : Prop :=
  ∀ (s : State) (p die : Nat), let d := Table.get ({} : DiePower) (s.pkg p).dies die
    let down := max 800 (d.mhz - 100)
    let after (u : State) : DiePower := Table.get {} (u.pkg p).dies die
    (∀ amps, 4000 < amps → ∃ u, exec (.currentCheck p die amps) s = .next u ∧ (after u).mhz = down) ∧
    (let k := s.pkg p
      let inlet := if k.coolIn ≤ 400 then 2000 else 2000 - 4 * (k.coolIn - 400)
      let flow := if 200 ≤ k.coolFlow then 2000 else 600 + 14 * (k.coolFlow - 100)
      let cooling := if 450 < k.coolIn ∨ k.coolFlow < 100 then 600 else min inlet flow
      let here (q : Nat) : Prop := ∃ g ∈ dieCores p die, (s.live g).part = some q
      let cap (q : Nat) : Nat × Nat := Table.get (2000, 2500) k.pcap q
      (∀ n, n = (s.limitOf p die).1 ↔ (n = k.pl ∨ n = cooling ∨ ∃ q, here q ∧ n = (cap q).1) ∧
        n ≤ k.pl ∧ n ≤ cooling ∧ ∀ q, here q → n ≤ (cap q).1) ∧
      (∀ n, n = (s.limitOf p die).2 ↔ (n = k.ceil ∨ ∃ q, here q ∧ n = (cap q).2) ∧
        n ≤ k.ceil ∧ ∀ q, here q → n ≤ (cap q).2)) ∧
    (∀ watts, let lim := s.limitOf p die
      (lim.1 < watts ∨ lim.2 < d.mhz → ∃ u, exec (.powerWindow p die watts) s = .next u ∧ (after u).mhz = down) ∧
      (watts ≤ lim.1 → d.mhz + 100 ≤ lim.2 → s.mayRaise p watts lim.1 = true → d.tj < 950 →
        ∃ u, exec (.powerWindow p die watts) s = .next u ∧ (after u).mhz = d.mhz + 100)) ∧
    (∀ t, 950 ≤ t → ∃ u, exec (.thermalStep p die t) s = .next u ∧ (after u).mhz = down ∧ (after u).tj = t) ∧
    (∀ t, 1050 ≤ t → ∃ u, exec (.thermalClamp p die t) s = .next u ∧ (after u).mhz = 800 ∧ (after u).tj = t) ∧
    (∀ t, 1150 ≤ t → ∃ u, exec (.thermalTrip p die t) s = .next u ∧ (after u).trip = true ∧ u.up p = false ∧
      ∀ l, s.downEnds u p l) ∧
    ((s.pkg p).mcDown = false →
      (∀ pl ceil, 600 ≤ pl → pl ≤ 2000 → 800 ≤ ceil → ceil ≤ 2500 →
        exec (.setPl p pl ceil) s = .next (s.modPkg p fun k => { k with pl := pl, ceil := ceil })) ∧
      (∀ part cap ceil, part < 128 → 100 ≤ cap → cap ≤ 2000 → 800 ≤ ceil → ceil ≤ 2500 →
        exec (.setPcap p part cap ceil) s = .next (s.modPkg p fun k => { k with pcap := k.pcap.put part (cap, ceil) })))

/-- R362, R364, R382, R396 to R410: the events of boot, firmware, links, repair and power. That boot is one step, which images
verify, what keys, digests and worlds hold, how readings come and what a spare core holds are the model's choices (DESIGN CHOICE,
logs 2, 6, 7 and 49; DEDUCED, logs 48, 50 and 57). -/
def Obligations.FleetEvents : Prop := FirmwareEvents ∧ LinkEvents ∧ RepairEvents ∧ PowerEvents

/-! ### Words and instructions -/

/-- R69 to R79: every instruction that an encoding names is what the decoder reads from its bytes, whatever follows them. -/
def Obligations.DecodeOfEncode : Prop :=
  ∀ (i : Instr) (rest : List Byte), i.WellFormed → i.enc.isSome = true → decode (encode i ++ rest) = .ok (i, rest)

/-- R69 to R79: what the decoder accepts is a well-formed instruction and exactly its bytes: no bit is dropped, and no pattern
outside the tables is taken for a neighbour. -/
def Obligations.EncodeOfDecode : Prop :=
  ∀ (bs rest : List Byte) (i : Instr), decode bs = .ok (i, rest) → i.WellFormed ∧ i.enc.isSome = true ∧ bs = encode i ++ rest

/-- R69, R72 to R78: words written out from the tables, one of each format, decode to what they stand for. -/
def Obligations.WordsFromTheSpecDecode : Prop :=
  -- ADD s1, s2, s3: major 0x01, rd 1, ra 2, rb 3, fn 0
  decodeTableWord 32 0b00_000001_000001_000010_000011_000000 = some (.add ⟨1, 2, .reg 3⟩) ∧
  -- ADDI s5, s6, -1: major 0x02, imm12 0xFFF
  decodeTableWord 32 0b00_000010_000101_000110_111111111111 = some (.addi ⟨5, 6, .short (BitVec.ofInt 12 (-1))⟩) ∧
  -- CALL with a displacement of 2 words: major 0x0D, disp24 2
  decodeTableWord 32 0b00_001101_000000000000000000000010 = some (.call (.short 2)) ∧
  -- SYSC 0x2A: major 0x00, code in [13:6], fn 5
  decodeTableWord 32 0b00_000000_000000_000000_101010_000101 = some (.sysc 0x2A) ∧
  -- NOP: major 0x00, fn 1
  decodeTableWord 32 1 = some .nop ∧
  -- major 0x24 is reserved
  decodeTableWord 32 0b00_100100_000000_000000_000000_000000 = none

/-- R69 to R71, R79, R169, R231, R238, R283: when a core issues for an instance at whose boundary nothing is due, and no ready context
stands before it, the step is the meaning of the instruction that the bytes at the program counter decode to, or the
illegal-instruction trap, or the trap of the fetch, or a fetch that waits; an instruction that has issued and waits, which its context
keeps, is executed again without a fetch (R227); a handler that is due starts first, and a WFI that is over ends first. `settle` moves
the issue order on and keeps the sampling and stepping counts; `lastMark` marks the last instruction of a sampling window. An event on the agenda
is its meaning. The agenda and the lapses are the model's own (DESIGN CHOICE, logs 4 and 5; DEDUCED, logs 18 and 20). -/
def Obligations.StepRunsTheDecodedInstruction : Prop :=
  (∀ (s t : State) (i : Inst) (rest : List Choice), s.agenda = .issue i :: rest →
    let s0 : State := { s with agenda := rest, cur := i }
    let s1 := s0.nextCycle i.node
    let s2 := s1.lastMark i
    (s0.ctx i).late = false → s0.wfiOver i = false →
    (s0.handlerDue i.node ≠ none → step s = exec (.handlerStart i.node) s0) ∧
    (s0.handlerDue i.node = none → (s0.mayIssue i = false → step s = .next s0) ∧
      (s0.mayIssue i = true → ((s0.ctx i).atBoundary = true → (s0.ctx i).changed = []) → s0.due i = none →
        (s1.outranked i = true → step s = .next s1) ∧
        (s1.outranked i = false → s1.breaks i = [] →
          (∀ x, (s2.ctx i).wait ≠ .none → (s2.ctx i).insn = some x → step s = settled s2 i (keeping i x (exec x s2))) ∧
          ((s2.ctx i).wait = .none ∨ (s2.ctx i).insn = none →
            (∀ x, s2.fetchInstr i = (t, .ok (some x)) → step s = settled s2 i (keeping i x (exec x t))) ∧
            (s2.fetchInstr i = (t, .ok none) → step s = settled s2 i (exec .illegalInstruction t)) ∧
            (∀ f, s2.fetchInstr i = (t, .error f) → step s = .next (s2.settle (t.takeTrap i f) i)) ∧
            (s2.fetchInstr i = (t, .held) → step s = .next (s2.settle t i))))))) ∧
  (∀ (t : State) (i : Inst) (x : Instr), ∃ u, keeping i x (.next t) = .next u ∧
    (u.ctx i).insn = if (t.ctx i).wait = .none then none else some x) ∧
  (∀ (s : State) (i : Inst) (rest : List Choice),
    (s.agenda = .issue i :: rest → let s0 : State := { s with cur := i }
      ((s0.ctx i).late = true → step s = step (s0.modCtx i fun c => { c with late := false })) ∧
      ((s0.ctx i).late = false → s0.wfiOver i = true → step s = step (s0.endWfi i))) ∧
    (s.agenda = .split i :: rest → step s = unsplit (step { s with agenda := .issue i :: rest, split := true })) ∧
    (s.agenda = .late i :: rest → step s = .next (({ s with agenda := rest } : State).modCtx i fun c => { c with late := true }))) ∧
  (∀ (s t1 t : State) (i : Inst) (base q : Nat), let pc := (s.ctx i).pc
    pc.toNat % 4 = 0 → s.fetch i pc = (t1, .ok base) →
    t1.fetchWords i (pc + 4) (lenOfBase base / 4 - 1) = (t, .ok q) →
    (∀ x bs, decode (leBytes 20 (base + 2 ^ 32 * q)) = .ok (x, bs) → s.fetchInstr i = (t, .ok (some x))) ∧
    (∀ r, decode (leBytes 20 (base + 2 ^ 32 * q)) = .error r → (s.fetchInstr i).2 = .ok none)) ∧
  (∀ (s : State) (e : Instr) (rest : List Choice), s.agenda = .event e :: rest → e.happens = true →
    step s = exec e { s with agenda := rest }) ∧
  (∀ (s : State) (rest : List Choice),
    (∀ n, s.agenda = .lapse n :: rest → step s = .next (({ s with agenda := rest } : State).elapse n)) ∧
    (∀ a, s.agenda = .upset a :: rest → step s = .next (({ s with agenda := rest } : State).upset a)))

/-! ### Whole states -/

/-- R43: device reset. NS of PSTAT is the block's. -/
def Obligations.Reset : Prop :=
  ∀ (i : Inst), let s := State.reset
    let c := s.ctx i
    let m := s.live i.node
    (∀ n, n ∈ [0x001, 0x002, 0x003, 0x004, 0x005, 0x010, 0x011, 0x020, 0x021, 0x030, 0x031, 0x032, 0x033, 0x034, 0x040, 0x041, 0x042,
        0x043, 0x050, 0x051, 0x060, 0x070, 0x071, 0x090, 0x091, 0x092, 0x093] → csrRead s i n = some 0) ∧
    (i.ctx.isMsg = false → ∀ n, 0x080 ≤ n → n ≤ 0x085 → csrRead s i n = some 0) ∧
    (∀ n, 0x100 ≤ n → n ≤ 0x11F → csrRead s i n = some 0) ∧
    csrRead s i 0x012 = some 64 ∧ csrRead s i 0x013 = some 1 ∧ csrRead s i 0x014 = some 1000000 ∧
    (csrRead s i 0x006).map (· &&& ~~~2) = some (BitVec.ofNat 64 (i.ctx.code * 16 + 1)) ∧
    (∀ n, hValid (c.hr n) = false) ∧ (∀ k, (c.slot k).valid = false) ∧
    (∀ part a n, s.readPlace (.spm i.node part a) n = 0 ∧ s.full (.spm i.node part a) = false) ∧
    m.vent = [] ∧ m.qL = [] ∧ m.qLover = [] ∧ m.qH = [] ∧ ∀ k, (m.chan k).queue = []

/-- R14: s0 and p0. What an instruction that writes them does besides is as for any other write, the evaluation of formulas that
have s0 as a source included. -/
def Obligations.ZeroRegisters : Prop :=
  (∀ (c : Ctx) (x : Word) (y : BitVec 16) (n : Nat), c.sr 0 = 0 ∧ c.pr 0 = 0xFFFF ∧
    (c.setS 0 x).sr n = c.sr n ∧ (c.setP 0 y).pr n = c.pr n) ∧
  (∀ (s : State) (len : Nat) (x : Word) (y : BitVec 16) (r : Rounded),
    s.putS len 0 x = s.retire len [.s 0] .seq ∧ s.putP len 0 y = s.retire len [.p 0] .seq ∧
    s.putF len 0 r = (s.modCtx s.cur fun c => c.raise r.flags).retire len [.s 0] .seq) ∧
  (∀ (c : Ctx) (m : Img) (k len : Nat) (f : Flow), k < 16 →
    (∀ j, j < 16 → ((c.slot j).valid && !(c.slot j).held) = true → j = k) →
    (c.slot k).valid = true → (c.slot k).held = false → 0 ∈ (c.slot k).srcs → (c.slot k).dest ≠ 0 →
    (c.retire m len [.s 0] f).sr (c.slot k).dest = ((c.slot k).eval m c).1)

/-- Instructions that only read and write registers of their context, with the registers that they write; the flag tells whether
they may raise floating-point flags. -/
def registerOnly : Instr → Option (List Reg × Bool)
  | .add o | .sub o | .and o | .or o | .xor o | .andn o | .sll o | .srl o | .sra o | .slt o | .sltu o | .seq o | .min o | .max o
  | .minu o | .maxu o | .bfx o | .bfxu o | .bfi o | .adds o | .subs o | .caddr o | .crel o | .cmovnz o | .cmovz o | .mul o
  | .mulh o | .mulhu o | .mulhsu o | .div o | .divu o | .rem o | .remu o => some ([.s o.d], false)
  | .clz o | .ctz o | .popc o => some ([.s o.d], false)
  | .addi o | .andi o | .ori o | .xori o => some ([.s o.d], false)
  | .slli o | .srli o | .srai o => some ([.s o.d], false)
  | .slti o | .sltiu o | .seqi o => some ([.s o.d], false)
  | .fadd o | .fsub o | .fmul o | .fdiv o => some ([.s o.d], true)
  | .fsqrt o => some ([.s o.d], true)
  | .fmin o | .fmax o | .feq o | .flt o | .fle o => some ([.s o.d], true)
  | .fclass o | .fneg o | .fabs o => some ([.s o.d], true)
  | .fma o => some ([.s o.d], true)
  | .fcvt o => some ([.s o.d], true)
  | .ftoi o | .itof o => some ([.s o.d], true)
  | .vadd o | .vsub o | .vmul o | .vmulh o | .vand o | .vor o | .vxor o | .vsll o | .vsrl o | .vsra o | .vmin o | .vmax o | .vminu o
  | .vmaxu o | .vadds o | .vsubs o => some ([.v o.d], false)
  | .vfadd o | .vfsub o | .vfmul o | .vfdiv o => some ([.v o.d], true)
  | .vfmin o | .vfmax o => some ([.v o.d], true)
  | .vfma o => some ([.v o.d], true)
  | .vcvt o => some ([.v o.d], true)
  | .vperm o => some ([.v o.d], false)
  | .vsel o => some ([.v o.d], false)
  | .vceq o | .vcne o | .vclt o | .vcle o | .vcltu o | .vcleu o => some ([.p o.d], false)
  | .pand o | .por o | .pxor o => some ([.p o.d], false)
  | .pnot o => some ([.p o.d], false)
  | .pcnt o | .pfirst o => some ([.s o.d], false)
  | .vradd o | .vrmin o | .vrmax o | .vrminu o | .vrmaxu o => some ([.s o.d], false)
  | .msgq d | .cstat d _ | .hq d _ | .bindq d _ => some ([.s d], false)
  | _ => none

/-- R12 to R17, R90, R94 to R105, R206 to R208, R225 to R228: the frame of the instructions that only read and write registers, whether
they complete, stall or trap: memory, messages and every other context stand, and so does every register of the context but the
destination and those that formulas write; an instruction that completes leaves the trap record. -/
def Obligations.RegisterFrame : Prop :=
  ∀ (s t : State) (x : Instr) (ws : List Reg) (fl : Bool), registerOnly x = some (ws, fl) → exec x s = .next t →
    let c := s.now
    let d := t.now
    t.cur = s.cur ∧ s.sameBytes t ∧ t.net = s.net ∧ s.sameOthers t s.cur ∧
    (∀ n, .s n ∉ ws → c.boundSlot n = none → d.sr n = c.sr n) ∧ (∀ n, .v n ∉ ws → d.vr n = c.vr n) ∧
    (∀ n, .p n ∉ ws → d.pr n = c.pr n) ∧ d.d = c.d ∧ d.h = c.h ∧ (fl = false → d.fstat = c.fstat ∧ d.vovf = c.vovf) ∧
    d.wtop = c.wtop ∧ d.srseed = c.srseed ∧ d.ie = c.ie ∧ d.upvec = c.upvec ∧ d.lbeg0 = c.lbeg0 ∧ d.lend0 = c.lend0 ∧
    d.lbeg1 = c.lbeg1 ∧ d.lend1 = c.lend1 ∧ d.osc = c.osc ∧ d.lreq = c.lreq ∧ d.rreq = c.rreq ∧ d.tag = c.tag ∧ d.seq = c.seq ∧
    d.act = c.act ∧ d.groups = c.groups ∧ d.deferred = c.deferred ∧
    (d.count0 ≠ c.count0 → d.priv = c.priv ∧ d.upact = c.upact ∧ d.upinfo = c.upinfo ∧ d.epc = c.epc ∧ d.ecause = c.ecause ∧
      d.eaddr = c.eaddr ∧ d.einfo = c.einfo ∧ d.btarget = c.btarget)

/-- The memories and scratchpads at reset are in their canonical form (the form is the model's own). -/
def Obligations.ResetMemoryCanonical : Prop := State.reset.memWf ∧ State.reset.padsWf

/-- Every step keeps the scratchpads of live, shadow and stored images in their canonical form (the form is the model's own). -/
def Obligations.StepsKeepScratchpadsCanonical : Prop :=
  ∀ (s t : State), s.padsWf → step s = .next t → t.padsWf

/-- Every step keeps the memories behind the global virtual addresses in their canonical form, whatever it does: an issue, an
event, or the lapse of time (the form is the model's own). -/
def Obligations.StepsKeepMemoryCanonical : Prop :=
  ∀ (s t : State), s.memWf → step s = .next t → t.memWf
end

