-- ==== Sys2Proof/Laws/Tables.lean ====
section
/-! SUPPORT. Laws of finite maps and of byte memory: reading after writing, and the canonical form that every memory
operation keeps. -/

namespace Sys2Proof.Machine

variable {α : Type}

/-! ### Reading after writing -/

theorem Table.get_put (d : α) (t : Table α) (k j : Nat) (v : α) :
    Table.get d (t.put k v) j = if k = j then v else Table.get d t j := by
  induction t with
  | nil => rfl
  | cons c t ih =>
    obtain ⟨k', v'⟩ := c
    simp only [Table.put]
    split
    · simp [Table.get]
    · split
      · subst_vars; simp only [Table.get]; split <;> rfl
      · simp only [Table.get, ih]; split <;> split <;> simp_all

@[simp] theorem Table.get_put_same (d : α) (t : Table α) (k : Nat) (v : α) : Table.get d (t.put k v) k = v := by
  simp [Table.get_put]

theorem Table.get_put_ne (d : α) (t : Table α) {k j : Nat} (v : α) (h : k ≠ j) :
    Table.get d (t.put k v) j = Table.get d t j := by
  simp [Table.get_put, h]

theorem Table.get_erase (d : α) (t : Table α) (k j : Nat) :
    Table.get d (t.erase k) j = if k = j then d else Table.get d t j := by
  induction t with
  | nil => simp [Table.erase, Table.get]
  | cons c t ih =>
    obtain ⟨k', v'⟩ := c
    simp only [Table.erase]
    split
    · rw [ih]; simp only [Table.get]; split <;> (try split) <;> simp_all
    · simp only [Table.get, ih]; split <;> (try split) <;> simp_all

theorem Table.get_set [DecidableEq α] (d : α) (t : Table α) (k j : Nat) (v : α) :
    Table.get d (Table.set d t k v) j = if k = j then v else Table.get d t j := by
  unfold Table.set
  split
  · rw [Table.get_erase]; split <;> simp_all
  · exact Table.get_put d t k j v

@[simp] theorem Table.get_set_same [DecidableEq α] (d : α) (t : Table α) (k : Nat) (v : α) :
    Table.get d (Table.set d t k v) k = v := by
  simp [Table.get_set]

theorem Table.get_set_ne [DecidableEq α] (d : α) (t : Table α) {k j : Nat} (v : α) (h : k ≠ j) :
    Table.get d (Table.set d t k v) j = Table.get d t j := by
  simp [Table.get_set, h]

/-! ### Rising keys -/

/-- Every key of a table is above a bound. -/
def Table.above (n : Nat) (t : Table α) : Prop := ∀ c ∈ t, n < c.1

theorem Table.rising_cons (c : Nat × α) (t : Table α) :
    Table.rising (c :: t) = true ↔ Table.above c.1 t ∧ Table.rising t = true := by
  induction t generalizing c with
  | nil => simp [Table.rising, Table.above]
  | cons e t ih =>
    obtain ⟨k, v⟩ := c
    obtain ⟨k', v'⟩ := e
    have h := ih (k', v')
    simp only [Table.rising, Bool.and_eq_true, decide_eq_true_eq, Table.above, List.mem_cons, forall_eq_or_imp] at h ⊢
    constructor
    · rintro ⟨h1, h2⟩
      exact ⟨⟨h1, fun x hx => lt_trans h1 ((h.1 h2).1 x hx)⟩, h2⟩
    · rintro ⟨⟨h1, _⟩, h2⟩
      exact ⟨h1, h2⟩

theorem Table.mem_put {t : Table α} {k : Nat} {v : α} {c : Nat × α} (h : c ∈ t.put k v) : c = (k, v) ∨ c ∈ t := by
  induction t with
  | nil => simpa [Table.put] using h
  | cons e t ih =>
    simp only [Table.put] at h
    split at h
    · simpa using h
    · split at h
      · rcases List.mem_cons.mp h with h | h
        · exact .inl h
        · exact .inr (List.mem_cons_of_mem _ h)
      · rcases List.mem_cons.mp h with h | h
        · exact .inr (h ▸ List.mem_cons_self)
        · exact (ih h).imp id (List.mem_cons_of_mem _)

theorem Table.mem_erase {t : Table α} {k : Nat} {c : Nat × α} (h : c ∈ t.erase k) : c ∈ t := by
  induction t with
  | nil => exact h
  | cons e t ih =>
    simp only [Table.erase] at h
    split at h
    · exact List.mem_cons_of_mem _ (ih h)
    · rcases List.mem_cons.mp h with h | h
      · exact h ▸ List.mem_cons_self
      · exact List.mem_cons_of_mem _ (ih h)

theorem Table.rising_put {t : Table α} (h : t.rising = true) (k : Nat) (v : α) : (t.put k v).rising = true := by
  induction t with
  | nil => rfl
  | cons e t ih =>
    obtain ⟨k', v'⟩ := e
    have h' := (Table.rising_cons _ _).mp h
    simp only [Table.put]
    split
    · rename_i hk
      refine (Table.rising_cons _ _).mpr ⟨fun c hc => ?_, h⟩
      rcases List.mem_cons.mp hc with hc | hc
      · exact hc ▸ hk
      · exact lt_trans hk (h'.1 c hc)
    · split
      · rename_i _ hk; subst hk
        exact (Table.rising_cons _ _).mpr h'
      · refine (Table.rising_cons _ _).mpr ⟨fun c hc => ?_, ih h'.2⟩
        rcases Table.mem_put hc with hc | hc
        · subst hc; simp only; omega
        · exact h'.1 c hc

theorem Table.rising_erase {t : Table α} (h : t.rising = true) (k : Nat) : (t.erase k).rising = true := by
  induction t with
  | nil => rfl
  | cons e t ih =>
    have h' := (Table.rising_cons _ _).mp h
    simp only [Table.erase]
    split
    · exact ih h'.2
    · exact (Table.rising_cons _ _).mpr ⟨fun c hc => h'.1 c (Table.mem_erase hc), ih h'.2⟩

theorem Table.rising_set [DecidableEq α] (d : α) {t : Table α} (h : t.rising = true) (k : Nat) (v : α) :
    (Table.set d t k v).rising = true := by
  unfold Table.set
  split
  · exact Table.rising_erase h k
  · exact Table.rising_put h k v

/-! ### Byte memory -/

theorem Memory.read_write (m : Memory) (a b : Nat) (x : Byte) :
    (m.write a x).read b = if a = b then x else m.read b :=
  Table.get_set Memory.blank m a b x

theorem Memory.read_write_ne (m : Memory) {a b : Nat} (x : Byte) (h : a ≠ b) : (m.write a x).read b = m.read b := by
  simp [Memory.read_write, h]

/-- A write keeps the canonical form. -/
theorem Memory.wf_write {m : Memory} (h : m.wf = true) (a : Nat) (x : Byte) : (m.write a x).wf = true := by
  simp only [Memory.wf, Bool.and_eq_true, List.all_eq_true, decide_eq_true_eq] at h ⊢
  refine ⟨Table.rising_set _ h.1 a x, fun c hc => ?_⟩
  unfold Memory.write Table.set at hc
  split at hc
  · exact h.2 c (Table.mem_erase hc)
  · rcases Table.mem_put hc with hc | hc
    · subst hc; assumption
    · exact h.2 c hc

theorem Memory.wf_writeNat {m : Memory} (h : m.wf = true) (a n x : Nat) : (m.writeNat a n x).wf = true := by
  induction n generalizing m a x with
  | zero => exact h
  | succ n ih => exact ih (Memory.wf_write h _ _) _ _

/-- A write of `n` bytes leaves every byte outside them alone. -/
theorem Memory.read_writeNat_out (m : Memory) (a n x b : Nat) (h : b < a ∨ a + n ≤ b) :
    (m.writeNat a n x).read b = m.read b := by
  induction n generalizing m a x with
  | zero => rfl
  | succ n ih =>
    have h1 : a ≠ b := by omega
    rw [Memory.writeNat, ih _ _ _ (by omega), Memory.read_write_ne _ _ h1]

/-- The bytes of a write, little-endian. -/
theorem Memory.read_writeNat_in (m : Memory) (a n x k : Nat) (h : k < n) :
    (m.writeNat a n x).read (a + k) = BitVec.ofNat 8 (x / 256 ^ k) := by
  induction n generalizing m a x k with
  | zero => omega
  | succ n ih =>
    rw [Memory.writeNat]
    cases k with
    | zero => rw [Memory.read_writeNat_out _ _ _ _ _ (by omega)]; simp [Memory.read_write]
    | succ k =>
      rw [show a + (k + 1) = a + 1 + k by omega, ih _ _ _ _ (by omega), Nat.pow_succ, Nat.mul_comm, Nat.div_div_eq_div_mul]

theorem Memory.readNat_writeNat_out (m : Memory) (a n x b k : Nat) (h : b + k ≤ a ∨ a + n ≤ b) :
    (m.writeNat a n x).readNat b k = m.readNat b k := by
  induction k generalizing b with
  | zero => rfl
  | succ k ih =>
    rw [Memory.readNat, Memory.readNat, Memory.read_writeNat_out _ _ _ _ _ (by omega), ih _ (by omega)]

/-- Reading what was written gives its value. -/
theorem Memory.readNat_writeNat (m : Memory) (a n x : Nat) : (m.writeNat a n x).readNat a n = x % 256 ^ n := by
  induction n generalizing m a x with
  | zero => simp [Memory.readNat, Nat.mod_one]
  | succ n ih =>
    have h0 := Memory.read_writeNat_in m a (n + 1) x 0 (by omega)
    rw [Memory.readNat, show (m.writeNat a (n + 1) x).read a = BitVec.ofNat 8 x by simpa using h0]
    rw [Memory.writeNat, ih]
    rw [BitVec.toNat_ofNat, show (2 ^ 8 : Nat) = 256 from rfl, Nat.pow_succ 256 n, Nat.mul_comm (256 ^ n) 256, Nat.mod_mul]

theorem FeBits.full_write (t : FeBits) (w v : Nat) (b : Bool) :
    (t.write w b).full v = if w = v then b else t.full v :=
  Table.get_set false t w v b

end Sys2Proof.Machine
end

