-- ==== Sys2Proof/Laws/State.lean ====
section
/-! SUPPORT. Laws of the state's accessors: what each update of a part leaves alone, field by field, and what a reader finds
after an update. -/

namespace Sys2Proof.Machine

/-! ### The other fields of the state after an update -/

@[simp] theorem State.setNode_pkgs (s : State) (g : Nat) (n : Node) : (s.setNode g n).pkgs = s.pkgs := rfl
@[simp] theorem State.setNode_dram (s : State) (g : Nat) (n : Node) : (s.setNode g n).dram = s.dram := rfl
@[simp] theorem State.setNode_dramFe (s : State) (g : Nat) (n : Node) : (s.setNode g n).dramFe = s.dramFe := rfl
@[simp] theorem State.setNode_dramBad (s : State) (g : Nat) (n : Node) : (s.setNode g n).dramBad = s.dramBad := rfl
@[simp] theorem State.setNode_wordBad (s : State) (g : Nat) (n : Node) : (s.setNode g n).wordBad = s.wordBad := rfl
@[simp] theorem State.setNode_cxl (s : State) (g : Nat) (n : Node) : (s.setNode g n).cxl = s.cxl := rfl
@[simp] theorem State.setNode_host (s : State) (g : Nat) (n : Node) : (s.setNode g n).host = s.host := rfl
@[simp] theorem State.setNode_net (s : State) (g : Nat) (n : Node) : (s.setNode g n).net = s.net := rfl
@[simp] theorem State.setNode_stamp (s : State) (g : Nat) (n : Node) : (s.setNode g n).stamp = s.stamp := rfl
@[simp] theorem State.setNode_cur (s : State) (g : Nat) (n : Node) : (s.setNode g n).cur = s.cur := rfl
@[simp] theorem State.setNode_agenda (s : State) (g : Nat) (n : Node) : (s.setNode g n).agenda = s.agenda := rfl
@[simp] theorem State.setNode_rotor (s : State) (g : Nat) (n : Node) : (s.setNode g n).rotor = s.rotor := rfl
@[simp] theorem State.setNode_split (s : State) (g : Nat) (n : Node) : (s.setNode g n).split = s.split := rfl
@[simp] theorem State.setNode_nextId (s : State) (g : Nat) (n : Node) : (s.setNode g n).nextId = s.nextId := rfl
@[simp] theorem State.setNode_fresh (s : State) (g : Nat) (n : Node) : (s.setNode g n).fresh = s.fresh := rfl

@[simp] theorem State.modNode_pkgs (s : State) (g : Nat) (f : Node → Node) : (s.modNode g f).pkgs = s.pkgs := rfl
@[simp] theorem State.modNode_dram (s : State) (g : Nat) (f : Node → Node) : (s.modNode g f).dram = s.dram := rfl
@[simp] theorem State.modNode_dramFe (s : State) (g : Nat) (f : Node → Node) : (s.modNode g f).dramFe = s.dramFe := rfl
@[simp] theorem State.modNode_dramBad (s : State) (g : Nat) (f : Node → Node) : (s.modNode g f).dramBad = s.dramBad := rfl
@[simp] theorem State.modNode_wordBad (s : State) (g : Nat) (f : Node → Node) : (s.modNode g f).wordBad = s.wordBad := rfl
@[simp] theorem State.modNode_cxl (s : State) (g : Nat) (f : Node → Node) : (s.modNode g f).cxl = s.cxl := rfl
@[simp] theorem State.modNode_host (s : State) (g : Nat) (f : Node → Node) : (s.modNode g f).host = s.host := rfl
@[simp] theorem State.modNode_net (s : State) (g : Nat) (f : Node → Node) : (s.modNode g f).net = s.net := rfl
@[simp] theorem State.modNode_stamp (s : State) (g : Nat) (f : Node → Node) : (s.modNode g f).stamp = s.stamp := rfl
@[simp] theorem State.modNode_cur (s : State) (g : Nat) (f : Node → Node) : (s.modNode g f).cur = s.cur := rfl
@[simp] theorem State.modNode_agenda (s : State) (g : Nat) (f : Node → Node) : (s.modNode g f).agenda = s.agenda := rfl
@[simp] theorem State.modNode_rotor (s : State) (g : Nat) (f : Node → Node) : (s.modNode g f).rotor = s.rotor := rfl
@[simp] theorem State.modNode_split (s : State) (g : Nat) (f : Node → Node) : (s.modNode g f).split = s.split := rfl
@[simp] theorem State.modNode_nextId (s : State) (g : Nat) (f : Node → Node) : (s.modNode g f).nextId = s.nextId := rfl
@[simp] theorem State.modNode_fresh (s : State) (g : Nat) (f : Node → Node) : (s.modNode g f).fresh = s.fresh := rfl

@[simp] theorem State.setLive_pkgs (s : State) (g : Nat) (m : Img) : (s.setLive g m).pkgs = s.pkgs := rfl
@[simp] theorem State.setLive_dram (s : State) (g : Nat) (m : Img) : (s.setLive g m).dram = s.dram := rfl
@[simp] theorem State.setLive_dramFe (s : State) (g : Nat) (m : Img) : (s.setLive g m).dramFe = s.dramFe := rfl
@[simp] theorem State.setLive_dramBad (s : State) (g : Nat) (m : Img) : (s.setLive g m).dramBad = s.dramBad := rfl
@[simp] theorem State.setLive_wordBad (s : State) (g : Nat) (m : Img) : (s.setLive g m).wordBad = s.wordBad := rfl
@[simp] theorem State.setLive_cxl (s : State) (g : Nat) (m : Img) : (s.setLive g m).cxl = s.cxl := rfl
@[simp] theorem State.setLive_host (s : State) (g : Nat) (m : Img) : (s.setLive g m).host = s.host := rfl
@[simp] theorem State.setLive_net (s : State) (g : Nat) (m : Img) : (s.setLive g m).net = s.net := rfl
@[simp] theorem State.setLive_stamp (s : State) (g : Nat) (m : Img) : (s.setLive g m).stamp = s.stamp := rfl
@[simp] theorem State.setLive_cur (s : State) (g : Nat) (m : Img) : (s.setLive g m).cur = s.cur := rfl
@[simp] theorem State.setLive_agenda (s : State) (g : Nat) (m : Img) : (s.setLive g m).agenda = s.agenda := rfl
@[simp] theorem State.setLive_rotor (s : State) (g : Nat) (m : Img) : (s.setLive g m).rotor = s.rotor := rfl
@[simp] theorem State.setLive_split (s : State) (g : Nat) (m : Img) : (s.setLive g m).split = s.split := rfl
@[simp] theorem State.setLive_nextId (s : State) (g : Nat) (m : Img) : (s.setLive g m).nextId = s.nextId := rfl
@[simp] theorem State.setLive_fresh (s : State) (g : Nat) (m : Img) : (s.setLive g m).fresh = s.fresh := rfl

@[simp] theorem State.modLive_pkgs (s : State) (g : Nat) (f : Img → Img) : (s.modLive g f).pkgs = s.pkgs := rfl
@[simp] theorem State.modLive_dram (s : State) (g : Nat) (f : Img → Img) : (s.modLive g f).dram = s.dram := rfl
@[simp] theorem State.modLive_dramFe (s : State) (g : Nat) (f : Img → Img) : (s.modLive g f).dramFe = s.dramFe := rfl
@[simp] theorem State.modLive_dramBad (s : State) (g : Nat) (f : Img → Img) : (s.modLive g f).dramBad = s.dramBad := rfl
@[simp] theorem State.modLive_wordBad (s : State) (g : Nat) (f : Img → Img) : (s.modLive g f).wordBad = s.wordBad := rfl
@[simp] theorem State.modLive_cxl (s : State) (g : Nat) (f : Img → Img) : (s.modLive g f).cxl = s.cxl := rfl
@[simp] theorem State.modLive_host (s : State) (g : Nat) (f : Img → Img) : (s.modLive g f).host = s.host := rfl
@[simp] theorem State.modLive_net (s : State) (g : Nat) (f : Img → Img) : (s.modLive g f).net = s.net := rfl
@[simp] theorem State.modLive_stamp (s : State) (g : Nat) (f : Img → Img) : (s.modLive g f).stamp = s.stamp := rfl
@[simp] theorem State.modLive_cur (s : State) (g : Nat) (f : Img → Img) : (s.modLive g f).cur = s.cur := rfl
@[simp] theorem State.modLive_agenda (s : State) (g : Nat) (f : Img → Img) : (s.modLive g f).agenda = s.agenda := rfl
@[simp] theorem State.modLive_rotor (s : State) (g : Nat) (f : Img → Img) : (s.modLive g f).rotor = s.rotor := rfl
@[simp] theorem State.modLive_split (s : State) (g : Nat) (f : Img → Img) : (s.modLive g f).split = s.split := rfl
@[simp] theorem State.modLive_nextId (s : State) (g : Nat) (f : Img → Img) : (s.modLive g f).nextId = s.nextId := rfl
@[simp] theorem State.modLive_fresh (s : State) (g : Nat) (f : Img → Img) : (s.modLive g f).fresh = s.fresh := rfl

@[simp] theorem State.modImg_pkgs (s : State) (g : Nat) (q : Option Nat) (f : Img → Img) : (s.modImg g q f).pkgs = s.pkgs := rfl
@[simp] theorem State.modImg_dram (s : State) (g : Nat) (q : Option Nat) (f : Img → Img) : (s.modImg g q f).dram = s.dram := rfl
@[simp] theorem State.modImg_dramFe (s : State) (g : Nat) (q : Option Nat) (f : Img → Img) : (s.modImg g q f).dramFe = s.dramFe := rfl
@[simp] theorem State.modImg_dramBad (s : State) (g : Nat) (q : Option Nat) (f : Img → Img) : (s.modImg g q f).dramBad = s.dramBad := rfl
@[simp] theorem State.modImg_wordBad (s : State) (g : Nat) (q : Option Nat) (f : Img → Img) : (s.modImg g q f).wordBad = s.wordBad := rfl
@[simp] theorem State.modImg_cxl (s : State) (g : Nat) (q : Option Nat) (f : Img → Img) : (s.modImg g q f).cxl = s.cxl := rfl
@[simp] theorem State.modImg_host (s : State) (g : Nat) (q : Option Nat) (f : Img → Img) : (s.modImg g q f).host = s.host := rfl
@[simp] theorem State.modImg_net (s : State) (g : Nat) (q : Option Nat) (f : Img → Img) : (s.modImg g q f).net = s.net := rfl
@[simp] theorem State.modImg_stamp (s : State) (g : Nat) (q : Option Nat) (f : Img → Img) : (s.modImg g q f).stamp = s.stamp := rfl
@[simp] theorem State.modImg_cur (s : State) (g : Nat) (q : Option Nat) (f : Img → Img) : (s.modImg g q f).cur = s.cur := rfl
@[simp] theorem State.modImg_agenda (s : State) (g : Nat) (q : Option Nat) (f : Img → Img) : (s.modImg g q f).agenda = s.agenda := rfl
@[simp] theorem State.modImg_rotor (s : State) (g : Nat) (q : Option Nat) (f : Img → Img) : (s.modImg g q f).rotor = s.rotor := rfl
@[simp] theorem State.modImg_split (s : State) (g : Nat) (q : Option Nat) (f : Img → Img) : (s.modImg g q f).split = s.split := rfl
@[simp] theorem State.modImg_nextId (s : State) (g : Nat) (q : Option Nat) (f : Img → Img) : (s.modImg g q f).nextId = s.nextId := rfl
@[simp] theorem State.modImg_fresh (s : State) (g : Nat) (q : Option Nat) (f : Img → Img) : (s.modImg g q f).fresh = s.fresh := rfl

@[simp] theorem State.modOwner_pkgs (s : State) (i : Inst) (q : Option Nat) (f : Ctx → Ctx) : (s.modOwner i q f).pkgs = s.pkgs := rfl
@[simp] theorem State.modOwner_dram (s : State) (i : Inst) (q : Option Nat) (f : Ctx → Ctx) : (s.modOwner i q f).dram = s.dram := rfl
@[simp] theorem State.modOwner_dramFe (s : State) (i : Inst) (q : Option Nat) (f : Ctx → Ctx) : (s.modOwner i q f).dramFe = s.dramFe := rfl
@[simp] theorem State.modOwner_dramBad (s : State) (i : Inst) (q : Option Nat) (f : Ctx → Ctx) : (s.modOwner i q f).dramBad = s.dramBad := rfl
@[simp] theorem State.modOwner_wordBad (s : State) (i : Inst) (q : Option Nat) (f : Ctx → Ctx) : (s.modOwner i q f).wordBad = s.wordBad := rfl
@[simp] theorem State.modOwner_cxl (s : State) (i : Inst) (q : Option Nat) (f : Ctx → Ctx) : (s.modOwner i q f).cxl = s.cxl := rfl
@[simp] theorem State.modOwner_host (s : State) (i : Inst) (q : Option Nat) (f : Ctx → Ctx) : (s.modOwner i q f).host = s.host := rfl
@[simp] theorem State.modOwner_net (s : State) (i : Inst) (q : Option Nat) (f : Ctx → Ctx) : (s.modOwner i q f).net = s.net := rfl
@[simp] theorem State.modOwner_stamp (s : State) (i : Inst) (q : Option Nat) (f : Ctx → Ctx) : (s.modOwner i q f).stamp = s.stamp := rfl
@[simp] theorem State.modOwner_cur (s : State) (i : Inst) (q : Option Nat) (f : Ctx → Ctx) : (s.modOwner i q f).cur = s.cur := rfl
@[simp] theorem State.modOwner_agenda (s : State) (i : Inst) (q : Option Nat) (f : Ctx → Ctx) : (s.modOwner i q f).agenda = s.agenda := rfl
@[simp] theorem State.modOwner_rotor (s : State) (i : Inst) (q : Option Nat) (f : Ctx → Ctx) : (s.modOwner i q f).rotor = s.rotor := rfl
@[simp] theorem State.modOwner_split (s : State) (i : Inst) (q : Option Nat) (f : Ctx → Ctx) : (s.modOwner i q f).split = s.split := rfl
@[simp] theorem State.modOwner_nextId (s : State) (i : Inst) (q : Option Nat) (f : Ctx → Ctx) : (s.modOwner i q f).nextId = s.nextId := rfl
@[simp] theorem State.modOwner_fresh (s : State) (i : Inst) (q : Option Nat) (f : Ctx → Ctx) : (s.modOwner i q f).fresh = s.fresh := rfl

@[simp] theorem State.setCtx_pkgs (s : State) (i : Inst) (c : Ctx) : (s.setCtx i c).pkgs = s.pkgs := rfl
@[simp] theorem State.setCtx_dram (s : State) (i : Inst) (c : Ctx) : (s.setCtx i c).dram = s.dram := rfl
@[simp] theorem State.setCtx_dramFe (s : State) (i : Inst) (c : Ctx) : (s.setCtx i c).dramFe = s.dramFe := rfl
@[simp] theorem State.setCtx_dramBad (s : State) (i : Inst) (c : Ctx) : (s.setCtx i c).dramBad = s.dramBad := rfl
@[simp] theorem State.setCtx_wordBad (s : State) (i : Inst) (c : Ctx) : (s.setCtx i c).wordBad = s.wordBad := rfl
@[simp] theorem State.setCtx_cxl (s : State) (i : Inst) (c : Ctx) : (s.setCtx i c).cxl = s.cxl := rfl
@[simp] theorem State.setCtx_host (s : State) (i : Inst) (c : Ctx) : (s.setCtx i c).host = s.host := rfl
@[simp] theorem State.setCtx_net (s : State) (i : Inst) (c : Ctx) : (s.setCtx i c).net = s.net := rfl
@[simp] theorem State.setCtx_stamp (s : State) (i : Inst) (c : Ctx) : (s.setCtx i c).stamp = s.stamp := rfl
@[simp] theorem State.setCtx_cur (s : State) (i : Inst) (c : Ctx) : (s.setCtx i c).cur = s.cur := rfl
@[simp] theorem State.setCtx_agenda (s : State) (i : Inst) (c : Ctx) : (s.setCtx i c).agenda = s.agenda := rfl
@[simp] theorem State.setCtx_rotor (s : State) (i : Inst) (c : Ctx) : (s.setCtx i c).rotor = s.rotor := rfl
@[simp] theorem State.setCtx_split (s : State) (i : Inst) (c : Ctx) : (s.setCtx i c).split = s.split := rfl
@[simp] theorem State.setCtx_nextId (s : State) (i : Inst) (c : Ctx) : (s.setCtx i c).nextId = s.nextId := rfl
@[simp] theorem State.setCtx_fresh (s : State) (i : Inst) (c : Ctx) : (s.setCtx i c).fresh = s.fresh := rfl

@[simp] theorem State.modCtx_pkgs (s : State) (i : Inst) (f : Ctx → Ctx) : (s.modCtx i f).pkgs = s.pkgs := rfl
@[simp] theorem State.modCtx_dram (s : State) (i : Inst) (f : Ctx → Ctx) : (s.modCtx i f).dram = s.dram := rfl
@[simp] theorem State.modCtx_dramFe (s : State) (i : Inst) (f : Ctx → Ctx) : (s.modCtx i f).dramFe = s.dramFe := rfl
@[simp] theorem State.modCtx_dramBad (s : State) (i : Inst) (f : Ctx → Ctx) : (s.modCtx i f).dramBad = s.dramBad := rfl
@[simp] theorem State.modCtx_wordBad (s : State) (i : Inst) (f : Ctx → Ctx) : (s.modCtx i f).wordBad = s.wordBad := rfl
@[simp] theorem State.modCtx_cxl (s : State) (i : Inst) (f : Ctx → Ctx) : (s.modCtx i f).cxl = s.cxl := rfl
@[simp] theorem State.modCtx_host (s : State) (i : Inst) (f : Ctx → Ctx) : (s.modCtx i f).host = s.host := rfl
@[simp] theorem State.modCtx_net (s : State) (i : Inst) (f : Ctx → Ctx) : (s.modCtx i f).net = s.net := rfl
@[simp] theorem State.modCtx_stamp (s : State) (i : Inst) (f : Ctx → Ctx) : (s.modCtx i f).stamp = s.stamp := rfl
@[simp] theorem State.modCtx_cur (s : State) (i : Inst) (f : Ctx → Ctx) : (s.modCtx i f).cur = s.cur := rfl
@[simp] theorem State.modCtx_agenda (s : State) (i : Inst) (f : Ctx → Ctx) : (s.modCtx i f).agenda = s.agenda := rfl
@[simp] theorem State.modCtx_rotor (s : State) (i : Inst) (f : Ctx → Ctx) : (s.modCtx i f).rotor = s.rotor := rfl
@[simp] theorem State.modCtx_split (s : State) (i : Inst) (f : Ctx → Ctx) : (s.modCtx i f).split = s.split := rfl
@[simp] theorem State.modCtx_nextId (s : State) (i : Inst) (f : Ctx → Ctx) : (s.modCtx i f).nextId = s.nextId := rfl
@[simp] theorem State.modCtx_fresh (s : State) (i : Inst) (f : Ctx → Ctx) : (s.modCtx i f).fresh = s.fresh := rfl

@[simp] theorem State.setPkg_nodes (s : State) (p : Nat) (k : Pkg) : (s.setPkg p k).nodes = s.nodes := rfl
@[simp] theorem State.setPkg_dram (s : State) (p : Nat) (k : Pkg) : (s.setPkg p k).dram = s.dram := rfl
@[simp] theorem State.setPkg_dramFe (s : State) (p : Nat) (k : Pkg) : (s.setPkg p k).dramFe = s.dramFe := rfl
@[simp] theorem State.setPkg_dramBad (s : State) (p : Nat) (k : Pkg) : (s.setPkg p k).dramBad = s.dramBad := rfl
@[simp] theorem State.setPkg_wordBad (s : State) (p : Nat) (k : Pkg) : (s.setPkg p k).wordBad = s.wordBad := rfl
@[simp] theorem State.setPkg_cxl (s : State) (p : Nat) (k : Pkg) : (s.setPkg p k).cxl = s.cxl := rfl
@[simp] theorem State.setPkg_host (s : State) (p : Nat) (k : Pkg) : (s.setPkg p k).host = s.host := rfl
@[simp] theorem State.setPkg_net (s : State) (p : Nat) (k : Pkg) : (s.setPkg p k).net = s.net := rfl
@[simp] theorem State.setPkg_stamp (s : State) (p : Nat) (k : Pkg) : (s.setPkg p k).stamp = s.stamp := rfl
@[simp] theorem State.setPkg_cur (s : State) (p : Nat) (k : Pkg) : (s.setPkg p k).cur = s.cur := rfl
@[simp] theorem State.setPkg_agenda (s : State) (p : Nat) (k : Pkg) : (s.setPkg p k).agenda = s.agenda := rfl
@[simp] theorem State.setPkg_rotor (s : State) (p : Nat) (k : Pkg) : (s.setPkg p k).rotor = s.rotor := rfl
@[simp] theorem State.setPkg_split (s : State) (p : Nat) (k : Pkg) : (s.setPkg p k).split = s.split := rfl
@[simp] theorem State.setPkg_nextId (s : State) (p : Nat) (k : Pkg) : (s.setPkg p k).nextId = s.nextId := rfl
@[simp] theorem State.setPkg_fresh (s : State) (p : Nat) (k : Pkg) : (s.setPkg p k).fresh = s.fresh := rfl

@[simp] theorem State.modPkg_nodes (s : State) (p : Nat) (f : Pkg → Pkg) : (s.modPkg p f).nodes = s.nodes := rfl
@[simp] theorem State.modPkg_dram (s : State) (p : Nat) (f : Pkg → Pkg) : (s.modPkg p f).dram = s.dram := rfl
@[simp] theorem State.modPkg_dramFe (s : State) (p : Nat) (f : Pkg → Pkg) : (s.modPkg p f).dramFe = s.dramFe := rfl
@[simp] theorem State.modPkg_dramBad (s : State) (p : Nat) (f : Pkg → Pkg) : (s.modPkg p f).dramBad = s.dramBad := rfl
@[simp] theorem State.modPkg_wordBad (s : State) (p : Nat) (f : Pkg → Pkg) : (s.modPkg p f).wordBad = s.wordBad := rfl
@[simp] theorem State.modPkg_cxl (s : State) (p : Nat) (f : Pkg → Pkg) : (s.modPkg p f).cxl = s.cxl := rfl
@[simp] theorem State.modPkg_host (s : State) (p : Nat) (f : Pkg → Pkg) : (s.modPkg p f).host = s.host := rfl
@[simp] theorem State.modPkg_net (s : State) (p : Nat) (f : Pkg → Pkg) : (s.modPkg p f).net = s.net := rfl
@[simp] theorem State.modPkg_stamp (s : State) (p : Nat) (f : Pkg → Pkg) : (s.modPkg p f).stamp = s.stamp := rfl
@[simp] theorem State.modPkg_cur (s : State) (p : Nat) (f : Pkg → Pkg) : (s.modPkg p f).cur = s.cur := rfl
@[simp] theorem State.modPkg_agenda (s : State) (p : Nat) (f : Pkg → Pkg) : (s.modPkg p f).agenda = s.agenda := rfl
@[simp] theorem State.modPkg_rotor (s : State) (p : Nat) (f : Pkg → Pkg) : (s.modPkg p f).rotor = s.rotor := rfl
@[simp] theorem State.modPkg_split (s : State) (p : Nat) (f : Pkg → Pkg) : (s.modPkg p f).split = s.split := rfl
@[simp] theorem State.modPkg_nextId (s : State) (p : Nat) (f : Pkg → Pkg) : (s.modPkg p f).nextId = s.nextId := rfl
@[simp] theorem State.modPkg_fresh (s : State) (p : Nat) (f : Pkg → Pkg) : (s.modPkg p f).fresh = s.fresh := rfl

@[simp] theorem State.sent_pkgs (s : State) (g : Nat) (q : Option Nat) (b : Bool) : (s.sent g q b).pkgs = s.pkgs := rfl
@[simp] theorem State.sent_dram (s : State) (g : Nat) (q : Option Nat) (b : Bool) : (s.sent g q b).dram = s.dram := rfl
@[simp] theorem State.sent_dramFe (s : State) (g : Nat) (q : Option Nat) (b : Bool) : (s.sent g q b).dramFe = s.dramFe := rfl
@[simp] theorem State.sent_dramBad (s : State) (g : Nat) (q : Option Nat) (b : Bool) : (s.sent g q b).dramBad = s.dramBad := rfl
@[simp] theorem State.sent_wordBad (s : State) (g : Nat) (q : Option Nat) (b : Bool) : (s.sent g q b).wordBad = s.wordBad := rfl
@[simp] theorem State.sent_cxl (s : State) (g : Nat) (q : Option Nat) (b : Bool) : (s.sent g q b).cxl = s.cxl := rfl
@[simp] theorem State.sent_host (s : State) (g : Nat) (q : Option Nat) (b : Bool) : (s.sent g q b).host = s.host := rfl
@[simp] theorem State.sent_net (s : State) (g : Nat) (q : Option Nat) (b : Bool) : (s.sent g q b).net = s.net := rfl
@[simp] theorem State.sent_stamp (s : State) (g : Nat) (q : Option Nat) (b : Bool) : (s.sent g q b).stamp = s.stamp := rfl
@[simp] theorem State.sent_cur (s : State) (g : Nat) (q : Option Nat) (b : Bool) : (s.sent g q b).cur = s.cur := rfl
@[simp] theorem State.sent_agenda (s : State) (g : Nat) (q : Option Nat) (b : Bool) : (s.sent g q b).agenda = s.agenda := rfl
@[simp] theorem State.sent_rotor (s : State) (g : Nat) (q : Option Nat) (b : Bool) : (s.sent g q b).rotor = s.rotor := rfl
@[simp] theorem State.sent_split (s : State) (g : Nat) (q : Option Nat) (b : Bool) : (s.sent g q b).split = s.split := rfl
@[simp] theorem State.sent_nextId (s : State) (g : Nat) (q : Option Nat) (b : Bool) : (s.sent g q b).nextId = s.nextId := rfl
@[simp] theorem State.sent_fresh (s : State) (g : Nat) (q : Option Nat) (b : Bool) : (s.sent g q b).fresh = s.fresh := rfl

@[simp] theorem State.retired_pkgs (s : State) (g : Nat) (q : Option Nat) (b : Bool) : (s.retired g q b).pkgs = s.pkgs := rfl
@[simp] theorem State.retired_dram (s : State) (g : Nat) (q : Option Nat) (b : Bool) : (s.retired g q b).dram = s.dram := rfl
@[simp] theorem State.retired_dramFe (s : State) (g : Nat) (q : Option Nat) (b : Bool) : (s.retired g q b).dramFe = s.dramFe := rfl
@[simp] theorem State.retired_dramBad (s : State) (g : Nat) (q : Option Nat) (b : Bool) : (s.retired g q b).dramBad = s.dramBad := rfl
@[simp] theorem State.retired_wordBad (s : State) (g : Nat) (q : Option Nat) (b : Bool) : (s.retired g q b).wordBad = s.wordBad := rfl
@[simp] theorem State.retired_cxl (s : State) (g : Nat) (q : Option Nat) (b : Bool) : (s.retired g q b).cxl = s.cxl := rfl
@[simp] theorem State.retired_host (s : State) (g : Nat) (q : Option Nat) (b : Bool) : (s.retired g q b).host = s.host := rfl
@[simp] theorem State.retired_net (s : State) (g : Nat) (q : Option Nat) (b : Bool) : (s.retired g q b).net = s.net := rfl
@[simp] theorem State.retired_stamp (s : State) (g : Nat) (q : Option Nat) (b : Bool) : (s.retired g q b).stamp = s.stamp := rfl
@[simp] theorem State.retired_cur (s : State) (g : Nat) (q : Option Nat) (b : Bool) : (s.retired g q b).cur = s.cur := rfl
@[simp] theorem State.retired_agenda (s : State) (g : Nat) (q : Option Nat) (b : Bool) : (s.retired g q b).agenda = s.agenda := rfl
@[simp] theorem State.retired_rotor (s : State) (g : Nat) (q : Option Nat) (b : Bool) : (s.retired g q b).rotor = s.rotor := rfl
@[simp] theorem State.retired_split (s : State) (g : Nat) (q : Option Nat) (b : Bool) : (s.retired g q b).split = s.split := rfl
@[simp] theorem State.retired_nextId (s : State) (g : Nat) (q : Option Nat) (b : Bool) : (s.retired g q b).nextId = s.nextId := rfl
@[simp] theorem State.retired_fresh (s : State) (g : Nat) (q : Option Nat) (b : Bool) : (s.retired g q b).fresh = s.fresh := rfl

@[simp] theorem State.free_nodes (s : State) : s.free.2.nodes = s.nodes := rfl
@[simp] theorem State.free_pkgs (s : State) : s.free.2.pkgs = s.pkgs := rfl
@[simp] theorem State.free_dram (s : State) : s.free.2.dram = s.dram := rfl
@[simp] theorem State.free_dramFe (s : State) : s.free.2.dramFe = s.dramFe := rfl
@[simp] theorem State.free_dramBad (s : State) : s.free.2.dramBad = s.dramBad := rfl
@[simp] theorem State.free_wordBad (s : State) : s.free.2.wordBad = s.wordBad := rfl
@[simp] theorem State.free_cxl (s : State) : s.free.2.cxl = s.cxl := rfl
@[simp] theorem State.free_host (s : State) : s.free.2.host = s.host := rfl
@[simp] theorem State.free_net (s : State) : s.free.2.net = s.net := rfl
@[simp] theorem State.free_stamp (s : State) : s.free.2.stamp = s.stamp := rfl
@[simp] theorem State.free_cur (s : State) : s.free.2.cur = s.cur := rfl
@[simp] theorem State.free_agenda (s : State) : s.free.2.agenda = s.agenda := rfl
@[simp] theorem State.free_rotor (s : State) : s.free.2.rotor = s.rotor := rfl
@[simp] theorem State.free_split (s : State) : s.free.2.split = s.split := rfl
@[simp] theorem State.free_nextId (s : State) : s.free.2.nextId = s.nextId := rfl
@[simp] theorem State.newId_nodes (s : State) : s.newId.2.nodes = s.nodes := rfl
@[simp] theorem State.newId_pkgs (s : State) : s.newId.2.pkgs = s.pkgs := rfl
@[simp] theorem State.newId_dram (s : State) : s.newId.2.dram = s.dram := rfl
@[simp] theorem State.newId_dramFe (s : State) : s.newId.2.dramFe = s.dramFe := rfl
@[simp] theorem State.newId_dramBad (s : State) : s.newId.2.dramBad = s.dramBad := rfl
@[simp] theorem State.newId_wordBad (s : State) : s.newId.2.wordBad = s.wordBad := rfl
@[simp] theorem State.newId_cxl (s : State) : s.newId.2.cxl = s.cxl := rfl
@[simp] theorem State.newId_host (s : State) : s.newId.2.host = s.host := rfl
@[simp] theorem State.newId_net (s : State) : s.newId.2.net = s.net := rfl
@[simp] theorem State.newId_stamp (s : State) : s.newId.2.stamp = s.stamp := rfl
@[simp] theorem State.newId_cur (s : State) : s.newId.2.cur = s.cur := rfl
@[simp] theorem State.newId_agenda (s : State) : s.newId.2.agenda = s.agenda := rfl
@[simp] theorem State.newId_rotor (s : State) : s.newId.2.rotor = s.rotor := rfl
@[simp] theorem State.newId_split (s : State) : s.newId.2.split = s.split := rfl
@[simp] theorem State.newId_fresh (s : State) : s.newId.2.fresh = s.fresh := rfl

/-! ### Nodes and packages -/

theorem State.node_setNode (s : State) (g j : Nat) (n : Node) : (s.setNode g n).node j = if g = j then n else s.node j :=
  Table.get_put ({} : Node) s.nodes g j n

@[simp] theorem State.node_setNode_same (s : State) (g : Nat) (n : Node) : (s.setNode g n).node g = n := by
  simp [State.node_setNode]

theorem State.node_setNode_ne (s : State) {g j : Nat} (n : Node) (h : g ≠ j) : (s.setNode g n).node j = s.node j := by
  simp [State.node_setNode, h]

@[simp] theorem State.node_modNode_same (s : State) (g : Nat) (f : Node → Node) : (s.modNode g f).node g = f (s.node g) := by
  simp [State.modNode]

theorem State.node_modNode_ne (s : State) {g j : Nat} (f : Node → Node) (h : g ≠ j) : (s.modNode g f).node j = s.node j := by
  simp [State.modNode, State.node_setNode, h]

theorem State.pkg_setPkg (s : State) (p j : Nat) (k : Pkg) : (s.setPkg p k).pkg j = if p = j then k else s.pkg j :=
  Table.get_put ({} : Pkg) s.pkgs p j k

@[simp] theorem State.pkg_setPkg_same (s : State) (p : Nat) (k : Pkg) : (s.setPkg p k).pkg p = k := by
  simp [State.pkg_setPkg]

@[simp] theorem State.pkg_modPkg_same (s : State) (p : Nat) (f : Pkg → Pkg) : (s.modPkg p f).pkg p = f (s.pkg p) := by
  simp [State.modPkg]

@[simp] theorem State.node_setPkg (s : State) (p : Nat) (k : Pkg) (g : Nat) : (s.setPkg p k).node g = s.node g := rfl
@[simp] theorem State.node_modPkg (s : State) (p : Nat) (f : Pkg → Pkg) (g : Nat) : (s.modPkg p f).node g = s.node g := rfl
@[simp] theorem State.pkg_setNode (s : State) (g : Nat) (n : Node) (p : Nat) : (s.setNode g n).pkg p = s.pkg p := rfl
@[simp] theorem State.pkg_modNode (s : State) (g : Nat) (f : Node → Node) (p : Nat) : (s.modNode g f).pkg p = s.pkg p := rfl
@[simp] theorem State.pkg_setCtx (s : State) (i : Inst) (c : Ctx) (p : Nat) : (s.setCtx i c).pkg p = s.pkg p := rfl
@[simp] theorem State.pkg_modCtx (s : State) (i : Inst) (f : Ctx → Ctx) (p : Nat) : (s.modCtx i f).pkg p = s.pkg p := rfl

/-! ### Contexts -/

@[simp] theorem Img.ctx_setCtx_same (m : Img) (k : CtxId) (c : Ctx) : (m.setCtx k c).ctx k = c := by
  cases k <;> rfl

theorem Img.ctx_setCtx_ne (m : Img) {k j : CtxId} (c : Ctx) (h : k ≠ j) : (m.setCtx k c).ctx j = m.ctx j := by
  cases k <;> cases j <;> first | rfl | exact absurd rfl h

@[simp] theorem State.live_setLive_same (s : State) (g : Nat) (m : Img) : (s.setLive g m).live g = m := by
  simp [State.live, State.setLive]

theorem State.live_setLive_ne (s : State) {g j : Nat} (m : Img) (h : g ≠ j) : (s.setLive g m).live j = s.live j := by
  simp [State.live, State.setLive, State.node_modNode_ne _ _ h]

@[simp] theorem State.live_modLive_same (s : State) (g : Nat) (f : Img → Img) : (s.modLive g f).live g = f (s.live g) := by
  simp [State.modLive]

@[simp] theorem State.ctx_setCtx_same (s : State) (i : Inst) (c : Ctx) : (s.setCtx i c).ctx i = c := by
  simp [State.ctx, State.setCtx]

@[simp] theorem State.ctx_modCtx_same (s : State) (i : Inst) (f : Ctx → Ctx) : (s.modCtx i f).ctx i = f (s.ctx i) := by
  simp [State.modCtx]

theorem State.ctx_setCtx_ne (s : State) {i j : Inst} (c : Ctx) (h : i ≠ j) : (s.setCtx i c).ctx j = s.ctx j := by
  by_cases hn : i.node = j.node
  · have hk : i.ctx ≠ j.ctx := fun hk => h (by cases i; cases j; simp_all)
    simp [State.ctx, State.setCtx, hn, Img.ctx_setCtx_ne _ _ hk]
  · simp [State.ctx, State.setCtx, State.live_setLive_ne _ _ hn]

theorem State.ctx_modCtx_ne (s : State) {i j : Inst} (f : Ctx → Ctx) (h : i ≠ j) : (s.modCtx i f).ctx j = s.ctx j :=
  s.ctx_setCtx_ne _ h

@[simp] theorem State.ctx_setPkg (s : State) (p : Nat) (k : Pkg) (i : Inst) : (s.setPkg p k).ctx i = s.ctx i := rfl
@[simp] theorem State.ctx_modPkg (s : State) (p : Nat) (f : Pkg → Pkg) (i : Inst) : (s.modPkg p f).ctx i = s.ctx i := rfl

/-! ### What a context's update leaves of its node -/

@[simp] theorem Img.setCtx_part (m : Img) (k : CtxId) (c : Ctx) : (m.setCtx k c).part = m.part := by cases k <;> rfl
@[simp] theorem Img.setCtx_spm (m : Img) (k : CtxId) (c : Ctx) : (m.setCtx k c).spm = m.spm := by cases k <;> rfl
@[simp] theorem Img.setCtx_fe (m : Img) (k : CtxId) (c : Ctx) : (m.setCtx k c).fe = m.fe := by cases k <;> rfl

/-- A node with a context replaced. -/
theorem State.node_setCtx (s : State) (i : Inst) (c : Ctx) (g : Nat) :
    (s.setCtx i c).node g =
      if i.node = g then { s.node g with live := (s.live g).setCtx i.ctx c } else s.node g := by
  unfold State.setCtx State.setLive State.modNode
  rw [State.node_setNode]
  split
  · rename_i h; subst h; rfl
  · rfl

/-- Where a node holds a partition's image depends on its live image's partition alone. -/
theorem Node.held_live (n : Node) (m : Img) (g : Nat) (q : Option Nat) (h : m.part = n.live.part) :
    ({ n with live := m } : Node).held g q = n.held g q := by
  simp [Node.held, h]

/-- Replacing a context changes no image's bytes. -/
@[simp] theorem State.img_setCtx_spm (s : State) (i : Inst) (c : Ctx) (g : Nat) (q : Option Nat) :
    ((s.setCtx i c).img g q).spm = (s.img g q).spm := by
  unfold State.img
  rw [State.node_setCtx]
  split
  · simp only [Node.held_live (s.node g) _ g q (Img.setCtx_part _ _ _), State.live]
    cases (s.node g).held g q <;> simp
  · rfl

@[simp] theorem State.img_setCtx_fe (s : State) (i : Inst) (c : Ctx) (g : Nat) (q : Option Nat) :
    ((s.setCtx i c).img g q).fe = (s.img g q).fe := by
  unfold State.img
  rw [State.node_setCtx]
  split
  · simp only [Node.held_live (s.node g) _ g q (Img.setCtx_part _ _ _), State.live]
    cases (s.node g).held g q <;> simp
  · rfl

/-- Replacing a context changes no byte that any place holds. -/
@[simp] theorem State.readPlace_setCtx (s : State) (i : Inst) (c : Ctx) (p : Place) (n : Nat) :
    (s.setCtx i c).readPlace p n = s.readPlace p n := by
  cases p <;> simp [State.readPlace]

@[simp] theorem State.readPlace_modCtx (s : State) (i : Inst) (f : Ctx → Ctx) (p : Place) (n : Nat) :
    (s.modCtx i f).readPlace p n = s.readPlace p n :=
  s.readPlace_setCtx i _ p n

@[simp] theorem State.full_setCtx (s : State) (i : Inst) (c : Ctx) (p : Place) : (s.setCtx i c).full p = s.full p := by
  cases p <;> simp [State.full]

@[simp] theorem State.full_modCtx (s : State) (i : Inst) (f : Ctx → Ctx) (p : Place) : (s.modCtx i f).full p = s.full p :=
  s.full_setCtx i _ p

@[simp] theorem State.readPlace_modPkg (s : State) (k : Nat) (f : Pkg → Pkg) (p : Place) (n : Nat) :
    (s.modPkg k f).readPlace p n = s.readPlace p n := by
  cases p <;> rfl

@[simp] theorem State.full_modPkg (s : State) (k : Nat) (f : Pkg → Pkg) (p : Place) : (s.modPkg k f).full p = s.full p := by
  cases p <;> rfl

/-! ### Registers -/

@[simp] theorem Ctx.sr_zero (c : Ctx) : c.sr 0 = 0 := rfl
@[simp] theorem Ctx.pr_zero (c : Ctx) : c.pr 0 = BitVec.allOnes 16 := rfl
@[simp] theorem Ctx.setS_zero (c : Ctx) (x : Word) : c.setS 0 x = c := rfl
@[simp] theorem Ctx.setP_zero (c : Ctx) (x : BitVec 16) : c.setP 0 x = c := rfl

theorem Ctx.sr_setS (c : Ctx) (n m : Nat) (x : Word) :
    (c.setS n x).sr m = if n = m ∧ m ≠ 0 then x else c.sr m := by
  unfold Ctx.sr Ctx.setS
  by_cases hm : m = 0
  · simp [hm]
  · by_cases hn : n = 0
    · simp [hm, hn]
      omega
    · simp [hm, hn, Table.get_set]

theorem Ctx.pr_setP (c : Ctx) (n m : Nat) (x : BitVec 16) :
    (c.setP n x).pr m = if n = m ∧ m ≠ 0 then x else c.pr m := by
  unfold Ctx.pr Ctx.setP
  by_cases hm : m = 0
  · simp [hm]
  · by_cases hn : n = 0
    · simp [hm, hn]
      omega
    · simp [hm, hn, Table.get_set]

theorem Ctx.vr_setV (c : Ctx) (n m : Nat) (x : VecReg) : (c.setV n x).vr m = if n = m then x else c.vr m :=
  Table.get_set 0 c.v n m x
theorem Ctx.dr_setD (c : Ctx) (n m : Nat) (x : BitVec 32) : (c.setD n x).dr m = if n = m then x else c.dr m :=
  Table.get_set 0 c.d n m x
theorem Ctx.hr_setH (c : Ctx) (n m : Nat) (x : BitVec 128) : (c.setH n x).hr m = if n = m then x else c.hr m :=
  Table.get_set 0 c.h n m x
theorem Ctx.slot_setSlot (c : Ctx) (n m : Nat) (x : Slot) : (c.setSlot n x).slot m = if n = m then x else c.slot m :=
  Table.get_set ({} : Slot) c.slots n m x

/-! ### The other fields of a context after a register write -/

@[simp] theorem Ctx.setS_v (c : Ctx) (n : Nat) (x : Word) : (c.setS n x).v = c.v := by unfold Ctx.setS; split <;> rfl
@[simp] theorem Ctx.setS_p (c : Ctx) (n : Nat) (x : Word) : (c.setS n x).p = c.p := by unfold Ctx.setS; split <;> rfl
@[simp] theorem Ctx.setS_d (c : Ctx) (n : Nat) (x : Word) : (c.setS n x).d = c.d := by unfold Ctx.setS; split <;> rfl
@[simp] theorem Ctx.setS_h (c : Ctx) (n : Nat) (x : Word) : (c.setS n x).h = c.h := by unfold Ctx.setS; split <;> rfl
@[simp] theorem Ctx.setS_part (c : Ctx) (n : Nat) (x : Word) : (c.setS n x).part = c.part := by unfold Ctx.setS; split <;> rfl
@[simp] theorem Ctx.setS_slots (c : Ctx) (n : Nat) (x : Word) : (c.setS n x).slots = c.slots := by unfold Ctx.setS; split <;> rfl
@[simp] theorem Ctx.setS_lc0 (c : Ctx) (n : Nat) (x : Word) : (c.setS n x).lc0 = c.lc0 := by unfold Ctx.setS; split <;> rfl
@[simp] theorem Ctx.setS_lc1 (c : Ctx) (n : Nat) (x : Word) : (c.setS n x).lc1 = c.lc1 := by unfold Ctx.setS; split <;> rfl
@[simp] theorem Ctx.setS_lbeg0 (c : Ctx) (n : Nat) (x : Word) : (c.setS n x).lbeg0 = c.lbeg0 := by unfold Ctx.setS; split <;> rfl
@[simp] theorem Ctx.setS_lend0 (c : Ctx) (n : Nat) (x : Word) : (c.setS n x).lend0 = c.lend0 := by unfold Ctx.setS; split <;> rfl
@[simp] theorem Ctx.setS_lbeg1 (c : Ctx) (n : Nat) (x : Word) : (c.setS n x).lbeg1 = c.lbeg1 := by unfold Ctx.setS; split <;> rfl
@[simp] theorem Ctx.setS_lend1 (c : Ctx) (n : Nat) (x : Word) : (c.setS n x).lend1 = c.lend1 := by unfold Ctx.setS; split <;> rfl
@[simp] theorem Ctx.setS_fstat (c : Ctx) (n : Nat) (x : Word) : (c.setS n x).fstat = c.fstat := by unfold Ctx.setS; split <;> rfl
@[simp] theorem Ctx.setS_wtop (c : Ctx) (n : Nat) (x : Word) : (c.setS n x).wtop = c.wtop := by unfold Ctx.setS; split <;> rfl
@[simp] theorem Ctx.setS_srseed (c : Ctx) (n : Nat) (x : Word) : (c.setS n x).srseed = c.srseed := by unfold Ctx.setS; split <;> rfl
@[simp] theorem Ctx.setS_vovf (c : Ctx) (n : Nat) (x : Word) : (c.setS n x).vovf = c.vovf := by unfold Ctx.setS; split <;> rfl
@[simp] theorem Ctx.setS_ictr (c : Ctx) (n : Nat) (x : Word) : (c.setS n x).ictr = c.ictr := by unfold Ctx.setS; split <;> rfl
@[simp] theorem Ctx.setS_priv (c : Ctx) (n : Nat) (x : Word) : (c.setS n x).priv = c.priv := by unfold Ctx.setS; split <;> rfl
@[simp] theorem Ctx.setS_ie (c : Ctx) (n : Nat) (x : Word) : (c.setS n x).ie = c.ie := by unfold Ctx.setS; split <;> rfl
@[simp] theorem Ctx.setS_upact (c : Ctx) (n : Nat) (x : Word) : (c.setS n x).upact = c.upact := by unfold Ctx.setS; split <;> rfl
@[simp] theorem Ctx.setS_upvec (c : Ctx) (n : Nat) (x : Word) : (c.setS n x).upvec = c.upvec := by unfold Ctx.setS; split <;> rfl
@[simp] theorem Ctx.setS_upinfo (c : Ctx) (n : Nat) (x : Word) : (c.setS n x).upinfo = c.upinfo := by unfold Ctx.setS; split <;> rfl
@[simp] theorem Ctx.setS_epc (c : Ctx) (n : Nat) (x : Word) : (c.setS n x).epc = c.epc := by unfold Ctx.setS; split <;> rfl
@[simp] theorem Ctx.setS_ecause (c : Ctx) (n : Nat) (x : Word) : (c.setS n x).ecause = c.ecause := by unfold Ctx.setS; split <;> rfl
@[simp] theorem Ctx.setS_eaddr (c : Ctx) (n : Nat) (x : Word) : (c.setS n x).eaddr = c.eaddr := by unfold Ctx.setS; split <;> rfl
@[simp] theorem Ctx.setS_einfo (c : Ctx) (n : Nat) (x : Word) : (c.setS n x).einfo = c.einfo := by unfold Ctx.setS; split <;> rfl
@[simp] theorem Ctx.setS_btarget (c : Ctx) (n : Nat) (x : Word) : (c.setS n x).btarget = c.btarget := by unfold Ctx.setS; split <;> rfl
@[simp] theorem Ctx.setS_lreq (c : Ctx) (n : Nat) (x : Word) : (c.setS n x).lreq = c.lreq := by unfold Ctx.setS; split <;> rfl
@[simp] theorem Ctx.setS_rreq (c : Ctx) (n : Nat) (x : Word) : (c.setS n x).rreq = c.rreq := by unfold Ctx.setS; split <;> rfl
@[simp] theorem Ctx.setS_osc (c : Ctx) (n : Nat) (x : Word) : (c.setS n x).osc = c.osc := by unfold Ctx.setS; split <;> rfl
@[simp] theorem Ctx.setS_tag (c : Ctx) (n : Nat) (x : Word) : (c.setS n x).tag = c.tag := by unfold Ctx.setS; split <;> rfl
@[simp] theorem Ctx.setS_seq (c : Ctx) (n : Nat) (x : Word) : (c.setS n x).seq = c.seq := by unfold Ctx.setS; split <;> rfl
@[simp] theorem Ctx.setS_pc (c : Ctx) (n : Nat) (x : Word) : (c.setS n x).pc = c.pc := by unfold Ctx.setS; split <;> rfl
@[simp] theorem Ctx.setS_dslot (c : Ctx) (n : Nat) (x : Word) : (c.setS n x).dslot = c.dslot := by unfold Ctx.setS; split <;> rfl
@[simp] theorem Ctx.setS_act (c : Ctx) (n : Nat) (x : Word) : (c.setS n x).act = c.act := by unfold Ctx.setS; split <;> rfl
@[simp] theorem Ctx.setS_wait (c : Ctx) (n : Nat) (x : Word) : (c.setS n x).wait = c.wait := by unfold Ctx.setS; split <;> rfl
@[simp] theorem Ctx.setS_insn (c : Ctx) (n : Nat) (x : Word) : (c.setS n x).insn = c.insn := by unfold Ctx.setS; split <;> rfl
@[simp] theorem Ctx.setS_groups (c : Ctx) (n : Nat) (x : Word) : (c.setS n x).groups = c.groups := by unfold Ctx.setS; split <;> rfl
@[simp] theorem Ctx.setS_poison (c : Ctx) (n : Nat) (x : Word) : (c.setS n x).poison = c.poison := by unfold Ctx.setS; split <;> rfl
@[simp] theorem Ctx.setS_deferred (c : Ctx) (n : Nat) (x : Word) : (c.setS n x).deferred = c.deferred := by unfold Ctx.setS; split <;> rfl
@[simp] theorem Ctx.setS_fcheck (c : Ctx) (n : Nat) (x : Word) : (c.setS n x).fcheck = c.fcheck := by unfold Ctx.setS; split <;> rfl
@[simp] theorem Ctx.setS_mcheck (c : Ctx) (n : Nat) (x : Word) : (c.setS n x).mcheck = c.mcheck := by unfold Ctx.setS; split <;> rfl
@[simp] theorem Ctx.setS_watch (c : Ctx) (n : Nat) (x : Word) : (c.setS n x).watch = c.watch := by unfold Ctx.setS; split <;> rfl
@[simp] theorem Ctx.setS_stalled (c : Ctx) (n : Nat) (x : Word) : (c.setS n x).stalled = c.stalled := by unfold Ctx.setS; split <;> rfl
@[simp] theorem Ctx.setS_late (c : Ctx) (n : Nat) (x : Word) : (c.setS n x).late = c.late := by unfold Ctx.setS; split <;> rfl
@[simp] theorem Ctx.setS_changed (c : Ctx) (n : Nat) (x : Word) : (c.setS n x).changed = c.changed := by unfold Ctx.setS; split <;> rfl
@[simp] theorem Ctx.setS_hwdog (c : Ctx) (n : Nat) (x : Word) : (c.setS n x).hwdog = c.hwdog := by unfold Ctx.setS; split <;> rfl
@[simp] theorem Ctx.setS_hcount (c : Ctx) (n : Nat) (x : Word) : (c.setS n x).hcount = c.hcount := by unfold Ctx.setS; split <;> rfl
@[simp] theorem Ctx.setS_perf (c : Ctx) (n : Nat) (x : Word) : (c.setS n x).perf = c.perf := by unfold Ctx.setS; split <;> rfl
@[simp] theorem Ctx.setS_apart (c : Ctx) (n : Nat) (x : Word) : (c.setS n x).apart = c.apart := by unfold Ctx.setS; split <;> rfl
@[simp] theorem Ctx.setS_acts (c : Ctx) (n : Nat) (x : Word) : (c.setS n x).acts = c.acts := by unfold Ctx.setS; split <;> rfl
@[simp] theorem Ctx.setS_ret0 (c : Ctx) (n : Nat) (x : Word) : (c.setS n x).ret0 = c.ret0 := by unfold Ctx.setS; split <;> rfl
@[simp] theorem Ctx.setS_s2at (c : Ctx) (n : Nat) (x : Word) : (c.setS n x).s2at = c.s2at := by unfold Ctx.setS; split <;> rfl
@[simp] theorem Ctx.setS_born (c : Ctx) (n : Nat) (x : Word) : (c.setS n x).born = c.born := by unfold Ctx.setS; split <;> rfl
@[simp] theorem Ctx.setS_bpDone (c : Ctx) (n : Nat) (x : Word) : (c.setS n x).bpDone = c.bpDone := by unfold Ctx.setS; split <;> rfl

@[simp] theorem Ctx.setP_s (c : Ctx) (n : Nat) (x : BitVec 16) : (c.setP n x).s = c.s := by unfold Ctx.setP; split <;> rfl
@[simp] theorem Ctx.setP_v (c : Ctx) (n : Nat) (x : BitVec 16) : (c.setP n x).v = c.v := by unfold Ctx.setP; split <;> rfl
@[simp] theorem Ctx.setP_d (c : Ctx) (n : Nat) (x : BitVec 16) : (c.setP n x).d = c.d := by unfold Ctx.setP; split <;> rfl
@[simp] theorem Ctx.setP_h (c : Ctx) (n : Nat) (x : BitVec 16) : (c.setP n x).h = c.h := by unfold Ctx.setP; split <;> rfl
@[simp] theorem Ctx.setP_part (c : Ctx) (n : Nat) (x : BitVec 16) : (c.setP n x).part = c.part := by unfold Ctx.setP; split <;> rfl
@[simp] theorem Ctx.setP_slots (c : Ctx) (n : Nat) (x : BitVec 16) : (c.setP n x).slots = c.slots := by unfold Ctx.setP; split <;> rfl
@[simp] theorem Ctx.setP_lc0 (c : Ctx) (n : Nat) (x : BitVec 16) : (c.setP n x).lc0 = c.lc0 := by unfold Ctx.setP; split <;> rfl
@[simp] theorem Ctx.setP_lc1 (c : Ctx) (n : Nat) (x : BitVec 16) : (c.setP n x).lc1 = c.lc1 := by unfold Ctx.setP; split <;> rfl
@[simp] theorem Ctx.setP_lbeg0 (c : Ctx) (n : Nat) (x : BitVec 16) : (c.setP n x).lbeg0 = c.lbeg0 := by unfold Ctx.setP; split <;> rfl
@[simp] theorem Ctx.setP_lend0 (c : Ctx) (n : Nat) (x : BitVec 16) : (c.setP n x).lend0 = c.lend0 := by unfold Ctx.setP; split <;> rfl
@[simp] theorem Ctx.setP_lbeg1 (c : Ctx) (n : Nat) (x : BitVec 16) : (c.setP n x).lbeg1 = c.lbeg1 := by unfold Ctx.setP; split <;> rfl
@[simp] theorem Ctx.setP_lend1 (c : Ctx) (n : Nat) (x : BitVec 16) : (c.setP n x).lend1 = c.lend1 := by unfold Ctx.setP; split <;> rfl
@[simp] theorem Ctx.setP_fstat (c : Ctx) (n : Nat) (x : BitVec 16) : (c.setP n x).fstat = c.fstat := by unfold Ctx.setP; split <;> rfl
@[simp] theorem Ctx.setP_wtop (c : Ctx) (n : Nat) (x : BitVec 16) : (c.setP n x).wtop = c.wtop := by unfold Ctx.setP; split <;> rfl
@[simp] theorem Ctx.setP_srseed (c : Ctx) (n : Nat) (x : BitVec 16) : (c.setP n x).srseed = c.srseed := by unfold Ctx.setP; split <;> rfl
@[simp] theorem Ctx.setP_vovf (c : Ctx) (n : Nat) (x : BitVec 16) : (c.setP n x).vovf = c.vovf := by unfold Ctx.setP; split <;> rfl
@[simp] theorem Ctx.setP_ictr (c : Ctx) (n : Nat) (x : BitVec 16) : (c.setP n x).ictr = c.ictr := by unfold Ctx.setP; split <;> rfl
@[simp] theorem Ctx.setP_priv (c : Ctx) (n : Nat) (x : BitVec 16) : (c.setP n x).priv = c.priv := by unfold Ctx.setP; split <;> rfl
@[simp] theorem Ctx.setP_ie (c : Ctx) (n : Nat) (x : BitVec 16) : (c.setP n x).ie = c.ie := by unfold Ctx.setP; split <;> rfl
@[simp] theorem Ctx.setP_upact (c : Ctx) (n : Nat) (x : BitVec 16) : (c.setP n x).upact = c.upact := by unfold Ctx.setP; split <;> rfl
@[simp] theorem Ctx.setP_upvec (c : Ctx) (n : Nat) (x : BitVec 16) : (c.setP n x).upvec = c.upvec := by unfold Ctx.setP; split <;> rfl
@[simp] theorem Ctx.setP_upinfo (c : Ctx) (n : Nat) (x : BitVec 16) : (c.setP n x).upinfo = c.upinfo := by unfold Ctx.setP; split <;> rfl
@[simp] theorem Ctx.setP_epc (c : Ctx) (n : Nat) (x : BitVec 16) : (c.setP n x).epc = c.epc := by unfold Ctx.setP; split <;> rfl
@[simp] theorem Ctx.setP_ecause (c : Ctx) (n : Nat) (x : BitVec 16) : (c.setP n x).ecause = c.ecause := by unfold Ctx.setP; split <;> rfl
@[simp] theorem Ctx.setP_eaddr (c : Ctx) (n : Nat) (x : BitVec 16) : (c.setP n x).eaddr = c.eaddr := by unfold Ctx.setP; split <;> rfl
@[simp] theorem Ctx.setP_einfo (c : Ctx) (n : Nat) (x : BitVec 16) : (c.setP n x).einfo = c.einfo := by unfold Ctx.setP; split <;> rfl
@[simp] theorem Ctx.setP_btarget (c : Ctx) (n : Nat) (x : BitVec 16) : (c.setP n x).btarget = c.btarget := by unfold Ctx.setP; split <;> rfl
@[simp] theorem Ctx.setP_lreq (c : Ctx) (n : Nat) (x : BitVec 16) : (c.setP n x).lreq = c.lreq := by unfold Ctx.setP; split <;> rfl
@[simp] theorem Ctx.setP_rreq (c : Ctx) (n : Nat) (x : BitVec 16) : (c.setP n x).rreq = c.rreq := by unfold Ctx.setP; split <;> rfl
@[simp] theorem Ctx.setP_osc (c : Ctx) (n : Nat) (x : BitVec 16) : (c.setP n x).osc = c.osc := by unfold Ctx.setP; split <;> rfl
@[simp] theorem Ctx.setP_tag (c : Ctx) (n : Nat) (x : BitVec 16) : (c.setP n x).tag = c.tag := by unfold Ctx.setP; split <;> rfl
@[simp] theorem Ctx.setP_seq (c : Ctx) (n : Nat) (x : BitVec 16) : (c.setP n x).seq = c.seq := by unfold Ctx.setP; split <;> rfl
@[simp] theorem Ctx.setP_pc (c : Ctx) (n : Nat) (x : BitVec 16) : (c.setP n x).pc = c.pc := by unfold Ctx.setP; split <;> rfl
@[simp] theorem Ctx.setP_dslot (c : Ctx) (n : Nat) (x : BitVec 16) : (c.setP n x).dslot = c.dslot := by unfold Ctx.setP; split <;> rfl
@[simp] theorem Ctx.setP_act (c : Ctx) (n : Nat) (x : BitVec 16) : (c.setP n x).act = c.act := by unfold Ctx.setP; split <;> rfl
@[simp] theorem Ctx.setP_wait (c : Ctx) (n : Nat) (x : BitVec 16) : (c.setP n x).wait = c.wait := by unfold Ctx.setP; split <;> rfl
@[simp] theorem Ctx.setP_insn (c : Ctx) (n : Nat) (x : BitVec 16) : (c.setP n x).insn = c.insn := by unfold Ctx.setP; split <;> rfl
@[simp] theorem Ctx.setP_groups (c : Ctx) (n : Nat) (x : BitVec 16) : (c.setP n x).groups = c.groups := by unfold Ctx.setP; split <;> rfl
@[simp] theorem Ctx.setP_poison (c : Ctx) (n : Nat) (x : BitVec 16) : (c.setP n x).poison = c.poison := by unfold Ctx.setP; split <;> rfl
@[simp] theorem Ctx.setP_deferred (c : Ctx) (n : Nat) (x : BitVec 16) : (c.setP n x).deferred = c.deferred := by unfold Ctx.setP; split <;> rfl
@[simp] theorem Ctx.setP_fcheck (c : Ctx) (n : Nat) (x : BitVec 16) : (c.setP n x).fcheck = c.fcheck := by unfold Ctx.setP; split <;> rfl
@[simp] theorem Ctx.setP_mcheck (c : Ctx) (n : Nat) (x : BitVec 16) : (c.setP n x).mcheck = c.mcheck := by unfold Ctx.setP; split <;> rfl
@[simp] theorem Ctx.setP_watch (c : Ctx) (n : Nat) (x : BitVec 16) : (c.setP n x).watch = c.watch := by unfold Ctx.setP; split <;> rfl
@[simp] theorem Ctx.setP_stalled (c : Ctx) (n : Nat) (x : BitVec 16) : (c.setP n x).stalled = c.stalled := by unfold Ctx.setP; split <;> rfl
@[simp] theorem Ctx.setP_late (c : Ctx) (n : Nat) (x : BitVec 16) : (c.setP n x).late = c.late := by unfold Ctx.setP; split <;> rfl
@[simp] theorem Ctx.setP_changed (c : Ctx) (n : Nat) (x : BitVec 16) : (c.setP n x).changed = c.changed := by unfold Ctx.setP; split <;> rfl
@[simp] theorem Ctx.setP_hwdog (c : Ctx) (n : Nat) (x : BitVec 16) : (c.setP n x).hwdog = c.hwdog := by unfold Ctx.setP; split <;> rfl
@[simp] theorem Ctx.setP_hcount (c : Ctx) (n : Nat) (x : BitVec 16) : (c.setP n x).hcount = c.hcount := by unfold Ctx.setP; split <;> rfl
@[simp] theorem Ctx.setP_perf (c : Ctx) (n : Nat) (x : BitVec 16) : (c.setP n x).perf = c.perf := by unfold Ctx.setP; split <;> rfl
@[simp] theorem Ctx.setP_apart (c : Ctx) (n : Nat) (x : BitVec 16) : (c.setP n x).apart = c.apart := by unfold Ctx.setP; split <;> rfl
@[simp] theorem Ctx.setP_acts (c : Ctx) (n : Nat) (x : BitVec 16) : (c.setP n x).acts = c.acts := by unfold Ctx.setP; split <;> rfl
@[simp] theorem Ctx.setP_ret0 (c : Ctx) (n : Nat) (x : BitVec 16) : (c.setP n x).ret0 = c.ret0 := by unfold Ctx.setP; split <;> rfl
@[simp] theorem Ctx.setP_s2at (c : Ctx) (n : Nat) (x : BitVec 16) : (c.setP n x).s2at = c.s2at := by unfold Ctx.setP; split <;> rfl
@[simp] theorem Ctx.setP_born (c : Ctx) (n : Nat) (x : BitVec 16) : (c.setP n x).born = c.born := by unfold Ctx.setP; split <;> rfl
@[simp] theorem Ctx.setP_bpDone (c : Ctx) (n : Nat) (x : BitVec 16) : (c.setP n x).bpDone = c.bpDone := by unfold Ctx.setP; split <;> rfl

@[simp] theorem Ctx.setV_s (c : Ctx) (n : Nat) (x : VecReg) : (c.setV n x).s = c.s := rfl
@[simp] theorem Ctx.setV_p (c : Ctx) (n : Nat) (x : VecReg) : (c.setV n x).p = c.p := rfl
@[simp] theorem Ctx.setV_d (c : Ctx) (n : Nat) (x : VecReg) : (c.setV n x).d = c.d := rfl
@[simp] theorem Ctx.setV_h (c : Ctx) (n : Nat) (x : VecReg) : (c.setV n x).h = c.h := rfl
@[simp] theorem Ctx.setV_part (c : Ctx) (n : Nat) (x : VecReg) : (c.setV n x).part = c.part := rfl
@[simp] theorem Ctx.setV_slots (c : Ctx) (n : Nat) (x : VecReg) : (c.setV n x).slots = c.slots := rfl
@[simp] theorem Ctx.setV_lc0 (c : Ctx) (n : Nat) (x : VecReg) : (c.setV n x).lc0 = c.lc0 := rfl
@[simp] theorem Ctx.setV_lc1 (c : Ctx) (n : Nat) (x : VecReg) : (c.setV n x).lc1 = c.lc1 := rfl
@[simp] theorem Ctx.setV_lbeg0 (c : Ctx) (n : Nat) (x : VecReg) : (c.setV n x).lbeg0 = c.lbeg0 := rfl
@[simp] theorem Ctx.setV_lend0 (c : Ctx) (n : Nat) (x : VecReg) : (c.setV n x).lend0 = c.lend0 := rfl
@[simp] theorem Ctx.setV_lbeg1 (c : Ctx) (n : Nat) (x : VecReg) : (c.setV n x).lbeg1 = c.lbeg1 := rfl
@[simp] theorem Ctx.setV_lend1 (c : Ctx) (n : Nat) (x : VecReg) : (c.setV n x).lend1 = c.lend1 := rfl
@[simp] theorem Ctx.setV_fstat (c : Ctx) (n : Nat) (x : VecReg) : (c.setV n x).fstat = c.fstat := rfl
@[simp] theorem Ctx.setV_wtop (c : Ctx) (n : Nat) (x : VecReg) : (c.setV n x).wtop = c.wtop := rfl
@[simp] theorem Ctx.setV_srseed (c : Ctx) (n : Nat) (x : VecReg) : (c.setV n x).srseed = c.srseed := rfl
@[simp] theorem Ctx.setV_vovf (c : Ctx) (n : Nat) (x : VecReg) : (c.setV n x).vovf = c.vovf := rfl
@[simp] theorem Ctx.setV_ictr (c : Ctx) (n : Nat) (x : VecReg) : (c.setV n x).ictr = c.ictr := rfl
@[simp] theorem Ctx.setV_priv (c : Ctx) (n : Nat) (x : VecReg) : (c.setV n x).priv = c.priv := rfl
@[simp] theorem Ctx.setV_ie (c : Ctx) (n : Nat) (x : VecReg) : (c.setV n x).ie = c.ie := rfl
@[simp] theorem Ctx.setV_upact (c : Ctx) (n : Nat) (x : VecReg) : (c.setV n x).upact = c.upact := rfl
@[simp] theorem Ctx.setV_upvec (c : Ctx) (n : Nat) (x : VecReg) : (c.setV n x).upvec = c.upvec := rfl
@[simp] theorem Ctx.setV_upinfo (c : Ctx) (n : Nat) (x : VecReg) : (c.setV n x).upinfo = c.upinfo := rfl
@[simp] theorem Ctx.setV_epc (c : Ctx) (n : Nat) (x : VecReg) : (c.setV n x).epc = c.epc := rfl
@[simp] theorem Ctx.setV_ecause (c : Ctx) (n : Nat) (x : VecReg) : (c.setV n x).ecause = c.ecause := rfl
@[simp] theorem Ctx.setV_eaddr (c : Ctx) (n : Nat) (x : VecReg) : (c.setV n x).eaddr = c.eaddr := rfl
@[simp] theorem Ctx.setV_einfo (c : Ctx) (n : Nat) (x : VecReg) : (c.setV n x).einfo = c.einfo := rfl
@[simp] theorem Ctx.setV_btarget (c : Ctx) (n : Nat) (x : VecReg) : (c.setV n x).btarget = c.btarget := rfl
@[simp] theorem Ctx.setV_lreq (c : Ctx) (n : Nat) (x : VecReg) : (c.setV n x).lreq = c.lreq := rfl
@[simp] theorem Ctx.setV_rreq (c : Ctx) (n : Nat) (x : VecReg) : (c.setV n x).rreq = c.rreq := rfl
@[simp] theorem Ctx.setV_osc (c : Ctx) (n : Nat) (x : VecReg) : (c.setV n x).osc = c.osc := rfl
@[simp] theorem Ctx.setV_tag (c : Ctx) (n : Nat) (x : VecReg) : (c.setV n x).tag = c.tag := rfl
@[simp] theorem Ctx.setV_seq (c : Ctx) (n : Nat) (x : VecReg) : (c.setV n x).seq = c.seq := rfl
@[simp] theorem Ctx.setV_pc (c : Ctx) (n : Nat) (x : VecReg) : (c.setV n x).pc = c.pc := rfl
@[simp] theorem Ctx.setV_dslot (c : Ctx) (n : Nat) (x : VecReg) : (c.setV n x).dslot = c.dslot := rfl
@[simp] theorem Ctx.setV_act (c : Ctx) (n : Nat) (x : VecReg) : (c.setV n x).act = c.act := rfl
@[simp] theorem Ctx.setV_wait (c : Ctx) (n : Nat) (x : VecReg) : (c.setV n x).wait = c.wait := rfl
@[simp] theorem Ctx.setV_insn (c : Ctx) (n : Nat) (x : VecReg) : (c.setV n x).insn = c.insn := rfl
@[simp] theorem Ctx.setV_groups (c : Ctx) (n : Nat) (x : VecReg) : (c.setV n x).groups = c.groups := rfl
@[simp] theorem Ctx.setV_poison (c : Ctx) (n : Nat) (x : VecReg) : (c.setV n x).poison = c.poison := rfl
@[simp] theorem Ctx.setV_deferred (c : Ctx) (n : Nat) (x : VecReg) : (c.setV n x).deferred = c.deferred := rfl
@[simp] theorem Ctx.setV_fcheck (c : Ctx) (n : Nat) (x : VecReg) : (c.setV n x).fcheck = c.fcheck := rfl
@[simp] theorem Ctx.setV_mcheck (c : Ctx) (n : Nat) (x : VecReg) : (c.setV n x).mcheck = c.mcheck := rfl
@[simp] theorem Ctx.setV_watch (c : Ctx) (n : Nat) (x : VecReg) : (c.setV n x).watch = c.watch := rfl
@[simp] theorem Ctx.setV_stalled (c : Ctx) (n : Nat) (x : VecReg) : (c.setV n x).stalled = c.stalled := rfl
@[simp] theorem Ctx.setV_late (c : Ctx) (n : Nat) (x : VecReg) : (c.setV n x).late = c.late := rfl
@[simp] theorem Ctx.setV_changed (c : Ctx) (n : Nat) (x : VecReg) : (c.setV n x).changed = c.changed := rfl
@[simp] theorem Ctx.setV_hwdog (c : Ctx) (n : Nat) (x : VecReg) : (c.setV n x).hwdog = c.hwdog := rfl
@[simp] theorem Ctx.setV_hcount (c : Ctx) (n : Nat) (x : VecReg) : (c.setV n x).hcount = c.hcount := rfl
@[simp] theorem Ctx.setV_perf (c : Ctx) (n : Nat) (x : VecReg) : (c.setV n x).perf = c.perf := rfl
@[simp] theorem Ctx.setV_apart (c : Ctx) (n : Nat) (x : VecReg) : (c.setV n x).apart = c.apart := rfl
@[simp] theorem Ctx.setV_acts (c : Ctx) (n : Nat) (x : VecReg) : (c.setV n x).acts = c.acts := rfl
@[simp] theorem Ctx.setV_ret0 (c : Ctx) (n : Nat) (x : VecReg) : (c.setV n x).ret0 = c.ret0 := rfl
@[simp] theorem Ctx.setV_s2at (c : Ctx) (n : Nat) (x : VecReg) : (c.setV n x).s2at = c.s2at := rfl
@[simp] theorem Ctx.setV_born (c : Ctx) (n : Nat) (x : VecReg) : (c.setV n x).born = c.born := rfl
@[simp] theorem Ctx.setV_bpDone (c : Ctx) (n : Nat) (x : VecReg) : (c.setV n x).bpDone = c.bpDone := rfl

@[simp] theorem Ctx.setD_s (c : Ctx) (n : Nat) (x : BitVec 32) : (c.setD n x).s = c.s := rfl
@[simp] theorem Ctx.setD_v (c : Ctx) (n : Nat) (x : BitVec 32) : (c.setD n x).v = c.v := rfl
@[simp] theorem Ctx.setD_p (c : Ctx) (n : Nat) (x : BitVec 32) : (c.setD n x).p = c.p := rfl
@[simp] theorem Ctx.setD_h (c : Ctx) (n : Nat) (x : BitVec 32) : (c.setD n x).h = c.h := rfl
@[simp] theorem Ctx.setD_part (c : Ctx) (n : Nat) (x : BitVec 32) : (c.setD n x).part = c.part := rfl
@[simp] theorem Ctx.setD_slots (c : Ctx) (n : Nat) (x : BitVec 32) : (c.setD n x).slots = c.slots := rfl
@[simp] theorem Ctx.setD_lc0 (c : Ctx) (n : Nat) (x : BitVec 32) : (c.setD n x).lc0 = c.lc0 := rfl
@[simp] theorem Ctx.setD_lc1 (c : Ctx) (n : Nat) (x : BitVec 32) : (c.setD n x).lc1 = c.lc1 := rfl
@[simp] theorem Ctx.setD_lbeg0 (c : Ctx) (n : Nat) (x : BitVec 32) : (c.setD n x).lbeg0 = c.lbeg0 := rfl
@[simp] theorem Ctx.setD_lend0 (c : Ctx) (n : Nat) (x : BitVec 32) : (c.setD n x).lend0 = c.lend0 := rfl
@[simp] theorem Ctx.setD_lbeg1 (c : Ctx) (n : Nat) (x : BitVec 32) : (c.setD n x).lbeg1 = c.lbeg1 := rfl
@[simp] theorem Ctx.setD_lend1 (c : Ctx) (n : Nat) (x : BitVec 32) : (c.setD n x).lend1 = c.lend1 := rfl
@[simp] theorem Ctx.setD_fstat (c : Ctx) (n : Nat) (x : BitVec 32) : (c.setD n x).fstat = c.fstat := rfl
@[simp] theorem Ctx.setD_wtop (c : Ctx) (n : Nat) (x : BitVec 32) : (c.setD n x).wtop = c.wtop := rfl
@[simp] theorem Ctx.setD_srseed (c : Ctx) (n : Nat) (x : BitVec 32) : (c.setD n x).srseed = c.srseed := rfl
@[simp] theorem Ctx.setD_vovf (c : Ctx) (n : Nat) (x : BitVec 32) : (c.setD n x).vovf = c.vovf := rfl
@[simp] theorem Ctx.setD_ictr (c : Ctx) (n : Nat) (x : BitVec 32) : (c.setD n x).ictr = c.ictr := rfl
@[simp] theorem Ctx.setD_priv (c : Ctx) (n : Nat) (x : BitVec 32) : (c.setD n x).priv = c.priv := rfl
@[simp] theorem Ctx.setD_ie (c : Ctx) (n : Nat) (x : BitVec 32) : (c.setD n x).ie = c.ie := rfl
@[simp] theorem Ctx.setD_upact (c : Ctx) (n : Nat) (x : BitVec 32) : (c.setD n x).upact = c.upact := rfl
@[simp] theorem Ctx.setD_upvec (c : Ctx) (n : Nat) (x : BitVec 32) : (c.setD n x).upvec = c.upvec := rfl
@[simp] theorem Ctx.setD_upinfo (c : Ctx) (n : Nat) (x : BitVec 32) : (c.setD n x).upinfo = c.upinfo := rfl
@[simp] theorem Ctx.setD_epc (c : Ctx) (n : Nat) (x : BitVec 32) : (c.setD n x).epc = c.epc := rfl
@[simp] theorem Ctx.setD_ecause (c : Ctx) (n : Nat) (x : BitVec 32) : (c.setD n x).ecause = c.ecause := rfl
@[simp] theorem Ctx.setD_eaddr (c : Ctx) (n : Nat) (x : BitVec 32) : (c.setD n x).eaddr = c.eaddr := rfl
@[simp] theorem Ctx.setD_einfo (c : Ctx) (n : Nat) (x : BitVec 32) : (c.setD n x).einfo = c.einfo := rfl
@[simp] theorem Ctx.setD_btarget (c : Ctx) (n : Nat) (x : BitVec 32) : (c.setD n x).btarget = c.btarget := rfl
@[simp] theorem Ctx.setD_lreq (c : Ctx) (n : Nat) (x : BitVec 32) : (c.setD n x).lreq = c.lreq := rfl
@[simp] theorem Ctx.setD_rreq (c : Ctx) (n : Nat) (x : BitVec 32) : (c.setD n x).rreq = c.rreq := rfl
@[simp] theorem Ctx.setD_osc (c : Ctx) (n : Nat) (x : BitVec 32) : (c.setD n x).osc = c.osc := rfl
@[simp] theorem Ctx.setD_tag (c : Ctx) (n : Nat) (x : BitVec 32) : (c.setD n x).tag = c.tag := rfl
@[simp] theorem Ctx.setD_seq (c : Ctx) (n : Nat) (x : BitVec 32) : (c.setD n x).seq = c.seq := rfl
@[simp] theorem Ctx.setD_pc (c : Ctx) (n : Nat) (x : BitVec 32) : (c.setD n x).pc = c.pc := rfl
@[simp] theorem Ctx.setD_dslot (c : Ctx) (n : Nat) (x : BitVec 32) : (c.setD n x).dslot = c.dslot := rfl
@[simp] theorem Ctx.setD_act (c : Ctx) (n : Nat) (x : BitVec 32) : (c.setD n x).act = c.act := rfl
@[simp] theorem Ctx.setD_wait (c : Ctx) (n : Nat) (x : BitVec 32) : (c.setD n x).wait = c.wait := rfl
@[simp] theorem Ctx.setD_insn (c : Ctx) (n : Nat) (x : BitVec 32) : (c.setD n x).insn = c.insn := rfl
@[simp] theorem Ctx.setD_groups (c : Ctx) (n : Nat) (x : BitVec 32) : (c.setD n x).groups = c.groups := rfl
@[simp] theorem Ctx.setD_poison (c : Ctx) (n : Nat) (x : BitVec 32) : (c.setD n x).poison = c.poison := rfl
@[simp] theorem Ctx.setD_deferred (c : Ctx) (n : Nat) (x : BitVec 32) : (c.setD n x).deferred = c.deferred := rfl
@[simp] theorem Ctx.setD_fcheck (c : Ctx) (n : Nat) (x : BitVec 32) : (c.setD n x).fcheck = c.fcheck := rfl
@[simp] theorem Ctx.setD_mcheck (c : Ctx) (n : Nat) (x : BitVec 32) : (c.setD n x).mcheck = c.mcheck := rfl
@[simp] theorem Ctx.setD_watch (c : Ctx) (n : Nat) (x : BitVec 32) : (c.setD n x).watch = c.watch := rfl
@[simp] theorem Ctx.setD_stalled (c : Ctx) (n : Nat) (x : BitVec 32) : (c.setD n x).stalled = c.stalled := rfl
@[simp] theorem Ctx.setD_late (c : Ctx) (n : Nat) (x : BitVec 32) : (c.setD n x).late = c.late := rfl
@[simp] theorem Ctx.setD_changed (c : Ctx) (n : Nat) (x : BitVec 32) : (c.setD n x).changed = c.changed := rfl
@[simp] theorem Ctx.setD_hwdog (c : Ctx) (n : Nat) (x : BitVec 32) : (c.setD n x).hwdog = c.hwdog := rfl
@[simp] theorem Ctx.setD_hcount (c : Ctx) (n : Nat) (x : BitVec 32) : (c.setD n x).hcount = c.hcount := rfl
@[simp] theorem Ctx.setD_perf (c : Ctx) (n : Nat) (x : BitVec 32) : (c.setD n x).perf = c.perf := rfl
@[simp] theorem Ctx.setD_apart (c : Ctx) (n : Nat) (x : BitVec 32) : (c.setD n x).apart = c.apart := rfl
@[simp] theorem Ctx.setD_acts (c : Ctx) (n : Nat) (x : BitVec 32) : (c.setD n x).acts = c.acts := rfl
@[simp] theorem Ctx.setD_ret0 (c : Ctx) (n : Nat) (x : BitVec 32) : (c.setD n x).ret0 = c.ret0 := rfl
@[simp] theorem Ctx.setD_s2at (c : Ctx) (n : Nat) (x : BitVec 32) : (c.setD n x).s2at = c.s2at := rfl
@[simp] theorem Ctx.setD_born (c : Ctx) (n : Nat) (x : BitVec 32) : (c.setD n x).born = c.born := rfl
@[simp] theorem Ctx.setD_bpDone (c : Ctx) (n : Nat) (x : BitVec 32) : (c.setD n x).bpDone = c.bpDone := rfl

@[simp] theorem Ctx.setH_s (c : Ctx) (n : Nat) (x : BitVec 128) : (c.setH n x).s = c.s := rfl
@[simp] theorem Ctx.setH_v (c : Ctx) (n : Nat) (x : BitVec 128) : (c.setH n x).v = c.v := rfl
@[simp] theorem Ctx.setH_p (c : Ctx) (n : Nat) (x : BitVec 128) : (c.setH n x).p = c.p := rfl
@[simp] theorem Ctx.setH_d (c : Ctx) (n : Nat) (x : BitVec 128) : (c.setH n x).d = c.d := rfl
@[simp] theorem Ctx.setH_part (c : Ctx) (n : Nat) (x : BitVec 128) : (c.setH n x).part = c.part := rfl
@[simp] theorem Ctx.setH_slots (c : Ctx) (n : Nat) (x : BitVec 128) : (c.setH n x).slots = c.slots := rfl
@[simp] theorem Ctx.setH_lc0 (c : Ctx) (n : Nat) (x : BitVec 128) : (c.setH n x).lc0 = c.lc0 := rfl
@[simp] theorem Ctx.setH_lc1 (c : Ctx) (n : Nat) (x : BitVec 128) : (c.setH n x).lc1 = c.lc1 := rfl
@[simp] theorem Ctx.setH_lbeg0 (c : Ctx) (n : Nat) (x : BitVec 128) : (c.setH n x).lbeg0 = c.lbeg0 := rfl
@[simp] theorem Ctx.setH_lend0 (c : Ctx) (n : Nat) (x : BitVec 128) : (c.setH n x).lend0 = c.lend0 := rfl
@[simp] theorem Ctx.setH_lbeg1 (c : Ctx) (n : Nat) (x : BitVec 128) : (c.setH n x).lbeg1 = c.lbeg1 := rfl
@[simp] theorem Ctx.setH_lend1 (c : Ctx) (n : Nat) (x : BitVec 128) : (c.setH n x).lend1 = c.lend1 := rfl
@[simp] theorem Ctx.setH_fstat (c : Ctx) (n : Nat) (x : BitVec 128) : (c.setH n x).fstat = c.fstat := rfl
@[simp] theorem Ctx.setH_wtop (c : Ctx) (n : Nat) (x : BitVec 128) : (c.setH n x).wtop = c.wtop := rfl
@[simp] theorem Ctx.setH_srseed (c : Ctx) (n : Nat) (x : BitVec 128) : (c.setH n x).srseed = c.srseed := rfl
@[simp] theorem Ctx.setH_vovf (c : Ctx) (n : Nat) (x : BitVec 128) : (c.setH n x).vovf = c.vovf := rfl
@[simp] theorem Ctx.setH_ictr (c : Ctx) (n : Nat) (x : BitVec 128) : (c.setH n x).ictr = c.ictr := rfl
@[simp] theorem Ctx.setH_priv (c : Ctx) (n : Nat) (x : BitVec 128) : (c.setH n x).priv = c.priv := rfl
@[simp] theorem Ctx.setH_ie (c : Ctx) (n : Nat) (x : BitVec 128) : (c.setH n x).ie = c.ie := rfl
@[simp] theorem Ctx.setH_upact (c : Ctx) (n : Nat) (x : BitVec 128) : (c.setH n x).upact = c.upact := rfl
@[simp] theorem Ctx.setH_upvec (c : Ctx) (n : Nat) (x : BitVec 128) : (c.setH n x).upvec = c.upvec := rfl
@[simp] theorem Ctx.setH_upinfo (c : Ctx) (n : Nat) (x : BitVec 128) : (c.setH n x).upinfo = c.upinfo := rfl
@[simp] theorem Ctx.setH_epc (c : Ctx) (n : Nat) (x : BitVec 128) : (c.setH n x).epc = c.epc := rfl
@[simp] theorem Ctx.setH_ecause (c : Ctx) (n : Nat) (x : BitVec 128) : (c.setH n x).ecause = c.ecause := rfl
@[simp] theorem Ctx.setH_eaddr (c : Ctx) (n : Nat) (x : BitVec 128) : (c.setH n x).eaddr = c.eaddr := rfl
@[simp] theorem Ctx.setH_einfo (c : Ctx) (n : Nat) (x : BitVec 128) : (c.setH n x).einfo = c.einfo := rfl
@[simp] theorem Ctx.setH_btarget (c : Ctx) (n : Nat) (x : BitVec 128) : (c.setH n x).btarget = c.btarget := rfl
@[simp] theorem Ctx.setH_lreq (c : Ctx) (n : Nat) (x : BitVec 128) : (c.setH n x).lreq = c.lreq := rfl
@[simp] theorem Ctx.setH_rreq (c : Ctx) (n : Nat) (x : BitVec 128) : (c.setH n x).rreq = c.rreq := rfl
@[simp] theorem Ctx.setH_osc (c : Ctx) (n : Nat) (x : BitVec 128) : (c.setH n x).osc = c.osc := rfl
@[simp] theorem Ctx.setH_tag (c : Ctx) (n : Nat) (x : BitVec 128) : (c.setH n x).tag = c.tag := rfl
@[simp] theorem Ctx.setH_seq (c : Ctx) (n : Nat) (x : BitVec 128) : (c.setH n x).seq = c.seq := rfl
@[simp] theorem Ctx.setH_pc (c : Ctx) (n : Nat) (x : BitVec 128) : (c.setH n x).pc = c.pc := rfl
@[simp] theorem Ctx.setH_dslot (c : Ctx) (n : Nat) (x : BitVec 128) : (c.setH n x).dslot = c.dslot := rfl
@[simp] theorem Ctx.setH_act (c : Ctx) (n : Nat) (x : BitVec 128) : (c.setH n x).act = c.act := rfl
@[simp] theorem Ctx.setH_wait (c : Ctx) (n : Nat) (x : BitVec 128) : (c.setH n x).wait = c.wait := rfl
@[simp] theorem Ctx.setH_insn (c : Ctx) (n : Nat) (x : BitVec 128) : (c.setH n x).insn = c.insn := rfl
@[simp] theorem Ctx.setH_groups (c : Ctx) (n : Nat) (x : BitVec 128) : (c.setH n x).groups = c.groups := rfl
@[simp] theorem Ctx.setH_poison (c : Ctx) (n : Nat) (x : BitVec 128) : (c.setH n x).poison = c.poison := rfl
@[simp] theorem Ctx.setH_deferred (c : Ctx) (n : Nat) (x : BitVec 128) : (c.setH n x).deferred = c.deferred := rfl
@[simp] theorem Ctx.setH_fcheck (c : Ctx) (n : Nat) (x : BitVec 128) : (c.setH n x).fcheck = c.fcheck := rfl
@[simp] theorem Ctx.setH_mcheck (c : Ctx) (n : Nat) (x : BitVec 128) : (c.setH n x).mcheck = c.mcheck := rfl
@[simp] theorem Ctx.setH_watch (c : Ctx) (n : Nat) (x : BitVec 128) : (c.setH n x).watch = c.watch := rfl
@[simp] theorem Ctx.setH_stalled (c : Ctx) (n : Nat) (x : BitVec 128) : (c.setH n x).stalled = c.stalled := rfl
@[simp] theorem Ctx.setH_late (c : Ctx) (n : Nat) (x : BitVec 128) : (c.setH n x).late = c.late := rfl
@[simp] theorem Ctx.setH_changed (c : Ctx) (n : Nat) (x : BitVec 128) : (c.setH n x).changed = c.changed := rfl
@[simp] theorem Ctx.setH_hwdog (c : Ctx) (n : Nat) (x : BitVec 128) : (c.setH n x).hwdog = c.hwdog := rfl
@[simp] theorem Ctx.setH_hcount (c : Ctx) (n : Nat) (x : BitVec 128) : (c.setH n x).hcount = c.hcount := rfl
@[simp] theorem Ctx.setH_perf (c : Ctx) (n : Nat) (x : BitVec 128) : (c.setH n x).perf = c.perf := rfl
@[simp] theorem Ctx.setH_apart (c : Ctx) (n : Nat) (x : BitVec 128) : (c.setH n x).apart = c.apart := rfl
@[simp] theorem Ctx.setH_acts (c : Ctx) (n : Nat) (x : BitVec 128) : (c.setH n x).acts = c.acts := rfl
@[simp] theorem Ctx.setH_ret0 (c : Ctx) (n : Nat) (x : BitVec 128) : (c.setH n x).ret0 = c.ret0 := rfl
@[simp] theorem Ctx.setH_s2at (c : Ctx) (n : Nat) (x : BitVec 128) : (c.setH n x).s2at = c.s2at := rfl
@[simp] theorem Ctx.setH_born (c : Ctx) (n : Nat) (x : BitVec 128) : (c.setH n x).born = c.born := rfl
@[simp] theorem Ctx.setH_bpDone (c : Ctx) (n : Nat) (x : BitVec 128) : (c.setH n x).bpDone = c.bpDone := rfl

@[simp] theorem Ctx.setSlot_s (c : Ctx) (n : Nat) (x : Slot) : (c.setSlot n x).s = c.s := rfl
@[simp] theorem Ctx.setSlot_v (c : Ctx) (n : Nat) (x : Slot) : (c.setSlot n x).v = c.v := rfl
@[simp] theorem Ctx.setSlot_p (c : Ctx) (n : Nat) (x : Slot) : (c.setSlot n x).p = c.p := rfl
@[simp] theorem Ctx.setSlot_d (c : Ctx) (n : Nat) (x : Slot) : (c.setSlot n x).d = c.d := rfl
@[simp] theorem Ctx.setSlot_h (c : Ctx) (n : Nat) (x : Slot) : (c.setSlot n x).h = c.h := rfl
@[simp] theorem Ctx.setSlot_part (c : Ctx) (n : Nat) (x : Slot) : (c.setSlot n x).part = c.part := rfl
@[simp] theorem Ctx.setSlot_lc0 (c : Ctx) (n : Nat) (x : Slot) : (c.setSlot n x).lc0 = c.lc0 := rfl
@[simp] theorem Ctx.setSlot_lc1 (c : Ctx) (n : Nat) (x : Slot) : (c.setSlot n x).lc1 = c.lc1 := rfl
@[simp] theorem Ctx.setSlot_lbeg0 (c : Ctx) (n : Nat) (x : Slot) : (c.setSlot n x).lbeg0 = c.lbeg0 := rfl
@[simp] theorem Ctx.setSlot_lend0 (c : Ctx) (n : Nat) (x : Slot) : (c.setSlot n x).lend0 = c.lend0 := rfl
@[simp] theorem Ctx.setSlot_lbeg1 (c : Ctx) (n : Nat) (x : Slot) : (c.setSlot n x).lbeg1 = c.lbeg1 := rfl
@[simp] theorem Ctx.setSlot_lend1 (c : Ctx) (n : Nat) (x : Slot) : (c.setSlot n x).lend1 = c.lend1 := rfl
@[simp] theorem Ctx.setSlot_fstat (c : Ctx) (n : Nat) (x : Slot) : (c.setSlot n x).fstat = c.fstat := rfl
@[simp] theorem Ctx.setSlot_wtop (c : Ctx) (n : Nat) (x : Slot) : (c.setSlot n x).wtop = c.wtop := rfl
@[simp] theorem Ctx.setSlot_srseed (c : Ctx) (n : Nat) (x : Slot) : (c.setSlot n x).srseed = c.srseed := rfl
@[simp] theorem Ctx.setSlot_vovf (c : Ctx) (n : Nat) (x : Slot) : (c.setSlot n x).vovf = c.vovf := rfl
@[simp] theorem Ctx.setSlot_ictr (c : Ctx) (n : Nat) (x : Slot) : (c.setSlot n x).ictr = c.ictr := rfl
@[simp] theorem Ctx.setSlot_priv (c : Ctx) (n : Nat) (x : Slot) : (c.setSlot n x).priv = c.priv := rfl
@[simp] theorem Ctx.setSlot_ie (c : Ctx) (n : Nat) (x : Slot) : (c.setSlot n x).ie = c.ie := rfl
@[simp] theorem Ctx.setSlot_upact (c : Ctx) (n : Nat) (x : Slot) : (c.setSlot n x).upact = c.upact := rfl
@[simp] theorem Ctx.setSlot_upvec (c : Ctx) (n : Nat) (x : Slot) : (c.setSlot n x).upvec = c.upvec := rfl
@[simp] theorem Ctx.setSlot_upinfo (c : Ctx) (n : Nat) (x : Slot) : (c.setSlot n x).upinfo = c.upinfo := rfl
@[simp] theorem Ctx.setSlot_epc (c : Ctx) (n : Nat) (x : Slot) : (c.setSlot n x).epc = c.epc := rfl
@[simp] theorem Ctx.setSlot_ecause (c : Ctx) (n : Nat) (x : Slot) : (c.setSlot n x).ecause = c.ecause := rfl
@[simp] theorem Ctx.setSlot_eaddr (c : Ctx) (n : Nat) (x : Slot) : (c.setSlot n x).eaddr = c.eaddr := rfl
@[simp] theorem Ctx.setSlot_einfo (c : Ctx) (n : Nat) (x : Slot) : (c.setSlot n x).einfo = c.einfo := rfl
@[simp] theorem Ctx.setSlot_btarget (c : Ctx) (n : Nat) (x : Slot) : (c.setSlot n x).btarget = c.btarget := rfl
@[simp] theorem Ctx.setSlot_lreq (c : Ctx) (n : Nat) (x : Slot) : (c.setSlot n x).lreq = c.lreq := rfl
@[simp] theorem Ctx.setSlot_rreq (c : Ctx) (n : Nat) (x : Slot) : (c.setSlot n x).rreq = c.rreq := rfl
@[simp] theorem Ctx.setSlot_osc (c : Ctx) (n : Nat) (x : Slot) : (c.setSlot n x).osc = c.osc := rfl
@[simp] theorem Ctx.setSlot_tag (c : Ctx) (n : Nat) (x : Slot) : (c.setSlot n x).tag = c.tag := rfl
@[simp] theorem Ctx.setSlot_seq (c : Ctx) (n : Nat) (x : Slot) : (c.setSlot n x).seq = c.seq := rfl
@[simp] theorem Ctx.setSlot_pc (c : Ctx) (n : Nat) (x : Slot) : (c.setSlot n x).pc = c.pc := rfl
@[simp] theorem Ctx.setSlot_dslot (c : Ctx) (n : Nat) (x : Slot) : (c.setSlot n x).dslot = c.dslot := rfl
@[simp] theorem Ctx.setSlot_act (c : Ctx) (n : Nat) (x : Slot) : (c.setSlot n x).act = c.act := rfl
@[simp] theorem Ctx.setSlot_wait (c : Ctx) (n : Nat) (x : Slot) : (c.setSlot n x).wait = c.wait := rfl
@[simp] theorem Ctx.setSlot_insn (c : Ctx) (n : Nat) (x : Slot) : (c.setSlot n x).insn = c.insn := rfl
@[simp] theorem Ctx.setSlot_groups (c : Ctx) (n : Nat) (x : Slot) : (c.setSlot n x).groups = c.groups := rfl
@[simp] theorem Ctx.setSlot_poison (c : Ctx) (n : Nat) (x : Slot) : (c.setSlot n x).poison = c.poison := rfl
@[simp] theorem Ctx.setSlot_deferred (c : Ctx) (n : Nat) (x : Slot) : (c.setSlot n x).deferred = c.deferred := rfl
@[simp] theorem Ctx.setSlot_fcheck (c : Ctx) (n : Nat) (x : Slot) : (c.setSlot n x).fcheck = c.fcheck := rfl
@[simp] theorem Ctx.setSlot_mcheck (c : Ctx) (n : Nat) (x : Slot) : (c.setSlot n x).mcheck = c.mcheck := rfl
@[simp] theorem Ctx.setSlot_watch (c : Ctx) (n : Nat) (x : Slot) : (c.setSlot n x).watch = c.watch := rfl
@[simp] theorem Ctx.setSlot_stalled (c : Ctx) (n : Nat) (x : Slot) : (c.setSlot n x).stalled = c.stalled := rfl
@[simp] theorem Ctx.setSlot_late (c : Ctx) (n : Nat) (x : Slot) : (c.setSlot n x).late = c.late := rfl
@[simp] theorem Ctx.setSlot_changed (c : Ctx) (n : Nat) (x : Slot) : (c.setSlot n x).changed = c.changed := rfl
@[simp] theorem Ctx.setSlot_hwdog (c : Ctx) (n : Nat) (x : Slot) : (c.setSlot n x).hwdog = c.hwdog := rfl
@[simp] theorem Ctx.setSlot_hcount (c : Ctx) (n : Nat) (x : Slot) : (c.setSlot n x).hcount = c.hcount := rfl
@[simp] theorem Ctx.setSlot_perf (c : Ctx) (n : Nat) (x : Slot) : (c.setSlot n x).perf = c.perf := rfl
@[simp] theorem Ctx.setSlot_apart (c : Ctx) (n : Nat) (x : Slot) : (c.setSlot n x).apart = c.apart := rfl
@[simp] theorem Ctx.setSlot_acts (c : Ctx) (n : Nat) (x : Slot) : (c.setSlot n x).acts = c.acts := rfl
@[simp] theorem Ctx.setSlot_ret0 (c : Ctx) (n : Nat) (x : Slot) : (c.setSlot n x).ret0 = c.ret0 := rfl
@[simp] theorem Ctx.setSlot_s2at (c : Ctx) (n : Nat) (x : Slot) : (c.setSlot n x).s2at = c.s2at := rfl
@[simp] theorem Ctx.setSlot_born (c : Ctx) (n : Nat) (x : Slot) : (c.setSlot n x).born = c.born := rfl
@[simp] theorem Ctx.setSlot_bpDone (c : Ctx) (n : Nat) (x : Slot) : (c.setSlot n x).bpDone = c.bpDone := rfl

@[simp] theorem Ctx.count_s (c : Ctx) (n : Nat) : (c.count n).s = c.s := rfl
@[simp] theorem Ctx.count_v (c : Ctx) (n : Nat) : (c.count n).v = c.v := rfl
@[simp] theorem Ctx.count_p (c : Ctx) (n : Nat) : (c.count n).p = c.p := rfl
@[simp] theorem Ctx.count_d (c : Ctx) (n : Nat) : (c.count n).d = c.d := rfl
@[simp] theorem Ctx.count_h (c : Ctx) (n : Nat) : (c.count n).h = c.h := rfl
@[simp] theorem Ctx.count_part (c : Ctx) (n : Nat) : (c.count n).part = c.part := rfl
@[simp] theorem Ctx.count_slots (c : Ctx) (n : Nat) : (c.count n).slots = c.slots := rfl
@[simp] theorem Ctx.count_lc0 (c : Ctx) (n : Nat) : (c.count n).lc0 = c.lc0 := rfl
@[simp] theorem Ctx.count_lc1 (c : Ctx) (n : Nat) : (c.count n).lc1 = c.lc1 := rfl
@[simp] theorem Ctx.count_lbeg0 (c : Ctx) (n : Nat) : (c.count n).lbeg0 = c.lbeg0 := rfl
@[simp] theorem Ctx.count_lend0 (c : Ctx) (n : Nat) : (c.count n).lend0 = c.lend0 := rfl
@[simp] theorem Ctx.count_lbeg1 (c : Ctx) (n : Nat) : (c.count n).lbeg1 = c.lbeg1 := rfl
@[simp] theorem Ctx.count_lend1 (c : Ctx) (n : Nat) : (c.count n).lend1 = c.lend1 := rfl
@[simp] theorem Ctx.count_fstat (c : Ctx) (n : Nat) : (c.count n).fstat = c.fstat := rfl
@[simp] theorem Ctx.count_wtop (c : Ctx) (n : Nat) : (c.count n).wtop = c.wtop := rfl
@[simp] theorem Ctx.count_srseed (c : Ctx) (n : Nat) : (c.count n).srseed = c.srseed := rfl
@[simp] theorem Ctx.count_vovf (c : Ctx) (n : Nat) : (c.count n).vovf = c.vovf := rfl
@[simp] theorem Ctx.count_ictr (c : Ctx) (n : Nat) : (c.count n).ictr = c.ictr := rfl
@[simp] theorem Ctx.count_priv (c : Ctx) (n : Nat) : (c.count n).priv = c.priv := rfl
@[simp] theorem Ctx.count_ie (c : Ctx) (n : Nat) : (c.count n).ie = c.ie := rfl
@[simp] theorem Ctx.count_upact (c : Ctx) (n : Nat) : (c.count n).upact = c.upact := rfl
@[simp] theorem Ctx.count_upvec (c : Ctx) (n : Nat) : (c.count n).upvec = c.upvec := rfl
@[simp] theorem Ctx.count_upinfo (c : Ctx) (n : Nat) : (c.count n).upinfo = c.upinfo := rfl
@[simp] theorem Ctx.count_epc (c : Ctx) (n : Nat) : (c.count n).epc = c.epc := rfl
@[simp] theorem Ctx.count_ecause (c : Ctx) (n : Nat) : (c.count n).ecause = c.ecause := rfl
@[simp] theorem Ctx.count_eaddr (c : Ctx) (n : Nat) : (c.count n).eaddr = c.eaddr := rfl
@[simp] theorem Ctx.count_einfo (c : Ctx) (n : Nat) : (c.count n).einfo = c.einfo := rfl
@[simp] theorem Ctx.count_btarget (c : Ctx) (n : Nat) : (c.count n).btarget = c.btarget := rfl
@[simp] theorem Ctx.count_lreq (c : Ctx) (n : Nat) : (c.count n).lreq = c.lreq := rfl
@[simp] theorem Ctx.count_rreq (c : Ctx) (n : Nat) : (c.count n).rreq = c.rreq := rfl
@[simp] theorem Ctx.count_osc (c : Ctx) (n : Nat) : (c.count n).osc = c.osc := rfl
@[simp] theorem Ctx.count_tag (c : Ctx) (n : Nat) : (c.count n).tag = c.tag := rfl
@[simp] theorem Ctx.count_seq (c : Ctx) (n : Nat) : (c.count n).seq = c.seq := rfl
@[simp] theorem Ctx.count_pc (c : Ctx) (n : Nat) : (c.count n).pc = c.pc := rfl
@[simp] theorem Ctx.count_dslot (c : Ctx) (n : Nat) : (c.count n).dslot = c.dslot := rfl
@[simp] theorem Ctx.count_act (c : Ctx) (n : Nat) : (c.count n).act = c.act := rfl
@[simp] theorem Ctx.count_wait (c : Ctx) (n : Nat) : (c.count n).wait = c.wait := rfl
@[simp] theorem Ctx.count_insn (c : Ctx) (n : Nat) : (c.count n).insn = c.insn := rfl
@[simp] theorem Ctx.count_groups (c : Ctx) (n : Nat) : (c.count n).groups = c.groups := rfl
@[simp] theorem Ctx.count_poison (c : Ctx) (n : Nat) : (c.count n).poison = c.poison := rfl
@[simp] theorem Ctx.count_deferred (c : Ctx) (n : Nat) : (c.count n).deferred = c.deferred := rfl
@[simp] theorem Ctx.count_fcheck (c : Ctx) (n : Nat) : (c.count n).fcheck = c.fcheck := rfl
@[simp] theorem Ctx.count_mcheck (c : Ctx) (n : Nat) : (c.count n).mcheck = c.mcheck := rfl
@[simp] theorem Ctx.count_watch (c : Ctx) (n : Nat) : (c.count n).watch = c.watch := rfl
@[simp] theorem Ctx.count_stalled (c : Ctx) (n : Nat) : (c.count n).stalled = c.stalled := rfl
@[simp] theorem Ctx.count_late (c : Ctx) (n : Nat) : (c.count n).late = c.late := rfl
@[simp] theorem Ctx.count_changed (c : Ctx) (n : Nat) : (c.count n).changed = c.changed := rfl
@[simp] theorem Ctx.count_hwdog (c : Ctx) (n : Nat) : (c.count n).hwdog = c.hwdog := rfl
@[simp] theorem Ctx.count_hcount (c : Ctx) (n : Nat) : (c.count n).hcount = c.hcount := rfl
@[simp] theorem Ctx.count_apart (c : Ctx) (n : Nat) : (c.count n).apart = c.apart := rfl
@[simp] theorem Ctx.count_acts (c : Ctx) (n : Nat) : (c.count n).acts = c.acts := rfl
@[simp] theorem Ctx.count_ret0 (c : Ctx) (n : Nat) : (c.count n).ret0 = c.ret0 := rfl
@[simp] theorem Ctx.count_s2at (c : Ctx) (n : Nat) : (c.count n).s2at = c.s2at := rfl
@[simp] theorem Ctx.count_born (c : Ctx) (n : Nat) : (c.count n).born = c.born := rfl
@[simp] theorem Ctx.count_bpDone (c : Ctx) (n : Nat) : (c.count n).bpDone = c.bpDone := rfl

@[simp] theorem Ctx.raise_s (c : Ctx) (x : FFlags) : (c.raise x).s = c.s := rfl
@[simp] theorem Ctx.raise_v (c : Ctx) (x : FFlags) : (c.raise x).v = c.v := rfl
@[simp] theorem Ctx.raise_p (c : Ctx) (x : FFlags) : (c.raise x).p = c.p := rfl
@[simp] theorem Ctx.raise_d (c : Ctx) (x : FFlags) : (c.raise x).d = c.d := rfl
@[simp] theorem Ctx.raise_h (c : Ctx) (x : FFlags) : (c.raise x).h = c.h := rfl
@[simp] theorem Ctx.raise_part (c : Ctx) (x : FFlags) : (c.raise x).part = c.part := rfl
@[simp] theorem Ctx.raise_slots (c : Ctx) (x : FFlags) : (c.raise x).slots = c.slots := rfl
@[simp] theorem Ctx.raise_lc0 (c : Ctx) (x : FFlags) : (c.raise x).lc0 = c.lc0 := rfl
@[simp] theorem Ctx.raise_lc1 (c : Ctx) (x : FFlags) : (c.raise x).lc1 = c.lc1 := rfl
@[simp] theorem Ctx.raise_lbeg0 (c : Ctx) (x : FFlags) : (c.raise x).lbeg0 = c.lbeg0 := rfl
@[simp] theorem Ctx.raise_lend0 (c : Ctx) (x : FFlags) : (c.raise x).lend0 = c.lend0 := rfl
@[simp] theorem Ctx.raise_lbeg1 (c : Ctx) (x : FFlags) : (c.raise x).lbeg1 = c.lbeg1 := rfl
@[simp] theorem Ctx.raise_lend1 (c : Ctx) (x : FFlags) : (c.raise x).lend1 = c.lend1 := rfl
@[simp] theorem Ctx.raise_wtop (c : Ctx) (x : FFlags) : (c.raise x).wtop = c.wtop := rfl
@[simp] theorem Ctx.raise_srseed (c : Ctx) (x : FFlags) : (c.raise x).srseed = c.srseed := rfl
@[simp] theorem Ctx.raise_vovf (c : Ctx) (x : FFlags) : (c.raise x).vovf = c.vovf := rfl
@[simp] theorem Ctx.raise_ictr (c : Ctx) (x : FFlags) : (c.raise x).ictr = c.ictr := rfl
@[simp] theorem Ctx.raise_priv (c : Ctx) (x : FFlags) : (c.raise x).priv = c.priv := rfl
@[simp] theorem Ctx.raise_ie (c : Ctx) (x : FFlags) : (c.raise x).ie = c.ie := rfl
@[simp] theorem Ctx.raise_upact (c : Ctx) (x : FFlags) : (c.raise x).upact = c.upact := rfl
@[simp] theorem Ctx.raise_upvec (c : Ctx) (x : FFlags) : (c.raise x).upvec = c.upvec := rfl
@[simp] theorem Ctx.raise_upinfo (c : Ctx) (x : FFlags) : (c.raise x).upinfo = c.upinfo := rfl
@[simp] theorem Ctx.raise_epc (c : Ctx) (x : FFlags) : (c.raise x).epc = c.epc := rfl
@[simp] theorem Ctx.raise_ecause (c : Ctx) (x : FFlags) : (c.raise x).ecause = c.ecause := rfl
@[simp] theorem Ctx.raise_eaddr (c : Ctx) (x : FFlags) : (c.raise x).eaddr = c.eaddr := rfl
@[simp] theorem Ctx.raise_einfo (c : Ctx) (x : FFlags) : (c.raise x).einfo = c.einfo := rfl
@[simp] theorem Ctx.raise_btarget (c : Ctx) (x : FFlags) : (c.raise x).btarget = c.btarget := rfl
@[simp] theorem Ctx.raise_lreq (c : Ctx) (x : FFlags) : (c.raise x).lreq = c.lreq := rfl
@[simp] theorem Ctx.raise_rreq (c : Ctx) (x : FFlags) : (c.raise x).rreq = c.rreq := rfl
@[simp] theorem Ctx.raise_osc (c : Ctx) (x : FFlags) : (c.raise x).osc = c.osc := rfl
@[simp] theorem Ctx.raise_tag (c : Ctx) (x : FFlags) : (c.raise x).tag = c.tag := rfl
@[simp] theorem Ctx.raise_seq (c : Ctx) (x : FFlags) : (c.raise x).seq = c.seq := rfl
@[simp] theorem Ctx.raise_pc (c : Ctx) (x : FFlags) : (c.raise x).pc = c.pc := rfl
@[simp] theorem Ctx.raise_dslot (c : Ctx) (x : FFlags) : (c.raise x).dslot = c.dslot := rfl
@[simp] theorem Ctx.raise_act (c : Ctx) (x : FFlags) : (c.raise x).act = c.act := rfl
@[simp] theorem Ctx.raise_wait (c : Ctx) (x : FFlags) : (c.raise x).wait = c.wait := rfl
@[simp] theorem Ctx.raise_insn (c : Ctx) (x : FFlags) : (c.raise x).insn = c.insn := rfl
@[simp] theorem Ctx.raise_groups (c : Ctx) (x : FFlags) : (c.raise x).groups = c.groups := rfl
@[simp] theorem Ctx.raise_poison (c : Ctx) (x : FFlags) : (c.raise x).poison = c.poison := rfl
@[simp] theorem Ctx.raise_deferred (c : Ctx) (x : FFlags) : (c.raise x).deferred = c.deferred := rfl
@[simp] theorem Ctx.raise_fcheck (c : Ctx) (x : FFlags) : (c.raise x).fcheck = c.fcheck := rfl
@[simp] theorem Ctx.raise_mcheck (c : Ctx) (x : FFlags) : (c.raise x).mcheck = c.mcheck := rfl
@[simp] theorem Ctx.raise_watch (c : Ctx) (x : FFlags) : (c.raise x).watch = c.watch := rfl
@[simp] theorem Ctx.raise_stalled (c : Ctx) (x : FFlags) : (c.raise x).stalled = c.stalled := rfl
@[simp] theorem Ctx.raise_late (c : Ctx) (x : FFlags) : (c.raise x).late = c.late := rfl
@[simp] theorem Ctx.raise_changed (c : Ctx) (x : FFlags) : (c.raise x).changed = c.changed := rfl
@[simp] theorem Ctx.raise_hwdog (c : Ctx) (x : FFlags) : (c.raise x).hwdog = c.hwdog := rfl
@[simp] theorem Ctx.raise_hcount (c : Ctx) (x : FFlags) : (c.raise x).hcount = c.hcount := rfl
@[simp] theorem Ctx.raise_perf (c : Ctx) (x : FFlags) : (c.raise x).perf = c.perf := rfl
@[simp] theorem Ctx.raise_apart (c : Ctx) (x : FFlags) : (c.raise x).apart = c.apart := rfl
@[simp] theorem Ctx.raise_acts (c : Ctx) (x : FFlags) : (c.raise x).acts = c.acts := rfl
@[simp] theorem Ctx.raise_ret0 (c : Ctx) (x : FFlags) : (c.raise x).ret0 = c.ret0 := rfl
@[simp] theorem Ctx.raise_s2at (c : Ctx) (x : FFlags) : (c.raise x).s2at = c.s2at := rfl
@[simp] theorem Ctx.raise_born (c : Ctx) (x : FFlags) : (c.raise x).born = c.born := rfl
@[simp] theorem Ctx.raise_bpDone (c : Ctx) (x : FFlags) : (c.raise x).bpDone = c.bpDone := rfl

end Sys2Proof.Machine
end

