-- ==== Sys2Proof/Laws/Ops.lean ====
section
/-! SUPPORT. What the shared operations of every instruction can do: issuing, retiring, evaluating formulas, taking a trap. -/

namespace Sys2Proof.Machine

/-! ### Walks that stand (R369) -/

/-- What an instruction that traps or stalls keeps of its walks is no part of a memory; of a context it is the
counts of misses alone. -/
@[simp] theorem State.keepWalks_dram (s t : State) (i : Inst) : (s.keepWalks t i).dram = s.dram := rfl
@[simp] theorem State.keepWalks_dramFe (s t : State) (i : Inst) : (s.keepWalks t i).dramFe = s.dramFe := rfl
@[simp] theorem State.keepWalks_dramBad (s t : State) (i : Inst) : (s.keepWalks t i).dramBad = s.dramBad := rfl
@[simp] theorem State.keepWalks_wordBad (s t : State) (i : Inst) : (s.keepWalks t i).wordBad = s.wordBad := rfl
@[simp] theorem State.keepWalks_cxl (s t : State) (i : Inst) : (s.keepWalks t i).cxl = s.cxl := rfl
@[simp] theorem State.keepWalks_host (s t : State) (i : Inst) : (s.keepWalks t i).host = s.host := rfl
@[simp] theorem State.keepWalks_net (s t : State) (i : Inst) : (s.keepWalks t i).net = s.net := rfl
@[simp] theorem State.keepWalks_stamp (s t : State) (i : Inst) : (s.keepWalks t i).stamp = s.stamp := rfl
@[simp] theorem State.keepWalks_cur (s t : State) (i : Inst) : (s.keepWalks t i).cur = s.cur := rfl
@[simp] theorem State.keepWalks_agenda (s t : State) (i : Inst) : (s.keepWalks t i).agenda = s.agenda := rfl
@[simp] theorem State.keepWalks_rotor (s t : State) (i : Inst) : (s.keepWalks t i).rotor = s.rotor := rfl
@[simp] theorem State.keepWalks_split (s t : State) (i : Inst) : (s.keepWalks t i).split = s.split := rfl
@[simp] theorem State.keepWalks_nextId (s t : State) (i : Inst) : (s.keepWalks t i).nextId = s.nextId := rfl
@[simp] theorem State.keepWalks_fresh (s t : State) (i : Inst) : (s.keepWalks t i).fresh = s.fresh := rfl

/-- The instance itself keeps the counts of misses, and another instance everything. -/
theorem State.keepWalks_ctx (s t : State) (i : Inst) : (s.keepWalks t i).ctx i = (s.ctx i).keepMisses (t.ctx i) := by
  have h : (s.keepWalks t i).ctx i =
      ((s.modNode i.node fun n => { n with tlb := (t.node i.node).tlb }).modCtx i fun c => c.keepMisses (t.ctx i)).ctx i := rfl
  rw [h, State.ctx_modCtx_same]
  unfold State.ctx State.live
  rw [State.node_modNode_same]

theorem State.keepWalks_ctx_ne (s t : State) {i j : Inst} (e : i ≠ j) : (s.keepWalks t i).ctx j = s.ctx j := by
  have h : (s.keepWalks t i).ctx j =
      ((s.modNode i.node fun n => { n with tlb := (t.node i.node).tlb }).modCtx i fun c => c.keepMisses (t.ctx i)).ctx j := rfl
  rw [h, State.ctx_modCtx_ne _ _ e]
  unfold State.ctx State.live
  by_cases d : i.node = j.node
  · rw [← d, State.node_modNode_same]
  · rw [State.node_modNode_ne _ _ d]

/-! ### Issue -/

/-- The one way in which an instruction that is ready and completes ends. -/
theorem State.issue_done {s s' : State} {len : Nat} {u : Use} {k : State → Out} {ws : List Reg} {f : Flow}
    (h : s.ready u) (hk : k s = .done s' ws f) : s.issue len u k = s'.retire len ws f := by
  obtain ⟨h1, h2, h3⟩ := h
  simp only [State.issue, h1, h2, hk, h3, Bool.false_eq_true, if_false]

theorem State.issue_trap {s : State} {len : Nat} {u : Use} {k : State → Out} {t : Trap}
    (h : s.ready u) (hk : k s = .trap t) : s.issue len u k = s.takeTrap s.cur t := by
  obtain ⟨h1, h2, h3⟩ := h
  simp only [State.issue, h1, h2, hk, Ctx.firstTrap, h3, Bool.false_eq_true, if_false]

theorem State.issue_trapAt {s s' : State} {len : Nat} {u : Use} {k : State → Out} {t : Trap}
    (h : s.ready u) (hk : k s = .trapAt s' t) : s.issue len u k = (s.keepWalks s' s.cur).takeTrap s.cur t := by
  obtain ⟨h1, h2, h3⟩ := h
  simp only [State.issue, h1, h2, hk, Ctx.firstTrap, h3, Bool.false_eq_true, if_false]

theorem State.issue_wait {s s' : State} {len : Nat} {u : Use} {k : State → Out} {w : Wait}
    (h : s.ready u) (hk : k s = .wait s' w) : s.issue len u k = s'.modCtx s'.cur fun c => { c with wait := w } := by
  obtain ⟨h1, h2, h3⟩ := h
  simp only [State.issue, h1, h2, hk, h3, Bool.false_eq_true, if_false]

theorem State.issue_stall {s s' : State} {len : Nat} {u : Use} {k : State → Out}
    (h : s.ready u) (hk : k s = .stall s') : s.issue len u k = s' := by
  obtain ⟨h1, h2, _⟩ := h
  simp only [State.issue, h1, h2, hk, Bool.false_eq_true, if_false]

/-- A check that fails takes its trap, and the instruction has no effect. -/
theorem State.issue_checked {s : State} {len : Nat} {u : Use} {k : State → Out} {t : Trap}
    (h : s.precheck u = some t) : s.issue len u k = s.takeTrap s.cur t := by
  simp only [State.issue, h]

/-- Everything an issue can do. -/
theorem State.issue_cases (s : State) (len : Nat) (u : Use) (k : State → Out) :
    (∃ t, s.issue len u k = s.takeTrap s.cur t) ∨ s.issue len u k = s.modCtx s.cur (fun c => { c with stalled := c.pendingOf u }) ∨
      (s.precheck u = none ∧
        ((∃ s', k s = .stall s' ∧ s.issue len u k = s') ∨
          (∃ s' t t', k s = .trapAt s' t ∧ s.issue len u k = (s.keepWalks s' s.cur).takeTrap s.cur t') ∨
          (∃ s' w, k s = .wait s' w ∧ s.issue len u k = s'.modCtx s'.cur fun c => { c with wait := w }) ∨
          (∃ s' ws f, k s = .done s' ws f ∧ s.issue len u k = s'.retire len ws f))) := by
  cases h1 : s.precheck u with
  | some t => exact .inl ⟨t, State.issue_checked h1⟩
  | none =>
    cases h2 : (s.ctx s.cur).interlocked u with
    | true => exact .inr (.inl (by simp only [State.issue, h1, h2, if_true]))
    | false =>
      cases hk : k s with
      | stall s' => exact .inr (.inr ⟨rfl, .inl ⟨s', rfl, by simp [State.issue, h1, h2, hk]⟩⟩)
      | trap t => exact .inl ⟨_, by simp only [State.issue, h1, h2, hk, Bool.false_eq_true, if_false]; rfl⟩
      | trapAt s' t =>
        exact .inr (.inr ⟨rfl, .inr (.inl ⟨s', t, _, rfl, by simp only [State.issue, h1, h2, hk, Bool.false_eq_true, if_false]; rfl⟩)⟩)
      | wait s' w =>
        cases h3 : (s.ctx s.cur).poisonedAt u.reads with
        | some a => exact .inl ⟨{ cause := .machineCheck, eaddr := a }, by simp [State.issue, h1, h2, hk, h3]⟩
        | none => exact .inr (.inr ⟨rfl, .inr (.inr (.inl ⟨s', w, rfl, by simp [State.issue, h1, h2, hk, h3]⟩))⟩)
      | done s' ws f =>
        cases h3 : (s.ctx s.cur).poisonedAt u.reads with
        | some a => exact .inl ⟨{ cause := .machineCheck, eaddr := a }, by simp [State.issue, h1, h2, hk, h3]⟩
        | none => exact .inr (.inr ⟨rfl, .inr (.inr (.inr ⟨s', ws, f, rfl, by simp [State.issue, h1, h2, hk, h3]⟩))⟩)

/-- An instruction's meaning answers a next state. -/
theorem run_next (x : Instr) (u : Use) (s : State) (k : State → Out) : run x u s k = .next (s.issue x.len u k) := rfl

theorem run_done {x : Instr} {u : Use} {s s' : State} {k : State → Out} {ws : List Reg} {f : Flow}
    (h : s.ready u) (hk : k s = .done s' ws f) : run x u s k = .next (s'.retire x.len ws f) := by
  rw [run_next, State.issue_done h hk]

theorem run_trapAt {x : Instr} {u : Use} {s s' : State} {k : State → Out} {t : Trap}
    (h : s.ready u) (hk : k s = .trapAt s' t) : run x u s k = .next ((s.keepWalks s' s.cur).takeTrap s.cur t) := by
  rw [run_next, State.issue_trapAt h hk]

theorem run_trap {x : Instr} {u : Use} {s : State} {k : State → Out} {t : Trap}
    (h : s.ready u) (hk : k s = .trap t) : run x u s k = .next (s.takeTrap s.cur t) := by
  rw [run_next, State.issue_trap h hk]

/-! ### Formulas -/

/-- What evaluation never changes: everything but s registers, running values and the pending check. -/
structure Ctx.sameButFormulas (c d : Ctx) : Prop where
  v : d.v = c.v
  p : d.p = c.p
  d_ : d.d = c.d
  h : d.h = c.h
  fstat : d.fstat = c.fstat
  vovf : d.vovf = c.vovf
  wtop : d.wtop = c.wtop
  srseed : d.srseed = c.srseed
  ictr : d.ictr = c.ictr
  priv : d.priv = c.priv
  ie : d.ie = c.ie
  upact : d.upact = c.upact
  upvec : d.upvec = c.upvec
  upinfo : d.upinfo = c.upinfo
  epc : d.epc = c.epc
  ecause : d.ecause = c.ecause
  eaddr : d.eaddr = c.eaddr
  einfo : d.einfo = c.einfo
  btarget : d.btarget = c.btarget
  lc0 : d.lc0 = c.lc0
  lc1 : d.lc1 = c.lc1
  lbeg0 : d.lbeg0 = c.lbeg0
  lend0 : d.lend0 = c.lend0
  lbeg1 : d.lbeg1 = c.lbeg1
  lend1 : d.lend1 = c.lend1
  osc : d.osc = c.osc
  lreq : d.lreq = c.lreq
  rreq : d.rreq = c.rreq
  tag : d.tag = c.tag
  seq : d.seq = c.seq
  pc : d.pc = c.pc
  dslot : d.dslot = c.dslot
  act : d.act = c.act
  wait : d.wait = c.wait
  groups : d.groups = c.groups
  deferred : d.deferred = c.deferred
  perf : d.perf = c.perf
  part : d.part = c.part
  changed : d.changed = c.changed
  /-- Bindings stand. -/
  bound : ∀ k, (d.slot k).valid = (c.slot k).valid ∧ (d.slot k).dest = (c.slot k).dest
  /-- A register that no VALID slot writes keeps its value. -/
  sr : ∀ n, (∀ k, k < 16 → (c.slot k).valid = true → (c.slot k).dest ≠ n) → d.sr n = c.sr n

theorem Ctx.sameButFormulas.refl (c : Ctx) : c.sameButFormulas c := by
  constructor <;> intros <;> simp

theorem Ctx.sameButFormulas.trans {a b c : Ctx} (h : a.sameButFormulas b) (k : b.sameButFormulas c) :
    a.sameButFormulas c := by
  constructor
  case bound => exact fun n => ⟨(k.bound n).1.trans (h.bound n).1, (k.bound n).2.trans (h.bound n).2⟩
  case sr =>
    intro n hn
    rw [k.sr n (fun j hj hv => by rw [(h.bound j).1] at hv; rw [(h.bound j).2]; exact hn j hj hv), h.sr n hn]
  all_goals first
    | exact k.v.trans h.v | exact k.p.trans h.p | exact k.d_.trans h.d_ | exact k.h.trans h.h | exact k.fstat.trans h.fstat
    | exact k.vovf.trans h.vovf | exact k.wtop.trans h.wtop | exact k.srseed.trans h.srseed | exact k.ictr.trans h.ictr
    | exact k.priv.trans h.priv | exact k.ie.trans h.ie | exact k.upact.trans h.upact | exact k.upvec.trans h.upvec
    | exact k.upinfo.trans h.upinfo | exact k.epc.trans h.epc | exact k.ecause.trans h.ecause | exact k.eaddr.trans h.eaddr
    | exact k.einfo.trans h.einfo | exact k.btarget.trans h.btarget | exact k.lc0.trans h.lc0 | exact k.lc1.trans h.lc1
    | exact k.lbeg0.trans h.lbeg0 | exact k.lend0.trans h.lend0 | exact k.lbeg1.trans h.lbeg1 | exact k.lend1.trans h.lend1
    | exact k.osc.trans h.osc | exact k.lreq.trans h.lreq | exact k.rreq.trans h.rreq | exact k.tag.trans h.tag
    | exact k.seq.trans h.seq | exact k.pc.trans h.pc | exact k.dslot.trans h.dslot | exact k.act.trans h.act
    | exact k.wait.trans h.wait | exact k.groups.trans h.groups | exact k.deferred.trans h.deferred
    | exact k.perf.trans h.perf | exact k.part.trans h.part | exact k.changed.trans h.changed

/-- Visiting one active slot. -/
theorem Eval.visit_same (v : Eval) (m : Img) (xs : List Src) (k : Nat) (hk : k < 16) (hv : (v.ctx.slot k).valid = true) :
    v.ctx.sameButFormulas (v.visit m xs k).ctx := by
  unfold Eval.visit
  simp only
  split
  · have hs : ∀ (x : Word) (a : Word) (j : Nat),
        (((v.ctx.setSlot k { v.ctx.slot k with accum := a }).setS (v.ctx.slot k).dest x).slot j) =
          if k = j then { v.ctx.slot k with accum := a } else v.ctx.slot j := by
      intro x a j
      have h1 : (((v.ctx.setSlot k { v.ctx.slot k with accum := a }).setS (v.ctx.slot k).dest x).slot j) =
          ((v.ctx.setSlot k { v.ctx.slot k with accum := a }).slot j) := by
        unfold Ctx.slot; rw [Ctx.setS_slots]
      rw [h1, Ctx.slot_setSlot]
    constructor
    case bound =>
      intro j
      simp only [hs]
      split
      · rename_i h; subst h; exact ⟨rfl, rfl⟩
      · exact ⟨rfl, rfl⟩
    case sr =>
      intro n hn
      have hne := hn k hk hv
      simp only [Ctx.sr_setS]
      rw [if_neg (fun h => hne h.1)]
      rfl
    all_goals simp
  · exact Ctx.sameButFormulas.refl _

theorem Eval.go_same (m : Img) (xs : List Src) (n : Nat) (todo : List Nat) (v : Eval)
    (h : ∀ k ∈ todo, k < 16 ∧ (v.ctx.slot k).valid = true) : v.ctx.sameButFormulas (Eval.go m xs n todo v).ctx := by
  induction n generalizing todo v with
  | zero => exact Ctx.sameButFormulas.refl _
  | succ n ih =>
    unfold Eval.go
    split
    · exact Ctx.sameButFormulas.refl _
    · rename_i k hk
      have hm := List.mem_of_find?_eq_some hk
      have h1 := Eval.visit_same v m xs k (h k hm).1 (h k hm).2
      refine h1.trans (ih _ _ fun j hj => ?_)
      have hj' := h j (List.mem_of_mem_filter hj)
      exact ⟨hj'.1, (h1.bound j).1.trans hj'.2⟩

@[simp] theorem Ctx.unpoison_slot (c : Ctx) (rs : List Reg) (n : Nat) : (c.unpoison rs).slot n = c.slot n := rfl
@[simp] theorem Ctx.unpoison_sr (c : Ctx) (rs : List Reg) (n : Nat) : (c.unpoison rs).sr n = c.sr n := rfl

theorem Ctx.unpoison_same (c : Ctx) (rs : List Reg) : c.sameButFormulas (c.unpoison rs) := by
  constructor <;> intros <;> first | rfl | exact ⟨rfl, rfl⟩

/-- Everything that evaluating formulas after a write can do. -/
theorem evalBindings_same (m : Img) (c : Ctx) (regs : List Nat) (xs : List Src) (t : Option Word) :
    c.sameButFormulas (evalBindings m c regs xs t) := by
  unfold evalBindings
  split
  · exact Ctx.sameButFormulas.refl c
  · have h := Eval.go_same m xs 16 c.active ⟨c, regs, none⟩ (fun k hk => by
      simp only [Ctx.active, List.mem_filter, List.mem_range, Bool.and_eq_true] at hk
      exact ⟨hk.1, hk.2.1⟩)
    have h2 := h.trans (Ctx.unpoison_same _ ((Eval.go m xs 16 c.active ⟨c, regs, none⟩).dirty.drop regs.length |>.map .s))
    simp only
    split
    · refine h2.trans ?_
      constructor <;> intros <;> first | rfl | exact ⟨rfl, rfl⟩
    · exact h2

theorem Ctx.boundSlot_none {c : Ctx} {n : Nat} (h : c.boundSlot n = none) :
    ∀ k, k < 16 → (c.slot k).valid = true → (c.slot k).dest ≠ n := by
  intro k hk hv hd
  have := (List.find?_eq_none.mp h) k (List.mem_range.mpr hk)
  simp [hv, hd] at this

/-! ### Retirement -/

theorem Ctx.loopEnd_keeps (c : Ctx) (w : Word) :
    c.loopEnd w = { c with pc := (c.loopEnd w).pc, lc0 := (c.loopEnd w).lc0, lc1 := (c.loopEnd w).lc1 } := by
  unfold Ctx.loopEnd
  simp only
  split <;> (try split) <;> (try split) <;> (try split) <;> rfl

/-- Continuing changes the program counter, the delay slot and the loop counters alone. -/
theorem Ctx.advance_keeps (c : Ctx) (len : Nat) (f : Flow) :
    c.advance len f = { c with pc := (c.advance len f).pc, dslot := (c.advance len f).dslot
                               lc0 := (c.advance len f).lc0, lc1 := (c.advance len f).lc1 } := by
  unfold Ctx.advance
  cases f with
  | seq => simp only; rw [Ctx.loopEnd_keeps]
  | keep => simp only; rw [Ctx.loopEnd_keeps]
  | goto t => simp only; rw [Ctx.loopEnd_keeps]
  | slot t => rfl
  | resume p t => rfl
  | loaded k => rfl

/-- Outside an active loop's end, execution goes on at the given address. -/
theorem Ctx.loopEnd_plain {c : Ctx} (w : Word) (h : c.atEnd = false) : c.loopEnd w = { c with pc := w } := by
  simp only [Ctx.atEnd, Bool.or_eq_false_iff, Bool.and_eq_false_iff, bne_eq_false_iff_eq, beq_eq_false_iff_ne] at h
  unfold Ctx.loopEnd
  simp only
  have h1 : ¬(c.lc1 ≠ 0 ∧ c.pc = c.lend1) := fun ⟨a, b⟩ => h.2.elim a fun x => x b.symm
  have h0 : ¬(c.lc0 ≠ 0 ∧ c.pc = c.lend0) := fun ⟨a, b⟩ => h.1.elim a fun x => x b.symm
  rw [if_neg h1, if_neg h0]

/-- What the end of an instruction leaves alone in its context. -/
theorem Ctx.retire_keeps (c : Ctx) (m : Img) (len : Nat) (ws : List Reg) (f : Flow) : c.keeps (c.retire m len ws f) := by
  have h := (Ctx.unpoison_same c ws).trans (evalBindings_same m (c.unpoison ws) (sNums ws) [] (some c.pc))
  unfold Ctx.retire
  simp only
  generalize evalBindings m (c.unpoison ws) (sNums ws) [] (some c.pc) = e at h ⊢
  rw [Ctx.advance_keeps]
  refine ⟨fun n hn => ?_, h.v, h.p, h.d_, h.h, h.fstat, h.vovf, h.wtop, h.srseed, h.priv, h.ie, h.upact, h.upvec, h.upinfo,
    h.epc, h.ecause, h.eaddr, h.einfo, h.btarget, h.lbeg0, h.lend0, h.lbeg1, h.lend1, h.osc, h.lreq, h.rreq, h.tag, h.seq,
    h.act, h.groups, h.deferred⟩
  exact h.sr n (Ctx.boundSlot_none hn)

/-- Retiring changes no byte, no FE bit and no other context. -/
@[simp] theorem State.retire_readPlace (s : State) (len : Nat) (ws : List Reg) (f : Flow) (p : Place) (n : Nat) :
    (s.retire len ws f).readPlace p n = s.readPlace p n :=
  s.readPlace_modCtx _ _ p n

@[simp] theorem State.retire_full (s : State) (len : Nat) (ws : List Reg) (f : Flow) (p : Place) :
    (s.retire len ws f).full p = s.full p :=
  s.full_modCtx _ _ p

theorem State.retire_ctx (s : State) (len : Nat) (ws : List Reg) (f : Flow) :
    (s.retire len ws f).ctx s.cur = (s.ctx s.cur).retire (s.live s.cur.node) len ws f := by
  simp [State.retire]

theorem State.retire_ctx_ne (s : State) (len : Nat) (ws : List Reg) (f : Flow) {j : Inst} (h : s.cur ≠ j) :
    (s.retire len ws f).ctx j = s.ctx j :=
  s.ctx_modCtx_ne _ h

@[simp] theorem State.retire_pkgs (s : State) (len : Nat) (ws : List Reg) (f : Flow) : (s.retire len ws f).pkgs = s.pkgs := rfl
@[simp] theorem State.retire_dram (s : State) (len : Nat) (ws : List Reg) (f : Flow) : (s.retire len ws f).dram = s.dram := rfl
@[simp] theorem State.retire_dramFe (s : State) (len : Nat) (ws : List Reg) (f : Flow) : (s.retire len ws f).dramFe = s.dramFe := rfl
@[simp] theorem State.retire_dramBad (s : State) (len : Nat) (ws : List Reg) (f : Flow) : (s.retire len ws f).dramBad = s.dramBad := rfl
@[simp] theorem State.retire_cxl (s : State) (len : Nat) (ws : List Reg) (f : Flow) : (s.retire len ws f).cxl = s.cxl := rfl
@[simp] theorem State.retire_host (s : State) (len : Nat) (ws : List Reg) (f : Flow) : (s.retire len ws f).host = s.host := rfl
@[simp] theorem State.retire_net (s : State) (len : Nat) (ws : List Reg) (f : Flow) : (s.retire len ws f).net = s.net := rfl
@[simp] theorem State.retire_stamp (s : State) (len : Nat) (ws : List Reg) (f : Flow) : (s.retire len ws f).stamp = s.stamp := rfl
@[simp] theorem State.retire_cur (s : State) (len : Nat) (ws : List Reg) (f : Flow) : (s.retire len ws f).cur = s.cur := rfl
@[simp] theorem State.retire_agenda (s : State) (len : Nat) (ws : List Reg) (f : Flow) : (s.retire len ws f).agenda = s.agenda := rfl
@[simp] theorem State.retire_rotor (s : State) (len : Nat) (ws : List Reg) (f : Flow) : (s.retire len ws f).rotor = s.rotor := rfl
@[simp] theorem State.retire_split (s : State) (len : Nat) (ws : List Reg) (f : Flow) : (s.retire len ws f).split = s.split := rfl
@[simp] theorem State.retire_nextId (s : State) (len : Nat) (ws : List Reg) (f : Flow) : (s.retire len ws f).nextId = s.nextId := rfl
@[simp] theorem State.retire_fresh (s : State) (len : Nat) (ws : List Reg) (f : Flow) : (s.retire len ws f).fresh = s.fresh := rfl

end Sys2Proof.Machine
end

