-- ==== Sys2Proof/Laws/Memory.lean ====
section
/-! SUPPORT. What the memory operations can do: places read and written, the canonical form, and the outcomes of a memory
instruction's accesses. -/

namespace Sys2Proof.Machine

/-! ### Bytes -/

theorem Memory.readNat_lt (m : Memory) (a n : Nat) : m.readNat a n < 256 ^ n := by
  induction n generalizing a with
  | zero => simp [Memory.readNat]
  | succ n ih =>
    have h := ih (a + 1)
    have hb := (m.read a).isLt
    simp only [Memory.readNat, Nat.pow_succ]
    omega

theorem State.readPlace_lt (s : State) (p : Place) (n : Nat) : s.readPlace p n < 256 ^ n := by
  cases p <;> exact Memory.readNat_lt _ _ _

/-! ### What stays -/

theorem State.sameBytes.refl (s : State) : s.sameBytes s := fun _ => ⟨fun _ => rfl, rfl⟩

theorem State.sameBytes.trans {s t u : State} (h : s.sameBytes t) (k : t.sameBytes u) : s.sameBytes u :=
  fun p => ⟨fun n => ((k p).1 n).trans ((h p).1 n), (k p).2.trans (h p).2⟩

theorem State.sameOthers.refl (s : State) (i : Inst) : s.sameOthers s i := fun _ _ => rfl

theorem State.sameOthers.trans {s t u : State} {i : Inst} (h : s.sameOthers t i) (k : t.sameOthers u i) : s.sameOthers u i :=
  fun j hj => (k j hj).trans (h j hj)

/-! ### Places -/

/-- A write of a place behind a global virtual address reads back. -/
theorem State.readPlace_writePlace_dram (s : State) (a n x : Nat) :
    (s.writePlace (.dram a) n x).readPlace (.dram a) n = x % 256 ^ n := Memory.readNat_writeNat _ _ _ _
theorem State.readPlace_writePlace_cxl (s : State) (a n x : Nat) :
    (s.writePlace (.cxl a) n x).readPlace (.cxl a) n = x % 256 ^ n := Memory.readNat_writeNat _ _ _ _
theorem State.readPlace_writePlace_host (s : State) (a n x : Nat) :
    (s.writePlace (.host a) n x).readPlace (.host a) n = x % 256 ^ n := Memory.readNat_writeNat _ _ _ _

theorem State.readPlace_writePlace_dram_out (s : State) (a n x b k : Nat) (h : b + k ≤ a ∨ a + n ≤ b) :
    (s.writePlace (.dram a) n x).readPlace (.dram b) k = s.readPlace (.dram b) k := Memory.readNat_writeNat_out _ _ _ _ _ _ h

/-! ### The canonical form -/

/-- The canonical form rests on the three memories alone. -/
theorem State.memWf_congr {s t : State} (h : s.memWf) (hd : t.dram = s.dram) (hc : t.cxl = s.cxl) (hh : t.host = s.host) :
    t.memWf := by
  unfold State.memWf at *
  rw [hd, hc, hh]
  exact h

/-- Every write keeps the canonical form. -/
theorem State.memWf_writePlace {s : State} (h : s.memWf) (p : Place) (n x : Nat) : (s.writePlace p n x).memWf := by
  obtain ⟨h1, h2, h3⟩ := h
  cases p with
  | spm g q a => exact ⟨h1, h2, h3⟩
  | dram a => exact ⟨Memory.wf_writeNat h1 _ _ _, h2, h3⟩
  | cxl a => exact ⟨h1, Memory.wf_writeNat h2 _ _ _, h3⟩
  | host a => exact ⟨h1, h2, Memory.wf_writeNat h3 _ _ _⟩

theorem State.memWf_setFull {s : State} (h : s.memWf) (p : Place) (b : Bool) : (s.setFull p b).memWf := by
  cases p <;> exact h

theorem State.memWf_setDramWord {s : State} (h : s.memWf) (p a : Nat) (x : Word) : (s.setDramWord p a x).memWf :=
  State.memWf_writePlace h _ _ _

/-- A change of one node keeps the canonical form of every scratchpad if it keeps that node's. -/
theorem State.padsWf_modNode {s : State} (h : s.padsWf) (g : Nat) (f : Node → Node)
    (hf : (f (s.node g)).live.spm.wf = true ∧
      ∀ m, m ∈ (f (s.node g)).shadows ∨ m ∈ (f (s.node g)).stored → m.spm.wf = true) : (s.modNode g f).padsWf := by
  intro k
  by_cases hk : g = k
  · subst hk
    simpa [State.live, State.node, State.modNode, State.setNode] using hf
  · simpa [State.live, State.node, State.modNode, State.setNode, Table.get_put_ne _ _ _ hk] using h k

theorem mem_modImg {l : List Img} {part : Option Nat} {f : Img → Img} {m : Img} (h : m ∈ modImg l part f) :
    m ∈ l ∨ ∃ x ∈ l, m = f x := by
  simp only [modImg, List.mem_map] at h
  obtain ⟨x, hx, rfl⟩ := h
  split
  · exact .inr ⟨x, hx, rfl⟩
  · exact .inl hx

/-- A change of one image keeps the canonical form of every scratchpad if it keeps every image's. -/
theorem State.padsWf_modImg {s : State} (h : s.padsWf) (g : Nat) (part : Option Nat) (f : Img → Img)
    (hf : ∀ m : Img, m.spm.wf = true → (f m).spm.wf = true) : (s.modImg g part f).padsWf := by
  obtain ⟨h1, h2⟩ := h g
  refine State.padsWf_modNode h g _ ?_
  split
  · exact ⟨hf _ h1, h2⟩
  · exact ⟨hf _ h1, h2⟩
  · refine ⟨h1, fun m hm => ?_⟩
    rcases hm with hm | hm
    · rcases mem_modImg hm with hm | ⟨x, hx, rfl⟩
      · exact h2 m (.inl hm)
      · exact hf x (h2 x (.inl hx))
    · exact h2 m (.inr hm)
  · refine ⟨h1, fun m hm => ?_⟩
    rcases hm with hm | hm
    · exact h2 m (.inl hm)
    · rcases mem_modImg hm with hm | ⟨x, hx, rfl⟩
      · exact h2 m (.inr hm)
      · exact hf x (h2 x (.inr hx))

/-- Every write keeps the scratchpads' canonical form. -/
theorem State.padsWf_writePlace {s : State} (h : s.padsWf) (p : Place) (n x : Nat) : (s.writePlace p n x).padsWf := by
  cases p with
  | spm g q a => exact State.padsWf_modImg h g q (fun m => m.wr a n x) fun m hm => Memory.wf_writeNat hm a n x
  | dram a => exact h
  | cxl a => exact h
  | host a => exact h

theorem State.padsWf_setFull {s : State} (h : s.padsWf) (p : Place) (b : Bool) : (s.setFull p b).padsWf := by
  cases p with
  | spm g q a => exact State.padsWf_modImg h g q (fun m =>
      { m with fe := m.fe.write (a / 8) b, dirty := markDirty m.dirty a 8 }) fun m hm => hm
  | dram a => exact h
  | cxl a => exact h
  | host a => exact h

/-- Taking away the bytes of some addresses keeps the canonical form. -/
theorem Memory.wf_filter {m : Memory} (h : m.wf = true) (f : Host.Cell → Bool) : Memory.wf (m.filter f) = true := by
  simp only [Memory.wf, Bool.and_eq_true, List.all_eq_true] at *
  obtain ⟨hr, ha⟩ := h
  refine ⟨?_, fun c hc => ha c (List.mem_of_mem_filter hc)⟩
  clear ha
  induction m with
  | nil => rfl
  | cons c t ih =>
    rw [Table.rising_cons] at hr
    have h2 := ih hr.2
    by_cases hf : f c = true
    · rw [List.filter_cons_of_pos hf, Table.rising_cons]
      exact ⟨fun d hd => hr.1 d (List.mem_of_mem_filter hd), h2⟩
    · rw [List.filter_cons_of_neg hf]
      exact h2

/-! ### The accesses of a memory instruction -/

/-- Admitted accesses are performed or sent. -/
theorem memory_admits {s t : State} {op : MemOp} {fs : List (LaneAcc × Found)} (h : s.admits op fs t) :
    memory s op = .done (t.performAll op fs).1 (t.performAll op fs).2 .seq := by
  obtain ⟨h1, h2, h3, h4, h5⟩ := h
  have hl : (op.lanes.find? fun a => a.v.toNat % op.size != 0) = none := by
    rw [List.find?_eq_none]
    intro a ha
    simp [h2 a ha]
  have hw : (fs.any fun af => t.ownWaits s.cur op af.2) = false := by
    rw [List.any_eq_false]
    intro af ha
    simp [h4 af ha]
  have ho : ¬256 < (s.ctx s.cur).osc + oscNeed op fs := Nat.not_lt.mpr h5
  simp only [memory, h1, hl, h3, hw, Bool.false_eq_true, if_false, Bool.false_or, decide_eq_true_eq, ho]

/-- Everything the accesses of a memory instruction can do: nothing yet, a trap, a trap after walks, or all of them. -/
theorem memory_cases (s : State) (op : MemOp) :
    memory s op = .stall s ∨ (∃ t, memory s op = .trap t) ∨ (∃ s' t, memory s op = .trapAt s' t) ∨
      ∃ t fs, s.admits op fs t ∧ memory s op = .done (t.performAll op fs).1 (t.performAll op fs).2 .seq := by
  cases h1 : s.acqOpen s.cur with
  | true => exact .inl (by simp [memory, h1])
  | false =>
    cases hl : op.lanes.find? fun a => a.v.toNat % op.size != 0 with
    | some a =>
      refine .inr (.inl ⟨?_, ?_⟩)
      case refine_2 => simp only [memory, h1, hl, Bool.false_eq_true, if_false]; rfl
    | none =>
      cases hf : s.findAll s.cur op.need op.mode op.size op.lanes with
      | mk t r =>
        cases r with
        | error e =>
          refine .inr (.inr (.inl ⟨(t.refusedLanes s.cur op (op.lanes.filter fun b => e.2.2.lane < b.lane)).1, ?_, ?_⟩))
          case refine_2 => simp only [memory, h1, hl, hf, Bool.false_eq_true, if_false]; rfl
        | ok fs =>
          by_cases hw : (fs.any (fun af => t.ownWaits s.cur op af.2) || decide (256 < (s.ctx s.cur).osc + oscNeed op fs)) = true
          · exact .inl (by simp only [memory, h1, hl, hf, Bool.false_eq_true, if_false, hw, if_true])
          · have ha : s.admits op fs t := by
              simp only [Bool.or_eq_true, not_or, decide_eq_true_eq, Bool.not_eq_true] at hw
              refine ⟨h1, ?_, hf, ?_, Nat.not_lt.mp hw.2⟩
              · intro a ha
                have := (List.find?_eq_none.mp hl) a ha
                simpa using this
              · intro af ha
                have := (List.any_eq_false.mp hw.1) af ha
                simpa using this
            exact .inr (.inr (.inr ⟨t, fs, ha, memory_admits ha⟩))

end Sys2Proof.Machine
end

