-- ==== Sys2Proof/Laws/Image.lean ====
section
/-! SUPPORT. What writing an image area can do: the bytes it leaves, and the canonical form that it keeps. -/

namespace Sys2Proof.Machine

variable {α : Type}

theorem Table.rising_append {s t : Table α} (hs : Table.rising s = true) (ht : Table.rising t = true)
    (h : ∀ c ∈ s, ∀ d ∈ t, c.1 < d.1) : Table.rising (s ++ t) = true := by
  induction s with
  | nil => exact ht
  | cons c s ih =>
    rw [Table.rising_cons] at hs
    rw [List.cons_append, Table.rising_cons]
    refine ⟨fun d hd => ?_, ih hs.2 fun e he d hd => h e (List.mem_cons_of_mem _ he) d hd⟩
    rcases List.mem_append.mp hd with hd | hd
    · exact hs.1 d hd
    · exact h c (List.mem_cons_self ..) d hd

theorem Table.get_append (d : α) (s t : Table α) (k : Nat) :
    Table.get d (s ++ t) k = if ∃ c ∈ s, c.1 = k then Table.get d s k else Table.get d t k := by
  induction s with
  | nil => simp
  | cons c s ih =>
    obtain ⟨j, x⟩ := c
    by_cases hj : j = k
    · simp [Table.get, hj]
    · simp only [List.cons_append, Table.get, ih, List.mem_cons, exists_eq_or_imp, hj, false_or, if_false]

theorem Table.get_absent (d : α) {t : Table α} {k : Nat} (h : ∀ c ∈ t, c.1 ≠ k) : Table.get d t k = d := by
  induction t with
  | nil => rfl
  | cons c t ih =>
    simp only [Table.get, if_neg (h c (List.mem_cons_self ..))]
    exact ih fun e he => h e (List.mem_cons_of_mem _ he)

theorem Table.get_filter (d : α) (t : Table α) (f : Nat → Bool) (k : Nat) :
    Table.get d (t.filter fun c => f c.1) k = if f k then Table.get d t k else d := by
  induction t with
  | nil => simp [Table.get]
  | cons c t ih =>
    obtain ⟨j, x⟩ := c
    by_cases hf : f j = true <;> by_cases hj : j = k <;> simp_all [Table.get]

/-! ### Bytes in bulk -/

theorem Memory.cells_mem {a : Nat} {bs : List Byte} {c : Host.Cell} (h : c ∈ Memory.cells a bs) :
    a ≤ c.1 ∧ c.1 < a + bs.length ∧ c.2 ≠ Memory.blank := by
  induction bs generalizing a with
  | nil => simp [Memory.cells] at h
  | cons b bs ih =>
    simp only [Memory.cells] at h
    split at h
    · have := ih h
      simp only [List.length_cons]
      exact ⟨by omega, by omega, this.2.2⟩
    · rcases List.mem_cons.mp h with h | h
      · subst h
        simp only [List.length_cons]
        exact ⟨Nat.le_refl _, by omega, by assumption⟩
      · have := ih h
        simp only [List.length_cons]
        exact ⟨by omega, by omega, this.2.2⟩

theorem Memory.cells_rising (a : Nat) (bs : List Byte) : Table.rising (Memory.cells a bs) = true := by
  induction bs generalizing a with
  | nil => rfl
  | cons b bs ih =>
    simp only [Memory.cells]
    split
    · exact ih _
    · rw [Table.rising_cons]
      refine ⟨fun d hd => ?_, ih _⟩
      have := Memory.cells_mem hd
      simp only
      omega

theorem Memory.read_cells (a : Nat) (bs : List Byte) (k : Nat) (h : k < bs.length) :
    Memory.read (Memory.cells a bs) (a + k) = bs.getD k 0 := by
  induction bs generalizing a k with
  | nil => simp at h
  | cons b bs ih =>
    simp only [Memory.cells]
    cases k with
    | zero =>
      split
      · rename_i hb
        subst hb
        refine Table.get_absent _ fun c hc => ?_
        have := Memory.cells_mem hc
        omega
      · simp [Memory.read, Table.get]
    | succ k =>
      have hk : k < bs.length := by simpa using h
      have := ih (a + 1) k hk
      rw [show a + 1 + k = a + (k + 1) by omega] at this
      split
      · simpa using this
      · rw [Memory.read, Table.get, if_neg (by omega)]
        simpa [Memory.read] using this

/-- The bytes after a write in bulk. -/
theorem Memory.read_splice (m : Memory) (a : Nat) (bs : List Byte) (k : Nat) :
    (m.splice a bs).read k = if a ≤ k ∧ k < a + bs.length then bs.getD (k - a) 0 else m.read k := by
  have hlow : ∀ c ∈ m.filter (fun c => decide (c.1 < a)), c.1 < a := fun c hc => by simpa using (List.mem_filter.mp hc).2
  have f1 := Table.get_filter Memory.blank m (fun j => decide (j < a)) k
  have f2 := Table.get_filter Memory.blank m (fun j => decide (a + bs.length ≤ j)) k
  unfold Memory.splice Memory.read
  rw [List.append_assoc, Table.get_append, Table.get_append]
  split
  · rename_i h
    obtain ⟨c, hc, rfl⟩ := h
    have := hlow c hc
    rw [f1, if_pos (by simpa using this), if_neg (by omega)]
  · rename_i h
    split
    · rename_i h2
      obtain ⟨c, hc, rfl⟩ := h2
      have hb := Memory.cells_mem hc
      rw [if_pos ⟨hb.1, hb.2.1⟩]
      have := Memory.read_cells a bs (c.1 - a) (by omega)
      rw [show a + (c.1 - a) = c.1 by omega] at this
      exact this
    · rename_i h2
      rw [f2]
      by_cases hin : a ≤ k ∧ k < a + bs.length
      · rw [if_pos hin, if_neg (by simp; omega)]
        have := Memory.read_cells a bs (k - a) (by omega)
        rw [show a + (k - a) = k by omega] at this
        rw [← this, Memory.read, Table.get_absent]
        exact fun c hc he => h2 ⟨c, hc, he⟩
      · rw [if_neg hin]
        by_cases hk : a + bs.length ≤ k
        · rw [if_pos (by simpa using hk)]
        · rw [if_neg (by simpa using hk)]
          refine (Table.get_absent _ fun c hc he => h ⟨c, ?_, he⟩).symm
          exact List.mem_filter.mpr ⟨hc, by simp; omega⟩

/-- A write in bulk keeps the canonical form. -/
theorem Memory.wf_splice {m : Memory} (h : m.wf = true) (a : Nat) (bs : List Byte) : (m.splice a bs).wf = true := by
  have h1 := Memory.wf_filter h fun c => decide (c.1 < a)
  have h2 := Memory.wf_filter h fun c => decide (a + bs.length ≤ c.1)
  simp only [Memory.wf, Bool.and_eq_true, List.all_eq_true, decide_eq_true_eq] at h1 h2 ⊢
  refine ⟨Table.rising_append (Table.rising_append h1.1 (Memory.cells_rising a bs) fun c hc d hd => ?_) h2.1 fun c hc d hd => ?_,
    fun c hc => ?_⟩
  · have := Memory.cells_mem hd
    have := (List.mem_filter.mp hc).2
    simp at this
    omega
  · have hd := (List.mem_filter.mp hd).2
    simp at hd
    rcases List.mem_append.mp hc with hc | hc
    · have := (List.mem_filter.mp hc).2
      simp at this
      omega
    · have := Memory.cells_mem hc
      omega
  · rcases List.mem_append.mp hc with hc | hc
    · rcases List.mem_append.mp hc with hc | hc
      · exact h1.2 c hc
      · exact (Memory.cells_mem hc).2.2
    · exact h2.2 c hc

/-! ### Image areas -/

theorem State.memWf_putImage {s : State} (h : s.memWf) (g part off : Nat) (bs : List Byte) : (s.putImage g part off bs).memWf :=
  ⟨Memory.wf_splice h.1 _ _, h.2.1, h.2.2⟩

theorem State.memWf_streamOut {s : State} (h : s.memWf) (g : Nat) (m : Img) : (s.streamOut g m).memWf := by
  unfold State.streamOut
  split
  · exact h
  · exact State.memWf_putImage h _ _ _ _

theorem State.memWf_syncImage {s : State} (h : s.memWf) (g : Nat) (part : Option Nat) : (s.syncImage g part).memWf := by
  unfold State.syncImage
  split
  · exact h
  · split
    · exact State.memWf_putImage h _ _ _ _
    · exact h

/-- Streaming an image out changes no node and no message. -/
theorem State.streamOut_nodes (s : State) (g : Nat) (m : Img) : (s.streamOut g m).nodes = s.nodes := by
  unfold State.streamOut
  split <;> rfl
theorem State.streamOut_pkgs (s : State) (g : Nat) (m : Img) : (s.streamOut g m).pkgs = s.pkgs := by
  unfold State.streamOut
  split <;> rfl
theorem State.streamOut_net (s : State) (g : Nat) (m : Img) : (s.streamOut g m).net = s.net := by
  unfold State.streamOut
  split <;> rfl

end Sys2Proof.Machine
end

