-- ==== Sys2Proof/Laws/PerInstr.lean ====
section
/-! SUPPORT. For every instruction: the major of its encoding is one that is not reserved (R77, R79). One lemma for each
constructor. -/

namespace Sys2Proof.Laws.Shape

/-- The major of an encoding is listed: below 0x24. -/
def Statement (i : Instr) : Prop := ∀ e, i.enc = some e → e.base.major.val < 0x24

/-- An encoding that is a listed value. -/
theorem of_some {i : Instr} {x : Enc} (hx : i.enc = some x) (hm : x.base.major.val < 0x24) : Statement i := by
  intro e he
  rw [hx] at he
  injection he with he
  rw [← he]
  exact hm

/-- No encoding. -/
theorem of_none {i : Instr} (hx : i.enc = none) : Statement i := by
  intro e he
  rw [hx] at he
  nomatch he

theorem ill : Statement .ill := of_some rfl (Nat.le_of_ble_eq_true rfl)
theorem nop : Statement .nop := of_some rfl (Nat.le_of_ble_eq_true rfl)
theorem align (n : Fin 64) : Statement (.align n) := of_some rfl (Nat.le_of_ble_eq_true rfl)
theorem trap (code : BitVec 8) : Statement (.trap code) := of_some rfl (Nat.le_of_ble_eq_true rfl)
theorem brk (code : BitVec 8) : Statement (.brk code) := of_some rfl (Nat.le_of_ble_eq_true rfl)
theorem sysc (code : BitVec 8) : Statement (.sysc code) := of_some rfl (Nat.le_of_ble_eq_true rfl)
theorem eret : Statement .eret := of_some rfl (Nat.le_of_ble_eq_true rfl)
theorem upret (a : SReg) : Statement (.upret a) := of_some rfl (Nat.le_of_ble_eq_true rfl)
theorem wfi (a : SReg) : Statement (.wfi a) := of_some rfl (Nat.le_of_ble_eq_true rfl)
theorem shoot (a b : SReg) : Statement (.shoot a b) := of_some rfl (Nat.le_of_ble_eq_true rfl)
theorem tlbil (a b : SReg) : Statement (.tlbil a b) := of_some rfl (Nat.le_of_ble_eq_true rfl)
theorem savex (a : SReg) : Statement (.savex a) := of_some rfl (Nat.le_of_ble_eq_true rfl)
theorem loadx (a : SReg) : Statement (.loadx a) := of_some rfl (Nat.le_of_ble_eq_true rfl)
theorem perfr (d : SReg) (n : Fin 64) : Statement (.perfr d n) := of_some rfl (Nat.le_of_ble_eq_true rfl)
theorem tmark (a : SReg) (tag : Fin 64) : Statement (.tmark a tag) := of_some rfl (Nat.le_of_ble_eq_true rfl)
theorem add (o : Rrr) : Statement (.add o) := of_some rfl (Nat.le_of_ble_eq_true rfl)
theorem sub (o : Rrr) : Statement (.sub o) := of_some rfl (Nat.le_of_ble_eq_true rfl)
theorem and (o : Rrr) : Statement (.and o) := of_some rfl (Nat.le_of_ble_eq_true rfl)
theorem or (o : Rrr) : Statement (.or o) := of_some rfl (Nat.le_of_ble_eq_true rfl)
theorem xor (o : Rrr) : Statement (.xor o) := of_some rfl (Nat.le_of_ble_eq_true rfl)
theorem andn (o : Rrr) : Statement (.andn o) := of_some rfl (Nat.le_of_ble_eq_true rfl)
theorem sll (o : Rrr) : Statement (.sll o) := of_some rfl (Nat.le_of_ble_eq_true rfl)
theorem srl (o : Rrr) : Statement (.srl o) := of_some rfl (Nat.le_of_ble_eq_true rfl)
theorem sra (o : Rrr) : Statement (.sra o) := of_some rfl (Nat.le_of_ble_eq_true rfl)
theorem slt (o : Rrr) : Statement (.slt o) := of_some rfl (Nat.le_of_ble_eq_true rfl)
theorem sltu (o : Rrr) : Statement (.sltu o) := of_some rfl (Nat.le_of_ble_eq_true rfl)
theorem seq (o : Rrr) : Statement (.seq o) := of_some rfl (Nat.le_of_ble_eq_true rfl)
theorem min (o : Rrr) : Statement (.min o) := of_some rfl (Nat.le_of_ble_eq_true rfl)
theorem max (o : Rrr) : Statement (.max o) := of_some rfl (Nat.le_of_ble_eq_true rfl)
theorem minu (o : Rrr) : Statement (.minu o) := of_some rfl (Nat.le_of_ble_eq_true rfl)
theorem maxu (o : Rrr) : Statement (.maxu o) := of_some rfl (Nat.le_of_ble_eq_true rfl)
theorem clz (o : Rr) : Statement (.clz o) := of_some rfl (Nat.le_of_ble_eq_true rfl)
theorem ctz (o : Rr) : Statement (.ctz o) := of_some rfl (Nat.le_of_ble_eq_true rfl)
theorem popc (o : Rr) : Statement (.popc o) := of_some rfl (Nat.le_of_ble_eq_true rfl)
theorem bfx (o : Rrr) : Statement (.bfx o) := of_some rfl (Nat.le_of_ble_eq_true rfl)
theorem bfxu (o : Rrr) : Statement (.bfxu o) := of_some rfl (Nat.le_of_ble_eq_true rfl)
theorem bfi (o : Rrr) : Statement (.bfi o) := of_some rfl (Nat.le_of_ble_eq_true rfl)
theorem adds (o : Rrr) : Statement (.adds o) := of_some rfl (Nat.le_of_ble_eq_true rfl)
theorem subs (o : Rrr) : Statement (.subs o) := of_some rfl (Nat.le_of_ble_eq_true rfl)
theorem caddr (o : Rrr) : Statement (.caddr o) := of_some rfl (Nat.le_of_ble_eq_true rfl)
theorem crel (o : Rrr) : Statement (.crel o) := of_some rfl (Nat.le_of_ble_eq_true rfl)
theorem addi (o : Rri 12) : Statement (.addi o) := of_some rfl (Nat.le_of_ble_eq_true rfl)
theorem andi (o : Rri 12) : Statement (.andi o) := of_some rfl (Nat.le_of_ble_eq_true rfl)
theorem ori (o : Rri 12) : Statement (.ori o) := of_some rfl (Nat.le_of_ble_eq_true rfl)
theorem xori (o : Rri 12) : Statement (.xori o) := of_some rfl (Nat.le_of_ble_eq_true rfl)
theorem slli (o : Shi) : Statement (.slli o) := of_some rfl (Nat.le_of_ble_eq_true rfl)
theorem srli (o : Shi) : Statement (.srli o) := of_some rfl (Nat.le_of_ble_eq_true rfl)
theorem srai (o : Shi) : Statement (.srai o) := of_some rfl (Nat.le_of_ble_eq_true rfl)
theorem slti (o : Rri 10) : Statement (.slti o) := of_some rfl (Nat.le_of_ble_eq_true rfl)
theorem sltiu (o : Rri 10) : Statement (.sltiu o) := of_some rfl (Nat.le_of_ble_eq_true rfl)
theorem seqi (o : Rri 10) : Statement (.seqi o) := of_some rfl (Nat.le_of_ble_eq_true rfl)
theorem cmovnz (o : Rrr) : Statement (.cmovnz o) := of_some rfl (Nat.le_of_ble_eq_true rfl)
theorem cmovz (o : Rrr) : Statement (.cmovz o) := of_some rfl (Nat.le_of_ble_eq_true rfl)
theorem mul (o : Rrr) : Statement (.mul o) := of_some rfl (Nat.le_of_ble_eq_true rfl)
theorem mulh (o : Rrr) : Statement (.mulh o) := of_some rfl (Nat.le_of_ble_eq_true rfl)
theorem mulhu (o : Rrr) : Statement (.mulhu o) := of_some rfl (Nat.le_of_ble_eq_true rfl)
theorem mulhsu (o : Rrr) : Statement (.mulhsu o) := of_some rfl (Nat.le_of_ble_eq_true rfl)
theorem div (o : Rrr) : Statement (.div o) := of_some rfl (Nat.le_of_ble_eq_true rfl)
theorem divu (o : Rrr) : Statement (.divu o) := of_some rfl (Nat.le_of_ble_eq_true rfl)
theorem rem (o : Rrr) : Statement (.rem o) := of_some rfl (Nat.le_of_ble_eq_true rfl)
theorem remu (o : Rrr) : Statement (.remu o) := of_some rfl (Nat.le_of_ble_eq_true rfl)
theorem fadd (o : F2) : Statement (.fadd o) := of_some rfl (Nat.le_of_ble_eq_true rfl)
theorem fsub (o : F2) : Statement (.fsub o) := of_some rfl (Nat.le_of_ble_eq_true rfl)
theorem fmul (o : F2) : Statement (.fmul o) := of_some rfl (Nat.le_of_ble_eq_true rfl)
theorem fdiv (o : F2) : Statement (.fdiv o) := of_some rfl (Nat.le_of_ble_eq_true rfl)
theorem fsqrt (o : F1) : Statement (.fsqrt o) := of_some rfl (Nat.le_of_ble_eq_true rfl)
theorem fmin (o : F2s) : Statement (.fmin o) := of_some rfl (Nat.le_of_ble_eq_true rfl)
theorem fmax (o : F2s) : Statement (.fmax o) := of_some rfl (Nat.le_of_ble_eq_true rfl)
theorem feq (o : F2s) : Statement (.feq o) := of_some rfl (Nat.le_of_ble_eq_true rfl)
theorem flt (o : F2s) : Statement (.flt o) := of_some rfl (Nat.le_of_ble_eq_true rfl)
theorem fle (o : F2s) : Statement (.fle o) := of_some rfl (Nat.le_of_ble_eq_true rfl)
theorem fclass (o : F1s) : Statement (.fclass o) := of_some rfl (Nat.le_of_ble_eq_true rfl)
theorem fneg (o : F1s) : Statement (.fneg o) := of_some rfl (Nat.le_of_ble_eq_true rfl)
theorem fabs (o : F1s) : Statement (.fabs o) := of_some rfl (Nat.le_of_ble_eq_true rfl)
theorem fma (o : F3) : Statement (.fma o) := of_some rfl (Nat.le_of_ble_eq_true rfl)
theorem fcvt (o : FCvt) : Statement (.fcvt o) := of_some rfl (Nat.le_of_ble_eq_true rfl)
theorem ftoi (o : FInt) : Statement (.ftoi o) := of_some rfl (Nat.le_of_ble_eq_true rfl)
theorem itof (o : FInt) : Statement (.itof o) := of_some rfl (Nat.le_of_ble_eq_true rfl)
theorem br (disp : Imm 24) : Statement (.br disp) := of_some rfl (Nat.le_of_ble_eq_true rfl)
theorem brc (o : BrcOp) : Statement (.brc o) := of_some rfl (Nat.le_of_ble_eq_true rfl)
theorem brz (o : BzOp) : Statement (.brz o) := of_some rfl (Nat.le_of_ble_eq_true rfl)
theorem brnz (o : BzOp) : Statement (.brnz o) := of_some rfl (Nat.le_of_ble_eq_true rfl)
theorem brlz (o : BzOp) : Statement (.brlz o) := of_some rfl (Nat.le_of_ble_eq_true rfl)
theorem brgez (o : BzOp) : Statement (.brgez o) := of_some rfl (Nat.le_of_ble_eq_true rfl)
theorem call (disp : Imm 24) : Statement (.call disp) := of_some rfl (Nat.le_of_ble_eq_true rfl)
theorem jr (a : SReg) : Statement (.jr a) := of_some rfl (Nat.le_of_ble_eq_true rfl)
theorem callr (a : SReg) : Statement (.callr a) := of_some rfl (Nat.le_of_ble_eq_true rfl)
theorem ret : Statement .ret := of_some rfl (Nat.le_of_ble_eq_true rfl)
theorem jt (a b : SReg) : Statement (.jt a b) := of_some rfl (Nat.le_of_ble_eq_true rfl)
theorem loop (o : LoopOp) : Statement (.loop o) := of_some rfl (Nat.le_of_ble_eq_true rfl)
theorem loopi : (o : LoopiOp) → Statement (.loopi o)
  | ⟨.short _, _⟩ => of_some rfl (Nat.le_of_ble_eq_true rfl)
  | ⟨.lit _, _⟩ => of_some rfl (Nat.le_of_ble_eq_true rfl)
theorem ld (o : LdOp) : Statement (.ld o) := of_some rfl (Nat.le_of_ble_eq_true rfl)
theorem st (o : StOp) : Statement (.st o) := of_some rfl (Nat.le_of_ble_eq_true rfl)
theorem ldx (o : LdxOp) : Statement (.ldx o) := of_some rfl (Nat.le_of_ble_eq_true rfl)
theorem stx (o : StxOp) : Statement (.stx o) := of_some rfl (Nat.le_of_ble_eq_true rfl)
theorem ldf (o : FeOpnds) : Statement (.ldf o) := of_some rfl (Nat.le_of_ble_eq_true rfl)
theorem take (o : FeOpnds) : Statement (.take o) := of_some rfl (Nat.le_of_ble_eq_true rfl)
theorem putf (o : FeOpnds) : Statement (.putf o) := of_some rfl (Nat.le_of_ble_eq_true rfl)
theorem stf (o : FeOpnds) : Statement (.stf o) := of_some rfl (Nat.le_of_ble_eq_true rfl)
theorem ste (o : FeOpnds) : Statement (.ste o) := of_some rfl (Nat.le_of_ble_eq_true rfl)
theorem feqFe (o : FeOpnds) : Statement (.feqFe o) := of_some rfl (Nat.le_of_ble_eq_true rfl)
theorem feclr (o : FeClr) : Statement (.feclr o) := of_some rfl (Nat.le_of_ble_eq_true rfl)
theorem aadd (o : AtomOp) : Statement (.aadd o) := of_some rfl (Nat.le_of_ble_eq_true rfl)
theorem aand (o : AtomOp) : Statement (.aand o) := of_some rfl (Nat.le_of_ble_eq_true rfl)
theorem aor (o : AtomOp) : Statement (.aor o) := of_some rfl (Nat.le_of_ble_eq_true rfl)
theorem axor (o : AtomOp) : Statement (.axor o) := of_some rfl (Nat.le_of_ble_eq_true rfl)
theorem amin (o : AtomOp) : Statement (.amin o) := of_some rfl (Nat.le_of_ble_eq_true rfl)
theorem amax (o : AtomOp) : Statement (.amax o) := of_some rfl (Nat.le_of_ble_eq_true rfl)
theorem aminu (o : AtomOp) : Statement (.aminu o) := of_some rfl (Nat.le_of_ble_eq_true rfl)
theorem amaxu (o : AtomOp) : Statement (.amaxu o) := of_some rfl (Nat.le_of_ble_eq_true rfl)
theorem aswp (o : AtomOp) : Statement (.aswp o) := of_some rfl (Nat.le_of_ble_eq_true rfl)
theorem acas (o : CasOp) : Statement (.acas o) := of_some rfl (Nat.le_of_ble_eq_true rfl)
theorem afadd (o : AfaddOp) : Statement (.afadd o) := of_some rfl (Nat.le_of_ble_eq_true rfl)
theorem fence (sc : Scope) : Statement (.fence sc) := of_some rfl (Nat.le_of_ble_eq_true rfl)
theorem flush (a : SReg) : Statement (.flush a) := of_some rfl (Nat.le_of_ble_eq_true rfl)
theorem phase : Statement .phase := of_some rfl (Nat.le_of_ble_eq_true rfl)
theorem quiet (sc : Scope) : Statement (.quiet sc) := of_some rfl (Nat.le_of_ble_eq_true rfl)
theorem gbar (sc : Scope) : Statement (.gbar sc) := of_some rfl (Nat.le_of_ble_eq_true rfl)
theorem fld (slot : Fin 64) (a : SReg) : Statement (.fld slot a) := of_some rfl (Nat.le_of_ble_eq_true rfl)
theorem bind (d : SReg) (slot : Fin 64) : Statement (.bind d slot) := of_some rfl (Nat.le_of_ble_eq_true rfl)
theorem unbind (d : SReg) : Statement (.unbind d) := of_some rfl (Nat.le_of_ble_eq_true rfl)
theorem unbinda : Statement .unbinda := of_some rfl (Nat.le_of_ble_eq_true rfl)
theorem bindq (d a : SReg) : Statement (.bindq d a) := of_some rfl (Nat.le_of_ble_eq_true rfl)
theorem fhold (slot : Fin 64) : Statement (.fhold slot) := of_some rfl (Nat.le_of_ble_eq_true rfl)
theorem frun (slot : Fin 64) : Statement (.frun slot) := of_some rfl (Nat.le_of_ble_eq_true rfl)
theorem feval (slot : Fin 64) : Statement (.feval slot) := of_some rfl (Nat.le_of_ble_eq_true rfl)
theorem send (o : SendOp) : Statement (.send o) := of_some rfl (Nat.le_of_ble_eq_true rfl)
theorem sendh (o : SendOp) : Statement (.sendh o) := of_some rfl (Nat.le_of_ble_eq_true rfl)
theorem migr (o : SendOp) : Statement (.migr o) := of_some rfl (Nat.le_of_ble_eq_true rfl)
theorem spawn (d : SReg) (b : Opnd) : Statement (.spawn d b) := of_some rfl (Nat.le_of_ble_eq_true rfl)
theorem done : Statement .done := of_some rfl (Nat.le_of_ble_eq_true rfl)
theorem msgq (d : SReg) : Statement (.msgq d) := of_some rfl (Nat.le_of_ble_eq_true rfl)
theorem pop (d : SReg) : Statement (.pop d) := of_some rfl (Nat.le_of_ble_eq_true rfl)
theorem pushp (a b : SReg) : Statement (.pushp a b) := of_some rfl (Nat.le_of_ble_eq_true rfl)
theorem nalloc (d : SReg) : Statement (.nalloc d) := of_some rfl (Nat.le_of_ble_eq_true rfl)
theorem nfree (a : SReg) : Statement (.nfree a) := of_some rfl (Nat.le_of_ble_eq_true rfl)
theorem link (a b : SReg) : Statement (.link a b) := of_some rfl (Nat.le_of_ble_eq_true rfl)
theorem rule : Statement .rule := of_some rfl (Nat.le_of_ble_eq_true rfl)
theorem nsym (d a : SReg) : Statement (.nsym d a) := of_some rfl (Nat.le_of_ble_eq_true rfl)
theorem steal (d : SReg) : Statement (.steal d) := of_some rfl (Nat.le_of_ble_eq_true rfl)
theorem copy (o : CopyOp) : Statement (.copy o) := of_some rfl (Nat.le_of_ble_eq_true rfl)
theorem cwait (n : Fin 64) : Statement (.cwait n) := of_some rfl (Nat.le_of_ble_eq_true rfl)
theorem cstat (d : SReg) (n : Fin 64) : Statement (.cstat d n) := of_some rfl (Nat.le_of_ble_eq_true rfl)
theorem qfence (mask : Fin 64) : Statement (.qfence mask) := of_some rfl (Nat.le_of_ble_eq_true rfl)
theorem cabort (n : Fin 64) : Statement (.cabort n) := of_some rfl (Nat.le_of_ble_eq_true rfl)
theorem hset (h : HReg) (a : SReg) (tie : Fin 64) : Statement (.hset h a tie) := of_some rfl (Nat.le_of_ble_eq_true rfl)
theorem hwait (d : SReg) (h : HReg) (n : Fin 64) : Statement (.hwait d h n) := of_some rfl (Nat.le_of_ble_eq_true rfl)
theorem hspace (d : SReg) (h : HReg) (n : Fin 64) : Statement (.hspace d h n) := of_some rfl (Nat.le_of_ble_eq_true rfl)
theorem hadv (o : HAdvOp) : Statement (.hadv o) := of_some rfl (Nat.le_of_ble_eq_true rfl)
theorem hrel (o : HAdvOp) : Statement (.hrel o) := of_some rfl (Nat.le_of_ble_eq_true rfl)
theorem hq (d : SReg) (h : HReg) : Statement (.hq d h) := of_some rfl (Nat.le_of_ble_eq_true rfl)
theorem tshp (b : Opnd) : Statement (.tshp b) := of_some rfl (Nat.le_of_ble_eq_true rfl)
theorem tld : (o : TldOp) → Statement (.tld o)
  | ⟨_, _, .tile _, _, _⟩ => of_some rfl (Nat.le_of_ble_eq_true rfl)
  | ⟨_, _, .ring _, _, _⟩ => of_some rfl (Nat.le_of_ble_eq_true rfl)
theorem tst (o : TstOp) : Statement (.tst o) := of_some rfl (Nat.le_of_ble_eq_true rfl)
theorem dmov : (o : DmovOp) → Statement (.dmov o)
  | .toD _ _ _ => of_some rfl (Nat.le_of_ble_eq_true rfl)
  | .toS _ _ _ => of_some rfl (Nat.le_of_ble_eq_true rfl)
theorem dinc (o : DincOp) : Statement (.dinc o) := of_some rfl (Nat.le_of_ble_eq_true rfl)
theorem vld (o : VldOp) : Statement (.vld o) := of_some rfl (Nat.le_of_ble_eq_true rfl)
theorem vst (o : VstOp) : Statement (.vst o) := of_some rfl (Nat.le_of_ble_eq_true rfl)
theorem vlds (o : VldOp) : Statement (.vlds o) := of_some rfl (Nat.le_of_ble_eq_true rfl)
theorem vsts (o : VstOp) : Statement (.vsts o) := of_some rfl (Nat.le_of_ble_eq_true rfl)
theorem vgath (o : VgaOp) : Statement (.vgath o) := of_some rfl (Nat.le_of_ble_eq_true rfl)
theorem vscat (o : VscOp) : Statement (.vscat o) := of_some rfl (Nat.le_of_ble_eq_true rfl)
theorem vldbc (o : VldOp) : Statement (.vldbc o) := of_some rfl (Nat.le_of_ble_eq_true rfl)
theorem vadd (o : VInt) : Statement (.vadd o) := of_some rfl (Nat.le_of_ble_eq_true rfl)
theorem vsub (o : VInt) : Statement (.vsub o) := of_some rfl (Nat.le_of_ble_eq_true rfl)
theorem vmul (o : VInt) : Statement (.vmul o) := of_some rfl (Nat.le_of_ble_eq_true rfl)
theorem vmulh (o : VInt) : Statement (.vmulh o) := of_some rfl (Nat.le_of_ble_eq_true rfl)
theorem vand (o : VInt) : Statement (.vand o) := of_some rfl (Nat.le_of_ble_eq_true rfl)
theorem vor (o : VInt) : Statement (.vor o) := of_some rfl (Nat.le_of_ble_eq_true rfl)
theorem vxor (o : VInt) : Statement (.vxor o) := of_some rfl (Nat.le_of_ble_eq_true rfl)
theorem vsll (o : VInt) : Statement (.vsll o) := of_some rfl (Nat.le_of_ble_eq_true rfl)
theorem vsrl (o : VInt) : Statement (.vsrl o) := of_some rfl (Nat.le_of_ble_eq_true rfl)
theorem vsra (o : VInt) : Statement (.vsra o) := of_some rfl (Nat.le_of_ble_eq_true rfl)
theorem vmin (o : VInt) : Statement (.vmin o) := of_some rfl (Nat.le_of_ble_eq_true rfl)
theorem vmax (o : VInt) : Statement (.vmax o) := of_some rfl (Nat.le_of_ble_eq_true rfl)
theorem vminu (o : VInt) : Statement (.vminu o) := of_some rfl (Nat.le_of_ble_eq_true rfl)
theorem vmaxu (o : VInt) : Statement (.vmaxu o) := of_some rfl (Nat.le_of_ble_eq_true rfl)
theorem vadds (o : VInt) : Statement (.vadds o) := of_some rfl (Nat.le_of_ble_eq_true rfl)
theorem vsubs (o : VInt) : Statement (.vsubs o) := of_some rfl (Nat.le_of_ble_eq_true rfl)
theorem vfadd (o : VF2) : Statement (.vfadd o) := of_some rfl (Nat.le_of_ble_eq_true rfl)
theorem vfsub (o : VF2) : Statement (.vfsub o) := of_some rfl (Nat.le_of_ble_eq_true rfl)
theorem vfmul (o : VF2) : Statement (.vfmul o) := of_some rfl (Nat.le_of_ble_eq_true rfl)
theorem vfdiv (o : VF2) : Statement (.vfdiv o) := of_some rfl (Nat.le_of_ble_eq_true rfl)
theorem vfsqrt (o : VF1) : Statement (.vfsqrt o) := of_some rfl (Nat.le_of_ble_eq_true rfl)
theorem vfmin (o : VF2s) : Statement (.vfmin o) := of_some rfl (Nat.le_of_ble_eq_true rfl)
theorem vfmax (o : VF2s) : Statement (.vfmax o) := of_some rfl (Nat.le_of_ble_eq_true rfl)
theorem vfma (o : VF3) : Statement (.vfma o) := of_some rfl (Nat.le_of_ble_eq_true rfl)
theorem vfneg (o : VF1s) : Statement (.vfneg o) := of_some rfl (Nat.le_of_ble_eq_true rfl)
theorem vfabs (o : VF1s) : Statement (.vfabs o) := of_some rfl (Nat.le_of_ble_eq_true rfl)
theorem vdot (o : VDot) : Statement (.vdot o) := of_some rfl (Nat.le_of_ble_eq_true rfl)
theorem vscacc (o : VScacc) : Statement (.vscacc o) := of_some rfl (Nat.le_of_ble_eq_true rfl)
theorem vcvt (o : VCvt) : Statement (.vcvt o) := of_some rfl (Nat.le_of_ble_eq_true rfl)
theorem vsel (o : VSel) : Statement (.vsel o) := of_some rfl (Nat.le_of_ble_eq_true rfl)
theorem vperm (o : VPermOp) : Statement (.vperm o) := of_some rfl (Nat.le_of_ble_eq_true rfl)
theorem vbcast (o : VBc) : Statement (.vbcast o) := of_some rfl (Nat.le_of_ble_eq_true rfl)
theorem vins (o : VInsOp) : Statement (.vins o) := of_some rfl (Nat.le_of_ble_eq_true rfl)
theorem vext (o : VExtOp) : Statement (.vext o) := of_some rfl (Nat.le_of_ble_eq_true rfl)
theorem vslup (o : VSlOp) : Statement (.vslup o) := of_some rfl (Nat.le_of_ble_eq_true rfl)
theorem vsldn (o : VSlOp) : Statement (.vsldn o) := of_some rfl (Nat.le_of_ble_eq_true rfl)
theorem vradd (o : VRed) : Statement (.vradd o) := of_some rfl (Nat.le_of_ble_eq_true rfl)
theorem vrmin (o : VRed) : Statement (.vrmin o) := of_some rfl (Nat.le_of_ble_eq_true rfl)
theorem vrmax (o : VRed) : Statement (.vrmax o) := of_some rfl (Nat.le_of_ble_eq_true rfl)
theorem vrminu (o : VRed) : Statement (.vrminu o) := of_some rfl (Nat.le_of_ble_eq_true rfl)
theorem vrmaxu (o : VRed) : Statement (.vrmaxu o) := of_some rfl (Nat.le_of_ble_eq_true rfl)
theorem vrfadd (o : VRf) : Statement (.vrfadd o) := of_some rfl (Nat.le_of_ble_eq_true rfl)
theorem vmov (o : VMovOp) : Statement (.vmov o) := of_some rfl (Nat.le_of_ble_eq_true rfl)
theorem vceq (o : VCmp) : Statement (.vceq o) := of_some rfl (Nat.le_of_ble_eq_true rfl)
theorem vcne (o : VCmp) : Statement (.vcne o) := of_some rfl (Nat.le_of_ble_eq_true rfl)
theorem vclt (o : VCmp) : Statement (.vclt o) := of_some rfl (Nat.le_of_ble_eq_true rfl)
theorem vcle (o : VCmp) : Statement (.vcle o) := of_some rfl (Nat.le_of_ble_eq_true rfl)
theorem vcltu (o : VCmp) : Statement (.vcltu o) := of_some rfl (Nat.le_of_ble_eq_true rfl)
theorem vcleu (o : VCmp) : Statement (.vcleu o) := of_some rfl (Nat.le_of_ble_eq_true rfl)
theorem vfceq (o : VFCmp) : Statement (.vfceq o) := of_some rfl (Nat.le_of_ble_eq_true rfl)
theorem vfclt (o : VFCmp) : Statement (.vfclt o) := of_some rfl (Nat.le_of_ble_eq_true rfl)
theorem vfcle (o : VFCmp) : Statement (.vfcle o) := of_some rfl (Nat.le_of_ble_eq_true rfl)
theorem pand (o : P3) : Statement (.pand o) := of_some rfl (Nat.le_of_ble_eq_true rfl)
theorem por (o : P3) : Statement (.por o) := of_some rfl (Nat.le_of_ble_eq_true rfl)
theorem pxor (o : P3) : Statement (.pxor o) := of_some rfl (Nat.le_of_ble_eq_true rfl)
theorem pnot (o : P2) : Statement (.pnot o) := of_some rfl (Nat.le_of_ble_eq_true rfl)
theorem pcnt (o : PS) : Statement (.pcnt o) := of_some rfl (Nat.le_of_ble_eq_true rfl)
theorem pfirst (o : PS) : Statement (.pfirst o) := of_some rfl (Nat.le_of_ble_eq_true rfl)
theorem psetw (o : PSetOp) : Statement (.psetw o) := of_some rfl (Nat.le_of_ble_eq_true rfl)
theorem gmma (o : GmmaOp) : Statement (.gmma o) := of_some rfl (Nat.le_of_ble_eq_true rfl)
theorem azero (o : AzeroOp) : Statement (.azero o) := of_some rfl (Nat.le_of_ble_eq_true rfl)
theorem aldt (o : AldtOp) : Statement (.aldt o) := of_some rfl (Nat.le_of_ble_eq_true rfl)
theorem astt (o : AsttOp) : Statement (.astt o) := of_some rfl (Nat.le_of_ble_eq_true rfl)
theorem acvt (o : AcvtOp) : Statement (.acvt o) := of_some rfl (Nat.le_of_ble_eq_true rfl)
theorem ascale (o : AscaleOp) : Statement (.ascale o) := of_some rfl (Nat.le_of_ble_eq_true rfl)
theorem amovv : (o : AmovvOp) → Statement (.amovv o)
  | .toV _ _ _ _ => of_some rfl (Nat.le_of_ble_eq_true rfl)
  | .toT _ _ _ => of_some rfl (Nat.le_of_ble_eq_true rfl)
theorem aflag (o : AflagOp) : Statement (.aflag o) := of_some rfl (Nat.le_of_ble_eq_true rfl)
theorem grad (o : GradOp) : Statement (.grad o) := of_some rfl (Nat.le_of_ble_eq_true rfl)
theorem gradq (o : RecQ) : Statement (.gradq o) := of_some rfl (Nat.le_of_ble_eq_true rfl)
theorem prld (o : PrldOp) : Statement (.prld o) := of_some rfl (Nat.le_of_ble_eq_true rfl)
theorem prst (o : PrstOp) : Statement (.prst o) := of_some rfl (Nat.le_of_ble_eq_true rfl)
theorem prset (o : PrsetOp) : Statement (.prset o) := of_some rfl (Nat.le_of_ble_eq_true rfl)
theorem prstat (o : RecQ) : Statement (.prstat o) := of_some rfl (Nat.le_of_ble_eq_true rfl)
theorem csrr : (o : CsrOp) → Statement (.csrr o)
  | ⟨_, _, .short _⟩ => of_some rfl (Nat.le_of_ble_eq_true rfl)
  | ⟨_, _, .ext _⟩ => of_some rfl (Nat.le_of_ble_eq_true rfl)
theorem csrw : (o : CsrOp) → Statement (.csrw o)
  | ⟨_, _, .short _⟩ => of_some rfl (Nat.le_of_ble_eq_true rfl)
  | ⟨_, _, .ext _⟩ => of_some rfl (Nat.le_of_ble_eq_true rfl)
theorem csrs : (o : CsrOp) → Statement (.csrs o)
  | ⟨_, _, .short _⟩ => of_some rfl (Nat.le_of_ble_eq_true rfl)
  | ⟨_, _, .ext _⟩ => of_some rfl (Nat.le_of_ble_eq_true rfl)
theorem csrc : (o : CsrOp) → Statement (.csrc o)
  | ⟨_, _, .short _⟩ => of_some rfl (Nat.le_of_ble_eq_true rfl)
  | ⟨_, _, .ext _⟩ => of_some rfl (Nat.le_of_ble_eq_true rfl)
theorem memoryRequest (m : Nat) : Statement (.memoryRequest m) := of_none rfl
theorem negativeAcknowledgement (m : Nat) : Statement (.negativeAcknowledgement m) := of_none rfl
theorem feRequest (m : Nat) : Statement (.feRequest m) := of_none rfl
theorem waiterRetry (m : Nat) : Statement (.waiterRetry m) := of_none rfl
theorem atomicRequest (m : Nat) : Statement (.atomicRequest m) := of_none rfl
theorem replyArrival (m : Nat) (poison : Bool) : Statement (.replyArrival m poison) := of_none rfl
theorem acknowledgement (m : Nat) : Statement (.acknowledgement m) := of_none rfl
theorem deferredFault (i : Inst) : Statement (.deferredFault i) := of_none rfl
theorem flushProbe (m : Nat) : Statement (.flushProbe m) := of_none rfl
theorem boundaryEvaluation (i : Inst) : Statement (.boundaryEvaluation i) := of_none rfl
theorem formulaCheck (i : Inst) : Statement (.formulaCheck i) := of_none rfl
theorem alignTimeout (i : Inst) : Statement (.alignTimeout i) := of_none rfl
theorem quietWave (i : Inst) : Statement (.quietWave i) := of_none rfl
theorem gbarComplete (i : Inst) : Statement (.gbarComplete i) := of_none rfl
theorem wfiWake (i : Inst) : Statement (.wfiWake i) := of_none rfl
theorem interrupt (node : Nat) : Statement (.interrupt node) := of_none rfl
theorem watchpointMatch (i : Inst) : Statement (.watchpointMatch i) := of_none rfl
theorem channelGroup (node : Nat) (ch : Fin 4) : Statement (.channelGroup node ch) := of_none rfl
theorem channelComplete (node : Nat) (ch : Fin 4) : Statement (.channelComplete node ch) := of_none rfl
theorem channelFault (node : Nat) (ch : Fin 4) (uncorrectable : Bool) : Statement (.channelFault node ch uncorrectable) := of_none rfl
theorem chordClose (node : Nat) : Statement (.chordClose node) := of_none rfl
theorem gmmaStart (node : Nat) : Statement (.gmmaStart node) := of_none rfl
theorem gmmaComplete (node : Nat) : Statement (.gmmaComplete node) := of_none rfl
theorem parcelArrival (m : Nat) : Statement (.parcelArrival m) := of_none rfl
theorem parcelResend (m : Nat) : Statement (.parcelResend m) := of_none rfl
theorem handlerStart (node : Nat) : Statement (.handlerStart node) := of_none rfl
theorem handlerWatchdog (i : Inst) : Statement (.handlerWatchdog i) := of_none rfl
theorem gradContribution (m : Nat) : Statement (.gradContribution m) := of_none rfl
theorem recordRuleStart (node : Nat) : Statement (.recordRuleStart node) := of_none rfl
theorem prldServe (m : Nat) : Statement (.prldServe m) := of_none rfl
theorem prldRetry (m : Nat) : Statement (.prldRetry m) := of_none rfl
theorem prsetServe (m : Nat) : Statement (.prsetServe m) := of_none rfl
theorem prstatServe (m : Nat) : Statement (.prstatServe m) := of_none rfl
theorem coreGate (node : Nat) : Statement (.coreGate node) := of_none rfl
theorem doorbell (p q : Nat) (v : BitVec 32) : Statement (.doorbell p q v) := of_none rfl
theorem registerWrite (p off : Nat) (v : Word) : Statement (.registerWrite p off v) := of_none rfl
theorem alloc (p part : Nat) : Statement (.alloc p part) := of_none rfl
theorem free (p part : Nat) : Statement (.free p part) := of_none rfl
theorem reside (p part : Nat) : Statement (.reside p part) := of_none rfl
theorem store (p part : Nat) : Statement (.store p part) := of_none rfl
theorem hostint (p : Nat) (v : Word) : Statement (.hostint p v) := of_none rfl
theorem queueNop (p q : Nat) : Statement (.queueNop p q) := of_none rfl
theorem launch (p q : Nat) : Statement (.launch p q) := of_none rfl
theorem wait (p q : Nat) : Statement (.wait p q) := of_none rfl
theorem signal (p q : Nat) : Statement (.signal p q) := of_none rfl
theorem cancel (p q n : Nat) : Statement (.cancel p q n) := of_none rfl
theorem entryCompletion (p q n : Nat) : Statement (.entryCompletion p q n) := of_none rfl
theorem slotAssignment (p q : Nat) : Statement (.slotAssignment p q) := of_none rfl
theorem grainPlacement (p l n core : Nat) : Statement (.grainPlacement p l n core) := of_none rfl
theorem launchShare (p l dest : Nat) : Statement (.launchShare p l dest) := of_none rfl
theorem sliceWarning (p part : Nat) : Statement (.sliceWarning p part) := of_none rfl
theorem sliceEnd (p part : Nat) : Statement (.sliceEnd p part) := of_none rfl
theorem partitionSwap (p part next : Nat) : Statement (.partitionSwap p part next) := of_none rfl
theorem shootCluster (p part cluster : Nat) : Statement (.shootCluster p part cluster) := of_none rfl
theorem shootMailbox (p part node : Nat) : Statement (.shootMailbox p part node) := of_none rfl
theorem shootHomeCache (p part home : Nat) : Statement (.shootHomeCache p part home) := of_none rfl
theorem shootTephra (p part : Nat) : Statement (.shootTephra p part) := of_none rfl
theorem shootAcknowledgement (p part : Nat) : Statement (.shootAcknowledgement p part) := of_none rfl
theorem traceRecord (p : Nat) : Statement (.traceRecord p) := of_none rfl
theorem periodicSync (node : Nat) : Statement (.periodicSync node) := of_none rfl
theorem sampleMark (i : Inst) : Statement (.sampleMark i) := of_none rfl
theorem monitorSample (p : Nat) : Statement (.monitorSample p) := of_none rfl
theorem tctl (p : Nat) (secure : Bool) (v : Word) : Statement (.tctl p secure v) := of_none rfl
theorem mon (p : Nat) (secure : Bool) (n : Nat) (v : Word) : Statement (.mon p secure n v) := of_none rfl
theorem stopCore (p : Nat) (secure : Bool) : Statement (.stopCore p secure) := of_none rfl
theorem stopPartition (p : Nat) (secure : Bool) : Statement (.stopPartition p secure) := of_none rfl
theorem resume (p : Nat) (secure : Bool) : Statement (.resume p secure) := of_none rfl
theorem stepInstruction (p : Nat) (secure : Bool) : Statement (.stepInstruction p secure) := of_none rfl
theorem stepActivation (p : Nat) (secure : Bool) : Statement (.stepActivation p secure) := of_none rfl
theorem boot (p : Nat) : Statement (.boot p) := of_none rfl
theorem recoveryFetch (p : Nat) : Statement (.recoveryFetch p) := of_none rfl
theorem quote (p : Nat) (nonce : BitVec 256) : Statement (.quote p nonce) := of_none rfl
theorem firmwareUpdate (p : Nat) : Statement (.firmwareUpdate p) := of_none rfl
theorem timeFlit (p : Nat) : Statement (.timeFlit p) := of_none rfl
theorem laneFailure (p l : Nat) (out : Bool) : Statement (.laneFailure p l out) := of_none rfl
theorem telemetryRefresh (p n unit : Nat) (v : Nat) : Statement (.telemetryRefresh p n unit v) := of_none rfl
theorem errorLogMove (p : Nat) : Statement (.errorLogMove p) := of_none rfl
theorem dramScrubError (p addr : Nat) : Statement (.dramScrubError p addr) := of_none rfl
theorem coreRetire (p : Nat) (core : Retired) : Statement (.coreRetire p core) := of_none rfl
theorem rowSpare (p chan bank row : Nat) : Statement (.rowSpare p chan bank row) := of_none rfl
theorem bankSpare (p chan bank : Nat) : Statement (.bankSpare p chan bank) := of_none rfl
theorem mcFirmwareUpdate (p : Nat) : Statement (.mcFirmwareUpdate p) := of_none rfl
theorem currentCheck (p die amps : Nat) : Statement (.currentCheck p die amps) := of_none rfl
theorem powerWindow (p die watts : Nat) : Statement (.powerWindow p die watts) := of_none rfl
theorem thermalStep (p die t : Nat) : Statement (.thermalStep p die t) := of_none rfl
theorem thermalClamp (p die t : Nat) : Statement (.thermalClamp p die t) := of_none rfl
theorem thermalTrip (p die t : Nat) : Statement (.thermalTrip p die t) := of_none rfl
theorem setPl (p pl ceil : Nat) : Statement (.setPl p pl ceil) := of_none rfl
theorem setPcap (p part cap ceil : Nat) : Statement (.setPcap p part cap ceil) := of_none rfl
theorem deviceReset (p : Nat) (secure : Bool) : Statement (.deviceReset p secure) := of_none rfl
theorem linksReset (p : Nat) (secure : Bool) : Statement (.linksReset p secure) := of_none rfl
theorem gatedCoreWake (node : Nat) : Statement (.gatedCoreWake node) := of_none rfl
theorem powerLoss (p : Nat) : Statement (.powerLoss p) := of_none rfl
theorem mililoLinkDown (p l : Nat) : Statement (.mililoLinkDown p l) := of_none rfl
theorem mililoLinkUp (p l : Nat) : Statement (.mililoLinkUp p l) := of_none rfl
theorem partcmdComplete (p : Nat) : Statement (.partcmdComplete p) := of_none rfl
theorem mcRestartComplete (p : Nat) : Statement (.mcRestartComplete p) := of_none rfl
theorem queueEntryBadKind (p q : Nat) : Statement (.queueEntryBadKind p q) := of_none rfl
theorem illegalInstruction : Statement .illegalInstruction := of_none rfl

end Sys2Proof.Laws.Shape
end

