-- ==== Sys2Proof/Laws/Traps.lean ====
section
/-! SUPPORT. Taking a trap, and instructions that stand before a delay slot. -/

namespace Sys2Proof.Machine

/-- A trap that writes no fault record leaves every byte, every message and every other node's state; only a machine-check is
noted in the error log. -/
theorem State.takeTrap_plain (s : State) (i : Inst) (t : Trap) (h : t.cause ≠ .pageNotPresent) :
    ∃ (u : State) (c : Ctx), s.takeTrap i t = u.setCtx i c ∧ u.nodes = s.nodes ∧ u.dram = s.dram ∧ u.dramFe = s.dramFe ∧
      u.cxl = s.cxl ∧ u.host = s.host ∧ u.net = s.net ∧ u.cur = s.cur ∧ (t.cause ≠ .machineCheck → u = s) := by
  by_cases hm : t.cause = .machineCheck
  · have e : ∃ c, s.takeTrap i t = (if t.logged then s else s.logError i.node (t.code + 1) (s.partOf i) t.eaddr).setCtx i c := by
      unfold State.takeTrap
      simp only [hm, reduceCtorEq, if_false]
      exact ⟨_, rfl⟩
    obtain ⟨c, e⟩ := e
    refine ⟨_, c, e, ?_, ?_, ?_, ?_, ?_, ?_, ?_, fun h => absurd hm h⟩ <;> split <;> rfl
  · have e : ∃ c, s.takeTrap i t = s.setCtx i c := by
      unfold State.takeTrap
      simp only [h, if_false]
      exact ⟨_, rfl⟩
    obtain ⟨c, e⟩ := e
    exact ⟨s, c, e, rfl, rfl, rfl, rfl, rfl, rfl, rfl, fun _ => rfl⟩

/-- A branch whose slot has been read, and that is ready, ends as its effect says. -/
theorem branch_done {x : Instr} {u : Use} {s t s' : State} {n : Nat} {k : Nat → State → Out} {ws : List Reg} {f : Flow}
    (h : s.slotRead x.len t n) (hr : t.ready { u with noSlot := true, noEnd := true }) (hk : k n t = .done s' ws f) :
    branch x u s k = .next (s'.retire x.len ws f) := by
  obtain ⟨h1, h2⟩ := h
  have h1' : (s.ctx s.cur).dslot = none := h1
  have h2' : s.slotLen s.cur ((s.ctx s.cur).pc + BitVec.ofNat 64 x.len) = (t, .ok n) := h2
  simp only [branch, h1', h2']
  simp [State.issue_done hr hk]

end Sys2Proof.Machine
end

