-- ==== Sys2Proof/Tests/Slice0.lean ====
section
/-! SUPPORT. Tests: ill-formed terms, words written out from the spec's encodings, results worked out by hand from the rules,
and, for each statement with hypotheses, states and operands that meet them. -/

namespace Sys2Proof.Tests

-- one theorem at a time: the kernel evaluations would else pile up
set_option Elab.async false

open Sys2Proof Sys2Proof.Machine

/-! ### Ill-formed terms -/

-- a literal displacement is a multiple of 4 (R74)
theorem test_wf_br : (Instr.br (.lit 2)).wf = false := by decide
theorem test_wf_call : (Instr.call (.lit 6)).wf = false := by decide
theorem test_wf_brc : (Instr.brc ⟨.eq, 1, 2, .lit 1⟩).wf = false := by decide
theorem test_wf_brz : (Instr.brz ⟨1, .lit 2⟩).wf = false := by decide
theorem test_wf_brnz : (Instr.brnz ⟨1, .lit 2⟩).wf = false := by decide
theorem test_wf_brlz : (Instr.brlz ⟨1, .lit 2⟩).wf = false := by decide
theorem test_wf_brgez : (Instr.brgez ⟨1, .lit 2⟩).wf = false := by decide
theorem test_wf_loop_lit : (Instr.loop ⟨1, .lit 2⟩).wf = false := by decide
-- a loop's displacement is above zero (R110)
theorem test_wf_loop : (Instr.loop ⟨1, .short 0⟩).wf = false := by decide
theorem test_wf_loopi : (Instr.loopi ⟨.short 1, 0⟩).wf = false := by decide
-- CSRR has no ra (R246)
theorem test_wf_csrr : (Instr.csrr ⟨1, 2, .short 1⟩).wf = false := by decide
-- FCVT, FTOI and ITOF name float formats (R105)
theorem test_wf_fcvt_from : (Instr.fcvt ⟨1, 2, .i8, .f32, .rne⟩).wf = false := by decide
theorem test_wf_fcvt_to : (Instr.fcvt ⟨1, 2, .f32, .i32, .rne⟩).wf = false := by decide
theorem test_wf_ftoi : (Instr.ftoi ⟨1, 2, .i8, ⟨false, .d⟩, .rne⟩).wf = false := by decide
theorem test_wf_itof : (Instr.itof ⟨1, 2, .i32, ⟨false, .d⟩, .rne⟩).wf = false := by decide
-- no sign extension of 64 bits (R136)
theorem test_wf_ld : (Instr.ld ⟨1, 2, .as, .short 0, some ⟨true, .d, none⟩⟩).wf = false := by decide
theorem test_wf_ldx : (Instr.ldx ⟨1, 2, .as, 3, ⟨true, .d, none⟩⟩).wf = false := by decide
-- VCVT converts between two formats, and has max(Ls, Ld) / n parts (R222)
theorem test_wf_vcvt_same : (Instr.vcvt ⟨1, 2, .f32, .f32, 0, ⟨.rne, 0, false⟩⟩).wf = false := by decide
theorem test_wf_vcvt_part : (Instr.vcvt ⟨1, 2, .f32, .f16, 2, ⟨.rne, 0, false⟩⟩).wf = false := by decide
-- ACVT does not convert to INT8 (R193)
theorem test_wf_acvt : (Instr.acvt ⟨1, 2, some (.f32, .i8, .rne)⟩).wf = false := by decide

/-! ### Words: the fields of each format (R72) set to 5, 6, 7 or to the value shown, in the order of R78 -/

/-- Every 32-bit word of the list decodes to its instruction, which is well formed and encodes to it. -/
def reads (l : List (Nat × Instr)) : Bool :=
  l.all fun x => decodeTableWord 32 x.1 == some x.2 && x.2.wf && encode x.2 == leBytes 4 x.1

/-- The same for a base word with an extension, with a literal, and with both. -/
def readsX (base ext : Nat) (i : Instr) : Bool :=
  decodeTableWord 96 (base + 2 ^ 32 * ext) == some i && i.wf && encode i == leBytes 12 (base + 2 ^ 32 * ext)
def readsXL (base ext lit : Nat) (i : Instr) : Bool :=
  decodeTableWord 160 (base + 2 ^ 32 * ext + 2 ^ 96 * lit) == some i && i.wf

theorem test_words_sys : reads [
    (0b00_000000_000000_000000_000000_000000, .ill),
    (0b00_000000_000000_000000_000000_000001, .nop),
    (0b00_000000_000000_000000_000111_000010, .align 7),
    (0b00_000000_000000_000010_100101_000011, .trap 0xA5),
    (0b00_000000_000000_000010_100101_000100, .brk 0xA5),
    (0b00_000000_000000_000010_100101_000101, .sysc 0xA5),
    (0b00_000000_000000_000000_000000_000110, .eret),
    (0b00_000000_000000_000110_000000_000111, .upret 6),
    (0b00_000000_000000_000110_000000_001000, .wfi 6),
    (0b00_000000_000000_000110_000111_001001, .shoot 6 7),
    (0b00_000000_000000_000110_000111_001010, .tlbil 6 7),
    (0b00_000000_000000_000110_000000_001011, .savex 6),
    (0b00_000000_000000_000110_000000_001100, .loadx 6),
    (0b00_000000_000101_000000_000111_001101, .perfr 5 7),
    (0b00_000000_000000_000110_000111_001110, .tmark 6 7)] = true := by decide +kernel

theorem test_words_alu : reads [
    (0b00_000001_000101_000110_000111_000000, .add ⟨5, 6, .reg 7⟩),
    (0b00_000001_000101_000110_000111_000001, .sub ⟨5, 6, .reg 7⟩),
    (0b00_000001_000101_000110_000111_000010, .and ⟨5, 6, .reg 7⟩),
    (0b00_000001_000101_000110_000111_000011, .or ⟨5, 6, .reg 7⟩),
    (0b00_000001_000101_000110_000111_000100, .xor ⟨5, 6, .reg 7⟩),
    (0b00_000001_000101_000110_000111_000101, .andn ⟨5, 6, .reg 7⟩),
    (0b00_000001_000101_000110_000111_000110, .sll ⟨5, 6, .reg 7⟩),
    (0b00_000001_000101_000110_000111_000111, .srl ⟨5, 6, .reg 7⟩),
    (0b00_000001_000101_000110_000111_001000, .sra ⟨5, 6, .reg 7⟩),
    (0b00_000001_000101_000110_000111_001001, .slt ⟨5, 6, .reg 7⟩),
    (0b00_000001_000101_000110_000111_001010, .sltu ⟨5, 6, .reg 7⟩),
    (0b00_000001_000101_000110_000111_001011, .seq ⟨5, 6, .reg 7⟩),
    (0b00_000001_000101_000110_000111_001100, .min ⟨5, 6, .reg 7⟩),
    (0b00_000001_000101_000110_000111_001101, .max ⟨5, 6, .reg 7⟩),
    (0b00_000001_000101_000110_000111_001110, .minu ⟨5, 6, .reg 7⟩),
    (0b00_000001_000101_000110_000111_001111, .maxu ⟨5, 6, .reg 7⟩),
    (0b00_000001_000101_000110_000000_010000, .clz ⟨5, 6⟩),
    (0b00_000001_000101_000110_000000_010001, .ctz ⟨5, 6⟩),
    (0b00_000001_000101_000110_000000_010010, .popc ⟨5, 6⟩),
    (0b00_000001_000101_000110_000111_010011, .bfx ⟨5, 6, .reg 7⟩),
    (0b00_000001_000101_000110_000111_010100, .bfxu ⟨5, 6, .reg 7⟩),
    (0b00_000001_000101_000110_000111_010101, .bfi ⟨5, 6, .reg 7⟩),
    (0b00_000001_000101_000110_000111_010110, .adds ⟨5, 6, .reg 7⟩),
    (0b00_000001_000101_000110_000111_010111, .subs ⟨5, 6, .reg 7⟩),
    (0b00_000001_000101_000110_000111_011000, .caddr ⟨5, 6, .reg 7⟩),
    (0b00_000001_000101_000110_000111_011001, .crel ⟨5, 6, .reg 7⟩)] = true := by decide +kernel

theorem test_words_immediate : reads [
    (0b00_000010_000101_000110_100100100011, .addi ⟨5, 6, .short 0x923⟩),
    (0b00_000011_000101_000110_100100100011, .andi ⟨5, 6, .short 0x923⟩),
    (0b00_000100_000101_000110_100100100011, .ori ⟨5, 6, .short 0x923⟩),
    (0b00_000101_000101_000110_100100100011, .xori ⟨5, 6, .short 0x923⟩),
    (0b00_000110_000101_000110_00_0000001001, .slli ⟨5, 6, 9⟩),
    (0b00_000110_000101_000110_00_0001001001, .srli ⟨5, 6, 9⟩),
    (0b00_000110_000101_000110_00_0010001001, .srai ⟨5, 6, 9⟩),
    (0b00_000111_000101_000110_00_1100100011, .slti ⟨5, 6, .short 0x323⟩),
    (0b00_000111_000101_000110_01_1100100011, .sltiu ⟨5, 6, .short 0x323⟩),
    (0b00_000111_000101_000110_10_1100100011, .seqi ⟨5, 6, .short 0x323⟩)] = true := by decide +kernel

theorem test_words_cmov_muldiv : reads [
    (0b00_001000_000101_000110_000111_000000, .cmovnz ⟨5, 6, .reg 7⟩),
    (0b00_001000_000101_000110_000111_000001, .cmovz ⟨5, 6, .reg 7⟩),
    (0b00_001001_000101_000110_000111_000000, .mul ⟨5, 6, .reg 7⟩),
    (0b00_001001_000101_000110_000111_000001, .mulh ⟨5, 6, .reg 7⟩),
    (0b00_001001_000101_000110_000111_000010, .mulhu ⟨5, 6, .reg 7⟩),
    (0b00_001001_000101_000110_000111_000011, .mulhsu ⟨5, 6, .reg 7⟩),
    (0b00_001001_000101_000110_000111_000100, .div ⟨5, 6, .reg 7⟩),
    (0b00_001001_000101_000110_000111_000101, .divu ⟨5, 6, .reg 7⟩),
    (0b00_001001_000101_000110_000111_000110, .rem ⟨5, 6, .reg 7⟩),
    (0b00_001001_000101_000110_000111_000111, .remu ⟨5, 6, .reg 7⟩)] = true := by decide +kernel

theorem test_words_fps : reads [
    (0b00_001010_000101_000110_000111_100000, .fadd ⟨.f32, 5, 6, .reg 7, none⟩),
    (0b00_001010_000101_000110_000111_100001, .fsub ⟨.f32, 5, 6, .reg 7, none⟩),
    (0b00_001010_000101_000110_000111_100010, .fmul ⟨.f32, 5, 6, .reg 7, none⟩),
    (0b00_001010_000101_000110_000111_100011, .fdiv ⟨.f32, 5, 6, .reg 7, none⟩),
    (0b00_001010_000101_000110_000000_100100, .fsqrt ⟨.f32, 5, 6, none⟩),
    (0b00_001010_000101_000110_000111_100101, .fmin ⟨.f32, 5, 6, .reg 7, false⟩),
    (0b00_001010_000101_000110_000111_100110, .fmax ⟨.f32, 5, 6, .reg 7, false⟩),
    (0b00_001010_000101_000110_000111_100111, .feq ⟨.f32, 5, 6, .reg 7, false⟩),
    (0b00_001010_000101_000110_000111_101000, .flt ⟨.f32, 5, 6, .reg 7, false⟩),
    (0b00_001010_000101_000110_000111_101001, .fle ⟨.f32, 5, 6, .reg 7, false⟩),
    (0b00_001010_000101_000110_000000_101010, .fclass ⟨.f32, 5, 6, false⟩),
    (0b00_001010_000101_000110_000000_101011, .fneg ⟨.f32, 5, 6, false⟩),
    (0b00_001010_000101_000110_000000_101100, .fabs ⟨.f32, 5, 6, false⟩)] = true := by decide +kernel

theorem test_words_branch : reads [
    (0b00_001011_100100100011010001010110, .br (.short 0x923456)),
    (0b00_001100_000101_00_1001001000110100, .brz ⟨5, .short 0x9234⟩),
    (0b00_001100_000101_01_1001001000110100, .brnz ⟨5, .short 0x9234⟩),
    (0b00_001100_000101_10_1001001000110100, .brlz ⟨5, .short 0x9234⟩),
    (0b00_001100_000101_11_1001001000110100, .brgez ⟨5, .short 0x9234⟩),
    (0b00_001101_100100100011010001010110, .call (.short 0x923456)),
    (0b00_001110_000000_000110_000000_000000, .jr 6),
    (0b00_001110_000000_000110_000000_000001, .callr 6),
    (0b00_001110_000000_000000_000000_000010, .ret),
    (0b00_001110_000000_000110_000111_000011, .jt 6 7),
    (0b00_001111_000101_00_0001001000110100, .loop ⟨5, .short 0x1234⟩),
    (0b00_001111_000101_01_0001001000110100, .loopi ⟨.short 5, 0x1234⟩)] = true := by decide +kernel

theorem test_words_memory : reads [
    (0b00_010000_000101_000110_01_1100100011, .ld ⟨5, 6, .loc, .short 0x323, none⟩),
    (0b00_010001_000101_000110_01_1100100011, .st ⟨5, 6, .loc, .short 0x323, none⟩),
    (0b00_010010_000101_000110_000111_100000, .ldf ⟨5, 6, .reg 7, .cli, none⟩),
    (0b00_010010_000101_000110_000111_100001, .take ⟨5, 6, .reg 7, .cli, none⟩),
    (0b00_010010_000101_000110_000111_100010, .putf ⟨5, 6, .reg 7, .cli, none⟩),
    (0b00_010010_000101_000110_000111_100011, .stf ⟨5, 6, .reg 7, .cli, none⟩),
    (0b00_010010_000101_000110_000111_100100, .ste ⟨5, 6, .reg 7, .cli, none⟩),
    (0b00_010010_000101_000110_000111_100101, .feqFe ⟨5, 6, .reg 7, .cli, none⟩),
    (0b00_010010_000000_000110_000111_100110, .feclr ⟨6, .reg 7, .cli, none⟩),
    (0b00_010011_000101_000110_000111_100000, .aadd ⟨5, 6, .reg 7, .cli, none⟩),
    (0b00_010011_000101_000110_000111_100001, .aand ⟨5, 6, .reg 7, .cli, none⟩),
    (0b00_010011_000101_000110_000111_100010, .aor ⟨5, 6, .reg 7, .cli, none⟩),
    (0b00_010011_000101_000110_000111_100011, .axor ⟨5, 6, .reg 7, .cli, none⟩),
    (0b00_010011_000101_000110_000111_100100, .amin ⟨5, 6, .reg 7, .cli, none⟩),
    (0b00_010011_000101_000110_000111_100101, .amax ⟨5, 6, .reg 7, .cli, none⟩),
    (0b00_010011_000101_000110_000111_100110, .aminu ⟨5, 6, .reg 7, .cli, none⟩),
    (0b00_010011_000101_000110_000111_100111, .amaxu ⟨5, 6, .reg 7, .cli, none⟩),
    (0b00_010011_000101_000110_000111_101000, .aswp ⟨5, 6, .reg 7, .cli, none⟩),
    (0b00_010011_000101_000110_000111_101010, .afadd ⟨5, 6, .reg 7, .cli, none⟩)] = true := by decide +kernel

theorem test_words_order_formula : reads [
    (0b00_010100_000000_000000_000000_000010, .fence .die),
    (0b00_010100_000000_000110_000000_001000, .flush 6),
    (0b00_010100_000000_000000_000000_010000, .phase),
    (0b00_010100_000000_000000_000000_011010, .quiet .die),
    (0b00_010100_000000_000000_000000_100010, .gbar .die),
    (0b00_010101_000101_000110_000000_000000, .fld 5 6),
    (0b00_010101_000101_000000_000111_000001, .bind 5 7),
    (0b00_010101_000101_000000_000000_000010, .unbind 5),
    (0b00_010101_000000_000000_000000_000011, .unbinda),
    (0b00_010101_000101_000110_000000_000100, .bindq 5 6),
    (0b00_010101_000000_000000_000111_000101, .fhold 7),
    (0b00_010101_000000_000000_000111_000110, .frun 7),
    (0b00_010101_000000_000000_000111_000111, .feval 7)] = true := by decide +kernel

theorem test_words_parcel_net : reads [
    (0b00_010110_000001_000110_000111_000011, .send ⟨true, 6, .reg 7, 3⟩),
    (0b00_010110_000001_000110_000111_010011, .sendh ⟨true, 6, .reg 7, 3⟩),
    (0b00_010110_000001_000110_000111_100011, .migr ⟨true, 6, .reg 7, 3⟩),
    (0b00_010110_000101_000000_000111_110000, .spawn 5 (.reg 7)),
    (0b00_010110_000000_000000_000000_110001, .done),
    (0b00_010110_000101_000000_000000_110010, .msgq 5),
    (0b00_010111_000101_000000_000000_000000, .pop 5),
    (0b00_010111_000000_000110_000111_000001, .pushp 6 7),
    (0b00_010111_000101_000000_000000_000010, .nalloc 5),
    (0b00_010111_000000_000110_000000_000011, .nfree 6),
    (0b00_010111_000000_000110_000111_000100, .link 6 7),
    (0b00_010111_000000_000000_000000_000101, .rule),
    (0b00_010111_000101_000110_000000_000110, .nsym 5 6),
    (0b00_010111_000101_000000_000000_000111, .steal 5)] = true := by decide +kernel

theorem test_words_copy_ring : reads [
    (0b00_011000_000000_000000_000111_000001, .cwait 7),
    (0b00_011000_000101_000000_000111_000010, .cstat 5 7),
    (0b00_011000_000000_000000_001001_000011, .qfence 9),
    (0b00_011000_000000_000000_000111_000100, .cabort 7),
    (0b00_011001_000101_000110_000111_000000, .hset 5 6 7),
    (0b00_011001_000101_000110_000111_000001, .hwait 5 6 7),
    (0b00_011001_000101_000110_000111_000010, .hspace 5 6 7),
    (0b00_011001_000000_000110_000111_000011, .hadv ⟨6, .short 7⟩),
    (0b00_011001_000000_000110_000111_000100, .hrel ⟨6, .short 7⟩),
    (0b00_011001_000101_000110_000000_000101, .hq 5 6)] = true := by decide +kernel

theorem test_words_vmem : reads [
    (0b00_011011_000101_000110_000111_100000, .vld ⟨5, 6, .reg 7, .cli, none⟩),
    (0b00_011011_000101_000110_000111_100001, .vst ⟨5, 6, .reg 7, .cli, none⟩),
    (0b00_011011_000101_000110_000111_100010, .vlds ⟨5, 6, .reg 7, .cli, none⟩),
    (0b00_011011_000101_000110_000111_100011, .vsts ⟨5, 6, .reg 7, .cli, none⟩),
    (0b00_011011_000101_000110_000111_100100, .vgath ⟨5, 6, 7, .cli, none⟩),
    (0b00_011011_000101_000110_000111_100101, .vscat ⟨5, 6, 7, .cli, none⟩),
    (0b00_011011_000101_000110_000111_100110, .vldbc ⟨5, 6, .reg 7, .cli, none⟩)] = true := by decide +kernel

theorem test_words_vint : reads [
    (0b00_011100_000101_000110_000111_100000, .vadd ⟨.w, 5, 6, .v 7 none⟩),
    (0b00_011100_000101_000110_000111_100001, .vsub ⟨.w, 5, 6, .v 7 none⟩),
    (0b00_011100_000101_000110_000111_100010, .vmul ⟨.w, 5, 6, .v 7 none⟩),
    (0b00_011100_000101_000110_000111_100011, .vmulh ⟨.w, 5, 6, .v 7 none⟩),
    (0b00_011100_000101_000110_000111_100100, .vand ⟨.w, 5, 6, .v 7 none⟩),
    (0b00_011100_000101_000110_000111_100101, .vor ⟨.w, 5, 6, .v 7 none⟩),
    (0b00_011100_000101_000110_000111_100110, .vxor ⟨.w, 5, 6, .v 7 none⟩),
    (0b00_011100_000101_000110_000111_100111, .vsll ⟨.w, 5, 6, .v 7 none⟩),
    (0b00_011100_000101_000110_000111_101000, .vsrl ⟨.w, 5, 6, .v 7 none⟩),
    (0b00_011100_000101_000110_000111_101001, .vsra ⟨.w, 5, 6, .v 7 none⟩),
    (0b00_011100_000101_000110_000111_101010, .vmin ⟨.w, 5, 6, .v 7 none⟩),
    (0b00_011100_000101_000110_000111_101011, .vmax ⟨.w, 5, 6, .v 7 none⟩),
    (0b00_011100_000101_000110_000111_101100, .vminu ⟨.w, 5, 6, .v 7 none⟩),
    (0b00_011100_000101_000110_000111_101101, .vmaxu ⟨.w, 5, 6, .v 7 none⟩),
    (0b00_011100_000101_000110_000111_101110, .vadds ⟨.w, 5, 6, .v 7 none⟩),
    (0b00_011100_000101_000110_000111_101111, .vsubs ⟨.w, 5, 6, .v 7 none⟩)] = true := by decide +kernel

theorem test_words_vfp : reads [
    (0b00_011101_000101_000110_000111_100000, .vfadd ⟨.f16, 5, 6, .v 7 none⟩),
    (0b00_011101_000101_000110_000111_100001, .vfsub ⟨.f16, 5, 6, .v 7 none⟩),
    (0b00_011101_000101_000110_000111_100010, .vfmul ⟨.f16, 5, 6, .v 7 none⟩),
    (0b00_011101_000101_000110_000111_100011, .vfdiv ⟨.f16, 5, 6, .v 7 none⟩),
    (0b00_011101_000101_000110_000000_100100, .vfsqrt ⟨.f16, 5, 6, none⟩),
    (0b00_011101_000101_000110_000111_100101, .vfmin ⟨.f16, 5, 6, .v 7 none⟩),
    (0b00_011101_000101_000110_000111_100110, .vfmax ⟨.f16, 5, 6, .v 7 none⟩),
    (0b00_011101_000101_000110_000000_101000, .vfneg ⟨.f16, 5, 6, none⟩),
    (0b00_011101_000101_000110_000000_101001, .vfabs ⟨.f16, 5, 6, none⟩)] = true := by decide +kernel

theorem test_words_vmisc : reads [
    (0b00_011110_000101_000110_000111_100001, .vsel ⟨.w, 5, 6, 7, none⟩),
    (0b00_011110_000101_000110_000111_100010, .vperm ⟨.w, 5, 6, 7, none⟩),
    (0b00_011110_000101_000110_000000_100011, .vbcast ⟨.w, 5, 6, none⟩),
    (0b00_011110_000101_000110_000111_100100, .vins ⟨.w, 5, 6, 7, false⟩),
    (0b00_011110_000101_000110_000111_100101, .vext ⟨.w, 5, 6, 7, none⟩),
    (0b00_011110_000101_000110_000111_100110, .vslup ⟨.w, 5, 6, 7, none⟩),
    (0b00_011110_000101_000110_000111_100111, .vsldn ⟨.w, 5, 6, 7, none⟩),
    (0b00_011110_000101_000110_000000_101000, .vradd ⟨.w, 5, 6, none⟩),
    (0b00_011110_000101_000110_000000_101001, .vrmin ⟨.w, 5, 6, none⟩),
    (0b00_011110_000101_000110_000000_101010, .vrmax ⟨.w, 5, 6, none⟩),
    (0b00_011110_000101_000110_000000_101011, .vrminu ⟨.w, 5, 6, none⟩),
    (0b00_011110_000101_000110_000000_101100, .vrmaxu ⟨.w, 5, 6, none⟩),
    (0b00_011110_000101_000110_000000_101101, .vrfadd ⟨.f32, 5, 6, none⟩),
    (0b00_011110_000101_000110_000000_101110, .vmov ⟨.w, 5, 6, none⟩)] = true := by decide +kernel

theorem test_words_pred : reads [
    (0b00_011111_000101_000110_000111_100000, .vceq ⟨.w, 5, 6, .v 7 none⟩),
    (0b00_011111_000101_000110_000111_100001, .vcne ⟨.w, 5, 6, .v 7 none⟩),
    (0b00_011111_000101_000110_000111_100010, .vclt ⟨.w, 5, 6, .v 7 none⟩),
    (0b00_011111_000101_000110_000111_100011, .vcle ⟨.w, 5, 6, .v 7 none⟩),
    (0b00_011111_000101_000110_000111_100100, .vcltu ⟨.w, 5, 6, .v 7 none⟩),
    (0b00_011111_000101_000110_000111_100101, .vcleu ⟨.w, 5, 6, .v 7 none⟩),
    (0b00_011111_000101_000110_000111_100110, .vfceq ⟨.f16, 5, 6, .v 7 none⟩),
    (0b00_011111_000101_000110_000111_100111, .vfclt ⟨.f16, 5, 6, .v 7 none⟩),
    (0b00_011111_000101_000110_000111_101000, .vfcle ⟨.f16, 5, 6, .v 7 none⟩),
    (0b00_011111_000101_000110_000111_001001, .pand ⟨5, 6, 7, false⟩),
    (0b00_011111_000101_000110_000111_001010, .por ⟨5, 6, 7, false⟩),
    (0b00_011111_000101_000110_000111_001011, .pxor ⟨5, 6, 7, false⟩),
    (0b00_011111_000101_000110_000000_001100, .pnot ⟨5, 6, false⟩),
    (0b00_011111_000101_000110_000000_001101, .pcnt ⟨5, 6, false⟩),
    (0b00_011111_000101_000110_000000_001110, .pfirst ⟨5, 6, false⟩),
    (0b00_011111_000101_000110_000000_001111, .psetw ⟨5, 6, false⟩)] = true := by decide +kernel

theorem test_words_acc_rec_csr : reads [
    (0b00_100001_000010_000000_000000_000000, .azero ⟨2, none⟩),
    (0b00_100001_000010_000110_000000_000001, .aldt ⟨2, 6, none⟩),
    (0b00_100001_000010_000110_000000_000010, .astt ⟨2, 6, none⟩),
    (0b00_100001_000010_000011_000000_000011, .acvt ⟨2, 3, none⟩),
    (0b00_100001_000010_000011_000111_000100, .ascale ⟨2, 3, 7, none⟩),
    (0b00_100001_000101_000011_000111_000101, .amovv (.toV 5 3 7 false)),
    (0b00_100001_000101_000000_001001_000110, .aflag ⟨5, 9, false⟩),
    (0b00_100010_000000_000110_000111_000000, .grad ⟨6, 7, none⟩),
    (0b00_100010_000101_000110_000000_000001, .gradq ⟨5, 6, false⟩),
    (0b00_100010_000101_000110_000111_000010, .prld ⟨5, 6, 7, none⟩),
    (0b00_100010_000000_000110_000001_000011, .prst ⟨6, true, false⟩),
    (0b00_100010_000000_000110_000111_000100, .prset ⟨6, 7, none⟩),
    (0b00_100010_000101_000110_000000_000101, .prstat ⟨5, 6, false⟩),
    (0b00_100011_000101_000000_00_0000000110, .csrr ⟨5, 0, .short 6⟩),
    (0b00_100011_000101_000110_01_0000000110, .csrw ⟨5, 6, .short 6⟩),
    (0b00_100011_000101_000110_10_0000000110, .csrs ⟨5, 6, .short 6⟩),
    (0b00_100011_000101_000110_11_0000000110, .csrc ⟨5, 6, .short 6⟩)] = true := by decide +kernel

-- extended forms: the examples that the rules give
theorem test_word_copy : readsXL 0xD8209000 0x0400000000000000 0x80 (.copy ⟨0, .loc, false, 8, 9, .lit 0x80⟩) = true := by
  decide +kernel
theorem test_word_tld : readsX 0x9A1841C1 0x0100000000000000 (.tld ⟨1, false, .tile 6, 4, .reg 7⟩) = true := by decide +kernel
theorem test_word_astt : readsX 0xA1044002 0x16000000 (.astt ⟨1, 4, some (.f32, .bf16, .rne)⟩) = true := by decide +kernel
theorem test_word_acvt : readsX 0xA1080003 0x02000000 (.acvt ⟨2, 0, some (.f64, .f32, .rne)⟩) = true := by decide +kernel
theorem test_word_grad : readsX 0xA2004080 0x0100000030000000 (.grad ⟨4, 2, some (1, true)⟩) = true := by decide +kernel
theorem test_word_prset : readsX 0xA2004084 0x0300000000000000 (.prset ⟨4, 2, some 3⟩) = true := by decide +kernel
theorem test_word_vmul : readsX 0x9C082032 0x0124000000000000 (.vmul ⟨.d, 2, 2, .s 9 ⟨0, false⟩⟩) = true := by decide +kernel
theorem test_word_vdot : readsX 0x9D00108A 0x32000000 (.vdot ⟨0, 1, 2, .bf16 .rne, 0⟩) = true := by decide +kernel
theorem test_word_vscacc : readsX 0x9D1051DB 0x10000000 (.vscacc ⟨4, 5, 7, false, ⟨.rne, 0, false⟩⟩) = true := by decide +kernel
theorem test_word_vcvt : readsX 0x9E081000 0x0000080018000000 (.vcvt ⟨2, 1, .f32, .w8, 0, ⟨.rsr, 0, false⟩⟩) = true := by
  decide +kernel
theorem test_words_examples : reads [(0x21044001, .aldt ⟨1, 4, none⟩), (0x21080000, .azero ⟨2, none⟩),
    (0x210011C4, .ascale ⟨0, 1, 7, none⟩), (0x210C1185, .amovv (.toV 3 1 6 false)), (0x211403C6, .aflag ⟨5, 15, false⟩),
    (0x22104242, .prld ⟨4, 4, 9, none⟩), (0x22001043, .prst ⟨1, true, false⟩), (0x23140001, .csrr ⟨5, 0, .short 1⟩),
    (0x23007403, .csrw ⟨0, 7, .short 3⟩), (0x1C10415E, .vadds ⟨.h, 4, 4, .v 5 none⟩),
    (0x1D0420D0, .vfadd ⟨.f32, 1, 2, .v 3 none⟩)] = true := by decide +kernel
-- the other instructions that have only an extended form: RC is 8, RE is 9
theorem test_words_fps_x : (readsX 0b10_001010_000101_000110_000111_1_01101 (8 <<< 50 + 2 <<< 41) (.fma ⟨.f32, 5, 6, .reg 7, 8, .rup⟩) &&
    readsX 0b10_001010_000101_000110_000000_001110 (4 <<< 41 + 4 <<< 25) (.fcvt ⟨5, 6, .f64, .w8, .rsr⟩) &&
    readsX 0b10_001010_000101_000110_000000_001111 (6 <<< 56 + 1 <<< 41 + 1 <<< 28) (.ftoi ⟨5, 6, .f32, ⟨true, .w⟩, .rtz⟩) &&
    readsX 0b10_001010_000101_000110_000000_010000 (1 <<< 56 + 2 <<< 25) (.itof ⟨5, 6, .f16, ⟨false, .h⟩, .rne⟩)) = true := by
  decide +kernel
theorem test_word_brc : readsX 0b10_001011_000000_000000_000000_000000 (4 <<< 56 + 8 <<< 50 + 9 <<< 44 + 0xFFFFFE)
    (.brc ⟨.ltu, 8, 9, .short 0xFFFFFE⟩) = true := by decide +kernel
theorem test_words_memory_x :
    (readsX 0b10_010000_000101_000110_01_0000000011 (1 <<< 56 + 2 <<< 36 + 1 <<< 34 + 2 <<< 31)
      (.ld ⟨5, 6, .loc, .short 3, some ⟨true, .w, some .die⟩⟩) &&
    readsX 0b10_010001_000101_000110_00_1111111111 (1 <<< 36 + 2 <<< 34 + 5 <<< 31)
      (.st ⟨5, 6, .as, .short 0x3FF, some ⟨.h, some .sys⟩⟩) &&
    readsX 0b10_010000_000101_000110_10_0000000000 (2 <<< 56 + 8 <<< 50 + 3 <<< 36) (.ldx ⟨5, 6, .cli, 8, ⟨false, .d, none⟩⟩) &&
    readsX 0b10_010001_000101_000110_00_0000000000 (2 <<< 56 + 8 <<< 50) (.stx ⟨5, 6, .as, 8, ⟨.b, none⟩⟩) &&
    readsX 0b10_010011_000101_000110_000111_01_1001 (8 <<< 50 + 3 <<< 36) (.acas ⟨5, 6, .reg 7, .loc, 8, ⟨.d, .none⟩⟩) &&
    readsX 0b10_010011_000101_000110_000111_00_1010 (1 <<< 41 + 2 <<< 36 + 2 <<< 34 + 1 <<< 31 + 1 <<< 28)
      (.afadd ⟨5, 6, .reg 7, .as, some ⟨.f32, .rtz, .rel .clu⟩⟩)) = true := by decide +kernel
theorem test_words_tensor : (readsX 0b10_011010_000000_000000_000111_000000 0 (.tshp (.reg 7)) &&
    readsX 0b10_011010_000101_000110_000111_000001 ((16 + 4 + 3) <<< 56) (.tld ⟨3, true, .ring 5, 6, .reg 7⟩) &&
    readsX 0b10_011010_000101_000110_000111_000010 (6 <<< 56) (.tst ⟨2, true, 5, 6, .reg 7⟩) &&
    readsX 0b10_011010_000101_000110_000000_000011 0 (.dmov (.toD 5 6 none)) &&
    readsX 0b10_011010_000101_000110_000000_000011 (1 <<< 56) (.dmov (.toS 5 6 none)) &&
    readsX 0b10_011010_000101_000000_000111_000100 2 (.dinc ⟨5, .reg 7, 2⟩)) = true := by decide +kernel
-- DMOV with a literal, which replaces nothing (R159)
theorem test_word_dmov_xl : readsXL 0b11_011010_000101_000110_000000_000011 (1 <<< 56) 0x1234
    (.dmov (.toS 5 6 (some 0x1234))) = true := by decide +kernel
theorem test_words_vector_x : (readsX 0b10_011011_000101_000110_000111_00_0000 (3 <<< 38 + 2 <<< 36 + 1 <<< 24 + 0xFFFFC0)
      (.vld ⟨5, 6, .reg 7, .as, some ⟨.w, none, 3, true, 0xFFFFC0⟩⟩) &&
    readsX 0b10_011101_000101_000110_000111_01_0111 (8 <<< 50 + 3 <<< 41 + 2 <<< 38 + 1 <<< 24)
      (.vfma ⟨.f32, 5, 6, 7, 8, ⟨.rdn, 2, true⟩⟩)) = true := by decide +kernel
theorem test_word_gmma : (readsX 0xA0004140 0x32000000 (.gmma ⟨0, 4, 5, .bf16 .rne⟩) &&
    readsX 0xA0084140 0x0000020000000000 (.gmma ⟨2, 4, 5, .f64 .rtz⟩)) = true := by decide +kernel
-- literals (R74)
theorem test_words_literal : (decodeTableWord 96 (0b01_000001_000101_000110_000000_000000 + 2 ^ 32 * 0x123456789ABCDEF0) ==
      some (.add ⟨5, 6, .lit 0x123456789ABCDEF0⟩) &&
    decodeTableWord 96 (0b01_001111_000000_01_0000000000000011 + 2 ^ 32 * 0xFFFFFFFF) ==
      some (.loopi ⟨.lit 0xFFFFFFFF, 3⟩) &&
    decodeTableWord 96 (0b01_010000_000101_000110_00_0000000000 + 2 ^ 32 * 0xFFFFFFFFFFFFFFF8) ==
      some (.ld ⟨5, 6, .as, .lit 0xFFFFFFFFFFFFFFF8, none⟩)) = true := by decide +kernel

/-- The decoder refuses a word, and says why. -/
def refuses (w : Nat) (r : Reject) : Bool :=
  match decode (leBytes 20 w) with
  | .ok _ => false
  | .error e => e == r

theorem test_reject_major : refuses 0b00_100100_000000_000000_000000_000000 .reservedMajor = true := by decide +kernel
theorem test_reject_function : refuses 0b00_000001_000101_000110_000111_011010 .function = true := by decide +kernel
-- CLZ with rb not zero
theorem test_reject_unused : refuses 0b00_000001_000101_000110_000111_010000 .unusedField = true := by decide +kernel
-- VADD with vd 32
theorem test_reject_register : refuses 0b00_011100_100000_000110_000111_100000 .register = true := by decide +kernel
-- LOOP with a displacement of zero
theorem test_reject_range : refuses 0b00_001111_000101_00_0000000000000000 .range = true := by decide +kernel
-- ADD in the extended form
theorem test_reject_form : refuses 0b10_000001_000101_000110_000111_000000 .form = true := by decide +kernel
-- LD with ANN 11
theorem test_reject_code : refuses (0b10_010000_000101_000110_00_0000000000 + 2 ^ 32 * (3 <<< 34)) .code = true := by decide +kernel
theorem test_reject_truncated : (match decode [1, 0, 0] with | .ok _ => none | .error e => some e) = some .truncated := by decide +kernel

/-! ### Small states -/

/-- State with a change to the context of core 0 of package 0 that runs. -/
def inCtx (k : CtxId) (f : Ctx → Ctx) : State := ({ State.reset with cur := ⟨0, k⟩ } : State).modCtx ⟨0, k⟩ f

/-- MAIN with some s registers; a table lists its registers in rising order. -/
def st (xs : Table Word) : State := inCtx .main fun c => { c with s := xs }
def stV (vs : Table VecReg) : State := inCtx .main fun c => { c with v := vs }

/-- MAIN of core 0 with a partition and a 1 GiB page at virtual address 0, and code at its start (log 1). -/
def withCode (w : Nat) : State := State.reset.withFetchWord 160 w

/-- The state after an instruction, and registers of it. -/
def got (o : Host.Outcome State Fault Refusal) : State :=
  match o with
  | .next t => t
  | .fault _ => State.reset
  | .refused _ => State.reset
def after (x : Instr) (s : State) : State := got (exec x s)
def sOf (x : Instr) (s : State) (n : Nat) : Word := (after x s).now.sr n
def vOf (x : Instr) (s : State) (n : Nat) : VecReg := (after x s).now.vr n

theorem ready_of {s : State} {u : Use}
    (h : ((s.precheck u).isNone && !(s.ctx s.cur).interlocked u && ((s.ctx s.cur).poisonedAt u.reads).isNone) = true) :
    s.ready u := by
  simp only [Bool.and_eq_true, Option.isNone_iff_eq_none, Bool.not_eq_true'] at h
  exact ⟨h.1.1, h.1.2, h.2⟩

theorem begins_of {c : Ctx} (h : (match c.wait with
    | .jt _ | .words _ _ => false
    | _ => true) = true) : c.begins := by
  constructor
  · intro l hl; rw [hl] at h; nomatch h
  · intro ws b hl; rw [hl] at h; nomatch h

theorem whole_of {s : State} (h : (!s.split && match s.now.wait with
    | .jt _ | .words _ _ => false
    | _ => true) = true) : s.whole := by
  rw [Bool.and_eq_true] at h
  exact ⟨by simpa using h.1, begins_of h.2⟩

/-- A record of the own scratchpad that is read at once. -/
theorem own_read {s : State} (off n : Nat) (h : (!s.split && match s.now.wait with
    | .jt _ | .words _ _ => false
    | _ => true) = true) : s.ownRead off n (s.ownNat s.cur off (8 * n)) := .inl ⟨whole_of h, rfl⟩

/-- The same state, with the grants of the instruction split. -/
def splitSt (s : State) : State := { s with split := true }

/-! ### Scalar results, worked out by hand from R94 to R105 -/

/-- MAIN with s2 and s3, and what an instruction leaves in s1. -/
def two (x : Instr) (a b : Word) : Word := sOf x (st [(2, a), (3, b)]) 1

def o3 : Rrr := ⟨1, 2, .reg 3⟩
theorem test_add : two (.add o3) 0xFFFFFFFFFFFFFFFF 2 = 1 := by decide +kernel
theorem test_sub : two (.sub o3) 1 2 = 0xFFFFFFFFFFFFFFFF := by decide +kernel
theorem test_and : two (.and o3) 0b1100 0b1010 = 0b1000 := by decide +kernel
theorem test_or : two (.or o3) 0b1100 0b1010 = 0b1110 := by decide +kernel
theorem test_xor : two (.xor o3) 0b1100 0b1010 = 0b0110 := by decide +kernel
theorem test_andn : two (.andn o3) 0b1100 0b1010 = 0b0100 := by decide +kernel
theorem test_sll : two (.sll o3) 3 65 = 6 := by decide +kernel
theorem test_srl : two (.srl o3) 0x8000000000000000 63 = 1 := by decide +kernel
theorem test_sra : two (.sra o3) 0x8000000000000000 63 = 0xFFFFFFFFFFFFFFFF := by decide +kernel
theorem test_slt : two (.slt o3) 0xFFFFFFFFFFFFFFFF 0 = 1 := by decide +kernel
theorem test_sltu : two (.sltu o3) 0xFFFFFFFFFFFFFFFF 0 = 0 := by decide +kernel
theorem test_seq : two (.seq o3) 7 7 = 1 := by decide +kernel
theorem test_min : two (.min o3) 0xFFFFFFFFFFFFFFFF 0 = 0xFFFFFFFFFFFFFFFF := by decide +kernel
theorem test_max : two (.max o3) 0xFFFFFFFFFFFFFFFF 0 = 0 := by decide +kernel
theorem test_minu : two (.minu o3) 0xFFFFFFFFFFFFFFFF 0 = 0 := by decide +kernel
theorem test_maxu : two (.maxu o3) 0xFFFFFFFFFFFFFFFF 0 = 0xFFFFFFFFFFFFFFFF := by decide +kernel
theorem test_clz : two (.clz ⟨1, 2⟩) 0 0 = 64 := by decide +kernel
theorem test_ctz : two (.ctz ⟨1, 2⟩) 0x8000000000000000 0 = 63 := by decide +kernel
theorem test_popc : two (.popc ⟨1, 2⟩) 0xF00000000000000F 0 = 8 := by decide +kernel
-- a field of 8 bits at bit 4: b is 7 * 64 + 4
theorem test_bfx : two (.bfx o3) 0xABC0 (7 * 64 + 4) = 0xFFFFFFFFFFFFFFBC := by decide +kernel
theorem test_bfxu : two (.bfxu o3) 0xABC0 (7 * 64 + 4) = 0xBC := by decide +kernel
theorem test_bfi : sOf (.bfi o3) (st [(1, 0x1111), (2, 0xFF), (3, 7 * 64 + 4)]) 1 = 0x1FF1 := by decide +kernel
theorem test_adds : two (.adds o3) 0x7FFFFFFFFFFFFFFF 1 = 0x7FFFFFFFFFFFFFFF := by decide +kernel
theorem test_subs : two (.subs o3) 0x8000000000000000 1 = 0x8000000000000000 := by decide +kernel
-- the example of R138, and that of R27
theorem test_caddr : two (.caddr o3) 0x20905 0x12340 = 0x8116400000012340 := by decide +kernel
theorem test_crel : two (.crel o3) 0x21F 0x100 = 0xA07C800000000100 := by decide +kernel
theorem test_addi : two (.addi ⟨1, 2, .short 0xFFF⟩) 0 0 = 0xFFFFFFFFFFFFFFFF := by decide +kernel
theorem test_ori : two (.ori ⟨1, 2, .short 0xFFF⟩) 0 0 = 0xFFF := by decide +kernel
theorem test_sltiu : two (.sltiu ⟨1, 2, .short 0x3FF⟩) 5 0 = 1 := by decide +kernel
theorem test_srai : two (.srai ⟨1, 2, 4⟩) 0xFFFFFFFFFFFFFF00 0 = 0xFFFFFFFFFFFFFFF0 := by decide +kernel
theorem test_cmovz : sOf (.cmovz o3) (st [(1, 9), (2, 1), (3, 7)]) 1 = 9 := by decide +kernel
theorem test_mulh : two (.mulh o3) 0xFFFFFFFFFFFFFFFF 2 = 0xFFFFFFFFFFFFFFFF := by decide +kernel
theorem test_mulhu : two (.mulhu o3) 0xFFFFFFFFFFFFFFFF 2 = 1 := by decide +kernel
theorem test_mulhsu : two (.mulhsu o3) 0xFFFFFFFFFFFFFFFF 0xFFFFFFFFFFFFFFFF = 0xFFFFFFFFFFFFFFFF := by decide +kernel
theorem test_div : two (.div o3) 0xFFFFFFFFFFFFFFF9 2 = 0xFFFFFFFFFFFFFFFD := by decide +kernel
theorem test_rem : two (.rem o3) 0xFFFFFFFFFFFFFFF9 2 = 0xFFFFFFFFFFFFFFFF := by decide +kernel
theorem test_div_zero : two (.div o3) 5 0 = 0xFFFFFFFFFFFFFFFF := by decide +kernel
theorem test_rem_zero : two (.rem o3) 5 0 = 5 := by decide +kernel

def f3 (p : Prec) : F2 := ⟨p, 1, 2, .reg 3, none⟩
-- 1.5 + 2.25 = 3.75; 1 / 3; 2 ^ 24 + 1 in FP32 is a tie
theorem test_fadd : two (.fadd (f3 .f64)) 0x3FF8000000000000 0x4002000000000000 = 0x400E000000000000 := by decide +kernel
theorem test_fadd_tie : two (.fadd (f3 .f32)) 0x4B800000 0x3F800000 = 0x4B800000 := by decide +kernel
theorem test_fsub_zero : two (.fsub (f3 .f64)) 0x3FF0000000000000 0x3FF0000000000000 = 0 := by decide +kernel
theorem test_fmul_nan : two (.fmul (f3 .f64)) 0x7FF0000000000000 0 = 0x7FF8000000000000 := by decide +kernel
theorem test_fdiv : two (.fdiv (f3 .f64)) 0x3FF0000000000000 0x4008000000000000 = 0x3FD5555555555555 := by decide +kernel
theorem test_fsqrt : two (.fsqrt ⟨.f32, 1, 2, none⟩) 0x40000000 0 = 0x3FB504F3 := by decide +kernel
theorem test_flt : two (.flt ⟨.f64, 1, 2, .reg 3, false⟩) 0xBFF0000000000000 0 = 1 := by decide +kernel
-- 2 ^ 53 + 2 times 1, plus 1: one rounding, to even
theorem test_fma : sOf (.fma ⟨.f64, 1, 2, .reg 3, 4, .rne⟩) (st [(2, 0x4340000000000001), (3, 0x3FF0000000000000),
    (4, 0x3FF0000000000000)]) 1 = 0x4340000000000002 := by decide +kernel
theorem test_ftoi : two (.ftoi ⟨1, 2, .f64, ⟨false, .d⟩, .rtz⟩) 0xC004000000000000 0 = 0xFFFFFFFFFFFFFFFE := by decide +kernel
theorem test_itof : two (.itof ⟨1, 2, .f32, ⟨false, .w⟩, .rne⟩) 0xFFFFFFFF 0 = 0xBF800000 := by decide +kernel
-- the worked element of R60: lane 1 of VCVT.f32.w8.rsr
theorem test_vcvt : (after (.vcvt ⟨2, 1, .f32, .w8, 0, ⟨.rsr, 0, false⟩⟩) (inCtx .main fun c =>
    { c with v := [(1, 0x3F8C000000000000)], srseed := 0x12345678, ictr := 1 })).now.vr 2 = 0x5100 := by decide +kernel
theorem test_vcvt_rne : vOf (.vcvt ⟨2, 1, .f32, .w8, 0, ⟨.rne, 0, false⟩⟩) (stV [(1, 0x3F8C000000000000)]) 2 = 0x5200 := by
  decide +kernel

/-! ### Witnesses: scalar instructions -/

theorem witness_rrr : (st [(2, 7), (3, 3)]).ready (useRrr o3) ∧ (st [(2, 7), (3, 3)]).now.opnd o3.b ≠ 0 :=
  ⟨ready_of (by decide +kernel), by decide +kernel⟩
theorem witness_rr : (st [(2, 7)]).ready { reads := [.s 2], writes := [.s 1] } := ready_of (by decide +kernel)
theorem witness_bfi : (st []).ready { useRrr o3 with reads := .s o3.d :: (useRrr o3).reads } := ready_of (by decide +kernel)
theorem witness_div_zero : (st [(2, 7)]).ready (useRrr o3) ∧ (st [(2, 7)]).now.opnd o3.b = 0 :=
  ⟨ready_of (by decide +kernel), by decide +kernel⟩
theorem witness_div_overflow : let s := st [(2, 0x8000000000000000), (3, 0xFFFFFFFFFFFFFFFF)]
    s.ready (useRrr o3) ∧ (s.now.sr 2).toInt = -2 ^ 63 ∧ (s.now.opnd o3.b).toInt = -1 :=
  ⟨ready_of (by decide +kernel), by decide +kernel, by decide +kernel⟩
theorem witness_cmov : (st []).ready (useRrr o3) ∧ (st []).now.sr 2 = 0 ∧ (st [(2, 1)]).ready (useRrr o3) ∧
    (st [(2, 1)]).now.sr 2 ≠ 0 :=
  ⟨ready_of (by decide +kernel), by decide +kernel, ready_of (by decide +kernel), by decide +kernel⟩
theorem witness_f2 : let o := f3 .f64
    (st []).ready { reads := .s o.a :: opndRegs o.b, writes := [.s o.d] } := ready_of (by decide +kernel)
theorem witness_fma : (st []).ready { reads := .s 2 :: .s 4 :: opndRegs (.reg 3), writes := [.s 1] } := ready_of (by decide +kernel)
theorem witness_rounding : Fmt.w8.isFloat = true ∧ 0xFF < 2 ^ (8 * Fmt.w8.bytes) ∧ (Fmt.w8.num true 0x41).isNan = false := by
  decide +kernel

/-! ### Witnesses: branches and loops -/

/-- Two instructions at the program counter: the first's base word is 4 bytes. -/
def slotted (f : Ctx → Ctx) : State := (withCode (1 + 2 ^ 32)).modCtx ⟨0, .main⟩ f

/-- The state after the read of the slot. -/
def slotSt (s : State) (len : Nat) : State := (s.slotLen s.cur (s.now.pc + BitVec.ofNat 64 len)).1

theorem slot_read {s : State} {len n : Nat}
    (h : (s.now.dslot.isNone && match (s.slotLen s.cur (s.now.pc + BitVec.ofNat 64 len)).2 with
      | .ok m => m == n
      | .error _ => false
      | .held => false) = true) : s.slotRead len (slotSt s len) n := by
  rw [Bool.and_eq_true] at h
  refine ⟨Option.isNone_iff_eq_none.mp h.1, Prod.ext rfl ?_⟩
  have h2 := h.2
  split at h2
  · rename_i m hm
    rw [hm, beq_iff_eq.mp h2]
  all_goals nomatch h2

theorem witness_br : (slotted id).slotRead 4 (slotSt (slotted id) 4) 4 ∧ (slotSt (slotted id) 4).ready (branchUse [] []) ∧
    (slotSt (slotted id) 4).ready (branchUse [] [.s 63]) :=
  ⟨slot_read (by decide +kernel), ready_of (by decide +kernel), ready_of (by decide +kernel)⟩
/-- BRC has an extension word: its slot is 12 bytes on. -/
theorem witness_brc : (slotted id).slotRead 12 (slotSt (slotted id) 12) 4 ∧
    (slotSt (slotted id) 12).ready (branchUse [.s 1, .s 2] []) :=
  ⟨slot_read (by decide +kernel), ready_of (by decide +kernel)⟩
theorem witness_brz : (slotted id).slotRead 4 (slotSt (slotted id) 4) 4 ∧ (slotSt (slotted id) 4).ready (branchUse [.s 1] []) :=
  ⟨slot_read (by decide +kernel), ready_of (by decide +kernel)⟩
theorem witness_jr : let s := slotted fun c => { c with s := [(1, 0x40), (2, 0x41), (63, 0x40)] }
    s.slotRead 4 (slotSt s 4) 4 ∧ (slotSt s 4).ready (branchUse [.s 1] []) ∧ ((slotSt s 4).now.sr 1).toNat % 4 = 0 ∧
    (slotSt s 4).ready (branchUse [.s 1] [.s 63]) ∧ (slotSt s 4).ready (branchUse [.s 63] []) ∧
    ((slotSt s 4).now.sr 63).toNat % 4 = 0 ∧ (slotSt s 4).ready (branchUse [.s 2] []) ∧
    (slotSt s 4).ready (branchUse [.s 2] [.s 63]) ∧ ((slotSt s 4).now.sr 2).toNat % 4 ≠ 0 :=
  by
  refine ⟨slot_read ?_, ready_of ?_, ?_, ready_of ?_, ready_of ?_, ?_, ready_of ?_, ready_of ?_, ?_⟩ <;> decide +kernel
/-- RET to an address that is no multiple of 4. -/
theorem witness_ret_askew : let s := slotted fun c => { c with s := [(63, 0x42)] }
    s.slotRead 4 (slotSt s 4) 4 ∧ (slotSt s 4).ready (branchUse [.s 63] []) ∧ ((slotSt s 4).now.sr 63).toNat % 4 ≠ 0 :=
  ⟨slot_read (by decide +kernel), ready_of (by decide +kernel), by decide +kernel⟩
theorem test_ret_askew : (after .ret (slotted fun c => { c with s := [(63, 0x42)] })).now.eaddr = 0x42 := by decide +kernel

/-- What a read inside an instruction returns. -/
def readNow (s : State) (v n : Nat) : Option Word :=
  match (s.loadNow s.cur v n).2 with
  | .ok x => some x
  | .error _ => none
  | .held => none

theorem load_now {s : State} {v n : Nat} {x : Word} (h : readNow s v n = some x) :
    s.loadNow s.cur v n = ((s.loadNow s.cur v n).1, .ok x) := by
  refine Prod.ext rfl ?_
  unfold readNow at h
  split at h
  · rename_i y hy
    rw [hy, Option.some.inj h]
  all_goals nomatch h

/-- A jump table of one entry at 0x100, which holds 0x80. -/
def jumpTable : State := ((slotted fun c => { c with s := [(1, 0x100)] }).setDramWord 0 (2 * 2 ^ 35 + 0x100) 1).setDramWord 0
  (2 * 2 ^ 35 + 0x108) 0x80

-- a table that is no multiple of 8, and a target that is no multiple of 4 (R109)
def askewTable : State := (slotted fun c => { c with s := [(1, 0x104)] })
def askewTarget : State := jumpTable.setDramWord 0 (2 * 2 ^ 35 + 0x108) 0x82
theorem test_jt_askew : (after (.jt 1 2) askewTable).now.ecause = 8 ∧ (after (.jt 1 2) askewTable).now.eaddr = 0x104 ∧
    (after (.jt 1 2) askewTarget).now.ecause = 8 ∧ (after (.jt 1 2) askewTarget).now.eaddr = 0x82 := by decide +kernel
-- a JT that traps at its target counts no home, nor does a split one (R20, R45)
theorem test_jt_counts : (after (.jt 1 2) askewTarget).now.lreq + (after (.jt 1 2) askewTarget).now.rreq = 0 ∧
    (after (.jt 1 2) (splitSt askewTarget)).now.lreq + (after (.jt 1 2) (splitSt askewTarget)).now.rreq = 0 ∧
    (after (.jt 1 2) jumpTable).now.lreq + (after (.jt 1 2) jumpTable).now.rreq = 2 := by decide +kernel
theorem witness_jt_askew : (slotSt askewTable 4).ready (branchUse [.s 1, .s 2] []) ∧ (slotSt askewTable 4).now.begins ∧
    ((slotSt askewTable 4).now.sr 1).toNat % 8 ≠ 0 ∧ (slotSt askewTarget 4).ready (branchUse [.s 1, .s 2] []) ∧
    (slotSt askewTarget 4).whole ∧ readNow (slotSt askewTarget 4) 0x100 0 = some 1 ∧
    readNow ((slotSt askewTarget 4).loadNow ⟨0, .main⟩ 0x100 0).1 0x108 0 = some 0x82 :=
  by
  refine ⟨ready_of ?_, begins_of ?_, ?_, ready_of ?_, whole_of ?_, ?_⟩ <;> decide +kernel

def jt0 : State := slotSt jumpTable 4
def jt1 : State := (jt0.loadNow jt0.cur 0x100 0).1
theorem witness_jt : jumpTable.slotRead 4 jt0 4 ∧ jt0.ready (branchUse [.s 1, .s 2] []) ∧ jt0.now.begins ∧
    (jt0.now.sr 1).toNat = 0x100 ∧ jt0.readOk jt0.cur 0x100 = true ∧ jt0.loadNow jt0.cur 0x100 0 = (jt1, .ok 1) ∧
    jt0.split = false ∧ jt1.readOk jt0.cur 0x108 = true ∧
    jt1.loadNow jt1.cur 0x108 0 = ((jt1.loadNow jt1.cur 0x108 0).1, .ok 0x80) :=
  ⟨slot_read (by decide +kernel), ready_of (by decide +kernel), begins_of (by decide +kernel), by decide +kernel, by decide +kernel,
    load_now (by decide +kernel), by decide +kernel, by decide +kernel, load_now (by decide +kernel)⟩
/-- The same with its reads split: before the first, and between them. -/
def jtSplit : State := splitSt jumpTable
def jtBetween : State := jumpTable.modCtx jumpTable.cur fun c => { c with wait := .jt 1 }
theorem witness_jt_split : jtSplit.slotRead 4 (slotSt jtSplit 4) 4 ∧ (slotSt jtSplit 4).ready (branchUse [.s 1, .s 2] []) ∧
    (slotSt jtSplit 4).now.begins ∧ (slotSt jtSplit 4).readOk jtSplit.cur 0x100 = true ∧ readNow (slotSt jtSplit 4) 0x100 0 = some 1 ∧
    (slotSt jtSplit 4).split = true ∧ jtBetween.slotRead 4 (slotSt jtBetween 4) 4 ∧
    (slotSt jtBetween 4).ready (branchUse [.s 1, .s 2] []) ∧ (slotSt jtBetween 4).now.wait = .jt 1 ∧
    (slotSt jtBetween 4).readOk jtBetween.cur 0x108 = true ∧ readNow (slotSt jtBetween 4) 0x108 0 = some 0x80 :=
  ⟨slot_read (by decide +kernel), ready_of (by decide +kernel), begins_of (by decide +kernel), by decide +kernel, by decide +kernel,
    by decide +kernel, slot_read (by decide +kernel), ready_of (by decide +kernel), by decide +kernel⟩
theorem witness_branch_in_slot : let s := inCtx .main fun c => { c with dslot := some 8 }
    s.now.dslot = some 8 ∧ regOk s.cur.ctx (.s 63) = true := by decide +kernel
theorem test_loop_in_slot : (after (.loopi ⟨.short 2, 3⟩) (inCtx .main fun c => { c with dslot := some 8 })).now.ecause = 2 := by
  decide +kernel

def loopUse (rs : List Reg) : Use := { reads := rs, ctxs := [.main, .work], noSlot := true, noEnd := true }
theorem witness_loop_first : let s := st [(1, 3)]
    s.ready (loopUse [.s 1]) ∧ s.now.lc1 = 0 ∧ (s.now.sr 1).setWidth 32 ≠ (0 : BitVec 32) ∧ s.now.lc0 = 0 :=
  ⟨ready_of (by decide +kernel), by decide +kernel⟩
theorem witness_loop_second : let s := inCtx .main fun c => { c with lc0 := 2, lend0 := 0x40, s := [(1, 3)] }
    s.ready (loopUse [.s 1]) ∧ s.now.lc1 = 0 ∧ s.now.lc0 ≠ 0 := ⟨ready_of (by decide +kernel), by decide +kernel, by decide +kernel⟩
theorem witness_loop_depth : let s := inCtx .main fun c => { c with lc0 := 2, lend0 := 0x40, lc1 := 2, lend1 := 0x40 }
    s.ready (loopUse [.s 1]) ∧ s.now.lc1 ≠ 0 := ⟨ready_of (by decide +kernel), by decide +kernel⟩
/-- A count of zero: the word at the end of the body is read for its length. -/
theorem witness_loop_zero : (slotted id).ready (loopUse [.s 1]) ∧ (slotted id).now.lc1 = 0 ∧
    (slotted id).slotLen (slotted id).cur 4 = (slotSt (slotted id) 4, .ok 4) := by
  refine ⟨ready_of (by decide +kernel), by decide +kernel, ?_⟩
  have h : (slotted id).slotRead 4 (slotSt (slotted id) 4) 4 := slot_read (by decide +kernel)
  exact h.2
-- retirement: in a slot, at the end of a level that repeats, and of one that ends
theorem test_retire_slot : (({ dslot := some 0x80 } : Ctx).retire {} 4 [] .seq).pc = 0x80 := by decide +kernel
-- in a slot at the end of a level that repeats (R112)
theorem test_retire_slot_end : (({ dslot := some 0x80, pc := 0x20, lc1 := 2, lend1 := 0x20, lbeg1 := 0x10 } : Ctx).retire {} 4 [] .seq).pc =
    0x10 := by decide +kernel
theorem test_retire_inner : let c : Ctx := { pc := 0x20, lc1 := 2, lend1 := 0x20, lbeg1 := 0x10, lc0 := 5, lend0 := 0x20, lbeg0 := 8 }
    (c.retire {} 4 [] .seq).pc = 0x10 ∧ (c.retire {} 4 [] .seq).lc0 = 5 := by decide +kernel
theorem test_retire_outer : let c : Ctx := { pc := 0x20, lc1 := 1, lend1 := 0x20, lbeg1 := 0x10, lc0 := 5, lend0 := 0x20, lbeg0 := 8 }
    (c.retire {} 4 [] .seq).pc = 8 ∧ (c.retire {} 4 [] .seq).lc0 = 4 := by decide +kernel
theorem test_retire_ends : let c : Ctx := { pc := 0x20, lc0 := 1, lend0 := 0x20, lbeg0 := 8 }
    (c.retire {} 4 [] .seq).pc = 0x24 := by decide +kernel

/-! ### Formulas: the descriptors of the worked evaluation of R129 -/

/-- A state with a value in core 0's scratchpad. -/
def pad (s : State) (off n x : Nat) : State := s.modLive 0 fun m => { m with spm := m.spm.writeNat off n x }

def fop (opc a b c : Nat) : Nat := opc * 2 ^ 12 + a * 2 ^ 8 + b * 2 ^ 4 + c
/-- s3 + (s4 << 2): operation 0 shifts SRC2 by K2, operation 1 adds SRC1 and its result. -/
def shiftAdd : BitVec 256 :=
  BitVec.ofNat 256 (3 + 4 * 2 ^ 7 + 0x7F * 2 ^ 14 + 2 ^ 22 + fop 0x04 2 6 0 * 2 ^ 24 + fop 0x01 1 8 0 * 2 ^ 41 + 2 * 2 ^ 96)

/-- MAIN with slot 0 loaded, unbound, and s3 = 52, s4 = 1 (R129). -/
def loadedSlot : State := inCtx .main fun c => { c with s := [(3, 52), (4, 1)], slots := [(0, { desc := shiftAdd })] }
/-- The same with s2 bound to slot 0. -/
def bound : State := after (.bind 2 0) loadedSlot

theorem test_bind : bound.now.sr 2 = 56 ∧ bound.now.boundSlot 2 = some 0 := by decide +kernel
theorem test_bound_follows : sOf (.addi ⟨4, 4, .short 1⟩) bound 2 = 60 := by decide +kernel
theorem test_bound_write : (after (.addi ⟨2, 4, .short 1⟩) bound).now.ecause = 6 := by decide +kernel
theorem test_fld : ((after (.fld 0 1) (pad (st [(1, 0x40)]) 0x40 32 shiftAdd.toNat)).now.slot 0).desc = shiftAdd := by decide +kernel
-- BINDQ of s2: bound, depth 1, slot 0
theorem test_bindq : sOf (.bindq 7 2) bound 7 = 0x8000000000000010 := by decide +kernel
theorem test_unbind : (after (.unbind 2) bound).now.boundSlot 2 = none := by decide +kernel

theorem witness_fld : let s := pad (st [(1, 0x40)]) 0x40 32 shiftAdd.toNat
    s.ownRead 0x40 4 (s.ownNat s.cur 0x40 32) ∧ s.ready (formUse s 0 [.s 1] []) ∧ backed 0 (0x40 + 31) = true ∧
    s.ownBusy s.cur 0x40 32 = false ∧ descOk (s.ownNat s.cur 0x40 32) = true ∧ (s.now.slot 0).valid = false :=
  ⟨own_read 0x40 4 (by decide +kernel), ready_of (by decide +kernel), by decide +kernel⟩
/-- FLD that reads a word a step: before its first word, and before its last. -/
def fldWords : List Word := (List.range 3).map fun k => BitVec.ofNat 64 (shiftAdd.toNat / 2 ^ (64 * k))
theorem witness_fld_split : let s := splitSt (pad (st [(1, 0x40)]) 0x40 32 shiftAdd.toNat)
    let t := s.modCtx s.cur fun c => { c with wait := .words fldWords [] }
    s.ready (formUse s 0 [.s 1] []) ∧ s.ownMore 0x40 4 [BitVec.ofNat 64 (s.ownNat s.cur 0x40 8)] ∧
    t.ready (formUse t 0 [.s 1] []) ∧ t.ownRead 0x40 4 (wordsNat (fldWords ++ [BitVec.ofNat 64 (t.ownNat t.cur 0x58 8)])) ∧
    wordsNat (fldWords ++ [BitVec.ofNat 64 (t.ownNat t.cur 0x58 8)]) = shiftAdd.toNat :=
  ⟨ready_of (by decide +kernel), ⟨by decide +kernel, by decide, [], [], .inl ⟨begins_of (by decide +kernel), rfl⟩, rfl⟩,
    ready_of (by decide +kernel), .inr ⟨fldWords, [], by decide +kernel, by decide, by decide, fun _ => by decide, rfl⟩,
    by decide +kernel⟩
theorem witness_bind : let s := loadedSlot
    let k := s.now.slot 0
    s.ready (formUse s 0 (slotReads s 0) [.s 2]) ∧ k.valid = false ∧ k.hasOps = true ∧
    k.srcs.any (s.now.downstream true 16 [2]).contains = false ∧
    ∀ j, j < 16 → ((s.now.setSlot 0 { k with dest := 2, valid := true }).slot j).valid = true →
      (s.now.setSlot 0 { k with dest := 2, valid := true }).depthOf 17 j ≤ 4 :=
  ⟨ready_of (by decide +kernel), by decide +kernel⟩
theorem witness_unbind : let s := bound
    s.ready (formUse s 0 [] []) ∧ regOk s.cur.ctx (.s 2) = true ∧ s.now.boundSlot 2 = some 0 ∧ s.now.boundSlot 5 = none :=
  ⟨ready_of (by decide +kernel), by decide +kernel⟩
theorem witness_fhold : let s := bound
    (s.now.slot 0).valid = true ∧ s.ready (formUse s 0 [] []) ∧ s.ready (formUse s 0 (slotReads s 0) []) :=
  ⟨by decide +kernel, ready_of (by decide +kernel), ready_of (by decide +kernel)⟩
theorem witness_bindq : let s := bound
    s.ready (formUse s 0 [] [.s 7]) ∧ regOk s.cur.ctx (.s 2) = true ∧ s.cur.ctx = .main ∧ s.now.dslot = none ∧
    (s.now.boundSlot 2).isSome = true :=
  ⟨ready_of (by decide +kernel), by decide +kernel⟩
/-- The chain of R129, for its operations: no selector names a later result, and only the last may be stateful; and a check that fails. -/
theorem witness_operations : let d := shiftAdd.toNat
    fOps d = 2 ∧ (∀ i j, i < fOps d → j < 3 → opSel (fOp d i) j < 8 + i) ∧ (∀ i, i + 1 < fOps d → opOpc (fOp d i) < 0x10) ∧
    (bound.now.slot 0).dest ≠ 0 ∧ (bound.now.slot 0).dest < 64 := by
  have h : fOps shiftAdd.toNat = 2 := by decide +kernel
  refine ⟨h, ?_, ?_, by decide +kernel, by decide +kernel⟩
  · rw [h]
    exact fun i j hi hj => (by decide +kernel : ∀ i, i < 2 → ∀ j, j < 3 → opSel (fOp shiftAdd.toNat i) j < 8 + i) i hi j hj
  · rw [h]
    exact fun i hi => (by decide +kernel : ∀ i, i < 1 → opOpc (fOp shiftAdd.toNat i) < 0x10) i (by omega)
theorem witness_track : let c := bound.now
    (∀ j, j < 16 → ((c.slot j).valid && !(c.slot j).held) = true → j = 0) ∧ (c.slot 0).valid = true ∧ (c.slot 0).held = false ∧
    descStateful (c.slot 0).desc.toNat = false ∧ 4 ∈ (c.slot 0).srcs ∧ (c.slot 0).dest ∉ (c.slot 0).srcs ∧ (c.slot 0).dest ≠ 0 := by
  decide +kernel
/-- A formula with s0 as a source, for the statement on s0: SRC1 plus K2. -/
def s0Plus : BitVec 256 := BitVec.ofNat 256 (0x7F * 2 ^ 7 + 0x7F * 2 ^ 14 + fop 0x01 1 6 0 * 2 ^ 24 + 5 * 2 ^ 96)
theorem witness_track_s0 : let c : Ctx := { slots := [(0, { desc := s0Plus, dest := 2, valid := true })] }
    0 ∈ (c.slot 0).srcs ∧ (c.slot 0).dest ≠ 0 ∧ (∀ j, j < 16 → ((c.slot j).valid && !(c.slot j).held) = true → j = 0) := by
  decide +kernel

/-! ### Control registers -/

-- CSRW of SRSEED returns the old seed; VOVF clears the bits written as one
theorem test_csrw : (after (.csrw ⟨5, 7, .short 3⟩) (inCtx .main fun c => { c with s := [(7, 9)], srseed := 4 })).now.srseed = 9 := by
  decide +kernel
theorem test_csrw_old : sOf (.csrw ⟨5, 7, .short 3⟩) (inCtx .main fun c => { c with s := [(7, 9)], srseed := 4 }) 5 = 4 := by
  decide +kernel
theorem test_csrs_vovf : (after (.csrs ⟨0, 7, .short 4⟩) (inCtx .main fun c => { c with s := [(7, 2)], vovf := 6 })).now.vovf = 4 := by
  decide +kernel
theorem test_csr_u : (after (.csrr ⟨5, 0, .short 0x100⟩) (inCtx .main fun c => { c with priv := false })).now.ecause = 4 := by
  decide +kernel

theorem witness_csr_rw : let s := st [(7, 9)]
    csrRead s s.cur 3 = some 0 ∧ csrAcc 3 s.now.priv = .rw ∧ s.ready { reads := [.s 7], writes := [.s 5] } ∧
    s.ready { writes := [.s 5] } :=
  ⟨by decide +kernel, by decide +kernel, ready_of (by decide +kernel), ready_of (by decide +kernel)⟩
theorem witness_csr_w1c : let s := st [(7, 9)]
    csrRead s s.cur 4 = some 0 ∧ csrAcc 4 s.now.priv = .w1c ∧ s.ready { reads := [.s 7], writes := [.s 5] } :=
  ⟨by decide +kernel, by decide +kernel, ready_of (by decide +kernel)⟩
theorem witness_csr_ro : let s := inCtx .main fun c => { c with priv := false }
    csrRead s s.cur 5 = some 0 ∧ csrAcc 5 s.now.priv = .ro ∧ s.ready { reads := [.s 7], writes := [.s 5] } :=
  ⟨by decide +kernel, by decide +kernel, ready_of (by decide +kernel)⟩
theorem witness_csr_none : let s := inCtx .main fun c => { c with priv := false }
    regOk s.cur.ctx (.s 5) = true ∧ regOk s.cur.ctx (.s 7) = true ∧ csrRead s s.cur 0x3FF = none ∧ (csrRead s s.cur 0x11F).isSome = true ∧
    csrAcc 0x11F s.now.priv = .none := by decide +kernel
theorem witness_csr_fields : (csrRead State.reset ⟨0, .main⟩ 1).isSome = true ∧ csrAcc 1 true = .rw ∧
    (csrRead State.reset ⟨0, .main⟩ 0x11F).isSome = true ∧ csrAcc 0x11F true = .rw ∧ (csrRead State.reset ⟨0, .main⟩ 4).isSome = true ∧
    csrAcc 4 true = .w1c ∧ (csrRead State.reset ⟨0, .main⟩ 0x012).isSome = true ∧ csrAcc 0x012 true = .rw ∧
    (csrRead State.reset ⟨0, .main⟩ 0x013).isSome = true ∧ csrAcc 0x013 true = .rw := by decide +kernel

/-! ### Rings -/

/-- The description of a ring of 4 slots of 64 bytes at 0x1000, at offset 0x40. -/
def ringWord : Nat := 0x1000 + 6 * 2 ^ 20 + 4 * 2 ^ 24
def ringSt : State := pad (st [(1, 0x40)]) 0x40 8 ringWord
def ringed : State := after (.hset 5 1 0) ringSt
def filled : State := after (.hadv ⟨5, .short 3⟩) ringed

theorem test_hset : hBase (ringed.now.hr 5) = 0x1000 ∧ hCnt (ringed.now.hr 5) = 4 ∧ hSz (ringed.now.hr 5) = 6 := by decide +kernel
theorem test_hadv : hFill (filled.now.hr 5) = 3 := by decide +kernel
theorem test_hspace : sOf (.hspace 2 5 1) filled 2 = 0x10C0 := by decide +kernel
theorem test_hwait : sOf (.hwait 2 5 3) filled 2 = 0x1000 := by decide +kernel
-- HQ: 3 filled, 1 free, FILL 3, DRAIN 0
theorem test_hq : sOf (.hq 2 5) filled 2 = 0x0000000300010003 := by decide +kernel
theorem test_hrel : hDrain ((after (.hrel ⟨5, .short 2⟩) filled).now.hr 5) = 2 := by decide +kernel

theorem witness_hset : let s := ringSt
    s.ready (ringUse [.s 1] [.h 5]) ∧ s.ownNat s.cur 0x40 8 = ringWord ∧ backed 0 (0x40 + 7) = true ∧
    s.ownBusy s.cur 0x40 8 = false ∧ natBits ringWord 33 31 = 0 ∧ natBits ringWord 0 20 % 64 = 0 ∧ natBits ringWord 24 9 = 4 ∧
    natBits ringWord 20 4 = 6 ∧ backed 0 (0x1000 + 4 * 2 ^ 6 - 1) = true :=
  ⟨ready_of (by decide +kernel), by decide +kernel⟩
theorem witness_ring : let s := filled
    let x := s.now.hr 5
    s.ready (ringUse [.h 5] [.s 2]) ∧ s.ready (ringUse [.h 5] [.h 5]) ∧ hValid x = true ∧ hTie x = 0 ∧ 3 ≤ hFilled x ∧ 3 ≤ hCnt x ∧
    1 ≤ hFree x ∧ hValid (s.now.hr 6) = false ∧ s.ready (ringUse [.h 6] [.s 2]) :=
  by
  refine ⟨ready_of ?_, ready_of ?_, ?_, ?_, ?_, ?_, ?_, ?_, ready_of ?_⟩ <;> decide +kernel

/-! ### Copy channels and tensors -/

/-- A shape of 100 x 70 FP32 elements, rows of 280 bytes, tiles of 64 x 64 (R163), at offset 0x80. -/
def shapeNat : Nat := (2 + 2 * 2 ^ 4 + 64 * 2 ^ 8 + 64 * 2 ^ 16) + (70 + 4 * 2 ^ 16) * 2 ^ 64 + (100 + 280 * 2 ^ 16) * 2 ^ 128
def theShape : Shape := ⟨2, 64, 64, [(70, 4, 0), (100, 280, 0)]⟩
def shaped (f : Ctx → Ctx) : State := pad (inCtx .main f) 0x80 64 shapeNat

theorem test_shape : shapeIn ((shaped id).ownNat ⟨0, .main⟩ 0x80 64) = some theShape := by decide +kernel
theorem test_copy : ((after (.copy ⟨1, .loc, false, 8, 9, .lit 128⟩) (st [(8, 0x400), (9, 0x800)])).live 0).ch1.queue =
    [.entry (.bytes 0x400 0x800 .loc 128) .main false 1 none 0] := by decide +kernel
-- the first step of DINC adds TCOLS, which passes the extent 70 on the second: carry to dimension 1
theorem test_dinc : (after (.dinc ⟨5, .lit 0x80, 0⟩) (shaped fun c => { c with d := [(0, 64)] })).now.dr 0 = 0 ∧
    (after (.dinc ⟨5, .lit 0x80, 0⟩) (shaped fun c => { c with d := [(0, 64)] })).now.dr 1 = 64 := by decide +kernel

theorem chan_ok {s : State} {mode : Mode} {vs : List Word}
    (h : vs.all (fun v => (s.locate s.cur.node mode v.toNat).isSome) = true) : chanAddrsOk s mode vs :=
  fun v hv => List.all_eq_true.mp h v hv
theorem witness_copy : let s := st [(8, 0x400), (9, 0x800)]
    s.ready { reads := .s 8 :: .s 9 :: opndRegs (.lit 128) } ∧ chanAddrsOk s .loc [s.now.sr 8, s.now.sr 9] ∧
    s.chanReady 1 = true ∧ (s.now.opnd (.lit 128)).toNat < 2 ^ 32 :=
  ⟨ready_of (by decide +kernel), chan_ok (by decide +kernel), by decide +kernel, by decide +kernel⟩
theorem witness_copy_shape : let s := shaped id
    s.ownBusy ⟨0, .main⟩ 0x80 64 = false ∧ shapePlace 0 0x80 = true ∧ s.ownRead 0x80 8 (s.ownNat s.cur 0x80 64) ∧
    shapeIn (s.ownNat s.cur 0x80 64) = some theShape ∧ shCount theShape * shEsz theShape < 2 ^ 32 :=
  ⟨by decide +kernel, by decide, own_read 0x80 8 (by decide +kernel), by decide +kernel, by decide +kernel⟩
/-- A record that is read a word a step, by each instruction that reads one. -/
theorem witness_records_in_part : let s := splitSt (shaped fun c => { c with s := [(4, 0x2000), (6, 0x8000)] })
    let u := fun rs ws => tenUse (rs ++ opndRegs (.lit 0x80)) ws
    s.ownMore 0x80 8 [BitVec.ofNat 64 (s.ownNat s.cur 0x80 8)] ∧ s.ownBusy s.cur 0x80 64 = false ∧ shapePlace 0 0x80 = true ∧
    s.ready { reads := .s 4 :: .s 6 :: opndRegs (.lit 0x80) } ∧ chanAddrsOk s .loc [s.now.sr 4, s.now.sr 6] ∧
    s.ready (u [] ((List.range 7).map Reg.d)) ∧ s.ready (u [] [.s 5]) ∧ s.ready (u [.s 6, .s 4] []) ∧
    s.ready (u [.h 5, .s 4] []) :=
  ⟨⟨by decide +kernel, by decide, [], [], .inl ⟨begins_of (by decide +kernel), rfl⟩, rfl⟩, by decide +kernel, by decide,
    ready_of (by decide +kernel), chan_ok (by decide +kernel), ready_of (by decide +kernel), ready_of (by decide +kernel),
    ready_of (by decide +kernel), ready_of (by decide +kernel)⟩
theorem witness_channel : let s := st []
    s.ready {} ∧ ((s.live 0).chan 3).stopped = none ∧ ((s.live 0).chan 3).entries = 0 ∧ s.ready { writes := [.s 1] } :=
  ⟨ready_of (by decide +kernel), by decide +kernel, by decide +kernel, ready_of (by decide +kernel)⟩
/-- A stopped channel, and one with an entry. -/
def chState (k : Chan) : State := (st []).modLive 0 fun m => { m with ch1 := k }
theorem witness_cstat_stopped : let s := chState { stopped := some { cause := .protection } }
    s.ready { writes := [.s 1] } ∧ ((s.live 0).chan 1).stopped = some { cause := .protection } ∧ ((s.live 0).chan 1).entries ≤ 16 :=
  ⟨ready_of (by decide +kernel), by decide +kernel, by decide +kernel⟩
/-- An entry of 8 bytes, and a join behind which nothing stands. -/
def anEntry : ChanItem := .entry (.bytes 0 0 .loc 8) .main false 0 none 0
theorem witness_cstat_running : let s := chState { queue := [anEntry] }
    let t := chState { queue := [.join 3 2] }
    s.ready { writes := [.s 1] } ∧ ((s.live 0).chan 1).stopped = none ∧ ((s.live 0).chan 1).queue = [anEntry] ∧
    ((s.live 0).chan 1).entries ≤ 16 ∧ t.ready { writes := [.s 1] } ∧ ((t.live 0).chan 1).queue = [.join 3 2] :=
  ⟨ready_of (by decide +kernel), by decide +kernel, by decide +kernel, by decide +kernel, ready_of (by decide +kernel),
    by decide +kernel⟩
theorem witness_qfence : (st []).ready {} ∧ (∀ k, k < 4 → (((st []).live 0).chan k).queue = []) ∧
    (chState { queue := [anEntry] }).ready {} ∧
    (∀ k, k < 4 → k ≠ 1 → (((chState { queue := [anEntry] }).live 0).chan k).queue = []) ∧
    (((chState { queue := [anEntry] }).live 0).chan 1).queue = [anEntry] ∧ natBit (2 : Nat) 1 = true :=
  ⟨ready_of (by decide +kernel), by decide +kernel, ready_of (by decide +kernel), by decide +kernel⟩

theorem witness_tensor : let s := shaped fun c => { c with s := [(4, 0x2000), (6, 0x8000), (7, 0x80)] }
    s.ready (tenUse (opndRegs (.reg 7)) ((List.range 7).map Reg.d)) ∧ s.ready (tenUse [.s 4] [.d 3]) ∧ s.ready (tenUse [.d 3] [.s 4]) ∧
    s.ready (tenUse (opndRegs (.reg 7)) [.s 5]) ∧ s.ready (tenUse (.s 6 :: .s 4 :: opndRegs (.reg 7)) []) ∧
    s.chanReady 1 = true ∧ s.ownBusy s.cur 0x80 64 = false ∧ shapePlace 0 0x80 = true ∧
    s.ownRead 0x80 8 (s.ownNat s.cur 0x80 64) ∧ shapeIn (s.ownNat s.cur 0x80 64) = some theShape ∧
    backed 0 (0x8000 + 64 * (64 * 2 ^ 2) - 1) = true ∧ (s.locate 0 .loc (s.now.sr 4).toNat).isSome = true :=
  ⟨ready_of (by decide +kernel), ready_of (by decide +kernel), ready_of (by decide +kernel), ready_of (by decide +kernel),
    ready_of (by decide +kernel), by decide +kernel, by decide +kernel, by decide, own_read 0x80 8 (by decide +kernel),
    by decide +kernel⟩
/-- A tied ring of 2 slots of 2^14 bytes. -/
theorem witness_tld_ring : let s := shaped fun c => { c with h := [(5, mkHandle 5 2 14 0x10000)] }
    let x := s.now.hr 5
    s.ready (tenUse (.h 5 :: .s 4 :: opndRegs (.lit 0x80)) []) ∧ hValid x = true ∧ hTie x = 1 + 4 ∧ 64 * (64 * 2 ^ 2) ≤ 2 ^ hSz x ∧
    (Table.get 0 s.now.part 5 + ((s.live 0).chan 1).owed) / 2 ^ hSz x < hFree x ∧ s.chanReady 1 = true :=
  ⟨ready_of (by decide +kernel), by decide +kernel⟩
-- R163: element (1, 0) of an FP32 tile; the layout is one to one at both ends of its range
theorem test_tile_elem : tileElem 4 (tileByte 4 1 0) = (1, 0, 0) ∧ tileElem 8 (tileByte 8 63 63 + 7) = (63, 63, 7) := by
  decide +kernel

theorem witness_dmov : (shaped id).ready (tenUse [.s 4] [.d 3]) ∧ (Instr.dmov (.toS 5 6 (some 7))).len = 20 :=
  ⟨ready_of (by decide +kernel), by decide +kernel⟩
/-- Elements (1, 6) and (2, 0) of the tile whose first element is (64, 64) of a 100 × 70 array: the extent ends at column 70. -/
theorem witness_tile_moves : theShape.esz ≤ 3 ∧ 2 < theShape.trows ∧ theShape.trows ≤ 64 ∧ 3 < 2 ^ theShape.esz ∧
    theShape.dims.length = 2 ∧ ([64, 64, 0, 0, 0, 0, 0] : List Int).length = 7 ∧ (64 : Int) + 6 = (theShape.dims.getD 0 (0, 0, 0)).1 ∧
    (64 : Int) + 2 < (theShape.dims.getD 1 (0, 0, 0)).1 := by decide
-- element (2, 0) lies at 64 * 4 + 66 * 280 of the array, and at row 2 of the tile, its words exchanged
theorem test_tile_moves : let x : Xfer := .tld 0x8000 0x100000 true theShape [64, 64, 0, 0, 0, 0, 0] (64 * 256)
    xferByte x (tileByte 4 2 0) = (some (.loc, 0x100000 + 256 + 66 * 280), (.loc, BitVec.ofNat 64 (0x8000 + 2 * 256 + 2 * 8))) ∧
    (xferByte x (tileByte 4 1 6)).1 = none := by decide +kernel

/-! ### Vectors -/

/-- Seventeen products make two groups (R63). -/
theorem witness_dot : (List.replicate 17 (some (1, 1)) : List (Option (Nat × Nat))).length ≤ 16 * 2 ∧
    16 * 2 < (List.replicate 17 (some (1, 1)) : List (Option (Nat × Nat))).length + 16 := by decide
-- R64: INT8 products, saturated once for each group
theorem test_dot_saturates : (dotProduct .i8 { wtop := false, seed := 0, ctr := 0 } 0 2 0x7FFFFFF0
    (List.replicate 16 (some (127, 127)) ++ [some (0xFF, 1)])).1 = 0x7FFFFFFE := by decide +kernel
theorem test_vadd : vOf (.vadd ⟨.h, 1, 2, .v 3 none⟩) (stV [(2, 0x0001FFFF), (3, 0x00010002)]) 1 = 0x00020001 := by decide +kernel
theorem test_vmulh : vOf (.vmulh ⟨.b, 1, 2, .v 3 none⟩) (stV [(2, 0x80FF), (3, 0x8002)]) 1 = 0x40FF := by decide +kernel
theorem test_vadds : vOf (.vadds ⟨.b, 1, 2, .v 3 none⟩) (stV [(2, 0x7F80), (3, 0x01FF)]) 1 = 0x7F80 := by decide +kernel
theorem test_vsra : vOf (.vsra ⟨.b, 1, 2, .v 3 none⟩) (stV [(2, 0x80), (3, 9)]) 1 = 0xC0 := by decide +kernel
-- p1 makes only granule 0 active: the other lanes are zero under ZM, and stand without it
theorem test_vand_pm : (after (.vand ⟨.w, 1, 2, .s 9 ⟨1, true⟩⟩) (inCtx .main fun c =>
    { c with s := [(9, 0xF0)], v := [(1, 0xFF00000000), (2, 0xFF000000FF)], p := [(1, 1)] })).now.vr 1 = 0xF0 := by decide +kernel
theorem test_vor_pm : (after (.vor ⟨.w, 1, 2, .s 9 ⟨1, false⟩⟩) (inCtx .main fun c =>
    { c with s := [(9, 0xF0)], v := [(1, 0xFF00000000), (2, 0xF)], p := [(1, 1)] })).now.vr 1 = 0xFF000000FF := by decide +kernel
theorem test_vfadd : vOf (.vfadd ⟨.f16, 1, 2, .v 3 none⟩) (stV [(2, 0x3C004000), (3, 0x3C003C00)]) 1 = 0x40004200 := by decide +kernel
theorem test_vfneg : vOf (.vfneg ⟨.f32, 1, 2, none⟩) (stV [(2, 0x3F800000)]) 1 =
    BitVec.ofNat 512 ((List.range 16).foldl (fun a k => a + 0x80000000 * 2 ^ (32 * k)) 0x3F800000 - 0x80000000 + 0x80000000) := by
  decide +kernel
-- 1.0 * 2.0 + 3.0 * 4.0 over FP64 lanes, onto 0.5
theorem test_vdot : vOf (.vdot ⟨1, 2, 3, .f64 .rne, 0⟩) (stV [(1, 0x3FE0000000000000),
    (2, 0x40080000000000003FF0000000000000), (3, 0x40100000000000004000000000000000)]) 1 = 0x402D000000000000 := by decide +kernel
theorem test_vperm : vOf (.vperm ⟨.d, 1, 2, 3, none⟩) (stV [(2, 7 * 2 ^ 64 + 5), (3, 0x0900000000000001)]) 1 =
    BitVec.ofNat 512 (7 + (List.range 7).foldl (fun a k => a + 5 * 2 ^ (64 * (k + 1))) 0) := by decide +kernel
theorem test_vslup : (after (.vslup ⟨.w, 1, 2, 9, none⟩) (inCtx .main fun c => { c with s := [(9, 1)], v := [(2, 7)] })).now.vr 1 =
    7 * 2 ^ 32 := by decide +kernel
theorem test_vext : sOf (.vext ⟨.b, 5, 2, 9, some true⟩) (inCtx .main fun c => { c with v := [(2, 0x80)] }) 5 =
    0xFFFFFFFFFFFFFF80 := by decide +kernel
theorem test_vradd : sOf (.vradd ⟨.w, 5, 2, none⟩) (stV [(2, 0xFFFFFFFF00000003)]) 5 = 2 := by decide +kernel
theorem test_vrmaxu : sOf (.vrmaxu ⟨.b, 5, 2, none⟩) (stV [(2, 0xFE)]) 5 = 0xFE := by decide +kernel
theorem test_vclt : (after (.vclt ⟨.w, 2, 2, .v 3 none⟩) (stV [(2, 0xFFFFFFFF), (3, 0xFFFFFFFF00000000)])).now.pr 2 = 1 := by
  decide +kernel
theorem test_psetw : (after (.psetw ⟨2, 9, false⟩) (st [(9, 3)])).now.pr 2 = 7 := by decide +kernel
theorem test_pfirst : sOf (.pfirst ⟨5, 1, false⟩) (st []) 5 = 16 := by decide +kernel

/-- The forms of the vector statements in MAIN: vector or scalar operand b, and a predicate. -/
theorem witness_vector : let s := stV [(2, 1)]
    s.ready { reads := .v 2 :: vbRegs (.v 3 none), writes := [.v 1] } ∧
    s.ready { reads := .v 2 :: vbRegs (.s 9 ⟨1, true⟩), writes := [.v 1] } ∧
    s.ready { reads := .v 2 :: vfbRegs (.s 9 ⟨.rne, 1, true⟩), writes := [.v 1] } ∧ s.ready { reads := [.v 2, .p 0], writes := [.v 1] } ∧
    s.ready { reads := [.v 2, .v 3, .v 4, .p 1], writes := [.v 1] } ∧ s.ready { reads := [.v 1, .v 2, .v 3, .p 1], writes := [.v 1] } ∧
    s.ready { reads := [.v 1, .v 2, .s 9, .p 1], writes := [.v 1] } :=
  by
  refine ⟨ready_of ?_, ready_of ?_, ready_of ?_, ready_of ?_, ready_of ?_, ready_of ?_, ready_of ?_⟩ <;> decide +kernel
theorem witness_moves : let s := stV [(2, 1)]
    s.ready { reads := [.v 2, .v 3, .p 0], writes := [.v 1] } ∧ s.ready { reads := .p 0 :: [.v 2, .v 3], writes := [.v 1] } ∧
    s.ready { reads := .p 0 :: [.s 9], writes := [.v 1] } ∧ s.ready { reads := .p 0 :: [.v 2, .s 9], writes := [.v 1] } ∧
    s.ready { reads := [.s 9, .s 10], writes := [.v 1] } ∧ (s.now.sr 10).toNat < 64 / Sz.w.bytes ∧
    s.ready { reads := [.v 2, .s 9], writes := [.s 5] } ∧ 64 / Sz.d.bytes ≤ ((st [(10, 8)]).now.sr 10).toNat :=
  by
  refine ⟨ready_of ?_, ready_of ?_, ready_of ?_, ready_of ?_, ready_of ?_, ?_, ready_of ?_, ?_⟩ <;> decide +kernel
theorem witness_predicates : let s := stV [(2, 1)]
    s.ready { reads := [.v 2, .p 0], writes := [.s 5] } ∧ s.ready { reads := .v 2 :: vbRegs (.v 3 none), writes := [.p 2] } ∧
    s.ready { reads := [.p 1, .p 2], writes := [.p 3] } ∧ s.ready { reads := [.p 1], writes := [.p 3] } ∧
    s.ready { reads := [.p 1], writes := [.s 5] } ∧ s.ready { reads := [.s 9], writes := [.p 2] } :=
  ⟨ready_of (by decide +kernel), ready_of (by decide +kernel), ready_of (by decide +kernel), ready_of (by decide +kernel),
    ready_of (by decide +kernel), ready_of (by decide +kernel)⟩

/-! ### Memory -/

/-- A second 1 GiB page, at virtual address 2^30, in die 3: kind PR for records, or another. -/
def mapped (kind : Nat) (f : Ctx → Ctx) : State :=
  ((withCode 1).setDramWord 0 (2 ^ 35 + 0x1008) (BitVec.ofNat 64 (0x3F + kind * 2 ^ 6 + 2 ^ 8 + 3 * 2 ^ 10))).modCtx ⟨0, .main⟩ f

/-- The accesses of an operation are admitted. -/
def triesOk (s : State) (op : MemOp) : Bool :=
  !s.acqOpen s.cur && op.lanes.all (fun a => a.v.toNat % op.size == 0) &&
    match s.findAll s.cur op.need op.mode op.size op.lanes with
    | (t, .ok fs) => fs.all (fun af => !t.ownWaits s.cur op af.2) && decide (s.now.osc + oscNeed op fs ≤ 256)
    | (_, .error _) => false

theorem admits_of {s : State} {op : MemOp} (h : triesOk s op = true) : ∃ fs t, s.admits op fs t := by
  unfold triesOk at h
  rw [Bool.and_eq_true, Bool.and_eq_true, Bool.not_eq_true', List.all_eq_true] at h
  obtain ⟨⟨h1, h2⟩, h3⟩ := h
  split at h3
  · rename_i t fs heq
    rw [Bool.and_eq_true, List.all_eq_true, decide_eq_true_eq] at h3
    exact ⟨fs, t, h1, fun a ha => beq_iff_eq.mp (h2 a ha), heq,
      fun af ha => by simpa using h3.1 af ha, h3.2⟩
  · nomatch h3

/-- LD, ST and atomics on the own core at offset 0x40, and on DRAM through the page at 0. -/
def own (x : Nat) : State := pad (st [(1, 0x40), (2, 5)]) 0x40 8 x
theorem test_ld : sOf (.ld ⟨3, 1, .loc, .short 0, some ⟨true, .b, none⟩⟩) (own 0x80) 3 = 0xFFFFFFFFFFFFFF80 := by decide +kernel
theorem test_ld_offset : sOf (.ld ⟨3, 1, .loc, .short 0x3FF, some ⟨false, .h, none⟩⟩) (pad (own 0) 0x3E 2 0xABCD) 3 = 0xABCD := by
  decide +kernel
theorem test_ld_misaligned : (after (.ld ⟨3, 1, .loc, .lit 1, none⟩) (own 0)).now.ecause = 8 ∧
    (after (.ld ⟨3, 1, .loc, .lit 1, none⟩) (own 0)).now.eaddr = 0x41 := by decide +kernel
theorem test_st : (after (.st ⟨2, 1, .loc, .short 1, some ⟨.h, none⟩⟩) (own 0x1111111111111111)).ownNat ⟨0, .main⟩ 0x40 8 =
    0x1111111100051111 := by decide +kernel
-- R30: v = 0x58 under CLI in the cluster x 8-15 of row 3 is offset 8 at x = 11, y = 3
theorem test_cli : State.reset.locate (3 * 16 + 9) .cli 0x58 = some (.far (3 * 16 + 11) 8) := by decide +kernel
theorem test_ld_far : ((after (.ld ⟨3, 1, .as, .short 0, none⟩) (withCode 1)).net.map fun m => (m.req, m.dst, m.va)) =
    [(.load 8, .s 3 8 false, 0)] := by decide +kernel
theorem test_take_empty : ((after (.take ⟨3, 1, .lit 0, .loc, none⟩) (own 7)).net.map fun m => m.at_) =
    [some (.spm 0 none 0x40)] := by decide +kernel
theorem test_stf : (after (.stf ⟨2, 1, .lit 0, .loc, none⟩) (own 7)).full (.spm 0 none 0x40) = true := by decide +kernel
theorem test_aadd : sOf (.aadd ⟨3, 1, .reg 2, .loc, none⟩) (own 7) 3 = 7 ∧
    (after (.aadd ⟨3, 1, .reg 2, .loc, none⟩) (own 7)).ownNat ⟨0, .main⟩ 0x40 8 = 12 := by decide +kernel
theorem test_acas : (after (.acas ⟨3, 1, .lit 9, .loc, 2, ⟨.d, .none⟩⟩) (own 5)).ownNat ⟨0, .main⟩ 0x40 8 = 9 := by decide +kernel
theorem test_amin_w : (after (.amin ⟨3, 1, .lit 0xFFFFFFFF, .loc, some ⟨.w, .none⟩⟩) (own 5)).ownNat ⟨0, .main⟩ 0x40 8 =
    0xFFFFFFFF := by decide +kernel
theorem test_vld : vOf (.vlds ⟨1, 1, .lit 16, .loc, some ⟨.w, none, 0, true, 0⟩⟩) (pad (own 5) 0x50 4 6) 1 = 0x600000005 := by
  decide +kernel

theorem witness_ld : (ldUse ⟨3, 1, .as, .short 0, none⟩).writes = [.s 3] ∧ (withCode 1).ready (ldUse ⟨3, 1, .as, .short 0, none⟩) ∧
    ∃ fs t, (withCode 1).admits (ldMem ⟨3, 1, .as, .short 0, none⟩ (withCode 1).now) fs t :=
  ⟨rfl, ready_of (by decide +kernel), admits_of (by decide +kernel)⟩
theorem witness_st : (own 0).ready (stUse ⟨2, 1, .loc, .short 0, none⟩) ∧
    ∃ fs t, (own 0).admits (stMem ⟨2, 1, .loc, .short 0, none⟩ (own 0).now) fs t :=
  ⟨ready_of (by decide +kernel), admits_of (by decide +kernel)⟩
theorem witness_ldx : (own 0).ready (ldxUse ⟨3, 1, .loc, 4, ⟨false, .d, none⟩⟩) ∧
    (∃ fs t, (own 0).admits (ldxMem ⟨3, 1, .loc, 4, ⟨false, .d, none⟩⟩ (own 0).now) fs t) ∧
    (own 0).ready (stxUse ⟨2, 1, .loc, 4, ⟨.d, none⟩⟩) ∧
    ∃ fs t, (own 0).admits (stxMem ⟨2, 1, .loc, 4, ⟨.d, none⟩⟩ (own 0).now) fs t :=
  ⟨ready_of (by decide +kernel), admits_of (by decide +kernel), ready_of (by decide +kernel), admits_of (by decide +kernel)⟩
theorem witness_fe : let o : FeOpnds := ⟨3, 1, .lit 0, .loc, none⟩
    (own 0).ready (feReadUse o) ∧ (∃ fs t, (own 0).admits (feReadMem o .take (own 0).now) fs t) ∧ (own 0).ready (feWriteUse o) ∧
    (∃ fs t, (own 0).admits (feWriteMem o .putf (own 0).now) fs t) ∧ (own 0).ready (feClrUse ⟨1, .lit 0, .loc, none⟩) ∧
    ∃ fs t, (own 0).admits (feClrMem ⟨1, .lit 0, .loc, none⟩ (own 0).now) fs t :=
  ⟨ready_of (by decide +kernel), admits_of (by decide +kernel), ready_of (by decide +kernel), admits_of (by decide +kernel),
    ready_of (by decide +kernel), admits_of (by decide +kernel)⟩
theorem witness_atomic : (own 0).ready (atomUse 3 1 (.reg 2) []) ∧
    (∃ fs t, (own 0).admits (atomMem ⟨3, 1, .reg 2, .loc, none⟩ .add (own 0).now) fs t) ∧ (own 0).ready (atomUse 3 1 (.reg 2) [.s 4]) ∧
    (∃ fs t, (own 0).admits (casMem ⟨3, 1, .reg 2, .loc, 4, ⟨.d, .none⟩⟩ (own 0).now) fs t) ∧
    ∃ fs t, (own 0).admits (afaddMem ⟨3, 1, .reg 2, .loc, none⟩ (own 0).now) fs t :=
  ⟨ready_of (by decide +kernel), admits_of (by decide +kernel), ready_of (by decide +kernel), admits_of (by decide +kernel),
    admits_of (by decide +kernel)⟩
theorem witness_vld : let o : VldOp := ⟨1, 1, .lit 0, .loc, none⟩
    (own 0).ready (vldUse 1 1 (vldMode none) (opndRegs (.lit 0))) ∧ (∃ fs t, (own 0).admits (vldMem o (own 0).now) fs t) ∧
    (∃ fs t, (own 0).admits (vldsMem o (own 0).now) fs t) ∧ (∃ fs t, (own 0).admits (vldbcMem o (own 0).now) fs t) ∧
    (own 0).ready (vldUse 1 1 (vldMode none) [.v 2]) ∧ ∃ fs t, (own 0).admits (vgathMem ⟨1, 1, 2, .loc, none⟩ (own 0).now) fs t :=
  ⟨ready_of (by decide +kernel), admits_of (by decide +kernel), admits_of (by decide +kernel), admits_of (by decide +kernel),
    ready_of (by decide +kernel), admits_of (by decide +kernel)⟩
theorem witness_vst : let o : VstOp := ⟨1, 1, .lit 0, .loc, none⟩
    (own 0).ready (vstUse 1 1 (vstMode none) (opndRegs (.lit 0))) ∧ (∃ fs t, (own 0).admits (vstMem o (own 0).now) fs t) ∧
    (∃ fs t, (own 0).admits (vstsMem o (own 0).now) fs t) ∧ (own 0).ready (vstUse 1 1 (vstMode none) [.v 2]) ∧
    ∃ fs t, (own 0).admits (vscatMem ⟨1, 1, 2, .loc, none⟩ (own 0).now) fs t :=
  ⟨ready_of (by decide +kernel), admits_of (by decide +kernel), admits_of (by decide +kernel), ready_of (by decide +kernel),
    admits_of (by decide +kernel)⟩
theorem witness_nsym : (withCode 1).ready (netUse (withCode 1) [.s 1] [.s 3] allCtxs) ∧ ((withCode 1).now.sr 1).toNat % 64 = 0 ∧
    ∃ fs t, (withCode 1).admits (nsymMem 3 ((withCode 1).now.sr 1)) fs t :=
  ⟨ready_of (by decide +kernel), by decide +kernel, admits_of (by decide +kernel)⟩

/-- MAIN with s1 at the start of the page of records. -/
def recState : State := mapped 3 fun c => { c with s := [(1, 0x40000000)] }
theorem witness_records : recState.ready (recUse [.s 1, .s 9] [.v 4]) ∧
    (∃ fs t, recState.admits (prldMem ⟨4, 1, 9, none⟩ recState.now) fs t) ∧ recState.ready (recUse [.s 1, .v 2] []) ∧
    (∃ fs t, recState.admits (prsetMem ⟨1, 2, none⟩ recState.now) fs t) ∧ recState.ready (recUse [.s 1] [.s 3]) ∧
    ∃ fs t, recState.admits (prstatMem ⟨3, 1, false⟩ recState.now) fs t :=
  ⟨ready_of (by decide +kernel), admits_of (by decide +kernel), ready_of (by decide +kernel), admits_of (by decide +kernel),
    ready_of (by decide +kernel), admits_of (by decide +kernel)⟩

/-- Where an access on the own core, and one elsewhere, is found. -/
def ownFound (off : Nat) : Found := { own := some off, tgt := .node 0 off }
def farFound : Found := { tgt := .node 5 0x40, ordered := true }
theorem witness_found : (ownFound 0x40).own = some 0x40 ∧ (∀ l, (ownFound (8 * l)).own = some (8 * l)) ∧ farFound.own = none ∧
    (loadOp 3 .as 8 false none 0).lanes = [⟨0, 0, .load 8⟩] ∧ (own 0).now.boundSlot 3 = none ∧ (own 0).split = false ∧
    (splitSt (own 0)).split = true :=
  ⟨rfl, fun _ => rfl, rfl, rfl, by decide +kernel, rfl, rfl⟩
theorem witness_fe_effects : (own 7).full (.spm 0 none 0x40) = false ∧
    ((own 7).setFull (.spm 0 none 0x40) true).full (.spm 0 none 0x40) = true := by decide +kernel
theorem witness_fe_own : let s := own 7
    let p := Place.spm 0 none 0x40
    (s.live 0).part = none ∧ (s.waiters p .ldf).isEmpty = true ∧ (s.waiters p .take).isEmpty = true ∧
    (s.waiters p .putf).isEmpty = true ∧ s.waiterFree p = true := by decide +kernel

/-- Own words that are full, and own empty words that two LDFs and a TAKE, or a PUTF, of another core await. -/
def ownFull (x : Nat) : State := (own x).setFull (.spm 0 none 0x40) true
def waiter (op : FeOp) (x : Word) (k : Nat) : Msg :=
  { id := k, src := ⟨5, .main⟩, part := none, tag := false, ns := false, user := false, pc := 0, va := absCoord 0 0x40
    req := .fe op x, tgt := .node 0 0x40, ordered := true, so := false, dst := .none, grp := 0, lane := 0, vec := false, osc := false
    acq := false, rel := none, phase := .waiting k, at_ := some (.spm 0 none 0x40) }
def awaiting (ms : List Msg) (s : State) : State := { s with net := ms }
def threeWait : State := awaiting [waiter .ldf 0 7, waiter .take 0 8, waiter .ldf 0 9] (own 7)
def putfWaits : State := awaiting [waiter .putf 21 7] (ownFull 7)
theorem witness_fe_may : (ownFull 7).full (.spm 0 none 0x40) = true ∧ (ownFull 7).now.boundSlot 3 = none ∧
    feReadMem ⟨3, 1, .lit 0, .loc, none⟩ .take (ownFull 7).now = feReadMem ⟨3, 1, .lit 0, .loc, none⟩ .take (own 7).now :=
  ⟨by decide +kernel, by decide +kernel, rfl⟩
theorem witness_waiters : let p := Place.spm 0 none 0x40
    (threeWait.waiters p .ldf).length = 2 ∧ (threeWait.waiters p .take).length = 1 ∧ (threeWait.waiters p .putf).length = 0 ∧
    (threeWait.waiters p .ldf).all (fun m => threeWait.admitted m p (.fe .ldf)) = true ∧
    (threeWait.waiters p .take).all (fun m => threeWait.admitted m p (.fe .take)) = true ∧
    (threeWait.waiters p .ldf).all (fun m => (threeWait.waiters p .take).all fun y => m.id != y.id) = true ∧
    putfWaits.full p = true ∧ (putfWaits.waiters p .putf).map (·.req) = [.fe .putf 21] ∧
    (putfWaits.waiters p .ldf).length = 0 ∧ (putfWaits.waiters p .take).length = 0 ∧
    (putfWaits.waiters p .putf).all (fun m => putfWaits.admitted m p (.fe .putf)) = true := by decide +kernel
-- an STF of 5 serves all three and leaves the word empty; a TAKE lets the PUTF of 21 fill it
theorem test_stf_serves : ((after (.stf ⟨2, 1, .lit 0, .loc, none⟩) threeWait).net.map (·.phase)) =
    [.ok 5 0 false, .ok 5 0 false, .ok 5 0 false] ∧
    (after (.stf ⟨2, 1, .lit 0, .loc, none⟩) threeWait).full (.spm 0 none 0x40) = false := by decide +kernel
theorem test_take_fills : sOf (.take ⟨3, 1, .lit 0, .loc, none⟩) putfWaits 3 = 7 ∧
    (after (.take ⟨3, 1, .lit 0, .loc, none⟩) putfWaits).ownNat ⟨0, .main⟩ 0x40 8 = 21 ∧
    (after (.take ⟨3, 1, .lit 0, .loc, none⟩) putfWaits).full (.spm 0 none 0x40) = true := by decide +kernel
-- AFADD of 1.5 onto an own 2.25 (FP64), and a store of two strided words
theorem test_afadd : (after (.afadd ⟨3, 1, .lit 0x3FF8000000000000, .loc, none⟩) (own 0x4002000000000000)).ownNat ⟨0, .main⟩ 0x40 8 =
    0x400E000000000000 := by decide +kernel
def strided : State := after (.vsts ⟨1, 1, .lit 16, .loc, some ⟨.d, none, 0, 0⟩⟩)
  ((own 5).modCtx ⟨0, .main⟩ fun c => { c with v := [(1, 9 * 2 ^ 64 + 8)] })
theorem test_vsts : strided.ownNat ⟨0, .main⟩ 0x40 8 = 8 ∧ strided.ownNat ⟨0, .main⟩ 0x48 8 = 0 ∧
    strided.ownNat ⟨0, .main⟩ 0x50 8 = 9 := by decide +kernel
theorem test_vldbc : vOf (.vldbc ⟨1, 1, .lit 0, .loc, some ⟨.d, none, 0, true, 0⟩⟩) (own 5) 1 =
    BitVec.ofNat 512 (((List.range 8).map fun k => 5 * 2 ^ (64 * k)).sum) := by decide +kernel
-- split, an own store is sent to its bank (R247)
theorem test_split_store : ((after (.st ⟨2, 1, .loc, .short 0, none⟩) (splitSt (own 7))).net.map fun m => (m.req, m.osc)) =
    [(.store 8 5, false)] := by decide +kernel

/-! ### Ordering -/

/-- A state in which a store to DRAM is in flight. -/
def storing : State := after (.st ⟨2, 1, .as, .short 0, none⟩) (withCode 1)

theorem test_fence : (after (.fence .sys) storing).now.wait = .fence := by decide +kernel
theorem witness_fence : storing.ready {} ∧ storing.acqOpen storing.cur = false ∧ storing.fenceDone storing.cur .sys = false ∧
    storing.fenceDone storing.cur .core = true :=
  ⟨ready_of (by decide +kernel), by decide +kernel⟩
theorem witness_flush : let s := withCode 1
    s.ready { reads := [.s 1] } ∧ s.now.wait = .none ∧ s.acqOpen s.cur = false ∧ (s.now.sr 1).toNat % 8 = 0 ∧
    ∃ t f, s.find1 s.cur .read .as 8 (s.now.sr 1).toNat = (t, .ok f) ∧ f.own = none := by
  refine ⟨ready_of (by decide +kernel), by decide +kernel, by decide +kernel, by decide +kernel, ?_⟩
  have h : (match (withCode 1).find1 (withCode 1).cur .read .as 8 ((withCode 1).now.sr 1).toNat with
    | (_, .ok f) => f.own.isNone
    | (_, .error _) => false) = true := by decide +kernel
  split at h
  · rename_i t f heq
    exact ⟨t, f, heq, Option.isNone_iff_eq_none.mp h⟩
  · nomatch h
theorem witness_gbar_waits : storing.ready { ctxs := [.main] } ∧ storing.now.wait = .none ∧ storing.acqOpen storing.cur = false ∧
    storing.fenceDone storing.cur .dom = false := ⟨ready_of (by decide +kernel), by decide +kernel⟩
theorem witness_over : let s := inCtx .main fun c => { c with wait := .ended }
    s.ready {} ∧ s.ready { ctxs := [.main] } ∧ s.ready { reads := [.s 1] } ∧ s.now.wait = .ended :=
  ⟨ready_of (by decide +kernel), ready_of (by decide +kernel), ready_of (by decide +kernel), by decide +kernel⟩
theorem witness_quiet : let s := st []
    s.ready { ctxs := [.main, .work] } ∧ s.ready { ctxs := [.main] } ∧ s.now.wait = .none ∧ s.acqOpen s.cur = false ∧
    s.fenceDone s.cur .dom = true :=
  ⟨ready_of (by decide +kernel), ready_of (by decide +kernel), by decide +kernel⟩

/-! ### Parcels, tasks and nets -/

/-- A coordinate of core 5 of die 0, and an entry address. -/
def sending (k : CtxId) : State := inCtx k fun c => { c with s := [(1, 11), (2, absCoord 5 0), (3, 0x400)] }
theorem test_send : ((after (.send ⟨false, 2, .reg 3, 1⟩) (sending .main)).net.map fun m => (m.tgt, m.osc)) =
    [(.node 5 0x100000, true)] := by decide +kernel
theorem test_migr : (after (.migr ⟨false, 2, .reg 3, 1⟩) (sending .msgL)).now.act = .idle := by decide +kernel
theorem test_pushp : (((after (.pushp 1 2) (st [(1, 0x40), (2, 0x80)])).live 0).vent.map fun e => e.item) = [.pair 0x40 0x80] := by
  decide +kernel
theorem test_steal_none : sOf (.steal 3) (inCtx .work fun c => { c with act := .loop }) 3 = 0 := by decide +kernel

theorem witness_send : let s := sending .main
    let o : SendOp := ⟨false, 2, .reg 3, 1⟩
    (s.now.opnd o.b).toNat % 4 = 0 ∧ s.parcelNode s.cur.node (s.now.sr o.a) = some 5 ∧ s.now.osc < 256 ∧
    s.ready { reads := sendRegs o } :=
  ⟨by decide +kernel, by decide +kernel, by decide +kernel, ready_of (by decide +kernel)⟩
theorem witness_migr : let s := sending .msgL
    s.ready (doneUse s (sendRegs ⟨false, 2, .reg 3, 1⟩)) ∧ s.cur.ctx = .msgL ∧ s.now.wait = .none ∧ s.ready (doneUse s []) :=
  ⟨ready_of (by decide +kernel), by decide +kernel, by decide +kernel, ready_of (by decide +kernel)⟩
/-- MAIN with a grain of a launch that runs, and WORK with a rule. -/
def aLaunch : Launch := { id := 7, queue := 3, part := 0, entry := 0, data := 0, dlen := 0, arg := 0, levels := [(1, 0, 4)] }
def grained (f : Ctx → Ctx) : State :=
  ((withCode 1).modPkg 0 fun k => { k with launches := [{ aLaunch with grains := [(0, .on 0)] }] }).modCtx ⟨0, .main⟩ fun c =>
    f { c with act := .grain 7 0 }
theorem witness_done_main : let s := grained id
    s.ready (doneUse s []) ∧ s.cur.ctx = .main ∧ s.acqOpen s.cur = false ∧ s.fenceDone s.cur .sys = true ∧
    s.now.act = .grain 7 0 ∧ (s.launch 0 7).isSome = true ∧ storing.ready (doneUse storing []) ∧
    storing.fenceDone storing.cur .sys = false :=
  by
  refine ⟨ready_of ?_, ?_, ?_, ?_, ?_, ?_, ready_of ?_, ?_⟩ <;> decide +kernel
theorem witness_done_work : let s := inCtx .work fun c => { c with act := .work 3 0 false }
    s.ready (doneUse s []) ∧ s.cur.ctx = .work ∧ s.now.act = .work 3 0 false :=
  ⟨ready_of (by decide +kernel), by decide +kernel, by decide +kernel⟩

/-- WORK with a Vent. -/
def venting (es : List VentEntry) : State :=
  (inCtx .work fun c => { c with act := .loop, s := [(1, 0x40), (2, 0x80)] }).modLive 0 fun m => { m with vent := es }
def aTask : VentEntry := ⟨.task 0x400 1 2 3 4, true, 0, 0, none⟩
theorem test_pop_task : sOf (.pop 9) (venting [aTask]) 9 = 2 ∧ sOf (.pop 9) (venting [aTask]) 5 = 0x400 ∧
    sOf (.pop 9) (venting [aTask]) 2 = 2 := by decide +kernel
theorem witness_vent : let s := venting []
    s.ready { reads := opndRegs (.lit 0x400) ++ (List.range 4).map fun k => Reg.s (k + 1), writes := [.s 9] } ∧
    isCaldera s.cur.node = false ∧ (s.now.opnd (.lit 0x400)).toNat % 4 = 0 ∧ (s.live 0).vent.length < 4096 ∧
    s.ready (netUse s [.s 1, .s 2] [] allCtxs) ∧ (s.now.sr 1).toNat % 64 = 0 ∧ (s.now.sr 2).toNat % 64 = 0 ∧
    s.ready (netUse s [] (popRegs 9) [.work]) ∧ (s.live 0).vent.isEmpty = true ∧ s.ready { writes := [.s 9] } :=
  by
  refine ⟨ready_of ?_, ?_, ?_, ?_, ready_of ?_, ?_, ?_, ready_of ?_, ?_, ready_of ?_⟩ <;> decide +kernel
theorem witness_vent_full : 4096 ≤ ((venting (List.replicate 4096 aTask)).live 0).vent.length := by decide +kernel
theorem witness_pop : (venting [aTask]).ready (netUse (venting [aTask]) [] (popRegs 9) [.work]) ∧ (venting [aTask]).now.wait = .none ∧
    ((venting [aTask]).live 0).vent = aTask :: [] :=
  ⟨ready_of (by decide +kernel), by decide +kernel, by decide +kernel⟩
/-- A pair of own nodes, whose principal ports are two words of the scratchpad. -/
def aPair : VentEntry := ⟨.pair (absCoord 0 0x40) (absCoord 0 0x80), false, 0, 0, none⟩
theorem witness_pop_pair : let s := venting [aPair]
    s.ready (netUse s [] (popRegs 9) [.work]) ∧ s.now.wait = .none ∧ (s.live 0).vent = aPair :: [] ∧
    ∃ fs t, s.admits { need := .fe .take, mode := .as, size := 8, dst := .pop, lanes := [⟨0, absCoord 0 0x48, .fe .take 0⟩,
      ⟨0, absCoord 0 0x88, .fe .take 0⟩] } fs t :=
  ⟨ready_of (by decide +kernel), by decide +kernel, by decide +kernel, admits_of (by decide +kernel)⟩
theorem witness_pop_granted : let s := (venting []).modCtx ⟨0, .work⟩ fun c => { c with wait := .pop 9 }
    s.ready (netUse s [] (popRegs 9) [.work]) ∧ s.now.wait = .pop 9 ∧ s.now.groups.any (fun x => x.id == 9) = false :=
  ⟨ready_of (by decide +kernel), by decide +kernel, by decide +kernel⟩
/-- The core to the east holds two entries, and each core offers what exceeds one. -/
def thief : State := (venting []).modLive 1 fun m => { m with vent := [aTask, aPair] }
theorem test_steal : sOf (.steal 9) thief 9 = 1 ∧ (((after (.steal 9) thief).live 1).vent = [aTask]) := by decide +kernel
theorem witness_steal : let s := thief
    s.ready (netUse s [] [.s 9] [.work]) ∧ (s.live 0).vent.length < 4096 ∧ (s.live 0).stealStart = 0 ∧
    ((neighbour 0 0).map (s.stealable 0)).getD false = false ∧ neighbour 0 1 = some 1 ∧ s.stealable 0 1 = true ∧
    (s.live 1).vent.getLast? = some aPair :=
  ⟨ready_of (by decide +kernel), by decide +kernel⟩

/-- STEAL that looks at one neighbour a step: the first, with none to give; the second, which gives; and the last. -/
theorem witness_steal_split : let s := splitSt thief
    let at_ := fun k => s.modCtx s.cur fun c => { c with wait := .steal k }
    s.ready (netUse s [] [.s 9] [.work]) ∧ s.now.wait = .none ∧ ((neighbour 0 0).map (s.stealable 0)).getD false = false ∧
    (at_ 1).ready (netUse (at_ 1) [] [.s 9] [.work]) ∧ (at_ 1).now.wait = .steal 1 ∧ (at_ 1).stealable 0 1 = true ∧
    (at_ 3).ready (netUse (at_ 3) [] [.s 9] [.work]) ∧ ((neighbour 0 3).map ((at_ 3).stealable 0)).getD false = false :=
  by
  refine ⟨ready_of ?_, ?_, ?_, ready_of ?_, ?_, ?_, ready_of ?_, ?_⟩ <;> decide +kernel
theorem test_steal_looks : (after (.steal 9) (splitSt thief)).now.wait = .steal 1 := by decide +kernel

theorem posts_of {s0 s : State} {ops : List MemOp} (h : (match postAll s0 s ops (fun u => .done u [] .seq) with
    | .done _ [] .seq => true
    | _ => false) = true) : ∃ t, postAll s0 s ops (fun u => .done u [] .seq) = .done t [] .seq := by
  split at h
  · rename_i t heq
    exact ⟨t, heq⟩
  · nomatch h

/-- Two principal ports of own nodes, and two auxiliary ports. -/
def ports (a b : Nat) : State := venting [] |>.modCtx ⟨0, .work⟩ fun c => { c with s := [(1, absCoord 0 a), (2, absCoord 0 b)] }
theorem witness_link : let s := ports 0x48 0x88
    s.ready (netUse s [.s 1, .s 2] [] allCtxs) ∧ isPort (s.now.sr 1) = true ∧ portNo (s.now.sr 1) = 1 ∧ portNo (s.now.sr 2) = 1 ∧
    (s.live 0).ventFull = false ∧ (s.now.sr 1).toNat % 8 = 0 ∧ (s.now.sr 2).toNat % 8 = 0 ∧
    ∃ t, posts s [wordFe .putf (absCoord 0 0x48) (absCoord 0 0x88), wordFe .putf (absCoord 0 0x88) (absCoord 0 0x48)] t :=
  by
  refine ⟨ready_of ?_, ?_, ?_, ?_, ?_, ?_, ?_, posts_of ?_⟩ <;> decide +kernel
theorem witness_link_aux : let s := ports 0x50 0x50
    isPort (s.now.sr 1) = true ∧ portNo (s.now.sr 1) ≠ 1 ∧ ∃ t, posts s [wordFe .putf (absCoord 0 0x50) (absCoord 0 0x50)] t :=
  ⟨by decide +kernel, by decide +kernel, posts_of (by decide +kernel)⟩
/-- What a read returns when no error is met, and what it leaves once it is counted. -/
def wordAt (s : State) (v : Nat) : Option (Word × Bool) :=
  match (s.readNow s.cur v).2 with
  | .ok x => some x
  | .error _ => none
  | .held => none
def readSt (s : State) (v : Word) : State := (s.readNow s.cur v.toNat).1.noteReads s.cur [v]
/-- The free list begins at 0x40, or is empty before the bump region at 0x80, or both are empty. -/
def pools (head pool : Word) : State := (venting []).modLive 0 fun m => { m with nfreehd := head, npool := pool }
theorem witness_nalloc : let s := pools (absCoord 0 0x40) 0
    s.ready (netUse s [] [.s 9] allCtxs) ∧ s.acqOpen s.cur = false ∧ (s.live 0).nfreehd ≠ 0 ∧
    s.readOk s.cur (absCoord 0 0x48).toNat = true ∧ wordAt s (absCoord 0 0x48).toNat = some (0, false) ∧
    ∃ t, postAll s (readSt s (absCoord 0 0x48)) (freshNode (absCoord 0 0x40)) (fun u => .done u [] .seq) = .done t [] .seq :=
  ⟨ready_of (by decide +kernel), by decide +kernel, by decide +kernel, by decide +kernel, by decide +kernel,
    posts_of (by decide +kernel)⟩
/-- An uncorrectable word at an offset of the own scratchpad. -/
def withBad (s : State) (off : Nat) : State := s.upset (.spm 0 none off)
theorem witness_nalloc_bad : let s := withBad (pools (absCoord 0 0x40) 0) 0x48
    wordAt s (absCoord 0 0x48).toNat = some (0, true) ∧
    ∃ t, postAll s (readSt s (absCoord 0 0x48)) (freshNode (absCoord 0 0x40)) (fun u => .done u [] .seq) = .done t [] .seq :=
  ⟨by decide +kernel, posts_of (by decide +kernel)⟩
theorem witness_nalloc_pool : let s := pools 0 (absCoord 0 0x80)
    (s.live 0).nfreehd = 0 ∧ (s.live 0).npool ≠ 0 ∧ ∃ t, posts s (freshNode (absCoord 0 0x80)) t :=
  ⟨by decide +kernel, by decide +kernel, posts_of (by decide +kernel)⟩
theorem witness_nalloc_none : ((pools 0 0).live 0).nfreehd = 0 ∧ ((pools 0 0).live 0).npool = 0 := by decide +kernel
/-- A node at 0x40 that is free, or is not. -/
def nodeAt40 (h : Nat) : State := pad (ports 0x40 0) 0x40 8 h
theorem witness_nfree : let s := nodeAt40 0
    s.ready (netUse s [.s 1] [] allCtxs) ∧ (s.now.sr 1).toNat % 64 = 0 ∧ s.readOk s.cur (absCoord 0 0x40).toNat = true ∧
    wordAt s (absCoord 0 0x40).toNat = some (0, false) ∧ wordAt (nodeAt40 0x4000) (absCoord 0 0x40).toNat = some (0x4000, false) ∧
    ∃ t, postAll s (readSt s (absCoord 0 0x40)) [wordStore (absCoord 0 0x40) 0x4000,
      wordStore (absCoord 0 0x48) 0] (fun u => .done u [] .seq) = .done t [] .seq :=
  ⟨ready_of (by decide +kernel), by decide +kernel, by decide +kernel, by decide +kernel, by decide +kernel,
    posts_of (by decide +kernel)⟩
-- the checks of the stores come first (R230): here a secure region over the second word that does not admit writes
def noStore (s : State) : State := s.modLive 0 fun m => { m with prb := [(0, 2 ^ 31 + 2 ^ 27 + 2 ^ 28 + 0x40)], prl := [(0, 0x40)] }
theorem test_nfree_order : (after (.nfree 1) (withBad (nodeAt40 0x4000) 0x40)).now.ecause = 16 ∧
    (after (.nfree 1) (nodeAt40 0x4000)).now.ecause = 2 ∧ (after (.nfree 1) (noStore (nodeAt40 0x4000))).now.ecause = 10 ∧
    (after (.nfree 1) (noStore (withBad (nodeAt40 0x4000) 0x40))).now.ecause = 10 := by decide +kernel
theorem witness_nfree_bad : let s := withBad (nodeAt40 0x4000) 0x40
    wordAt s (absCoord 0 0x40).toNat = some (0x4000, true) ∧
    ∃ t, postAll s (readSt s (absCoord 0 0x40)) [wordStore (absCoord 0 0x40) 0x4000,
      wordStore (absCoord 0 0x48) 0] (fun u => .done u [] .seq) = .done t [] .seq :=
  ⟨by decide +kernel, posts_of (by decide +kernel)⟩
-- the header's low fourteen bits (R185)
theorem test_nsym : sOf (.nsym 5 1) (nodeAt40 0xFFFFC123) 5 = 0x123 ∧ (after (.nsym 5 1) (ports 0x48 0)).now.ecause = 8 := by decide +kernel
/-- WORK of a core with partition 0, two nodes of symbols 1 and 2, and a rule for the pair at its hash; the table is at 0x8000000
of DRAM. -/
def ruled (entry : Nat) (x y : Nat) : State :=
  let s := (withCode 1).setDramWord 0 (8 * 5) 0x8000000
  let s := s.setDramWord 0 (0x8000000 + 16 * ((1 * 2654 + 2) % 16384)) (BitVec.ofNat 64 entry)
  let s := s.setDramWord 0 (0x8000008 + 16 * ((1 * 2654 + 2) % 16384)) 0x1234
  let s := (pad (pad s 0x40 8 x) 0x80 8 y).modCtx ⟨0, .work⟩ fun c => { c with act := .work 3 0 false, s := [(1, absCoord 0 0x40), (2, absCoord 0 0x80)] }
  { s with cur := ⟨0, .work⟩ }
theorem test_rule : (after .rule (ruled (2 ^ 63 + 1 + 2 * 4096) 1 2)).now.pc = 0x1234 ∧
    (after .rule (ruled (2 ^ 63 + 1 + 2 * 4096) 1 2)).now.sr 1 = absCoord 0 0x40 := by decide +kernel
theorem test_rule_swapped : (after .rule (ruled (2 ^ 63 + 1 + 2 * 4096) 2 1)).now.sr 1 = absCoord 0 0x80 := by decide +kernel
theorem test_rule_none : (after .rule (ruled 0 1 2)).now.einfo.toNat / 64 % 256 = 127 := by decide +kernel
theorem word_at {s : State} {v : Nat} {x : Word × Bool} (h : wordAt s v = some x) :
    s.readNow s.cur v = ((s.readNow s.cur v).1, .ok x) := by
  refine Prod.ext rfl ?_
  unfold wordAt at h
  split at h
  · rename_i y hy
    rw [hy, Option.some.inj h]
  all_goals nomatch h
def ruleUse (s : State) : Use := { netUse s [.s 1, .s 2] [.s 1, .s 2, .s 3, .s 4] [.work] with noSlot := true, noEnd := true }
theorem witness_rule : let s := ruled (2 ^ 63 + 1 + 2 * 4096) 1 2
    let t := (s.readNow s.cur (absCoord 0 0x40).toNat).1
    s.ready (ruleUse s) ∧ s.now.begins ∧ s.split = false ∧ s.readOk s.cur (absCoord 0 0x40).toNat = true ∧
    s.readNow s.cur (absCoord 0 0x40).toNat = (t, .ok (1, false)) ∧ t.readOk s.cur (absCoord 0 0x80).toNat = true ∧
    wordAt t (absCoord 0 0x80).toNat = some (2, false) ∧ t.partOf s.cur = some 0 ∧
    s.findRule 0 0x8000000 1 2 16 ((1 * 2654 + 2) % 16384) = some (0x1234, false) ∧
    s.findRule 0 0x8000000 2 1 16 ((1 * 2654 + 2) % 16384) = some (0x1234, true) ∧
    (ruled 0 1 2).findRule 0 0x8000000 1 2 16 ((1 * 2654 + 2) % 16384) = none :=
  ⟨ready_of (by decide +kernel), begins_of (by decide +kernel), by decide +kernel, by decide +kernel, word_at (by decide +kernel),
    by decide +kernel⟩
/-- RULE between its two reads. -/
def ruleBetween : State := (splitSt (ruled (2 ^ 63 + 1 + 2 * 4096) 1 2)).modCtx ⟨0, .work⟩ fun c => { c with wait := .words [1] [] }
theorem witness_rule_split : ruleBetween.ready (ruleUse ruleBetween) ∧ ruleBetween.now.wait = .words [1] [] ∧
    ruleBetween.split = true ∧ ruleBetween.readOk ruleBetween.cur (absCoord 0 0x80).toNat = true ∧
    wordAt ruleBetween (absCoord 0 0x80).toNat = some (2, false) :=
  ⟨ready_of (by decide +kernel), by decide +kernel⟩
/-- A slot of the rule table that holds the pair, one that holds another pair, and an empty one. -/
theorem witness_rule_table : let w := fun (e : Nat) => (ruled e 1 2).dramWord 0 (0x8000000 + 16 * (1 * 2654 + 2))
    (w (2 ^ 63 + 1 + 2 * 4096)).getLsbD 63 = true ∧ (w (2 ^ 63 + 1 + 2 * 4096)).toNat % 4096 = 1 ∧
    (w (2 ^ 63 + 1 + 2 * 4096)).toNat / 4096 % 4096 = 2 ∧ (w (2 ^ 63 + 3 + 2 * 4096)).getLsbD 63 = true ∧
    (w (2 ^ 63 + 3 + 2 * 4096)).toNat % 4096 = 3 ∧ (w 0).getLsbD 63 = false := by decide +kernel

/-! ### Matrix unit, accumulators and records -/

/-- MAIN with operand words in s4 and s5: tiles of the scratchpad at 0x4000 and 0x6000. -/
def matState : State := inCtx .main fun c => { c with s := [(4, 0x4000), (5, 0x6000), (6, 1)] }
theorem test_gmma : ((after (.gmma ⟨0, 4, 5, .bf16 .rne⟩) matState).live 0).gmma.map (fun g => (g.a, g.b, g.phase)) =
    some (.tile 0x4000, .tile 0x6000, .arrived) := by decide +kernel
theorem test_gmma_word : (after (.gmma ⟨0, 4, 5, .bf16 .rne⟩) (inCtx .main fun c => { c with s := [(4, 0x4001)] })).now.ecause = 0x0D := by
  decide +kernel
theorem test_amovv : vOf (.amovv (.toV 3 1 6 false)) (pad matState (0x84000 + 256) 4 9) 3 = 9 := by decide +kernel
theorem test_aflag : sOf (.aflag ⟨5, 1, false⟩) (matState.modLive 0 fun m => { m with ovf := 3 }) 5 = 3 ∧
    ((after (.aflag ⟨5, 1, false⟩) (matState.modLive 0 fun m => { m with ovf := 3 })).live 0).ovf = 2 := by decide +kernel

theorem witness_gmma : let s := matState
    let o : GmmaOp := ⟨0, 4, 5, .bf16 .rne⟩
    s.ready (matUse s [.s 4, .s 5] []) ∧ gmmaSrc s s.cur o true (s.now.sr 4) = some (.tile 0x4000, false) ∧
    gmmaSrc s s.cur o false (s.now.sr 5) = some (.tile 0x6000, false) ∧ ringState s s.cur (.tile 0x4000) = some true ∧
    ringState s s.cur (.tile 0x6000) = some true ∧ (s.live 0).gmma = none ∧ pairIs64 o.p = false ∧ s.cur.ctx = .main ∧
    s.acqOpen s.cur = false ∧ s.ownPending s.cur 0 256 = false ∧ s.ownPending s.cur 0x80000 256 = false ∧ s.now.wait = .none :=
  ⟨ready_of (by decide +kernel), by decide +kernel⟩
/-- GMMA that waits for the unit with the GANGW and GSTAG of its issue, which have been written since. -/
def gmmaWaits : State := ((after (.gmma ⟨0, 4, 5, .bf16 .rne⟩) matState).modLive 0 fun m => { m with gangw := 9, gstag := 7 }).modCtx
  ⟨0, .main⟩ fun c => { c with wait := .gmma 1 2, pc := 0 }
theorem witness_gmma_waits : gmmaWaits.ready (matUse gmmaWaits [.s 4, .s 5] []) ∧ gmmaWaits.now.wait = .gmma 1 2 ∧
    gmmaSrc gmmaWaits gmmaWaits.cur ⟨0, 4, 5, .bf16 .rne⟩ true 0x4000 = some (.tile 0x4000, false) ∧
    (gmmaWaits.live 0).gmma.isSome = true ∧ gmmaWaits.acqOpen gmmaWaits.cur = false :=
  ⟨ready_of (by decide +kernel), by decide +kernel⟩
/-- Operand words of kind 0: well formed, and with each fault: a reserved bit, ORDER at one byte, an offset not 256-byte aligned. -/
theorem witness_gmma_words : (0x4000 : Word).toNat / 2 ^ 62 = 0 ∧ natBits (0x4000 : Word).toNat 20 41 = 0 ∧
    backed 0 (0x4000 + 4096 * 2 - 1) = true ∧ (0x2000000000004000 : Word).getLsbD 61 = true ∧ (.i8 : DotPair).src.bytes < 4 ∧
    natBits (0x104000 : Word).toNat 20 41 ≠ 0 ∧ (0x4001 : Nat) % 256 ≠ 0 ∧ backed 0 (0x8F000 + 4096 * 8 - 1) = false := by
  decide +kernel
theorem tiles_free {s : State} {tiles : List (Tile × Bool)} (h : (!s.acqOpen s.cur && tiles.all fun t => !oddPair t.1 t.2 &&
    !(s.live s.cur.node).bars (tileRange t.1.val t.2).1 (tileRange t.1.val t.2).2 true &&
    !s.ownPending s.cur (tileRange t.1.val t.2).1 (tileRange t.1.val t.2).2) = true) : tilesFree s tiles := by
  rw [Bool.and_eq_true] at h
  refine ⟨by simpa using h.1, fun t ht => ?_⟩
  have := List.all_eq_true.mp h.2 t ht
  simpa [and_assoc] using this
theorem witness_acc : let s := inCtx .main fun c => { c with s := [(4, 0x4000), (6, 1)] }
    s.ready (matUse s [] []) ∧ s.ready (matUse s [.s 4] []) ∧ s.ready (matUse s [.s 6] [.v 3]) ∧ s.ready (matUse s [.s 6, .v 3] []) ∧
    s.ready (matUse s [] [.s 5]) ∧ tilesFree s [(2, true)] ∧ tilesFree s [(1, false), (3, false)] ∧ padFree s 0x4000 8 true :=
  ⟨ready_of (by decide +kernel), ready_of (by decide +kernel), ready_of (by decide +kernel), ready_of (by decide +kernel),
    ready_of (by decide +kernel), tiles_free (by decide +kernel), tiles_free (by decide +kernel),
    ⟨by decide +kernel, by decide +kernel, by decide +kernel, by decide +kernel, by decide +kernel⟩⟩
theorem witness_acvt : (View.f32.is64 = false) ∧ (3 : Tile).val / 2 ≠ (0 : Tile).val / 2 := by decide

/-- What the issuer's checks of a record find. -/
theorem rec_home {s : State} {n : Need} {v : Word} {h : Nat} (hr : (match s.recHome s.cur n v with
    | (_, .ok g) => g == h
    | (_, .error _) => false) = true) : ∃ t, s.recHome s.cur n v = (t, .ok h) := by
  split at hr
  · rename_i t g heq
    exact ⟨t, by rw [heq, beq_iff_eq.mp hr]⟩
  · nomatch hr
/-- The record at physical address 0 of die 3: its home is Caldera core 0 of that die. -/
theorem witness_rec_home : recState.acqOpen recState.cur = false ∧
    (∃ t, recState.recHome recState.cur (needRec true true 2) 0x40000000 = (t, .ok (1024 + 48))) ∧
    (∃ t, recState.recHome recState.cur (needRec false false 7) 0x40000000 = (t, .ok (1024 + 48))) ∧
    Table.get 0 (recState.node 0).window 1072 = 0 ∧ recState.ready (recUse (.s 1 :: if true then [] else [.v 0, .v 1, .v 2]) []) :=
  ⟨by decide +kernel, rec_home (by decide +kernel), rec_home (by decide +kernel), by decide +kernel, ready_of (by decide +kernel)⟩
theorem witness_grad : ∃ fs t, recState.admits (recOp true true 2 0x40000000 (.grad 0 ((List.range 16).map fun _ => 0) false false)
    .none) fs t := admits_of (by decide +kernel)
theorem witness_grad_window : 32 ≤ Table.get 0 ((recState.modNode 0 fun n => { n with window := [(1072, 32)] }).node 0).window 1072 := by
  decide +kernel
/-- WORK of that Caldera core running the rule of that record. -/
def ruling : State :=
  let s := ({ recState with cur := ⟨1024 + 48, .work⟩ } : State).modCtx ⟨1024 + 48, .work⟩ fun c =>
    { c with apart := some 0, act := .rule (3 * 2 ^ 35) false, s := [(1, 0x40000000)] }
  s.modNode (1024 + 48) fun n => { n with recs := [(3 * 2 ^ 35, { va := 0x40000000 })] }
theorem witness_prst : ruling.cur.ctx = .work ∧ ruling.now.act = .rule (3 * 2 ^ 35) false ∧
    (ruling.recOf ruling.cur.node (3 * 2 ^ 35)).va = ruling.now.sr 1 ∧
    (∃ t, ruling.recHome ruling.cur (needRec false false 7) 0x40000000 = (t, .ok (1024 + 48))) ∧
    ∀ b, recState.now.act ≠ .rule b false := by
  refine ⟨by decide +kernel, by decide +kernel, by decide +kernel, rec_home (by decide +kernel), ?_⟩
  have h : recState.now.act = .loop := by decide +kernel
  intro b
  rw [h]
  nofun

/-- A record at its third epoch, all of whose contributions have arrived. -/
def complete : State :=
  (((ruling.setDramWord 0 (3 * 2 ^ 35) (4 + 4 * 2 ^ 16 + 2 * 2 ^ 32)).setDramWord 0 (3 * 2 ^ 35 + 8) (2 ^ 17)).setDramWord 0
    (3 * 2 ^ 35 + 192) 9)
theorem witness_commit : complete.heldUpdates 1072 = [] := by decide +kernel
theorem test_commit : let u := complete.commit 1072 (3 * 2 ^ 35) (some (7, 0, 0))
    u.epoch (3 * 2 ^ 35) = 3 ∧ u.arr (3 * 2 ^ 35) = 0 ∧ u.busy (3 * 2 ^ 35) = false ∧ u.dram.readNat (3 * 2 ^ 35 + 32) 8 = 7 ∧
    u.dram.readNat (3 * 2 ^ 35 + 192) 8 = 0 := by decide +kernel

/-! ### System instructions, blocks, traps and returns -/

theorem test_tmark : (after (.tmark 1 5) (st [(1, 9)])).now.pc = 4 := by decide +kernel
theorem test_ill : (after .ill (st [])).now.ecause = 1 := by decide +kernel
theorem test_sysc : (after (.sysc 3) (st [])).now.epc = 4 ∧ (after (.sysc 3) (st [])).now.ecause = 0x13 := by decide +kernel
theorem test_trap_upcall : let s := inCtx .main fun c => { c with priv := false, upvec := 0x800 }
    (after (.trap 5) s).now.pc = 0x800 ∧ (after (.trap 5) s).now.upact = true ∧ (after (.trap 5) s).now.upinfo = 5 := by
  decide +kernel
theorem test_eret : (after .eret (inCtx .main fun c => { c with epc := 0x40 })).now.pc = 0x40 ∧
    (after .eret (inCtx .main fun c => { c with epc := 0x40 })).now.priv = false := by decide +kernel
theorem test_eret_u : (after .eret (inCtx .main fun c => { c with priv := false })).now.ecause = 4 := by decide +kernel

theorem witness_align : let s := grained id
    s.ready {} ∧ s.cur.ctx = .main ∧ s.now.wait = .none ∧ s.now.act = .grain 7 0 ∧ s.alignGroup 0 7 = [0] ∧
    (inCtx .msgL id).ready {} ∧ (inCtx .msgL id).cur.ctx ≠ .main ∧ (∀ l k, (st []).now.act ≠ .grain l k) :=
  ⟨ready_of (by decide +kernel), by decide +kernel, by decide +kernel, by decide +kernel, by decide +kernel,
    ready_of (by decide +kernel), by decide +kernel, by
      have h : (st []).now.act = .idle := by decide +kernel
      intro l k
      rw [h]
      nofun⟩
theorem witness_wfi : (inCtx .msgL id).ready { reads := [.s 1] } ∧ (st []).ready { reads := [.s 1] } ∧ (st []).now.wait = .none ∧
    (st []).ready { writes := [.s 5] } ∧ 8 ∈ [1, 2, 3, 4, 5, 6, 8, 9] ∧ (st []).now.wait = .none :=
  ⟨ready_of (by decide +kernel), ready_of (by decide +kernel), by decide +kernel, ready_of (by decide +kernel), by decide, by decide +kernel⟩
theorem witness_wfi_work : let s := inCtx .work fun c => { c with act := .loop }
    s.ready { reads := [.s 1] } ∧ s.cur.ctx = .work ∧
    s.now.wait = .none := ⟨ready_of (by decide +kernel), by decide +kernel, by decide +kernel⟩
-- counter 0 of PERFR has the instructions retired and those that trapped (R244)
theorem test_perfr : sOf (.perfr 5 0) (inCtx .main fun c => { c with perf := [(0, 7), (10, 2)] }) 5 = 9 := by decide +kernel
theorem selector_of {s : State} {a b : Word} {x : Nat × Nat × Nat} (h : (match s.selector a b with
    | .ok y => y == x
    | .error _ => false) = true) : s.selector a b = .ok x := by
  split at h
  · rename_i y heq
    rw [heq, beq_iff_eq.mp h]
  · nomatch h
theorem witness_shoot : let s := withCode 1
    s.ready { reads := [.s 1, .s 2], priv := true } ∧ s.selector (s.now.sr 1) (s.now.sr 2) = .ok (0, 0, 0) ∧ s.now.wait = .none ∧
    s.acqOpen s.cur = false ∧ s.fenceDone s.cur .sys = true ∧
    (s.span 0 0).all (fun q => (s.pkg q).shoots.all fun x => x.part != 0) = true :=
  ⟨ready_of (by decide +kernel), selector_of (by decide +kernel), by decide +kernel⟩

/-- MAIN with s1 at 0x10000, where its own block may be saved. -/
def saving : State := (withCode 1).modCtx ⟨0, .main⟩ fun c => { c with s := [(1, 0x10000), (2, 5)] }
theorem witness_savex : saving.ready { reads := [.s 1] } ∧ saving.now.wait = .none ∧ saving.now.awaited.isEmpty = true ∧
    (saving.now.sr 1).toNat % 4096 = 0 ∧ saving.now.firstPoison = none ∧ min (512 - 0) (256 - saving.now.osc) ≠ 0 :=
  ⟨ready_of (by decide +kernel), by decide +kernel⟩
/-- No store of the block waits. -/
theorem save_free {s : State} {ls : List LaneAcc} (h : ls.all (fun l => match s.find1 s.cur .store .as 8 l.v.toNat with
    | (u, .ok f) => !u.ownWaits s.cur (saveOp []) f
    | (_, .error _) => true) = true) :
    ∀ l ∈ ls, ∀ u f, s.find1 s.cur .store .as 8 l.v.toNat = (u, .ok f) → u.ownWaits s.cur (saveOp []) f = false := by
  intro l hl u f hf
  have := List.all_eq_true.mp h l hl
  rw [hf] at this
  simpa using this
theorem find_all {s : State} {need : Need} {mode : Mode} {n : Nat} {ls : List LaneAcc} (h : (match (s.findAll s.cur need mode n ls).2 with
    | .ok _ => true
    | .error _ => false) = true) : ∃ t gs, s.findAll s.cur need mode n ls = (t, .ok gs) := by
  split at h
  · rename_i gs heq
    exact ⟨_, gs, Prod.ext rfl heq⟩
  · nomatch h
theorem witness_savex_lanes : saving.acqOpen saving.cur = false ∧
    (∃ t gs, saving.findAll saving.cur .store .as 8 ((List.range 512).map (saveLane saving 0x10000)) = (t, .ok gs)) ∧
    ∀ l ∈ ((List.range 256).map fun j => 0 + j).map (saveLane saving 0x10000), ∀ u f,
      saving.find1 saving.cur .store .as 8 l.v.toNat = (u, .ok f) → u.ownWaits saving.cur (saveOp []) f = false :=
  ⟨by decide +kernel, find_all (by decide +kernel), save_free (by decide +kernel)⟩
/-- Between the portions: 256 stores have been sent, and OSC has room for all, or for half, of the rest. -/
def savexAt (osc : Nat) : State := saving.modCtx ⟨0, .main⟩ fun c => { c with wait := .savex 256, osc := osc }
theorem witness_savex_next : (savexAt 0).ready { reads := [.s 1] } ∧ (savexAt 0).now.wait = .savex 256 ∧
    min (512 - 256) (256 - (savexAt 0).now.osc) = 256 ∧ 256 + min (512 - 256) (256 - (savexAt 128).now.osc) < 512 ∧
    min (512 - 256) (256 - (savexAt 128).now.osc) ≠ 0 ∧
    ∀ l ∈ ((List.range 256).map fun j => 256 + j).map (saveLane (savexAt 0) 0x10000), ∀ u f,
      (savexAt 0).find1 (savexAt 0).cur .store .as 8 l.v.toNat = (u, .ok f) → u.ownWaits (savexAt 0).cur (saveOp []) f = false :=
  ⟨ready_of (by decide +kernel), by decide +kernel, by decide +kernel, by decide +kernel, by decide +kernel, save_free (by decide +kernel)⟩
theorem witness_save_lanes : ∃ u f, saving.find1 saving.cur .store .as 8 0x10000 = (u, .ok f) := by
  have h : (match (saving.find1 saving.cur .store .as 8 0x10000).2 with
    | .ok _ => true
    | .error _ => false) = true := by decide +kernel
  split at h
  · rename_i f heq
    exact ⟨_, f, Prod.ext rfl heq⟩
  · nomatch h

/-- MAIN's reset context with s1, and its block in the scratchpad at 0x10000. -/
def blockCtx : State := inCtx .main fun c => { c with s := [(1, absCoord 0 0x10000)] }
def blockWords : List Nat := (List.range 512).map fun k => (blockWord blockCtx ⟨0, .main⟩ blockCtx.now k).toNat
def blockMem : Memory := (blockWords.zip (List.range 512)).foldl
  (fun l w => if w.1 = 0 then l else Memory.writeNat l (0x10000 + 8 * w.2) 8 w.1) []
def block : State := blockCtx.modLive 0 fun m => { m with spm := blockMem }
theorem witness_loadx : block.ready { reads := [.s 1], noSlot := true, noEnd := true } ∧ block.now.awaited.isEmpty = true ∧
    (block.now.sr 1).toNat % 4096 = 0 ∧ block.whole :=
  ⟨ready_of (by decide +kernel), by decide +kernel, by decide +kernel, whole_of (by decide +kernel)⟩
/-- The state once the watchpoints have seen the block's words. -/
def watched (t : State) : State := t.watchReads block.cur ((List.range 512).map fun k => absCoord 0 0x10000 + BitVec.ofNat 64 (8 * k))
set_option maxRecDepth 100000 in
theorem witness_loadx_block : ∃ t ws, block.readBlock block.cur (absCoord 0 0x10000) 512 0 = (t, .ok (ws, none)) ∧
    ∀ k, k < 512 → blockBad block.cur ((watched t).now.load block.cur ws) ws k = false := by
  have h : (match block.readBlock block.cur (absCoord 0 0x10000) 512 0 with
    | (t, .ok (ws, none)) => (List.range 512).all fun k => !blockBad block.cur ((watched t).now.load block.cur ws) ws k
    | (_, .ok (_, some _)) => false
    | (_, .error _) => false
    | (_, .held) => false) = true := by decide +kernel
  split at h
  · rename_i t ws heq
    rw [List.all_eq_true] at h
    exact ⟨t, ws, heq, fun k hk => by simpa using h k (List.mem_range.mpr hk)⟩
  all_goals nomatch h
theorem witness_block_round : let c : Ctx := { s := [(1, 7)], priv := true, slots := [(3, { desc := shiftAdd, dest := 2 })] }
    c.priv = true ∧ (⟨0, .main⟩ : Inst).ctx = .main ∧ ∀ j, j < 16 → (c.slot j).dest < 64 := by decide +kernel

/-- A trap of each delivery: an upcall, S for want of UPVEC, a delay slot, SYSC. -/
theorem witness_trap : Cause.trap ≠ .pageNotPresent ∧ (inCtx .main fun c => { c with upvec := 0x800 }).now.upact = false ∧
    (inCtx .main fun c => { c with dslot := some 0x40 }).now.dslot.isSome = true := by decide +kernel
theorem reach_ok {s : State} {i : Inst} {user : Bool} {mode : Mode} {need : Need} {v n : Nat}
    (h : (match (s.reachNow i user mode need v n).2 with
      | .ok _ => true
      | .error _ _ _ | .held => false) = true) : ∃ t p, s.reachNow i user mode need v n = (t, .ok p) := by
  split at h
  · rename_i p heq
    exact ⟨_, p, Prod.ext rfl heq⟩
  all_goals nomatch h
theorem reach_error {s : State} {i : Inst} {user : Bool} {mode : Mode} {need : Need} {v n : Nat}
    (h : (match (s.reachNow i user mode need v n).2 with
      | .ok _ => false
      | .error _ _ _ | .held => true) = true) : ∀ p, (s.reachNow i user mode need v n).2 ≠ .ok p := by
  intro p hp
  rw [hp] at h
  nomatch h
/-- A page for the fault records, which lie in the last gigabyte below 2^48, and none. -/
def recordPage : State :=
  ((withCode 1).setDramWord 0 (2 ^ 35 + 8 * 511) (BitVec.ofNat 64 (2 ^ 63 + 2 ^ 35 + 0x1001))).setDramWord 0 (2 ^ 35 + 0x1FF8)
    (BitVec.ofNat 64 (0x3F + 2 ^ 6 + 2 ^ 8 + 3 * 2 ^ 10))
theorem witness_fault_record : ∃ t p, recordPage.reachNow ⟨0, .main⟩ false .as .store (recordAddr ⟨0, .main⟩ 0) 64 = (t, .ok p) :=
  reach_ok (by decide +kernel)
theorem witness_fault_record_none :
    ∀ p, ((withCode 1).reachNow ⟨0, .main⟩ false .as .store (recordAddr ⟨0, .main⟩ 0) 64).2 ≠ .ok p :=
  reach_error (by decide +kernel)
-- a load of an unmapped page, with a handler: an upcall whose record holds the address and the access
theorem test_fault_record : let s := (recordPage.modCtx ⟨0, .main⟩ fun c => { c with upvec := 0x800, s := [(1, 0x80000000)] })
    let t := after (.ld ⟨3, 1, .as, .short 0, none⟩) s
    t.now.pc = 0x800 ∧ t.now.ecause = 0x0B ∧ t.now.upinfo = 0x0000FFFFFF000000 ∧
    t.dram.readNat (3 * 2 ^ 35 + 0x3F000000) 8 = 0x80000000 := by decide +kernel

theorem witness_eret : let s := inCtx .main fun c => { c with epc := 0x40, einfo := 1, btarget := 0x80 }
    s.ready { priv := true, noSlot := true, noEnd := true } ∧ s.now.epc.toNat % 4 = 0 ∧ s.now.einfo.getLsbD 0 = true ∧
    s.now.btarget.toNat % 4 = 0 :=
  ⟨ready_of (by decide +kernel), by decide +kernel⟩
theorem witness_eret_misaligned : let s := inCtx .main fun c => { c with epc := 0x42 }
    s.ready { priv := true, noSlot := true, noEnd := true } ∧ s.now.epc.toNat % 4 ≠ 0 :=
  ⟨ready_of (by decide +kernel), by decide +kernel⟩
theorem witness_upret : let s := inCtx .main fun c => { c with upact := true, epc := 0x40 }
    s.ready (branchUse [.s 0] []) ∧ s.now.upact = true ∧ s.now.epc.toNat % 4 = 0 ∧ s.now.einfo.getLsbD 0 = false ∧
    (st []).ready (branchUse [.s 0] []) ∧ (st []).now.upact = false :=
  ⟨ready_of (by decide +kernel), by decide +kernel, by decide +kernel, by decide +kernel, ready_of (by decide +kernel),
    by decide +kernel⟩
/-- A record at 0x8000 with EPC, EINFO and BTARGET at their places of R239. -/
def upBlock : State :=
  let s := (withCode 1).modCtx ⟨0, .main⟩ fun c => { c with s := [(1, 0x8000)], upact := true }
  let s := s.setDramWord 0 (2 * 2 ^ 35 + 0x8EA0) 0x40
  let s := s.setDramWord 0 (2 * 2 ^ 35 + 0x8EB8) 1
  s.setDramWord 0 (2 * 2 ^ 35 + 0x8EC0) 0x80
-- the alignment of a resume address that could be read comes before another word's machine-check (R230)
theorem test_upret_order : let s := upBlock.setDramWord 0 (2 * 2 ^ 35 + 0x8EC0) 0x82
    let t : State := { s with dramBad := [(2 * 2 ^ 35 + 0x8EA0) / 8] }
    (after (.upret 1) t).now.ecause = 8 ∧ (after (.upret 1) t).now.eaddr = 0x82 ∧
    (after (.upret 1) { upBlock with dramBad := [(2 * 2 ^ 35 + 0x8EA0) / 8] }).now.ecause = 16 := by decide +kernel
theorem test_upret : (after (.upret 1) upBlock).now.pc = 0x40 ∧ (after (.upret 1) upBlock).now.dslot = some 0x80 := by decide +kernel
def up1 : State := (upBlock.readNow upBlock.cur 0x8EA0).1
def up2 : State := (up1.readNow upBlock.cur 0x8EB8).1
theorem witness_upret_block : upBlock.ready (branchUse [.s 1] []) ∧ upBlock.now.upact = true ∧
    upBlock.readOk upBlock.cur 0x8EA0 = true ∧ wordAt upBlock 0x8EA0 = some (0x40, false) ∧ up1.readOk upBlock.cur 0x8EB8 = true ∧
    wordAt up1 0x8EB8 = some (1, false) ∧ up2.readOk upBlock.cur 0x8EC0 = true ∧ wordAt up2 0x8EC0 = some (0x80, false) ∧
    upBlock.whole :=
  by
  refine ⟨ready_of ?_, ?_, ?_, ?_, ?_, ?_, ?_, ?_, whole_of ?_⟩ <;> decide +kernel
/-- UPRET that reads a word a step: before its first word, and before its last. -/
def upSplit (ws : List Word) : State := (splitSt upBlock).modCtx ⟨0, .main⟩ fun c =>
  { c with wait := if ws.isEmpty then .none else .words ws [] }
theorem witness_upret_split : (upSplit []).ready (branchUse [.s 1] []) ∧ (upSplit []).now.begins ∧
    (upSplit []).readOk (upSplit []).cur 0x8EA0 = true ∧ wordAt (upSplit []) 0x8EA0 = some (0x40, false) ∧
    (upSplit [0x40, 1]).ready (branchUse [.s 1] []) ∧ (upSplit [0x40, 1]).now.wait = .words [0x40, 1] [] ∧
    (upSplit [0x40, 1]).readOk (upSplit []).cur 0x8EC0 = true ∧ wordAt (upSplit [0x40, 1]) 0x8EC0 = some (0x80, false) :=
  ⟨ready_of (by decide +kernel), begins_of (by decide +kernel), by decide +kernel, by decide +kernel, ready_of (by decide +kernel),
    by decide +kernel⟩
theorem witness_checks : (inCtx .main fun c => { c with priv := false }).now.priv = false ∧ (inCtx .msgL id).cur.ctx = .msgL ∧
    (bound.now.boundSlot 2).isSome = true ∧ (useRrr ⟨2, 3, .reg 4⟩).reads.all (regOk bound.cur.ctx) = true ∧
    (bound.now.dslot.isSome && bound.now.atEnd) = false := by decide +kernel


/-! ### Requests in flight -/

/-- A request of MAIN of core 0 for address 0x40, and a state with it and others on their way. -/
def msgTo (r : Req) (tgt : Target) : Msg :=
  { id := 9, src := ⟨0, .main⟩, part := none, ns := false, user := false, tag := false, pc := 0, va := 0x40, tgt := tgt
    ordered := true, so := false, req := r, dst := .none, grp := 9, lane := 0, vec := false, osc := true, acq := false
    rel := none, phase := .req }
/-- Package 0 has booted. -/
def booted (s : State) : State := s.modPkg 0 fun k => { k with powered := true, fw := { k.fw with booted := true } }
def flying (ms : List Msg) : State := { booted State.reset with net := ms }
def toCore (r : Req) : Msg := msgTo r (.node 1 0x40)
/-- The same for the record at the start of the page of records, whose home is Caldera core 0 of die 3. -/
def toRec (r : Req) : Msg := { msgTo r (.home (.mem 0 3 0)) with part := some 0, va := 0x40000000 }
def recFlying (r : Req) : State := { recState with net := [toRec r] }

theorem reaches_of {s : State} {x : Msg} {p : Place} {f : State → Bool} (h : (s.msg x.id == some x && s.enabled x &&
    match s.arrive x with
    | .at_ t q => q == p && f t
    | .ended _ => false) = true) : ∃ t, reaches s x t p ∧ f t = true := by
  rw [Bool.and_eq_true, Bool.and_eq_true, beq_iff_eq] at h
  obtain ⟨⟨h1, h2⟩, h3⟩ := h
  split at h3
  · rename_i t q heq
    rw [Bool.and_eq_true, beq_iff_eq] at h3
    exact ⟨t, ⟨h1, h2, by rw [heq, h3.1]⟩, h3.2⟩
  · nomatch h3

theorem test_memory_request : ((after (.memoryRequest 9) (flying [toCore (.store 8 5)])).readPlace (.spm 1 none 0x40) 8) = 5 := by
  decide +kernel
theorem test_atomic_request : let t := after (.atomicRequest 9) (flying [toCore (.atom .add 8 5 0 .rne ⟨false, 0, 0⟩)])
    t.readPlace (.spm 1 none 0x40) 8 = 5 ∧ (t.net.map fun m => m.phase) = [.ok 0 0 false] := by decide +kernel
theorem test_fe_request : let t := after (.feRequest 9) (flying [toCore (.fe .ldf 0)])
    (t.net.map fun m => m.at_) = [some (.spm 1 none 0x40)] := by decide +kernel

theorem witness_requests : (∃ t, reaches (flying [toCore (.load 8)]) (toCore (.load 8)) t (.spm 1 none 0x40) ∧ true = true) ∧
    (∃ t, reaches (flying [toCore (.store 8 5)]) (toCore (.store 8 5)) t (.spm 1 none 0x40) ∧ true = true) ∧
    (∃ t, reaches (flying [toCore (.atom .add 8 5 0 .rne ⟨false, 0, 0⟩)]) (toCore (.atom .add 8 5 0 .rne ⟨false, 0, 0⟩)) t
      (.spm 1 none 0x40) ∧ true = true) ∧
    ∃ t, reaches (recFlying .prstat) (toRec .prstat) t (.dram (3 * 2 ^ 35)) ∧ true = true :=
  ⟨reaches_of (f := fun _ => true) (by decide +kernel), reaches_of (f := fun _ => true) (by decide +kernel),
    reaches_of (f := fun _ => true) (by decide +kernel), reaches_of (f := fun _ => true) (by decide +kernel)⟩
/-- An FE request that may proceed, one that waits, and one that is turned away. -/
theorem witness_fe_requests : let p := Place.spm 1 none 0x40
    (∃ t, reaches (flying [toCore (.fe .stf 5)]) (toCore (.fe .stf 5)) t p ∧ (t.feTry p .stf 5).isSome = true) ∧
    (∃ t, reaches (flying [toCore (.fe .ldf 0)]) (toCore (.fe .ldf 0)) t p ∧
      ((t.feTry p .ldf 0).isNone && t.waiterFree p) = true) ∧
    ∃ t, reaches (flying (toCore (.fe .ldf 0) :: (List.range 64).map fun k =>
        { toCore (.fe .ldf 0) with id := 100 + k, src := ⟨2, .main⟩, phase := .waiting k, at_ := some (.spm 1 none 0x80) }))
      (toCore (.fe .ldf 0)) t p ∧ ((t.feTry p .ldf 0).isNone && !t.waiterFree p) = true :=
  ⟨reaches_of (by decide +kernel), reaches_of (by decide +kernel), reaches_of (by decide +kernel)⟩
theorem witness_flush_probe : let x := toCore .flush
    (flying [x]).msg x.id = some x ∧ (flying [x]).enabled x = true ∧ x.req = .flush := by decide +kernel
theorem witness_resends : let f (r : Req) : Msg := { toCore r with phase := .retry }
    let parcel : Parcel := { entry := 0, pay := [], sender := 0, sent := 0, tag := false, w8 := false, wtop := false, part := none, ns := false }
    (flying [f (.fe .ldf 0)]).msg 9 = some (f (.fe .ldf 0)) ∧ (flying [f (.fe .ldf 0)]).awake (f (.fe .ldf 0)) = true ∧
    (flying [f (.parcel parcel)]).msg 9 = some (f (.parcel parcel)) ∧ (flying [f (.prld 0 1)]).msg 9 = some (f (.prld 0 1)) ∧
    (flying [f (.prld 0 1)]).up (pkgOf 0) = true := by
  decide +kernel

theorem walk_ok {s : State} {g va : Nat} {part : Option Nat} {f : Nat → Option Cause} (h : (match s.walkPage g part va f with
    | (_, .ok _) => true
    | (_, .error _) => false) = true) : ∃ t leaf size, s.walkPage g part va f = (t, .ok (leaf, size)) := by
  split at h
  · rename_i t x heq
    exact ⟨t, x.1, x.2, heq⟩
  · nomatch h
theorem walk_error {s : State} {g va : Nat} {part : Option Nat} {f : Nat → Option Cause} (h : (match s.walkPage g part va f with
    | (_, .ok _) => false
    | (_, .error (c, _)) => c != .machineCheck) = true) :
    ∃ t c code, c ≠ .machineCheck ∧ s.walkPage g part va f = (t, .error (c, code)) := by
  split at h
  · nomatch h
  · rename_i t c code heq
    exact ⟨t, c, code, bne_iff_ne.mp h, heq⟩
/-- A negative acknowledgement of a request to a page, and of one to an address that no page maps. -/
theorem witness_nack : let x : Msg := { toRec .prstat with phase := .nack }
    let y : Msg := { x with va := 0x80000000 }
    let s : State := { recState with net := [x] }
    let u : State := { recState with net := [y] }
    s.msg x.id = some x ∧ s.up (pkgOf x.src.node) = true ∧
    (∃ t leaf size, s.walkPage 0 x.part x.va.toNat (pageCheck x.req.need x.user x.ns) = (t, .ok (leaf, size))) ∧
    u.msg y.id = some y ∧ ∃ t c code, c ≠ .machineCheck ∧
      u.walkPage 0 y.part y.va.toNat (pageCheck y.req.need y.user y.ns) = (t, .error (c, code)) :=
  ⟨by decide +kernel, by decide +kernel, walk_ok (by decide +kernel), by decide +kernel, walk_error (by decide +kernel)⟩

/-- A flush probe that its target refuses: the offset is not backed. -/
def badFlush : Msg := msgTo .flush (.node 1 0x90000)
def flushing : State := { booted (inCtx .main fun c => { c with wait := .flush 9 }) with net := [badFlush] }
theorem witness_flush_refused : flushing.msg badFlush.id = some badFlush ∧ flushing.enabled badFlush = true ∧ badFlush.req = .flush ∧
    ∃ t y f, flushing.arrive badFlush = .ended t ∧ t.msg badFlush.id = some y ∧ y.phase = .refused f ∧ y.part = t.partOf y.src ∧
      (t.ctx y.src).wait = .flush y.id := by
  refine ⟨by decide +kernel, by decide +kernel, by decide +kernel, ?_⟩
  have h : (match flushing.arrive badFlush with
    | .ended t => (match t.msg badFlush.id with
      | some y => (match y.phase with
        | .refused _ => y.part == t.partOf y.src && (t.ctx y.src).wait == .flush y.id
        | _ => false)
      | none => false)
    | .at_ _ _ => false) = true := by decide +kernel
  split at h
  · rename_i t ht
    split at h
    · rename_i y hy
      split at h
      · rename_i f hf
        rw [Bool.and_eq_true, beq_iff_eq, beq_iff_eq] at h
        exact ⟨t, y, f, ht, hy, hf, h.1, h.2⟩
      all_goals nomatch h
    · nomatch h
  · nomatch h
theorem test_flush_refused : (after (.flushProbe 9) flushing).now.ecause = 0x0A ∧ (after (.flushProbe 9) flushing).net = [] := by
  decide +kernel
/-- A negative acknowledgement whose walk meets an uncorrectable error, of a status request and of a flush. -/
def badWalk (r : Req) : State :=
  { recState with net := [{ toRec r with phase := .nack, va := 0x80000000 }], dramBad := [(2 ^ 35 + 0x1010) / 8] }
theorem witness_nack_error : ∀ r ∈ [Req.prstat, .flush], ∃ t, (badWalk r).walkPage 0 (some 0) 0x80000000 (pageCheck r.need false false) =
    (t, .error (.machineCheck, 5)) := by
  have h : [Req.prstat, .flush].all (fun r => match ((badWalk r).walkPage 0 (some 0) 0x80000000 (pageCheck r.need false false)).2 with
    | .error (.machineCheck, 5) => true
    | _ => false) = true := by decide +kernel
  intro r hr
  have := List.all_eq_true.mp h r hr
  split at this
  · rename_i heq
    exact ⟨_, Prod.ext rfl heq⟩
  · nomatch this

/-- A load's answer, the acknowledgement of a store and a refusal. -/
def answered (d : Dst) (r : Req) (ph : Phase) : State :=
  { booted (inCtx .main fun c => { c with osc := 1, groups := if d = .none then [] else [{ id := 9, reg := some (.s 3), pc := 0, left := 1 }] })
    with net := [{ toCore r with dst := d, phase := ph }] }
theorem test_reply : let t := after (.replyArrival 9 true) (answered (.s 3 1 true) (.load 1) (.ok 0x80 0 false))
    t.now.sr 3 = 0xFFFFFFFFFFFFFF80 ∧ t.now.poison = [(.s 3, 0x40)] ∧ t.now.groups = [] := by decide +kernel
theorem witness_answers : let x : Msg := { toCore (.load 8) with dst := .s 3 8 false, phase := .ok 7 0 false }
    let s := answered (.s 3 8 false) (.load 8) (.ok 7 0 false)
    let g : Group := { id := 9, reg := some (.s 3), pc := 0, left := 1 }
    s.msg 9 = some x ∧ x.orphan = false ∧ (s.dbg x.src).wpc = [] ∧ s.up (pkgOf x.src.node) = true ∧
    (s.node x.src.node).held x.src.node x.part ≠ .stored ∧ x.vec = false ∧
    ((s.img 0 x.part).ctx .main).groups.find? (fun y => y.id == x.grp) = some g ∧
    ((s.img 0 x.part).ctx .main).boundSlot 3 = none := by decide +kernel
theorem witness_acknowledgements : let ok : Phase := .ok 0 0 false
    let no : Phase := .refused { cause := .protection }
    let s := answered .none (.store 8 5) ok
    let u := answered .none (.store 8 5) no
    s.msg 9 = some { toCore (.store 8 5) with phase := ok } ∧ u.msg 9 = some { toCore (.store 8 5) with phase := no } ∧
    Cause.protection ≠ .machineCheck ∧
    (s.dbg ⟨0, .main⟩).wpc = [] ∧ s.up 0 = true ∧ u.up 0 = true ∧ (s.node 0).held 0 none ≠ .stored ∧
    ((s.img 0 none).ctx .main).groups.find? (fun y => y.id == 9) = none := by decide +kernel

/-! ### Parcels, handlers and records -/

def parcelOf (part : Option Nat) (n : Nat) : Parcel :=
  { entry := 0x100, pay := (List.range n).map fun k => BitVec.ofNat 64 (k + 7), sender := 5, sent := 6, tag := false, w8 := false
    wtop := false, part := part, ns := false }
/-- A parcel on its way to MSG-H of core 1, which admits it, has no room for it, or holds no image of its partition. -/
def parcelling (part : Option Nat) (full : Bool) : State :=
  (flying [msgTo (.parcel (parcelOf part 2)) (.node 1 0x100001)]).modLive 1 fun m =>
    { m with qH := if full then List.replicate 16 (parcelOf none 0) else []
             msgH := { m.msgH with act := if full then .handler (parcelOf none 0) else .idle } }
theorem test_parcel_arrival : ((after (.parcelArrival 9) (parcelling none false)).live 1).qH.length = 1 := by decide +kernel
theorem witness_parcel : let q := parcelOf none 2
    let x := msgTo (.parcel q) (.node 1 0x100001)
    let s := parcelling none false
    s.msg x.id = some x ∧ s.enabled x = true ∧ (s.linked 0 0 && s.admitsParcel 1 q) = true ∧
    ((s.img 1 q.part).accept true false { q with came := 0 }).isSome = true ∧ s.handlerDue 1 = none := by decide +kernel
/-- A parcel for a core whose handler of an earlier one is due: it starts first. -/
theorem witness_parcel_behind_handler : let q := parcelOf none 2
    let x := msgTo (.parcel q) (.node 1 0x100001)
    let s := ({ withCode 1 with net := [x] } : State).modLive 1 fun m => { m with qL := [q] }
    s.msg x.id = some x ∧ s.enabled x = true ∧ (s.handlerDue 1).isSome = true := by decide +kernel
theorem witness_parcel_turned_away : let q := parcelOf none 2
    let x := msgTo (.parcel q) (.node 1 0x100001)
    let s := parcelling none true
    s.msg x.id = some x ∧ s.enabled x = true ∧ (s.linked 0 0 && s.admitsParcel 1 q) = true ∧
    (s.img 1 q.part).accept true false { q with came := 0 } = none ∧ s.handlerDue 1 = none := by decide +kernel
theorem witness_parcel_refused : let q := parcelOf (some 3) 2
    let x := msgTo (.parcel q) (.node 1 0x100001)
    let s := parcelling (some 3) false
    s.msg x.id = some x ∧ s.enabled x = true ∧ (s.linked 0 0 && s.admitsParcel 1 q) = false ∧ s.handlerDue 1 = none := by
  decide +kernel

/-- The first core with a parcel in its queue. -/
def queued : State := (withCode 1).modLive 0 fun m => { m with qL := [parcelOf (some 0) 3] }
theorem test_handler_start : let t := after (.handlerStart 0) queued
    (t.ctx ⟨0, .msgL⟩).pc = 0x100 ∧ (t.ctx ⟨0, .msgL⟩).sr 3 = 9 ∧ (t.ctx ⟨0, .msgL⟩).sr 9 = 5 ∧ (t.ctx ⟨0, .msgL⟩).priv = false := by
  decide +kernel
theorem next_of {m : Img} (h : m.nextHandler.isSome = true) : ∃ k q m', m.nextHandler = some (k, q, m') := by
  obtain ⟨x, hx⟩ := Option.isSome_iff_exists.mp h
  exact ⟨x.1, x.2.1, x.2.2, hx⟩
theorem witness_handler : (∃ k q m, (queued.live 0).nextHandler = some (k, q, m)) ∧ (queued.node 0).gated = false ∧
    queued.handlersHeld 0 .msgL = false ∧ queued.up (pkgOf 0) = true ∧ (parcelOf (some 0) 3).pay.length ≤ 8 ∧
    (parcelOf (some 0) 3).w8 = false :=
  ⟨next_of (by decide +kernel), by decide +kernel, by decide +kernel, by decide +kernel, by decide +kernel, rfl⟩

/-- The record with two contributions expected, `n` arrived, and others in the way of a request. -/
def recWith (n : Nat) (r : Req) (ms : List Msg) : State :=
  { (recState.setHead (3 * 2 ^ 35) 0 n 2) with net := toRec r :: ms }
def home : Nat := 1024 + 48
def gradReq : Req := .grad 0 (List.replicate 16 0x3F800000) false false
/-- A step that has come, one that has not, and one that finds every waiter entry taken. -/
theorem witness_prld : (∃ t, reaches (recWith 0 (.prld 0 0) []) (toRec (.prld 0 0)) t (.dram (3 * 2 ^ 35)) ∧
      (!t.foreign home (3 * 2 ^ 35) (toRec (.prld 0 0)) && t.stepReady (3 * 2 ^ 35) 0) = true) ∧
    (∃ t, reaches (recWith 0 (.prld 0 1) []) (toRec (.prld 0 1)) t (.dram (3 * 2 ^ 35)) ∧
      (!t.foreign home (3 * 2 ^ 35) (toRec (.prld 0 1)) && !t.stepReady (3 * 2 ^ 35) 1 && decide (t.prldWaiters home < 256)) = true) ∧
    ∃ t, reaches (recWith 0 (.prld 0 1) (List.replicate 256 { toRec (.prld 0 1) with id := 50, src := ⟨2, .main⟩, phase := .waiting 0, at_ := some (.dram (3 * 2 ^ 35)) })) (toRec (.prld 0 1)) t (.dram (3 * 2 ^ 35)) ∧
      (!t.foreign home (3 * 2 ^ 35) (toRec (.prld 0 1)) && !t.stepReady (3 * 2 ^ 35) 1 && decide (256 ≤ t.prldWaiters home)) = true :=
  ⟨reaches_of (by decide +kernel), reaches_of (by decide +kernel), reaches_of (by decide +kernel)⟩
theorem test_prset : (after (.prsetServe 9) (recWith 0 (.prset 3 0x50004) [])).exp (3 * 2 ^ 35) = 4 := by decide +kernel
theorem witness_prset : ∃ t, reaches (recWith 0 (.prset 3 4) []) (toRec (.prset 3 4)) t (.dram (3 * 2 ^ 35)) ∧
    (!t.foreign home (3 * 2 ^ 35) (toRec (.prset 3 4)) && !t.busy (3 * 2 ^ 35) && (t.heldAt (3 * 2 ^ 35) isUpdate).isEmpty) = true :=
  reaches_of (by decide +kernel)
/-- The first contribution of two, and the last. -/
theorem witness_contributions :
    (∃ t, reaches (recWith 0 gradReq []) (toRec gradReq) t (.dram (3 * 2 ^ 35)) ∧
      (!t.foreign home (3 * 2 ^ 35) (toRec gradReq) && !t.busy (3 * 2 ^ 35) && (t.heldAt (3 * 2 ^ 35) isUpdate).isEmpty &&
        t.exp (3 * 2 ^ 35) != 0 && natBits (t.recWord (3 * 2 ^ 35) 1) 6 2 == 0 &&
        decide (t.arr (3 * 2 ^ 35) + 1 < t.exp (3 * 2 ^ 35))) = true) ∧
    ∃ t, reaches (recWith 1 gradReq []) (toRec gradReq) t (.dram (3 * 2 ^ 35)) ∧
      (!t.foreign home (3 * 2 ^ 35) (toRec gradReq) && !t.busy (3 * 2 ^ 35) && (t.heldAt (3 * 2 ^ 35) isUpdate).isEmpty &&
        t.exp (3 * 2 ^ 35) != 0 && t.arr (3 * 2 ^ 35) + 1 == t.exp (3 * 2 ^ 35) && decide ((t.node home).lock.length < 64)) = true :=
  ⟨reaches_of (by decide +kernel), reaches_of (by decide +kernel)⟩
/-- The rule that the last contribution dispatches. -/
def dispatched : State := got (execGradContribution 9 (recWith 1 gradReq []))
theorem test_grad : dispatched.busy (3 * 2 ^ 35) = true ∧ dispatched.epoch (3 * 2 ^ 35) = 0 ∧
    dispatched.dram.readNat (3 * 2 ^ 35 + 192) 4 = 1 := by decide +kernel
theorem witness_record_rule : (dispatched.node home).lock = [3 * 2 ^ 35] ∧ (dispatched.ctx ⟨home, .work⟩).act = .idle ∧
    (dispatched.node home).stop = none ∧ dispatched.up (pkgOf home) = true := by decide +kernel
-- the register of a field whose data has an uncorrectable error is poisoned at the rule's start: v, at byte 160
theorem test_record_poison : let s : State := { dispatched with dramBad := [(3 * 2 ^ 35 + 160 + 24) / 8] }
    ((after (.recordRuleStart home) s).ctx ⟨home, .work⟩).poison = [(.v 2, 0x400000A0)] := by decide +kernel
theorem witness_on_chip : ((recWith 0 gradReq []).node home).recs.length < 256 ∧ (.s 2, 0, 8) ∈ fromRecord := by decide +kernel

/-! ### Instruction boundaries and waits -/

/-- MAIN running at U level in partition 0. -/
def running (f : Ctx → Ctx) : State := (withCode 1).modCtx ⟨0, .main⟩ fun c => f { c with priv := false, ie := true }
theorem test_deferred : let s := running fun c => { c with deferred := [{ cause := .protection, eaddr := 0x40 }], pc := 0x20 }
    (after (.deferredFault ⟨0, .main⟩) s).now.ecause = 0x0A ∧ (after (.deferredFault ⟨0, .main⟩) s).now.epc = 0x20 ∧
    (after (.deferredFault ⟨0, .main⟩) s).now.deferred = [] := by decide +kernel
theorem witness_evaluation : let s := running fun c => { c with changed := [.ventn] }
    (s.ctx ⟨0, .main⟩).atBoundary = true ∧ (s.ctx ⟨0, .main⟩).changed ≠ [] ∧ s.up 0 = true := by decide +kernel
theorem witness_marked : let s := (running id).modNode 0 fun n => { n with mark := some (⟨0, .main⟩, 0) }
    (s.node 0).mark = some (⟨0, .main⟩, (s.ctx ⟨0, .main⟩).pc) ∧ ((running id).node 0).mark ≠ some (⟨0, .main⟩, 0) := by
  decide +kernel
/-- Each condition that is due at a boundary, alone. -/
theorem witness_due : let i : Inst := ⟨0, .main⟩
    let t : Trap := { cause := .protection }
    (running fun c => { c with deferred := [t] }).due i = some (.deferred t) ∧
    (running fun c => { c with mcheck := [t] }).due i = some (.mcheck t) ∧
    (running fun c => { c with fcheck := some ⟨3, some 8⟩ }).due i = some (.fcheck ⟨3, some 8⟩) ∧
    (running fun c => { c with hwdog := 5, hcount := 5 }).due i = some .watchdog ∧
    (running fun c => { c with watch := [(false, t)] }).due i = some (.watch false t) ∧
    (running fun c => { c with watch := [(true, t)] }).due i = some (.watch true t) := by decide +kernel
/-- An interrupt at a core that is gated, one whose MAIN is idle, and one whose MAIN stands at a boundary. -/
theorem witness_interrupt : let p (s : State) := s.modNode 0 fun n => { n with irq1 := [0] }
    let gated := p ((running id).modNode 0 fun n => { n with gated := true })
    let woken := p ((running id).modNode 0 fun n => { n with gated := true, waking := true })
    let idle := p (running fun c => { c with act := .idle })
    (gated.irqOf 0 = some 1 ∧ (gated.node 0).gated = true ∧ (gated.node 0).waking = false ∧ woken.irqOf 0 = some 1 ∧
    (woken.node 0).waking = true) ∧
    (idle.irqOf 0 = some 1 ∧ (idle.node 0).gated = false ∧ (idle.ctx ⟨0, .main⟩).act = .idle ∧ (idle.node 0).stop = none ∧
      idle.up (pkgOf 0) = true) ∧
    (p (running id)).irqOf 0 = some 1 ∧ ((p (running id)).node 0).gated = false ∧ ((p (running id)).ctx ⟨0, .main⟩).act ≠ .idle ∧
    (p (running id)).due ⟨0, .main⟩ = some (.interrupt 1) := by decide +kernel
theorem test_interrupt : let s := (running fun c => { c with act := .idle }).modNode 0 fun n => { n with irq1 := [0] }
    (after (.interrupt 0) s).now.act = .irq ∧ (after (.interrupt 0) s).now.ecause = 0x14 ∧ ((after (.interrupt 0) s).node 0).irq1 = [] := by
  decide +kernel

theorem witness_waits : let i : Inst := ⟨0, .main⟩
    (∃ s : State, s.up (pkgOf i.node) = true ∧ (s.ctx i).wait = .align 0x40 0 0 ∧ 0 + 64 * (0 + 1) ≤ (s.node i.node).cycle.toNat) ∧
    (∃ s : State, s.up (pkgOf i.node) = true ∧ (s.ctx i).wait = .wfi 5) :=
  ⟨⟨(running fun c => { c with wait := .align 0x40 0 0 }).modNode 0 fun n => { n with cycle := 64 }, by decide +kernel⟩, running fun c => { c with wait := .wfi 5 }, by decide +kernel, by decide +kernel⟩
/-- A wave that ends QUIET, and the first one, which does not. -/
theorem witness_quiet_waves : let i : Inst := ⟨0, .main⟩
    let s (last : Option (Nat × Nat)) : State := (running fun c => { c with wait := .quiet .core false last }).modNode 0 fun n =>
      { n with sent := [(tagKey (some 0) false, 3)], retired := [(tagKey (some 0) false, 3)] }
    let sum (s : State) (f : Node → Table Nat) : Nat :=
      ((s.waveNodes i.node .core).map fun t => Table.get 0 (f (s.node t)) (tagKey (s.partOf i) false)).sum
    (s none).partOf i = some 0 ∧ (s (some (3, 3)) |>.ctx i).wait = .quiet .core false (some (3, 3)) ∧ sum (s (some (3, 3))) (·.sent) = 3 ∧
    sum (s (some (3, 3))) (·.retired) = 3 ∧ (s none |>.ctx i).wait = .quiet .core false none := by decide +kernel

/-- A launch of one grain on core 0 (two levels are not needed: its CORE level has one instance). -/
def launch1 : Launch :=
  { id := 1, queue := 0, part := 0, entry := 0, data := 0, dlen := 0, arg := 3, levels := [(1, 5, 0)], grains := [(0, .on 0)] }
def inGrain (f : Ctx → Ctx) : State :=
  (running fun c => f { c with act := .grain 1 0 }).modPkg 0 fun k => { k with launches := [launch1] }
theorem witness_gbar : let s := inGrain fun c => { c with wait := .gbar .clu }
    (s.ctx ⟨0, .main⟩).wait = .gbar .clu ∧ (s.ctx ⟨0, .main⟩).act = .grain 1 0 ∧ s.launch 0 1 = some launch1 ∧
    (0, GrainSt.on 0) ∈ launch1.grains ∧ (s.live 0).part = some launch1.part ∧ isCaldera 0 = false ∧ 0 ∈ s.span 0 launch1.part ∧
    s.gbarReady 0 launch1 .clu 0 = true ∧ s.span 0 launch1.part = [0] ∧ s.up 0 = true ∧ s.sharers 0 launch1 = [0] := by
  decide +kernel

/-! ### Channels, the matrix unit and gating -/

/-- Channel 0 of core 0 with a copy of 100 bytes, from 0x1000 to 0x2000, `n` bytes of it done and others read. -/
def copying (n : Nat) (buf : Option (List Nat)) : State :=
  (withCode 1).modLive 0 fun m => { m with ch0 :=
    { queue := [.entry (.bytes 0x2000 0x1000 .loc 100) .main false 0 none 0], prog := n, buf := buf } }
theorem moved_of {s : State} {g : Nat} {ch : Nat} (h : (match s.nextGroup g ch with
    | .moved _ => true
    | _ => false) = true) : ∃ t, s.nextGroup g ch = .moved t := by
  split at h
  · rename_i t heq
    exact ⟨t, heq⟩
  · nomatch h
theorem faults_of {s : State} {g : Nat} {ch : Nat} (h : (match s.nextGroup g ch with
    | .fault _ _ => true
    | _ => false) = true) : ∃ t f, s.nextGroup g ch = .fault t f := by
  split at h
  · rename_i t f heq
    exact ⟨t, f, heq⟩
  · nomatch h
-- the second group has 36 bytes: they are read, then written
theorem test_channel_read : ((((after (.channelGroup 0 0) (pad (copying 64 none) (0x1000 + 64) 8 9)).live 0).chan 0).buf.map
    fun l => (l.length, l.head?)) = some (36, some 9) := by decide +kernel
def copyRead : State := copying 64 (some (9 :: List.replicate 35 0))
theorem test_channel_group : (((after (.channelGroup 0 0) copyRead).live 0).chan 0).wp = 36 ∧
    (after (.channelGroup 0 0) copyRead).ownNat ⟨0, .main⟩ (0x2000 + 64) 8 = 9 := by decide +kernel
theorem witness_channel_moves : let x : Xfer := .bytes 0x2000 0x1000 .loc 100
    let q : List ChanItem := [.entry x .main false 0 none 0]
    ((copying 64 none).live 0).chan 0 = { queue := q, prog := 64 } ∧ (∃ t, (copying 64 none).nextGroup 0 0 = .moved t) ∧
    (copyRead.live 0).chan 0 = { queue := q, prog := 64, buf := some (9 :: List.replicate 35 0) } ∧
    (∃ t, copyRead.nextGroup 0 0 = .moved t) ∧ (9 :: List.replicate 35 0).length = min 64 (100 - 64) ∧
    (0x2000 : Word).toNat % 2 ^ 20 + 100 ≤ 2 ^ 20 ∧ (0x1000 : Word).toNat % 2 ^ 20 + 100 ≤ 2 ^ 20 ∧
    ((copying 100 none).live 0).chan 0 = { queue := q, prog := 100 } ∧ xferTotal x = 100 ∧ (copying 100 none).up 0 = true :=
  ⟨by decide +kernel, moved_of (by decide +kernel), by decide +kernel, moved_of (by decide +kernel), by decide, by decide, by decide,
    by decide +kernel⟩
def copyFault : State :=
  (withCode 1).modLive 0 fun m => { m with ch0 := { queue := [.entry (.bytes 0x1000 0x80000000 .as 100) .main false 0 none 0] } }
theorem witness_channel_fault : ∃ t f, copyFault.nextGroup 0 0 = .fault t f := faults_of (by decide +kernel)
-- a copy from a page that is not there, and one from an offset of core 1 that is not backed: the unit's answer sets REMOTE (R28)
theorem test_channel_fault : let s := after (.channelFault 0 0 false) ((withCode 1).modLive 0 fun m =>
      { m with ch0 := { queue := [.entry (.bytes 0x2000 (absCoord 1 0x90000) .as 8) .main false 0 none 0x44] } })
    ((s.live 0).chan 0).stopped.map (fun f => (f.cause, f.remote, f.code, f.access.epc)) = some (.protection, true, 0, 0x44) := by decide +kernel

/-- A GMMA of core 0 alone, in a phase. -/
def gm (ph : GPhase) : Gmma :=
  { ctx := .main, pair := .bf16 .rne, tile := 0, gangw := 0, gstag := 0, a := .tile 0x4000, b := .tile 0x6000, aOrd := false
    bOrd := false, env := (false, 0, 0), phase := ph }
def matrix (ph : GPhase) : State := (withCode 1).modLive 0 fun m => { m with gmma := some (gm ph) }
theorem test_chord : ((after (.chordClose 0) (matrix .arrived)).live 0).gmma.map (·.phase) = some (.closed 0) := by decide +kernel
theorem witness_chord : ((matrix .arrived).live 0).gmma = some (gm .arrived) ∧ gangOf 0 0 = [0] ∧
    (matrix .arrived).chordOf 0 0 0 = some (gm .arrived) ∧ ((matrix .arrived).node 0).stop = none ∧
    (matrix .arrived).up (pkgOf 0) = true := by decide +kernel
theorem witness_gmma_start : ((matrix (.closed 0)).live 0).gmma = some (gm (.closed 0)) ∧
    0 ≤ ((matrix (.closed 0)).node 0).cycle.toNat ∧ (gangOf 0 0).take (gangPos 0 0) = [] ∧
    (matrix (.closed 0)).up (pkgOf 0) = true := by decide +kernel
/-- A gang of one that has started, with 4,096 codes of each operand. -/
theorem witness_gmma_reads : let l := List.replicate 4096 0
    let s := matrix (.reading 9 l l)
    (0 : Nat) ≤ 3 ∧ s.up (pkgOf 0) = true ∧ 0 ∈ gangOf 0 0 ∧ gangOf 0 0 = [0] ∧ (s.live 0).gmma = some (gm (.reading 9 l l)) ∧
    (gm (.reading 9 l l)).gangw = 0 ∧ l.length = 64 * (64 / 2 ^ 0) ∧ l.length = 4096 :=
  ⟨by decide, by decide +kernel, by decide, by decide, rfl, rfl, List.length_replicate, List.length_replicate⟩
theorem test_mix : mixCodes 3 0 [5, 6] [5, 6] = [5, 6] := by decide
theorem witness_gmma_complete : let s := matrix (.running 0 1 1)
    (s.live 0).gmma = some (gm (.running 0 1 1)) ∧ 0 ≤ (s.node 0).cycle.toNat ∧ s.up (pkgOf 0) = true := by decide +kernel
theorem witness_gating : let s := booted State.reset
    let u := s.modNode 0 fun n => { n with gated := true, waking := true, marked := true }
    s.up (pkgOf 0) = true ∧ u.up (pkgOf 0) = true ∧ isCaldera 0 = false ∧ (s.live 0).rests = true ∧
    (s.node 0).stop = none ∧ s.irqOf 0 = none ∧ (u.node 0).gated = true ∧
    (u.node 0).waking = true ∧ (∃ t ∈ coresOfCluster 0 (clusterOf 0), (u.node t).gated = false) := by decide +kernel

/-! ### The host link, partitions and the scheduler -/

/-- Package 0 with its queue table at 0x100000, and queue 0 enabled for partition 0 with a ring of 16 entries at virtual address
0x10000: WP, the first entry's words, and what the scheduler holds of the queue. -/
def qring (wp : Nat) (w : List Nat) (q : Queue) : State :=
  let s := (withCode 1).modPkg 0 fun k => { k with qtbase := 0x100000, sched := true, queues := [(0, q)] }
  let s := ((s.setDramWord 0 0x100008 (BitVec.ofNat 64 (2 ^ 63 + 4 * 2 ^ 15))).setDramWord 0 0x100010 0x10000).setDramWord 0 0x100018
    (BitVec.ofNat 64 (wp * 2 ^ 32))
  (w.zip (List.range 16)).foldl (fun s x => s.setDramWord 0 (2 * 2 ^ 35 + 0x10000 + 8 * x.2) (BitVec.ofNat 64 x.1)) s
theorem test_doorbell : let s := qring 0 [] {}
    ((after (.doorbell 0 0 3) s).qdesc 0 0).wp = 3 ∧ ((after (.doorbell 0 0 17) s).qdesc 0 0).en = false ∧
    ((after (.doorbell 0 0 17) s).queue 0 0).bad = true := by decide +kernel
theorem witness_doorbell : ((qring 0 [] {}).qdesc 0 0).at_ % 32 = 0 ∧ ((qring 0 [] {}).qdesc 0 0).en = true ∧
    ((qring 0 [] {}).queue 0 0).slot = false := by decide +kernel
/-- A doorbell past a ring that is not enabled. -/
theorem witness_overrun : let s := (qring 0 [] {}).setDramWord 0 0x100008 (BitVec.ofNat 64 (4 * 2 ^ 15))
    (s.qdesc 0 0).at_ % 32 = 0 ∧ (s.qdesc 0 0).en = false ∧
    2 ^ (s.qdesc 0 0).log2n < ((17 : BitVec 32).toNat + 2 ^ 32 - (s.qdesc 0 0).rp) % 2 ^ 32 := by decide +kernel
theorem witness_register_writes : (State.reset.pkg 0).partBusy = none ∧ (0x501 : Word).toNat % 8 = 1 ∧
    ((State.reset.modPkg 0 fun k => { k with partBusy := some (1, 5) }).pkg 0).partBusy ≠ none ∧
    natBit ((State.reset.modPkg 0 fun k => { k with mask := 3 }).pkg 0).mask 1 = true := by decide +kernel
-- ABS coordinate of core 0 with partition 0 in its offset
theorem witness_hostint : let v : Word := absCoord 0 0
    2 ^ 63 ≤ v.toNat ∧ natBits v.toNat 61 2 = 0 ∧ (withCode 1).coord 2047 v.toNat = some (.far 0 0) ∧ isCaldera 0 = false ∧
    (0 : Nat) ∈ (withCode 1).coresOf (pkgOf 0) (natBits v.toNat 0 7) := by decide +kernel

/-- A command on partition 1, whose descriptor names cluster 1 and is valid or not. -/
def commanded (op : Nat) (valid : Bool) : State :=
  let s := (withCode 1).modPkg 0 fun k => { k with partBusy := some (op, 1), qtbase := 3 * 2 ^ 35 }
  (s.setDramWord 0 256 2).setDramWord 0 272 (if valid then 0x8000000000000000 else 0)
theorem test_alloc : let t := after (.alloc 0 1) (commanded 1 false)
    (t.pkg 0).partResult = 0 ∧ (List.range 8).map (fun k => (t.node (8 + k)).stored.map (·.part)) = List.replicate 8 [some 1] := by
  decide +kernel
theorem witness_alloc : let s := commanded 1 false
    (s.pkg 0).partBusy = some (1, 1) ∧ s.partValid 0 1 = false ∧ s.descOk 0 1 = true ∧ s.overlapped 0 1 = false ∧
    (s.pkg 0).ptbase.toNat % 256 = 0 := by decide +kernel
theorem get_high {t : Memory} {d : Byte} {n k : Nat} (h : t.all (fun c => decide (c.1 < n)) = true) (hk : n ≤ k) :
    Table.get d t k = d := by
  induction t with
  | nil => rfl
  | cons c t ih =>
    simp only [List.all_cons, Bool.and_eq_true, decide_eq_true_eq] at h
    have hne : c.1 ≠ k := by omega
    simp only [Table.get, if_neg hne]
    exact ih h.2
theorem blank_high {m : Memory} {n a : Nat} (h : m.all (fun c => decide (c.1 < n)) = true) (ha : n ≤ a) (k : Nat) :
    m.readNat a k = 0 := by
  induction k generalizing a with
  | zero => rfl
  | succ k ih =>
    unfold Memory.readNat Memory.read
    rw [get_high h ha, ih (by omega)]
    rfl
theorem no_queues {s : State} (h : s.dram.all (fun c => decide (c.1 < 3 * 2 ^ 35)) = true) (hq : (s.pkg 0).qtbase.toNat = 3 * 2 ^ 35) :
    s.queuesOn 0 1 = false := by
  unfold State.queuesOn
  rw [List.any_eq_false]
  intro q hq'
  have hlt : q < 65536 := List.mem_range.mp hq'
  have : (s.qdesc 0 q).en = false := by
    unfold State.qdesc State.dramWord Memory.readWord
    simp only [hq]
    rw [blank_high h (by unfold dramKey; omega)]
    rfl
  simp [this]
theorem witness_free : let s := commanded 2 true
    (s.pkg 0).partBusy = some (2, 1) ∧ s.partValid 0 1 = true ∧ s.queuesOn 0 1 = false ∧ (s.pkg 0).ptbase.toNat % 256 = 0 :=
  ⟨by decide +kernel, by decide +kernel, no_queues (by decide +kernel) (by decide +kernel), by decide +kernel⟩
/-- Partition 1 stored on its eight cores, with an image that has these dirty regions. -/
def storedImgs (op : Nat) (dirty : List Nat) : State :=
  (List.range 8).foldl (fun s k => s.modNode (8 + k) fun n => { n with stored := [{ part := some 1, dirty := dirty }] }) (commanded op true)
/-- RESIDE of an image that is stored, one whose stream starts with SAME, STORE of a shadow, and the end of a command. -/
theorem witness_images : let s := storedImgs 3 []
    let u := (commanded 4 true).modNode 8 fun n => { n with shadows := [{ part := some 1 }] }
    let held (s : State) (g : Nat) : Bool := (s.node g).stored.any fun m => m.part == some 1
    (s.pkg 0).partBusy = some (3, 1) ∧ s.partValid 0 1 = true ∧ (8 : Nat) ∈ s.coresOf 0 1 ∧
    (s.coresOf 0 1).all (fun g => decide ((s.node g).shadows.length < 2) && held s g &&
      (s.streamIn g (findImg (s.node g).stored (some 1))).isSome) = true ∧
    (u.pkg 0).partBusy = some (4, 1) ∧ u.partValid 0 1 = true ∧
    (u.node 8).shadows.any (fun m => m.part == some 1) = true ∧ ((commanded 0 true).pkg 0).partBusy = some (0, 1) := by
  decide +kernel
theorem witness_bad_stream : let s := storedImgs 3 [5]
    let s := { s with dram := s.dram.write (s.imageAt 8 1 + 0xF000) 0x40 }
    (s.pkg 0).partBusy = some (3, 1) ∧ s.partValid 0 1 = true ∧ (8 : Nat) ∈ s.coresOf 0 1 ∧
    (s.node 8).stored.any (fun m => m.part == some 1) = true ∧
    (s.streamIn 8 (findImg (s.node 8).stored (some 1))).isNone = true := by decide +kernel
-- R360's examples: one SPLAT token for 64 lines of FP16 7.0; a RAW token, then 63 zero lines
theorem test_splat_region : decodeLines (fun k => [0xBF, 0, 0, 0x47, 0, 0x47, 0, 0x47, 0, 0x47].getD k 0) 64 none 64 0 =
    some (List.replicate 64 (0, splat 0x4700470047004700), 10) := by decide +kernel
theorem test_raw_region : (decodeLines (fun k => if k = 0 then 0xC0 else if k = 11 then 0x20 else if k = 66 then 0x3E else 0) 64 none 64 0).map
    (fun r => (r.1.length, r.1.head?, r.2)) = some (64, some (0, 0x2000 * 2 ^ 64), 68) := by decide +kernel
theorem witness_coded : let ls := List.replicate 64 ((0 : Nat), (0 : Nat))
    let coded := codeLines 64 0 none ls
    ls.length = 64 ∧ (∀ l ∈ ls, l.1 < 256 ∧ l.2 < 2 ^ 512) ∧
    ∃ rd : Nat → Nat, ∀ j, j < coded.length → rd (0 + j) = (coded.getD j 0).toNat :=
  ⟨by decide, fun l h => by rw [(List.mem_replicate.mp h).2]; exact ⟨by decide, Nat.pow_pos (by decide)⟩, fun j => ((codeLines 64 0 none _).getD j 0).toNat,
    fun j _ => by rw [Nat.zero_add]⟩
theorem test_same_first : decodeLines (fun _ => 0x40) 64 none 64 0 = none := by decide +kernel

theorem entry_of {s : State} {f : State → QDesc → List Nat → Bool} (h : (match s.nextEntry 0 0 with
    | (t, some (d, some w)) => f t d w
    | _ => false) = true) : ∃ t d w, s.nextEntry 0 0 = (t, some (d, some w)) ∧ f t d w = true := by
  split at h
  · rename_i t d w heq
    exact ⟨t, d, w, heq, h⟩
  · nomatch h
def inSlot : Queue := { slot := true }
/-- An entry of an unknown kind, NOP, WAIT that is over and WAIT that goes on, and SIGNAL. -/
theorem witness_entries : let kind (k : Nat) (e : QEntry) (w : List Nat) : Bool := e.kind == k && !entryBad w
    (∃ t d w, (qring 1 [5] inSlot).nextEntry 0 0 = (t, some (d, some w)) ∧ decide (4 < (entryOf d.rp w).kind) = true) ∧
    (∃ t d w, (qring 1 [0] inSlot).nextEntry 0 0 = (t, some (d, some w)) ∧ kind 0 (entryOf d.rp w) w = true) ∧
    (∃ t d w, (qring 1 [2, 0, 0x40000, 0] inSlot).nextEntry 0 0 = (t, some (d, some w)) ∧
      (kind 2 (entryOf d.rp w) w && (t.schedRead 0 d.part d.ns 0x40000 1).2 == some [0]) = true) ∧
    (∃ t d w, (qring 1 [2, 0, 0x40000, 1] inSlot).nextEntry 0 0 = (t, some (d, some w)) ∧
      (kind 2 (entryOf d.rp w) w && (t.schedRead 0 d.part d.ns 0x40000 1).2 == some [0]) = true) ∧
    ∃ t d w, (qring 1 [3, 0, 0x40000, 7] inSlot).nextEntry 0 0 = (t, some (d, some w)) ∧
      (kind 3 (entryOf d.rp w) w && ((t.queue 0 0).openBefore d.rp).isEmpty) = true :=
  ⟨entry_of (by decide +kernel), entry_of (by decide +kernel), entry_of (by decide +kernel), entry_of (by decide +kernel),
    entry_of (by decide +kernel)⟩
theorem test_signal : let t := after (.signal 0 0) (qring 1 [3, 0, 0x40000, 7] inSlot)
    t.dram.readNat (2 * 2 ^ 35 + 0x40000) 8 = 7 ∧ (t.qdesc 0 0).rp = 1 := by decide +kernel
/-- A record of one grain at virtual address 0x20000. -/
def launching : State :=
  let s := qring 1 [1, 0, 0x20000] inSlot
  ([0, 0x30000, 2 ^ 32, 3, 1 + 5 * 2 ^ 16].zip (List.range 5)).foldl
    (fun s x => s.setDramWord 0 (2 * 2 ^ 35 + 0x20000 + 8 * x.2) (BitVec.ofNat 64 x.1)) s
theorem test_launch : ((after (.launch 0 0) launching).pkg 0).launches.map (fun l => (l.part, l.arg, l.levels)) = [(0, 3, [(1, 5, 0)])] := by
  decide +kernel
theorem witness_launch : ∃ t d w, launching.nextEntry 0 0 = (t, some (d, some w)) ∧
    ((entryOf d.rp w).kind == 1 && !entryBad w && ((t.queue 0 0).open_.filterMap fun y => y.launch.bind (t.launch 0)).all (t.dispatched 0) &&
      (entryOf d.rp w).w2.toNat % 64 == 0 &&
      match t.schedRead 0 d.part d.ns (entryOf d.rp w).w2.toNat 16 with
      | (t1, some r) => (t1.recordOk 0 d r).2
      | (_, none) => false) = true := entry_of (by decide +kernel)
/-- A ring that no page maps. -/
theorem witness_unreadable : let s := (qring 1 [] inSlot).setDramWord 0 0x100010 0x80000000
    (match s.nextEntry 0 0 with
      | (_, some (_, none)) => true
      | _ => false) = true := by decide +kernel

theorem witness_slot : let s := qring 1 [] { waiting := some 0 }
    (s.pkg 0).sched = true ∧ s.firstWaiter 0 0 = some 0 ∧ ((s.pkg 0).queues.filter fun k => k.2.slot).length < 2048 := by decide +kernel
/-- Every slot is held by a queue that is idle. -/
theorem witness_slot_victim : let s := (qring 1 [] { waiting := some 0 }).modPkg 0 fun k =>
      { k with queues := k.queues ++ List.replicate 2048 (1, { slot := true }) }
    (s.pkg 0).sched = true ∧ s.firstWaiter 0 0 = some 0 ∧ 2048 ≤ ((s.pkg 0).queues.filter fun k => k.2.slot).length ∧
    s.slotVictim 0 (s.qdesc 0 0).prio = some 1 ∧ (1 : Nat) ≠ 0 := by decide +kernel
/-- A CANCEL of tag 5 after another entry of the ring; `abort` sets its ABORT. -/
def cancelling (first : List Nat) (abort : Bool) (q : Queue) (gs : Table GrainSt) : State :=
  let s := qring 2 ((first ++ List.replicate 8 0).take 8 ++ [4, 0, if abort then 0x10005 else 5]) q
  s.modPkg 0 fun k => { k with launches := [{ launch1 with grains := gs }] }
def taken1 : QEntry := { pos := 0, kind := 1, tag := 5, intr := false, barrier := false, status := 0, w2 := 0, w3 := 0, launch := some 1 }
def pending1 : Queue := { slot := true, taken := [taken1] }
/-- Every slot is held by a queue with an open launch: the first waiter has waited from now. -/
theorem witness_slot_none : let s := (qring 1 [] {}).modPkg 0 fun k => { k with queues := k.queues ++ List.replicate 2048 (1, pending1) }
    (s.pkg 0).sched = true ∧ s.firstWaiter 0 0 = some 0 ∧ 2048 ≤ ((s.pkg 0).queues.filter fun k => k.2.slot).length ∧
    s.slotVictim 0 (s.qdesc 0 0).prio = none ∧ s.waits4Slot 0 0 = true := by decide +kernel
theorem ring_of {s : State} {n : Nat} {f : State → List Nat → Bool} (h : (match s.ringEntry 0 (s.qdesc 0 0) n with
    | (t, some w) => (entryOf n w).kind == 4 && !entryBad w && natBits (entryOf n w).w2.toNat 0 16 == 5 && f t w
    | _ => false) = true) : ∃ t w, s.ringEntry 0 (s.qdesc 0 0) n = (t, some w) ∧ (entryOf n w).kind = 4 ∧ entryBad w = false ∧
      natBits (entryOf n w).w2.toNat 0 16 = 5 ∧ f t w = true := by
  split at h
  · rename_i t w heq
    simp only [Bool.and_eq_true, beq_iff_eq, Bool.not_eq_true'] at h
    exact ⟨t, w, heq, h.1.1.1, h.1.1.2, h.1.2, h.2⟩
  · nomatch h
theorem test_cancel : ((after (.cancel 0 0 1) (cancelling [1 + 5 * 2 ^ 16, 0, 0x20000] false inSlot [])).queue 0 0).taken.map
    (fun e => (e.kind, e.code)) = [(1, some 2), (4, some 2)] := by decide +kernel
theorem witness_cancel_visible : let s := cancelling [0] false inSlot []
    (s.pkg 0).sched = true ∧ (s.queue 0 0).slot = true ∧ (s.qdesc 0 0).ready = true ∧ (s.qdesc 0 0).visible = [0, 1] ∧
    (s.queue 0 0).taken = [] ∧ pending1.open_.find? (fun x => x.kind == 1 && x.tag == 5 && x.code.isNone) = some taken1 := by
  decide +kernel
/-- No launch has the tag, one stands in the ring, one has not started, one runs, and one runs that ABORT may discard. -/
theorem witness_cancel : let n := 1
    let l0 : Launch := { launch1 with grains := [] }
    let started (t : State) (l : Launch) : Nat := ((t.copies 0 l).map fun y => y.grains.length).sum
    (∃ t w, (cancelling [0] false inSlot []).ringEntry 0 ((cancelling [0] false inSlot []).qdesc 0 0) n = (t, some w) ∧
      (entryOf n w).kind = 4 ∧ entryBad w = false ∧ natBits (entryOf n w).w2.toNat 0 16 = 5 ∧
      (t.pendingLaunch 0 0 5 ((cancelling [0] false inSlot []).qdesc 0 0)
        ((cancelling [0] false inSlot []).qdesc 0 0).visible).2.isNone = true) ∧
    (let s := cancelling [1 + 5 * 2 ^ 16, 0, 0x20000] false inSlot []
      ∃ t w, s.ringEntry 0 (s.qdesc 0 0) n = (t, some w) ∧ (entryOf n w).kind = 4 ∧ entryBad w = false ∧
        natBits (entryOf n w).w2.toNat 0 16 = 5 ∧ (t.pendingLaunch 0 0 5 (s.qdesc 0 0) (s.qdesc 0 0).visible).2.isSome = true) ∧
    (let s := cancelling [0] false pending1 []
      ∃ t w, s.ringEntry 0 (s.qdesc 0 0) n = (t, some w) ∧ (entryOf n w).kind = 4 ∧ entryBad w = false ∧
        natBits (entryOf n w).w2.toNat 0 16 = 5 ∧ (t.launch 0 1 == some l0 && started t l0 == 0) = true) ∧
    (let s := cancelling [0] false pending1 [(0, .on 0)]
      ∃ t w, s.ringEntry 0 (s.qdesc 0 0) n = (t, some w) ∧ (entryOf n w).kind = 4 ∧ entryBad w = false ∧
        natBits (entryOf n w).w2.toNat 0 16 = 5 ∧
        (t.launch 0 1 == some launch1 && started t launch1 != 0 && !natBit (entryOf n w).w2.toNat 16) = true) ∧
    let s := cancelling [0] true pending1 [(0, .on 0)]
    ∃ t w, s.ringEntry 0 (s.qdesc 0 0) n = (t, some w) ∧ (entryOf n w).kind = 4 ∧ entryBad w = false ∧
      natBits (entryOf n w).w2.toNat 0 16 = 5 ∧ (t.launch 0 1 == some launch1 && started t launch1 != 0 &&
        natBit (entryOf n w).w2.toNat 16 && (t.runningOn 0 launch1).all fun g => (t.img g (some 0)).main.dslot.isNone) = true :=
  ⟨ring_of (by decide +kernel), ring_of (by decide +kernel), ring_of (by decide +kernel), ring_of (by decide +kernel),
    ring_of (by decide +kernel)⟩
/-- An entry that is complete, whose status word lies in a page. -/
def completing : State :=
  qring 0 [] { slot := true, taken := [{ taken1 with kind := 0, launch := none, code := some 1, status := 0x40000, intr := true }] }
theorem test_completion : let t := after (.entryCompletion 0 0 0) completing
    t.dram.readNat (2 * 2 ^ 35 + 0x40000) 8 = 1 ∧ (t.pkg 0).msix = [(0, 0)] := by decide +kernel
/-- A launch whose only grain runs, is done, or was ended with a fault. -/
def ending (g : GrainSt) (fault : Bool) : State :=
  (qring 0 [] { slot := true, taken := [{ taken1 with status := 0x40000, intr := true }] }).modPkg 0 fun k =>
    { k with launches := [{ launch1 with grains := [(0, g)], fault := fault }] }
theorem test_launch_completion :
    (after (.entryCompletion 0 0 0) (ending .done true)).dram.readNat (2 * 2 ^ 35 + 0x40000) 8 = 4 := by decide +kernel
theorem apart_of {s : State} (h : (match s.schedPlace 0 0 false .store 0x40000 with
    | (_, some a) => a == .dram (2 * 2 ^ 35 + 0x40000)
    | (_, none) => false) = true) (hd : dramKey 0 ((s.qdesc 0 0).at_ + 24) + 8 ≤ 2 * 2 ^ 35 + 0x40000) :
    ∃ t a, s.schedPlace 0 0 false .store 0x40000 = (t, some a) ∧ a.apart 8 (.dram (dramKey 0 ((s.qdesc 0 0).at_ + 24))) 8 := by
  split at h
  · rename_i t a heq
    refine ⟨t, a, heq, ?_⟩
    rw [beq_iff_eq.mp h]
    exact Or.inr hd
  · nomatch h
theorem witness_launch_completion : let e : QEntry := { taken1 with status := 0x40000, intr := true }
    let l (g : GrainSt) (fault : Bool) : Launch := { launch1 with grains := [(0, g)], fault := fault }
    let at1 (s : State) : Option QEntry := (s.queue 0 0).open_.find? fun x => x.pos == 0
    (at1 (ending (.on 0) false) = some e ∧ (ending (.on 0) false).launch 0 1 = some (l (.on 0) false) ∧
      (ending (.on 0) false).launchDone 0 (l (.on 0) false) = false) ∧
    (at1 (ending .done false) = some e ∧ (ending .done false).launchDone 0 (l .done false) = true ∧
      (ending .done false).copies 0 (l .done false) = [l .done false]) ∧
    (at1 (ending .done true) = some e ∧ (ending .done true).launchDone 0 (l .done true) = true ∧
      (ending .done true).copies 0 (l .done true) = [l .done true]) ∧
    ∀ fault, ∃ t a, (ending .done fault).schedPlace 0 0 false .store 0x40000 = (t, some a) ∧
      a.apart 8 (.dram (dramKey 0 (((ending .done fault).qdesc 0 0).at_ + 24))) 8 :=
  ⟨by decide +kernel, by decide +kernel, by decide +kernel, fun fault => by
    cases fault <;> exact apart_of (by decide +kernel) (by decide +kernel)⟩
theorem witness_completion : ∃ t a, completing.schedPlace 0 0 false .store 0x40000 = (t, some a) ∧
    a.apart 8 (.dram (dramKey 0 ((completing.qdesc 0 0).at_ + 24))) 8 := apart_of (by decide +kernel) (by decide +kernel)

/-- A launch whose grain has no core yet, with an idle MAIN in its partition. -/
def placing : State :=
  (running fun c => { c with act := .idle, upvec := 0x800 }).modPkg 0 fun k => { k with sched := true, launches := [{ launch1 with grains := [] }] }
theorem test_placement : let t := after (.grainPlacement 0 1 0 0) placing
    t.now.act = .grain 1 0 ∧ t.now.sr 1 = 3 ∧ t.now.upvec = 0x800 ∧ t.now.priv = false := by decide +kernel
theorem witness_placement : let x : Launch := { launch1 with grains := [] }
    placing.launch 0 1 = some x ∧ pkgOf 0 = 0 ∧ isCaldera 0 = false ∧ 0 < x.total ∧ placing.grainPkg 0 x 0 = 0 ∧
    (0 : Nat) ∈ placing.coresOf 0 0 ∧ x.unit? x.coreLevel (x.inst x.coreLevel 0) = none ∧ x.hasCluster = false ∧
    ((placing.freeOf 0 (dieCores 0 (dieOf 0))).filter
      (x.fits (placing.coresOf 0 0) 0)).head? = some 0 := by decide +kernel
/-- A launch of one CLUSTER with one CORE. -/
def clustered : State :=
  placing.modPkg 0 fun k => { k with launches := [{ launch1 with grains := [], levels := [(1, 4, 0), (1, 5, 0)] }] }
theorem plan_least {s : State} {x : Launch} {free b : List Nat} {y : List (Nat × Nat)}
    (h : (List.range 32).all (fun k => (s.plan x free b 0 k).all fun z => decide (s.planCost y ≤ s.planCost z)) = true) :
    ∀ k z, k < 32 → s.plan x free b 0 (dieOf 0 * 32 + k) = some z → s.planCost y ≤ s.planCost z := by
  intro k z hk hz
  have hk := List.all_eq_true.mp h k (List.mem_range.mpr hk)
  have h0 : dieOf 0 * 32 + k = k := by
    have : dieOf 0 = 0 := by decide +kernel
    omega
  rw [h0] at hz
  rw [hz] at hk
  exact of_decide_eq_true hk
theorem witness_cluster : let x : Launch := { launch1 with grains := [], levels := [(1, 4, 0), (1, 5, 0)] }
    let cores := clustered.coresOf 0 0
    (clustered.launch 0 1 = some x ∧ pkgOf 0 = 0 ∧ isCaldera 0 = false ∧ 0 < x.total ∧ clustered.grainPkg 0 x 0 = 0 ∧
      (0 : Nat) ∈ clustered.coresOf 0 0 ∧ x.hasCluster = true ∧ x.unit? x.coreLevel (x.inst x.coreLevel 0) = none ∧
      x.inst x.coreLevel 0 % ((x.levels[x.coreLevel]?.map (·.1)).getD 1) = 0 ∧ 0 % x.size x.coreLevel = 0 ∧
      clustered.plan x cores (x.batch 0) 0 (clusterOf 0) = some [(0, 0)]) ∧
    ∀ k z, k < 32 → clustered.plan x cores (x.batch 0) 0 (dieOf 0 * 32 + k) = some z →
      clustered.planCost [(0, 0)] ≤ clustered.planCost z :=
  ⟨by decide +kernel, plan_least (by decide +kernel)⟩
/-- Two packages joined by a link, and a launch over both. -/
def sharing : State :=
  let s := placing.modPkg 0 fun k =>
    { k with mask := 3, lroute := [(1, 1)], links := [(0, { up := true, far := some 1 })]
             launches := [{ launch1 with grains := [], levels := [(2, 1, 0), (1, 5, 0)] }] }
  s.setDramWord 0 96 3
theorem witness_share : let x : Launch := { launch1 with grains := [], levels := [(2, 1, 0), (1, 5, 0)] }
    sharing.launch 0 1 = some x ∧ 1 ∈ sharing.span 0 0 ∧ sharing.linked 0 1 = true := by decide +kernel
/-- Partition 0 live on the cores of cluster 0 with its slice over, and partition 1 of the same cluster, stored there and with work. -/
def sliced : State :=
  let s := qring 1 [] inSlot
  let s := s.setDramWord 0 0x100008 (BitVec.ofNat 64 (2 ^ 63 + 2 ^ 52 + 4 * 2 ^ 15))
  let s := (s.setDramWord 0 256 1).setDramWord 0 272 0x8000000000000000
  let s := s.modPkg 0 fun k => { k with gt := 200000 }
  (List.range 8).foldl (fun s k => s.modNode ((coresOfCluster 0 0).getD k 0) fun n =>
    { n with live := { n.live with part := some 0 }, stored := [{ part := some 1 }] }) s
theorem witness_slice : (sliced.pkg 0).sched = true ∧ sliced.runs 0 0 = true ∧ (sliced.turn 0 0).warned = false ∧
    (sliced.turn 0 0).began + sliced.sliceNs 0 0 ≤ 200000 := by decide +kernel
theorem witness_swap : let cores := sliced.coresOf 0 1
    sliced.up 0 = true ∧ sliced.partValid 0 1 = true ∧ cores ≠ [] ∧ cores.all (fun g => (sliced.node g).stop.isNone) = true ∧
    0 ∈ sliced.groupOf 0 1 ∧
    cores.all (fun g => (sliced.live g).part == some 0) = true ∧ sliced.chooseLive 0 0 (sliced.groupOf 0 1) = some 1 ∧
    sliced.yields 0 0 1 = true ∧ cores.all (fun g => (sliced.live g).haltable) = true ∧ sliced.drained 0 cores = true ∧
    cores.all (fun g => (sliced.node g).stored.any fun m => m.part == some 1) = true ∧
    cores.all (fun g => (sliced.node g).stored.all fun m => (sliced.streamIn g m).isSome) = true := by decide +kernel
/-- The same with as much work for partition 0: no swap yet, and partition 1 is streamed in. -/
def tied : State :=
  let s := (sliced.setDramWord 0 0x100028 (BitVec.ofNat 64 (2 ^ 63 + 4 * 2 ^ 15))).setDramWord 0 0x100038 (BitVec.ofNat 64 (2 ^ 32))
  s.modPkg 0 fun k => { k with queues := k.queues ++ [(1, inSlot)] }
theorem witness_prefetch : let cores := tied.coresOf 0 1
    tied.up 0 = true ∧ (tied.pkg 0).sched = true ∧ tied.partValid 0 1 = true ∧ cores ≠ [] ∧
    cores.all (fun g => (tied.node g).stop.isNone) = true ∧
    0 ∈ tied.groupOf 0 1 ∧ cores.all (fun g => (tied.live g).part == some 0) = true ∧
    tied.chooseLive 0 0 (tied.groupOf 0 1) = some 1 ∧ tied.yields 0 0 1 = false ∧
    cores.all (fun g => (tied.node g).stored.all fun m => (tied.streamIn g m).isSome) = true := by decide +kernel
theorem test_prefetch : ((after (.partitionSwap 0 0 1) tied).node 0).shadows.map (·.part) = [some 1] := by decide +kernel

/-! ### Shoot-downs, Tephra and the debugger -/

def shoot1 : Shoot :=
  { part := 0, size := 3, addr := 0, issuer := ⟨0, .main⟩, ipart := some 0, clusters := [0, 1], mail := [(16, 0)], homes := [5], tephra := true }
def shooting (x : Shoot) : State :=
  (running fun c => { c with wait := .shoot 0 }).modPkg 0 fun k => { k with shoots := [x] }
theorem test_shoot_cluster : ((after (.shootCluster 0 0 1) (shooting shoot1)).shootOf 0 0).map (fun x => (x.clusters, x.mail.length)) =
    some ([0], 9) := by decide +kernel
theorem test_shoot_end :
    (after (.shootAcknowledgement 0 0) (shooting { shoot1 with clusters := [], mail := [], homes := [], tephra := false })).now.wait =
      .ended := by decide +kernel
theorem witness_shoots : (shooting shoot1).shootOf 0 0 = some shoot1 ∧ (1 : Nat) ∈ shoot1.clusters ∧
    ((shooting shoot1).node 16).gated = false ∧
    shoot1.mail.find? (fun e => e.1 == 16) = some (16, 0) ∧ (shooting shoot1).net = [] ∧ (5 : Nat) ∈ shoot1.homes := by
  decide +kernel
/-- A shoot-down while no request, or a request to home 5, travels. -/
def homeShoot (m : Option Msg) : State := { shooting shoot1 with net := m.toList }
def homeMsg (at_ : Option Place) : Msg :=
  { msgTo (.load 8) (.home (.mem 0 0 5)) with part := some 0, va := 0x40000, at_ := at_ }
theorem witness_shoot_home : let s := (homeShoot none).modNode (nodeAt 0 0 16 5) fun n =>
      { n with recs := [(7, { bound := some 0, va := 0x100 }), (9, { bound := some 1 })], lock := [7, 9] }
    s.shootOf 0 0 = some shoot1 ∧ (5 : Nat) ∈ shoot1.homes ∧ (5 : Nat) < 64 ∧ s.net = [] ∧
    s.heldUpdates (nodeAt 0 0 16 5) = [] ∧ 7 ∈ (s.node (nodeAt 0 0 16 5)).lock ∧
    (s.recOf (nodeAt 0 0 16 5) 7).bound = some 0 ∧ shoot1.covers (s.recOf (nodeAt 0 0 16 5) 7).va.toNat = true ∧
    (s.recOf (nodeAt 0 0 16 5) 9).bound ≠ some 0 := by decide +kernel
theorem test_shoot_record : let s := (homeShoot none).modNode (nodeAt 0 0 16 5) fun n =>
      { n with recs := [(7, { bound := some 0, va := 0x100 }), (9, { bound := some 1 })], lock := [7, 9] }
    ((after (.shootHomeCache 0 0 5) s).node (nodeAt 0 0 16 5)).lock = [9] := by decide +kernel
theorem witness_shoot_travels : homeMsg none ∈ (homeShoot (some (homeMsg none))).net ∧ shoot1.waitsFor (homeMsg none) = true ∧
    (homeMsg none).toHome 0 5 = true ∧ (homeMsg none).at_ = none ∧ (homeShoot (some (homeMsg none))).shootOf 0 0 = some shoot1 := by
  decide +kernel
/-- A shoot-down of the first 4 KiB, whose home has a 2 MiB entry there: a request accepted under it lies outside the selector. -/
def smallShoot (gone : List (Nat × TlbEntry)) : State :=
  let s := shooting { shoot1 with size := 0, gone := gone }
  { s.modPkg 0 (fun k => { k with homes := [(5, [⟨0, 2 ^ 21, 0, 0x3F⟩])] }) with net := [homeMsg (some (.dram 0x40000))] }
theorem witness_shoot_waits : let m := homeMsg (some (.dram 0x40000))
    let x := { shoot1 with size := 0, gone := [] }
    let e : TlbEntry := ⟨0, 2 ^ 21, 0, 0x3F⟩
    (smallShoot []).shootOf 0 0 = some x ∧ (smallShoot []).net = [m] ∧ x.waitsFor m = false ∧ m.part = some 0 ∧ m.unperformed = true ∧
    m.toHome 0 5 = true ∧ e.hits 0 m.va.toNat = true ∧ e ∈ Table.get [] ((smallShoot []).pkg 0).homes 5 ∧
    tlbSelected 0 0 0 e = true := by decide +kernel
theorem test_shoot_waits : let t := after (.shootHomeCache 0 0 5) (smallShoot [])
    (t.shootOf 0 0).map (·.homes) = some [5] ∧ Table.get [] (t.pkg 0).homes 5 = [] := by decide +kernel
theorem witness_shoot_end : let x : Shoot := { shoot1 with clusters := [], mail := [], homes := [], tephra := false }
    (shooting x).shootOf 0 0 = some x ∧ (shooting x).span (pkgOf x.issuer.node) 0 = [0] ∧
    (((shooting x).img 0 (some 0)).ctx .main).wait = .shoot 0 := by decide +kernel

/-- Tracing into a buffer at virtual address 0x40000 of partition 0, whose page's region is open to the non-secure world. -/
def tracing (f : Tephra → Tephra) : State :=
  (running id).modPkg 0 fun k =>
    { k with regions := [(128, BitVec.ofNat 64 (2 ^ 63 + 2 ^ 62 + 0x1FFFF * 2 ^ 18))]
             tephra := f { k.tephra with tbase := 0x40000, tctl := 3 } }
def record1 : TraceRec := ⟨5, 1, 2, 3⟩
theorem test_trace_record : (after (.traceRecord 0) (tracing fun t => { t with flight := [record1] })).dram.readNat
    (2 * 2 ^ 35 + 0x40000) 32 = wordsNat [5, 1, 2, 3] := by decide +kernel
theorem place_of {s : State} {p : Nat} (h : (match s.tracePlace p with
    | (_, some _) => true
    | (_, none) => false) = true) : ∃ t a, s.tracePlace p = (t, some a) := by
  split at h
  · rename_i t a heq
    exact ⟨t, a, heq⟩
  · nomatch h
theorem witness_trace : let s := tracing fun t => { t with flight := [record1] }
    ((s.pkg 0).tephra.flight = [record1] ∧ natBits record1.w0.toNat 0 8 ≠ 0 ∧ (s.pkg 0).tephra.drops = 0 ∧ (s.pkg 0).shoots = []) ∧
    ∃ t a, (s.modPkg 0 fun k => { k with tephra := { k.tephra with flight := [] } }).tracePlace 0 = (t, some a) :=
  ⟨by decide +kernel, place_of (by decide +kernel)⟩
/-- A trace buffer that no page holds, and a LOSS record before the next one. -/
def losing (base : Word) : State := tracing fun t => { t with tbase := base, flight := [record1], drops := 3 }
def losingTaken (base : Word) : State := (losing base).modPkg 0 fun k => { k with tephra := { k.tephra with flight := [] } }
theorem no_place {s : State} {p : Nat} (h : (match s.tracePlace p with
    | (_, some _) => false
    | (_, none) => true) = true) : ∃ t, s.tracePlace p = (t, none) := by
  split at h
  · nomatch h
  · rename_i t heq
    exact ⟨t, heq⟩
theorem witness_trace_drop : let s := losing 0x80000000
    ((s.pkg 0).tephra.flight = [record1] ∧ (s.pkg 0).shoots = []) ∧ ∃ t, (losingTaken 0x80000000).tracePlace 0 = (t, none) :=
  ⟨by decide +kernel, no_place (by decide +kernel)⟩
/-- The LOSS record goes to the buffer's start, and the record behind it; or the buffer has left its page between the two. -/
theorem loss_of {s : State} {f : State → Place → Bool} (h : (match s.tracePlace 0 with
    | (t, some a) => f t a
    | (_, none) => false) = true) : ∃ t a, s.tracePlace 0 = (t, some a) ∧ f t a = true := by
  split at h
  · rename_i t a heq
    exact ⟨t, a, heq, h⟩
  · nomatch h
def afterLoss (s t : State) (a : Place) : State :=
  (t.putRecord 0 ⟨9, BitVec.ofNat 64 (s.pkg 0).tephra.drops, (s.pkg 0).gt, 0⟩ (some a)).modPkg 0 fun k =>
    { k with tephra := { k.tephra with drops := 0 } }
theorem witness_trace_loss : let s := losing 0x40000
    ((s.pkg 0).tephra.flight = [record1] ∧ (s.pkg 0).tephra.drops ≠ 0 ∧ (s.pkg 0).shoots = []) ∧
    ∃ t a, (losingTaken 0x40000).tracePlace 0 = (t, some a) ∧
      (a == .dram (2 * 2 ^ 35 + 0x40000) && ((afterLoss s t a).tracePlace 0).2 == some (.dram (2 * 2 ^ 35 + 0x40020))) = true :=
  ⟨by decide +kernel, loss_of (by decide +kernel)⟩
/-- Its last 32 bytes of the 1 GiB page: the record behind the LOSS has no page. -/
theorem witness_trace_loss_end : let f (b : Word) : State := tracing fun t =>
      { t with tbase := b, tsize := 2, placed := 0xFE0, flight := [record1], drops := 3 }
    let s := f 0x3FFFF000
    ((s.pkg 0).tephra.flight = [record1] ∧ (s.pkg 0).tephra.drops ≠ 0) ∧
    ∃ t a, (s.modPkg 0 fun k => { k with tephra := { k.tephra with flight := [] } }).tracePlace 0 = (t, some a) ∧
      ((afterLoss s t a).tracePlace 0).2.isNone = true :=
  ⟨by decide +kernel, loss_of (by decide +kernel)⟩
theorem test_loss : (after (.traceRecord 0) (losing 0x40000)).dram.readNat (2 * 2 ^ 35 + 0x40000) 64 =
    wordsNat [9, 3, 0, 0, 5, 1, 2, 3] := by decide +kernel
theorem witness_emit : ((tracing fun t => { t with tctl := 2 }).pkg 0).tephra.tctl.getLsbD 0 = false ∧
    ((tracing id).pkg 0).tephra.tctl.getLsbD 0 = true ∧ ((tracing id).pkg 0).tephra.flight.length < 2048 ∧
    2048 ≤ ((tracing fun t => { t with flight := List.replicate 2048 record1 }).pkg 0).tephra.flight.length := by decide +kernel
theorem witness_tracing : let s := (tracing id).modNode 0 fun n => { n with cycle := 2048, clkOff := false, sample := 256 }
    let t := (s.pkg (pkgOf 0)).tephra
    t.tctl.getLsbD 0 = true ∧ t.tctl.getLsbD 1 = true ∧ (s.node 0).clkOff = false ∧
    2 ^ (min 10 (natBits t.tctl.toNat 8 4) + 10) ≤ ((s.node 0).cycle - (s.node 0).syncAt).toNat ∧ t.flight.length < 2048 ∧
    (s.node 0).mark = none ∧ t.sper - t.sper / 4 ≤ (s.node 0).sample ∧ (s.ctx ⟨0, .main⟩).act ≠ .idle ∧ (s.pkg 0).sessions = true := by
  decide +kernel
/-- A monitor of the level of core 0's Vent. -/
def monCtl : Word := 0x500
theorem witness_monitor : let m : Monitor := { ctl := monCtl }
    let s := (tracing fun t => { t with mons := [(2, m)] }).modNode 0 fun n => { n with cycle := 1024 }
    (2, m) ∈ (s.pkg 0).tephra.mons ∧ monNode 0 m.ctl = some 0 ∧ s.level 0 (natBits m.ctl.toNat 8 4) = some 0 ∧
    1024 ≤ ((s.node 0).cycle - m.last).toNat ∧ monNode 0 monCtl = some 0 ∧ s.session 0 true 0 = true := by decide +kernel
/-- Core 0 selected by TSEL, in the secure world or not, and monitor 2 on it. -/
def watchedCore (ns : Bool) : State :=
  (tracing fun t => { t with mons := [(2, { ctl := monCtl, lo := 3, hi := 9 })] }).modNode 0 fun n => { n with ns := ns }
theorem witness_reads : ((watchedCore false).pkg 0).tephra.sel 0 = some ⟨0, .main⟩ ∧ ((watchedCore false).node 0).ns = false ∧
    (∀ ns, monNode 0 (Table.get {} ((watchedCore ns).pkg 0).tephra.mons 2).ctl = some 0) ∧ (watchedCore false).session 0 false 0 = false ∧
    (watchedCore true).session 0 true 0 = true ∧ (Table.get {} ((watchedCore true).pkg 0).tephra.mons 2).lo < 2 ^ 32 ∧
    (Table.get {} ((watchedCore true).pkg 0).tephra.mons 2).hi < 2 ^ 32 := by decide +kernel
theorem test_monitor_read : (watchedCore true).readTephra 0 true 0x128 = 0x900000003 := by decide +kernel
theorem test_devid : devid 3 % 2 ^ 16 = 0x0F9B := by unfold devid; omega
theorem test_stop : ((after (.stopCore 0 true) (tracing id)).node 0).stop.map (·.reason) = some 0 := by decide +kernel
theorem witness_stop : let s := tracing id
    let u := s.modNode 0 fun n => { n with stop := some ⟨0, true, true, true⟩ }
    (s.pkg 0).tephra.sel 0 = some ⟨0, .main⟩ ∧ s.session 0 true 0 = true ∧ (u.node 0).stop.isSome = true ∧
    (u.pkg 0).tephra.sel 0 = some ⟨0, .main⟩ ∧ u.session 0 true 0 = true := by decide +kernel

/-! ### Boot, links, repair and power -/

theorem test_boot : ((after (.boot 0) State.reset).pkg 0).fw.booted = true ∧ ((after (.boot 0) State.reset).pkg 0).fw.identity = 1 := by
  decide +kernel
/-- Package 0 with its firmware changed. -/
def firm (f : Firmware → Firmware) : State := State.reset.modPkg 0 fun k => { k with fw := f k.fw }
def goodFirm (f : Firmware) : Bool := f.signed && f.flashing.isNone && decide (f.rollback ≤ f.version)
theorem witness_firmware : ((firm id).pkg 0).fw.booted = false ∧ goodFirm ((firm id).pkg 0).fw = true ∧
    goodFirm ((firm fun f => { f with signed := false }).pkg 0).fw = false ∧
    ((firm fun f => { f with signed := false }).pkg 0).fw.booted = false ∧
    ((firm fun f => { f with recovery := true }).pkg 0).fw.recovery = true ∧ ((firm id).pkg 0).mcDown = false ∧
    ((firm id).pkg 0).fw.flashing = none ∧ ((firm fun f => { f with flashing := some 3 }).pkg 0).fw.flashing = some 3 ∧
    (((firm id).modPkg 0 fun k => { k with mcDown := true }).pkg 0).mcDown = true := by decide +kernel
theorem witness_quote_reset : ((firm fun f => { f with booted := true }).pkg 0).fw.booted = true ∧ ((firm id).pkg 0).sessions = true ∧
    ¬((∃ d ∈ ((firm id).pkg 0).dies, d.2.trip = true) ∧ ∃ d ∈ ((firm id).pkg 0).dies, 850 ≤ d.2.tj) := by
  refine ⟨by decide +kernel, by decide +kernel, ?_⟩
  rintro ⟨⟨d, hd, _⟩, _⟩
  have h : ((firm id).pkg 0).dies = [] := by decide +kernel
  rw [h] at hd
  nomatch hd
/-- A die that has tripped and is still hot refuses the reset. -/
theorem witness_hot_reset : let s := State.reset.modPkg 0 fun k => { k with dies := [(1, { trip := true, tj := 900 })] }
    (s.pkg 0).sessions = true ∧ (1, ({ trip := true, tj := 900 } : DiePower)) ∈ (s.pkg 0).dies ∧
    65536 ≤ ((firm fun f => { f with booted := true, aliasUses := 65536 }).pkg 0).fw.aliasUses := by decide +kernel
theorem test_hot_reset : let s := State.reset.modPkg 0 fun k => { k with dies := [(1, { trip := true, tj := 900 })] }
    ((after (.deviceReset 0 true) s).pkg 0).dieBuf.map (·.cls) = [0x41] := by decide +kernel
/-- A package with one link, its spares and width. -/
def linkedBy (spare lanes : Nat) : State :=
  let x : Link := { up := true, spareIn := spare, spareOut := spare, lanesIn := lanes, lanesOut := lanes }
  let s := (firm fun f => { f with booted := true }).modPkg 0 fun k => { k with mask := 3, links := [(3, { x with far := some 1 })] }
  s.modPkg 1 fun k => { k with mask := 3, fw := { k.fw with booted := true }, links := [(5, { x with far := some 0 })] }
theorem witness_links : let x (s : State) : Link := Table.get {} (s.pkg 0).links 3
    ((linkedBy 2 16).pkg 0).anyUp = true ∧ (x (linkedBy 2 16)).far.isSome = true ∧ (x (linkedBy 2 16)).far ≠ some 0 ∧
    (linkedBy 2 16).peer 0 3 = some (1, 5) ∧ (linkedBy 2 16).linkOk 0 3 = true ∧ (linkedBy 0 7).linkOk 0 3 = false ∧
    0 < (x (linkedBy 2 16)).spareOut ∧ 8 ≤ (x (linkedBy 2 16)).lanesOut ∧ 0 < (x (linkedBy 2 16)).spareIn ∧
    (x (linkedBy 0 16)).spareIn = 0 ∧ (x (linkedBy 0 16)).spareOut = 0 ∧ 8 < (x (linkedBy 0 16)).lanesIn ∧
    8 < (x (linkedBy 0 16)).lanesOut ∧ (x (linkedBy 0 8)).spareOut = 0 ∧ (x (linkedBy 0 8)).lanesOut ≤ 8 ∧
    (x (linkedBy 0 8)).lanesIn ≤ 8 := by decide +kernel
theorem test_lane_failure : let t := after (.laneFailure 0 3 true) (linkedBy 0 8)
    (Table.get ({} : Link) (t.pkg 0).links 3).up = false ∧ (Table.get ({} : Link) (t.pkg 1).links 5).up = false ∧
    (Table.get ({} : Link) (t.pkg 1).links 5).lanesIn = 7 := by decide +kernel
def entry1 (gt : Word) : LogEntry := ⟨0, gt, 0x10, 0x7F, 0, 0⟩
theorem witness_log : let s := State.reset.modPkg 0 fun k => { k with dieBuf := [entry1 7, entry1 5] }
    let u := State.reset.modPkg 0 fun k => { k with dieBuf := [entry1 7], log := List.replicate 4096 (entry1 1) }
    (s.pkg 0).mcDown = false ∧ (s.pkg 0).dieBuf ≠ [] ∧ (s.pkg 0).log.length < 4096 ∧ (u.pkg 0).dieBuf ≠ [] ∧
    4096 ≤ (u.pkg 0).log.length := by decide +kernel
theorem test_log : ((after (.errorLogMove 0) (State.reset.modPkg 0 fun k => { k with dieBuf := [entry1 7, entry1 5] })).pkg 0).log =
    [entry1 5] := by decide +kernel
theorem witness_retire : let s := (withCode 1)
    let cores := s.groupCores 0 0
    isCaldera 0 = false ∧ pkgOf 0 = 0 ∧ (s.pkg 0).mcDown = false ∧ rowOf 0 ∉ (s.pkg 0).spares ∧ (s.live 0).part = some 0 ∧
    s.drained 0 cores = true ∧ cores.all (fun g => (s.live g).haltable && (s.node g).stop.isNone) = true ∧ 0 ∈ cores ∧
    rowOf 0 ∈ ((s.modPkg 0 fun k => { k with spares := [rowOf 0] }).pkg 0).spares ∧
    ((s.modPkg 0 fun k => { k with mcDown := true }).pkg 0).mcDown = true := by decide +kernel
theorem test_retire_bad : let t := after (.coreRetire 0 ⟨0, [(0, 0, 2)]⟩) ((withCode 1).modLive 0 fun m => m.wr 16 8 7)
    (findImg (t.node 0).stored (some 0)).spm.readNat 16 8 = 0 := by decide +kernel
/-- Rows of bank 5 of channel 0 are spared, or no spare is left; a word of it that cannot be read. -/
theorem witness_row_spare : Table.get 0 (State.reset.pkg 0).rowSpares 5 < 4 ∧
    4 ≤ Table.get 0 ((State.reset.modPkg 0 fun k => { k with rowSpares := [(5, 4)] }).pkg 0).rowSpares 5 ∧
    (0 : Nat) ∉ (State.reset.pkg 0).bankSpares ∧ ((State.reset.modPkg 0 fun k => { k with mcDown := true }).pkg 0).mcDown = true ∧
    0 ∈ ((State.reset.modPkg 0 fun k => { k with bankSpares := [0] }).pkg 0).bankSpares ∧
    3 ∈ ({ State.reset with dramBad := [3] } : State).dramBad := by decide +kernel
theorem witness_in_bank : inBank 0 0 (Config.dramRow 3).1 3 := ⟨by decide, by decide, by decide, rfl⟩
theorem test_clock : (Table.get ({} : DiePower) ((after (.currentCheck 0 1 4001) State.reset).pkg 0).dies 1).mhz = 2400 := by decide +kernel
theorem witness_power : let s := State.reset
    let u := State.reset.modPkg 0 fun k => { k with dies := [(0, { mhz := 2000 })] }
    (s.limitOf 0 0 = (2000, 2500)) ∧ (2000 : Nat) < 2001 ∧ u.limitOf 0 0 = (2000, 2500) ∧ 2000 + 100 ≤ 2500 ∧
    u.mayRaise 0 1500 2000 = true ∧ (1500 : Nat) ≤ 2000 ∧ (Table.get ({} : DiePower) (u.pkg 0).dies 0).mhz = 2000 ∧
    (Table.get ({} : DiePower) (u.pkg 0).dies 0).tj < 950 ∧ (s.pkg 0).mcDown = false := by decide +kernel
/-- 1,000 A on each die: a step up would exceed 4,000 A. -/
theorem test_may_raise : let u := State.reset.modPkg 0 fun k =>
      { k with dies := [(0, { mhz := 2000 })], telem := [(256, 1000), (257, 1000), (258, 1000), (259, 1000)] }
    u.mayRaise 0 1500 2000 = false := by decide +kernel

/-! ### Words, steps and frames -/

theorem test_step : (got (step (State.reset.withFetchWord 32 0b00_000010_000101_000110_111111111111))).now.sr 5 =
    0xFFFFFFFFFFFFFFFF := by decide +kernel
theorem test_step_event : ((got (step { State.reset with agenda := [.event (.currentCheck 0 1 4001)] })).pkg 0).dies = [(1, { mhz := 2400 })] := by
  decide +kernel
theorem test_step_lapse : ((got (step { State.reset with agenda := [.lapse 5] })).pkg 0).gt = 2 := by decide +kernel
/-- How a read ends: a value that `f` takes, a trap that `e` takes, or a wait. -/
def ends {α : Type} (f : α → Bool) (e : Trap → Bool) (w : Bool) (r : Read α) : Bool :=
  match r with
  | .ok x => f x
  | .error x => e x
  | .held => w
theorem fetched {s : State} {i : Inst} {f : Read (Option Instr) → Bool} (h : f (s.fetchInstr i).2 = true) :
    ∃ t r, s.fetchInstr i = (t, r) ∧ f r = true := ⟨_, _, rfl, h⟩
/-- An issue of core 0's MAIN, and the state in which it fetches. -/
def mainInst : Inst := ⟨0, .main⟩
def issuing (f : Ctx → Ctx) (w : Nat) : State := { (withCode w).modCtx mainInst f with agenda := [], cur := mainInst }
def fetching (f : Ctx → Ctx) (w : Nat) : State := ((issuing f w).nextCycle 0).lastMark mainInst
/-- Each way in which a fetch ends: ADDI, an unlisted pattern, a misaligned address, and a wait for the store of another instruction to
the same word. -/
theorem witness_step : (withCode 0x0251_B000).agenda = [.issue mainInst] ∧ ((issuing id 1).ctx mainInst).late = false ∧
    (issuing id 1).wfiOver mainInst = false ∧ (issuing id 1).handlerDue 0 = none ∧ (issuing id 1).mayIssue mainInst = true ∧
    ((issuing id 1).ctx mainInst).changed = [] ∧ (issuing id 1).due mainInst = none ∧
    ((issuing id 1).nextCycle 0).outranked mainInst = false ∧ ((issuing id 1).nextCycle 0).breaks mainInst = [] ∧
    (∃ t r, (fetching id 1).fetchInstr mainInst = (t, r) ∧ ends (· == some .nop) (fun _ => false) false r = true) ∧
    (∃ t r, (fetching id 0x24000000).fetchInstr mainInst = (t, r) ∧ ends (· == none) (fun _ => false) false r = true) ∧
    (∃ t r, (fetching (fun c => { c with pc := 2 }) 1).fetchInstr mainInst = (t, r) ∧
      ends (fun _ => false) (· == { cause := .alignment, eaddr := 2 }) false r = true) :=
  by
  refine ⟨?_, ?_, ?_, ?_, ?_, ?_, ?_, ?_, ?_, fetched ?_, fetched ?_, fetched ?_⟩ <;> decide +kernel
/-- MAIN after a task of WORK of higher standing in the order, a handler that is due, a late chance, a WFI that is over, a context that
waits, and an event's agenda. -/
theorem witness_step_order :
    let behind := (issuing id 1).modNode 0 fun n => { n with ptr := .work }
    let busy := behind.modCtx ⟨0, .work⟩ fun c => { c with act := .loop }
    let p : Parcel := { entry := 0, pay := [], sender := 0, sent := 0, tag := false, w8 := false, wtop := false, part := none, ns := false }
    let parcel := (issuing id 1).modLive 0 fun m => { m with qL := [p] }
    ((busy.nextCycle 0).outranked mainInst = true ∧ busy.mayIssue mainInst = true ∧ busy.due mainInst = none) ∧
    parcel.handlerDue 0 ≠ none ∧ ((issuing (fun c => { c with late := true }) 1).ctx mainInst).late = true ∧
    (issuing (fun c => { c with wait := .wfi 1 }) 1 |>.modPkg 0 fun k => { k with gt := 5 }).wfiOver mainInst = true ∧
    (issuing (fun c => { c with wait := .wfi 0 }) 1).mayIssue mainInst = false := by decide +kernel
/-- MAIN with an instruction that has issued and waits; and a word of a scratchpad that an error befalls. -/
theorem witness_step_kept : let s := fetching (fun c => { c with wait := .fence, insn := some (.fence .sys) }) 1
    (s.ctx mainInst).wait ≠ .none ∧ (s.ctx mainInst).insn = some (.fence .sys) ∧
    (issuing (fun c => { c with wait := .fence, insn := some (.fence .sys) }) 1).mayIssue mainInst = true := by decide +kernel
theorem test_step_kept : (got (step { (issuing (fun c => { c with wait := .fence, insn := some (.fence .sys) }) 1) with
    agenda := [.issue mainInst] })).now.wait = .none := by decide +kernel
theorem test_step_upset : (got (step { State.reset with agenda := [.upset (.spm 0 none 0x44)] })).bad (.spm 0 none 0x40) = true := by
  decide +kernel
theorem decode_of {bs rest : List Byte} {x : Instr} (h : (match decode bs with
    | .ok y => y == (x, rest)
    | .error _ => false) = true) : decode bs = .ok (x, rest) := by
  split at h
  · rename_i y heq
    rw [heq, beq_iff_eq.mp h]
  · nomatch h
theorem goes {o : Host.Outcome State Fault Refusal} (h : (match o with
    | .next _ => true
    | .fault _ => false
    | .refused _ => false) = true) : o = .next (got o) := by
  split at h
  · rfl
  · nomatch h
  · nomatch h
theorem witness_words : ∃ base q t1 t, (withCode 1).fetch ⟨0, .main⟩ 0 = (t1, .ok base) ∧ (0 : Word).toNat % 4 = 0 ∧
    t1.fetchWords ⟨0, .main⟩ 4 (lenOfBase base / 4 - 1) = (t, .ok q) ∧
    decode (leBytes 20 (base + 2 ^ 32 * q)) = .ok (.nop, List.replicate 16 0) := by
  have h : (match (withCode 1).fetch ⟨0, .main⟩ 0 with
    | (_, .ok b) => b == 1
    | (_, .error _) => false
    | (_, .held) => false) = true := by decide +kernel
  split at h
  · rename_i t b heq
    have hb := beq_iff_eq.mp h
    subst hb
    exact ⟨1, 0, t, t, heq, rfl, rfl, decode_of (by decide +kernel)⟩
  · nomatch h
  · nomatch h
theorem witness_event_step : Instr.happens (.mcRestartComplete 0) = true := by decide
theorem witness_round_trip : (Instr.add ⟨1, 2, .reg 3⟩).WellFormed ∧ (Instr.add ⟨1, 2, .reg 3⟩).enc.isSome = true ∧
    decode [0xC0, 0x20, 0x04, 0x01, 7] = .ok (.add ⟨1, 2, .reg 3⟩, [7]) :=
  ⟨by decide, by decide, decode_of (by decide +kernel)⟩
theorem witness_frame : registerOnly (.add ⟨1, 2, .reg 3⟩) = some ([.s 1], false) ∧
    exec (.add ⟨1, 2, .reg 3⟩) (st []) = .next (after (.add ⟨1, 2, .reg 3⟩) (st [])) :=
  ⟨rfl, goes (by decide +kernel)⟩
theorem witness_mem : State.reset.memWf ∧ State.reset.padsWf ∧ step State.reset = .next (got (step State.reset)) :=
  ⟨⟨rfl, rfl, rfl⟩, fun _ => ⟨rfl, fun _ h => h.elim (nomatch ·) (nomatch ·)⟩, goes (by decide +kernel)⟩
/-- A slot of a formula that reads s0, alone. -/
theorem witness_zero_source : let c : Ctx := { slots := [(2, { valid := true, dest := 5, desc := shiftAdd - 3 })] }
    (List.range 16).all (fun j => !((c.slot j).valid && !(c.slot j).held) || j == 2) = true ∧ (c.slot 2).valid = true ∧
    (c.slot 2).held = false ∧ 0 ∈ (c.slot 2).srcs ∧ (c.slot 2).dest ≠ 0 := by decide +kernel

/-! ### Witnesses: values and rounding -/

/-- The premises of `rounds` for a magnitude `v`: it lies between grid points `lo` and `lo + 1`. -/
def between (f : Fmt) (wtop : Bool) (v : Rat) (lo : Nat) : Bool :=
  decide (lo < topCode f wtop) && decide (gridVal f wtop lo ≤ v) && !decide (gridVal f wtop (lo + 1) ≤ v)
-- the tie of FP16 below overflow, one below the smallest subnormal, and Wedge8's 1.0625 between 1.0 and 1.125
theorem witness_rounds_top : between .f16 false 65520 0x7BFF = true := by decide +kernel
theorem witness_rounds_small : between .f16 false (1 / 2 ^ 25) 0 = true := by decide +kernel
theorem witness_rounds_w8 : between .w8 false (33 / 32) 80 = true := by decide +kernel
theorem witness_rounds_over : topVal .f16 false ≤ 65536 ∧ topVal .w8 false ≤ 8 ∧ topVal .w8 true ≤ 31 / 4 := by decide +kernel
theorem test_round_f16_tie : (roundTo .f16 ⟨false, 0, 0⟩ .rne 0 (.fin false 65520 0)) = ⟨0x7C00, FFlags.ovf, false⟩ ∧
    (roundTo .f16 ⟨false, 0, 0⟩ .rtz 0 (.fin false 65520 0)) = ⟨0x7BFF, FFlags.nx, false⟩ := by decide +kernel
-- a sum of finite terms that is 0 and one that is not; NaN and infinities
theorem witness_sums : let z : List XNum := [.fin false 1 0, .fin true 1 0]
    (z.map numVal).sum = 0 ∧ z ≠ [] ∧ ([XNum.fin true 0 0].map numVal).sum = 0 ∧ ([XNum.fin false 3 0].map numVal).sum ≠ 0 ∧
    Fmt.f64.isFloat = true := by decide +kernel
theorem test_sum_zero_rdn : sumRound .f64 ⟨false, 0, 0⟩ .rdn 0 [.fin false 1 0, .fin true 1 0] = ⟨2 ^ 63, 0, false⟩ := by decide +kernel
theorem test_sum_inf : sumRound .f32 ⟨false, 0, 0⟩ .rne 0 [.inf false, .inf true] = ⟨0x7FC00000, FFlags.nv, false⟩ := by decide +kernel
-- 1 / 0, 0 / 0, 1 / 3 and the roots of 2 and of -1, by their codes
theorem witness_quotients : let n (x : Nat) : XNum := Fmt.f32.num false x
    (n 0x7FC00000).isNan = true ∧ n 0x7F800000 = .inf false ∧ n 0xFF800000 = .inf true ∧ (∃ k, n 0 = .fin false 0 k) ∧
    (∃ m k, m ≠ 0 ∧ n 0x3F800000 = .fin false m k) ∧ (∃ m k, m ≠ 0 ∧ n 0xBF800000 = .fin true m k) ∧ Fmt.f32 ≠ .w8 :=
  ⟨by decide +kernel, by decide +kernel, by decide +kernel, ⟨_, rfl⟩, ⟨_, _, by decide +kernel, rfl⟩, ⟨_, _, by decide +kernel, rfl⟩,
    by decide +kernel⟩
theorem test_div_by_zero : Fmt.f32.divBits ⟨false, 0, 0⟩ .rne 0 0x3F800000 0x80000000 = ⟨0xFF800000, FFlags.dz, false⟩ := by
  decide +kernel
theorem test_sqrt_negative : Fmt.f32.sqrtBits ⟨false, 0, 0⟩ .rne 0 0xBF800000 = ⟨0x7FC00000, FFlags.nv, false⟩ := by decide +kernel
theorem witness_compares : less (Fmt.f16.num false 0xBC00) (Fmt.f16.num false 0x3C00) ∧ (Fmt.f16.num false 0x7E00).isNan = true ∧
    (Fmt.f16.num false 0x7D00).isSig = true ∧ ¬less (Fmt.f16.num false 0) (Fmt.f16.num false 0x8000) :=
  ⟨show numVal (Fmt.f16.num false 0xBC00) < numVal (Fmt.f16.num false 0x3C00) by decide +kernel, by decide +kernel, by decide +kernel,
    show ¬numVal (Fmt.f16.num false 0) < numVal (Fmt.f16.num false 0x8000) by decide +kernel⟩
theorem test_min_zeros : (Fmt.f16.minmaxBits false 0 0x8000).bits = 0x8000 ∧ (Fmt.f16.minmaxBits true 0 0x8000).bits = 0 := by
  decide +kernel
theorem test_fclass : Fmt.f16.classBits 0x8001 = 2 ^ 2 ∧ Fmt.f16.classBits 0x7D00 = 2 ^ 8 := by decide +kernel
-- 127.5 and 2.5 to INT8; the ranges of w = 8
theorem witness_to_int : (127 : Rat) ≤ |numVal (.fin false 255 (-1))| ∧ |numVal (.fin false 255 (-1))| < 127 + 1 ∧
    (2 ^ (8 - 1) - 1 : Int) < 128 := by decide +kernel
theorem test_to_int : toIntRound false 8 .rne (.fin false 255 (-1)) 0 = ⟨127, FFlags.nv, false⟩ ∧
    toIntRound false 8 .rne (.fin true 5 (-1)) 0 = ⟨0xFE, FFlags.nx, false⟩ := by decide +kernel
theorem witness_conversion : Fmt.f32.isFloat = true ∧ Fmt.i8.isFloat = false ∧ Fmt.w8.isFloat = true := by decide
-- FP16 -infinity, the smallest subnormal and 1.5; Wedge8 1.125
theorem test_codes : Fmt.f16.num false 0xFC00 = .inf true ∧ numVal (Fmt.f16.num false 1) = 1 / 2 ^ 24 ∧
    numVal (Fmt.f16.num false 0x3E00) = 3 / 2 ∧ numVal (Fmt.w8.num false 82) = 9 / 8 := by decide +kernel
theorem witness_codes : Fmt.f16 ∈ [Fmt.f64, .f32, .f16, .bf16] ∧ 31 < 2 ^ (ieeeShape .f16).1 ∧ 1 < 2 ^ (ieeeShape .f16).2.1 ∧
    2 ^ (ieeeShape .f16).1 - 1 = 31 := by decide

/-! ### Witnesses: formulas -/

/-- A slot of one operation: sources s3, s4 and s5. -/
def oneOp (opc : Nat) : BitVec 256 := BitVec.ofNat 256 (3 + 4 * 2 ^ 7 + 5 * 2 ^ 14 + fop opc 1 2 3 * 2 ^ 24)
theorem witness_operation_codes : ∀ opc, opc < 0x14 → fOps (oneOp opc).toNat = 1 ∧ opOpc (fOp (oneOp opc).toNat 0) = opc ∧
    ∀ j, j < 3 → opSel (fOp (oneOp opc).toNat 0) j ≤ 7 := by decide +kernel
/-- Slot 3 makes s2 of s3 + s4, slot 1 the running sum s6 of s2, and slot 5 checks s3. -/
def chained : Ctx :=
  { s := [(3, 10), (4, 20), (5, 15)]
    slots := [(1, { desc := BitVec.ofNat 256 (2 + 0x7F * 2 ^ 7 + 0x7F * 2 ^ 14 + fop 0x10 1 0 0 * 2 ^ 24), dest := 6, valid := true, accum := 5 }),
      (3, { desc := oneOp 1, dest := 2, valid := true }), (5, { desc := oneOp 0x0F, dest := 7, valid := true })] }
theorem witness_in_order : inOrder chained [3, 1, 5] ∧ [3, 1, 5].Nodup ∧
    ∀ k, k ∈ [3, 1, 5] ↔ k < 16 ∧ (chained.slot k).valid = true ∧ (chained.slot k).held = false := by
  refine ⟨by unfold inOrder inOrder inOrder inOrder; decide +kernel, by decide, fun k => ?_⟩
  by_cases h : k < 16
  · revert k; decide +kernel
  · exact ⟨fun hk => by simp at hk; omega, fun hk => absurd hk.1 h⟩
-- s3 + s4 = 30, the running sum 5 + 30, and the check of 10 in 20 to 15, which fails
theorem test_in_order : let d := chained.retire {} 4 [.s 3] .seq
    d.sr 2 = 30 ∧ d.sr 6 = 35 ∧ d.fcheck = some ⟨5, some 0⟩ := by decide +kernel

/-! ### Addresses, walks and traps of accesses -/

-- the worked encodings of R29: from any core, and from x = 0, y = 15
theorem test_locate_abs : (withCode 1).locate 0 .as 0x8116400000012340 = some (.far (nodeAt 0 2 5 9) 0x12340) := by decide +kernel
theorem test_locate_rel : (withCode 1).locate (nodeAt 0 0 0 15) .as 0xA07C800000000100 = some (.far (nodeAt 0 0 15 1) 0x100) := by
  decide +kernel
-- CLI: byte 0 of word 11 lies at word 1 of the fourth core of the cluster
theorem test_locate_cli : (withCode 1).locate (nodeAt 0 0 8 3) .cli 0x58 = some (.far (nodeAt 0 0 11 3) 8) := by decide +kernel
theorem test_locate_own : (withCode 1).locate 0 .loc 0x8FFFF = some (.own 0x8FFFF) ∧ (withCode 1).locate 0 .loc 0x90000 = none ∧
    (withCode 1).locate (nodeAt 0 0 16 3) .loc 0x40000 = none := by decide +kernel
/-- A word of each clause of where an address lands: virtual, malformed, a package that is absent, ABS, REL. -/
theorem witness_located : (0x40 : Word).getLsbD 63 = false ∧ natBits (0x8000000000100000 : Word).toNat 20 26 ≠ 0 ∧
    2 ≤ natBits (0xC000000000000000 : Word).toNat 61 2 ∧ natBits (0xA080000000000000 : Word).toNat 55 6 ≠ 0 ∧
    16 < natBits (absCoord 0 0 + 0x44000000000000).toNat 50 5 ∧
    natBit ((withCode 1).pkg 0).mask (natBits (0x8200000000000000 : Word).toNat 57 4) = false ∧
    (let f := natBits (0x8116400000012340 : Word).toNat;
      (0x8116400000012340 : Word).getLsbD 63 = true ∧ f 20 26 = 0 ∧ f 61 2 = 0 ∧ natBit ((withCode 1).pkg 0).mask (f 57 4) = true ∧
      f 50 5 ≤ 16) ∧
    (let f := natBits (0xA07C800000000100 : Word).toNat;
      (0xA07C800000000100 : Word).getLsbD 63 = true ∧ f 20 26 = 0 ∧ f 61 2 = 1 ∧ f 55 6 = 0) ∧
    isCaldera 0 = false ∧ isCaldera (nodeAt 0 0 16 3) = true := by decide +kernel
/-- Region 2 holds offsets 0x40 to 0x7F, kind 1, read alone. -/
def regional : Img := { prb := [(2, 2 ^ 31 + 2 ^ 28 + 2 ^ 27 + 0x40)], prl := [(2, 0x40)] }
theorem witness_regions : natBit (Table.get 0 regional.prb 2).toNat 31 = true ∧
    natBits (Table.get 0 regional.prb 2).toNat 6 14 ≤ 0x48 / 64 ∧ 0x48 / 64 ≤ natBits (Table.get 0 regional.prl 2).toNat 6 14 ∧
    (∀ j, j < 2 → natBit (Table.get 0 regional.prb j).toNat 31 = false) ∧ regional.regionKind true false false .load 0x48 8 = some 1 ∧
    regional.regionKind true false false .store 0x48 8 = none ∧ regional.regionKind true false false .load 0x7C 8 = none ∧
    regional.regionKind true false false .load 0x80 8 = some 1 ∧ regional.regionKind false false false .load 0x80 8 = none := by
  decide +kernel
/-- The tables of R368's example, below a root at DPA 0x10000000. -/
def tables (e0 e3 : Nat) : State :=
  [(88, 0x10000000), (0x10000030, e3), (0x10001000, 0x8000000010002001), (0x10002000, 0x8000000010003001), (0x10003000, e0)].foldl
    (fun s x => s.setDramWord 0 x.1 (BitVec.ofNat 64 x.2)) (withCode 1)
def tableEntry : Nat := 0x8000000010001001
theorem test_walk : (tables 0x200001F7 tableEntry).walk 0 (some 0) 0x30000000000 = .leaf 0x200001F7 4096 ∧
    (tables 0x200001F6 tableEntry).walk 0 (some 0) 0x30000000000 = .absent ∧
    (tables tableEntry tableEntry).walk 0 (some 0) 0x30000000000 = .malformed ∧
    (tables 0 (tableEntry + 2)).walk 0 (some 0) 0x30000000000 = .malformed := by decide +kernel
theorem test_walk_error : ({ tables 0x200001F7 tableEntry with dramBad := [0x10001000 / 8] } : State).walk 0 (some 0) 0x30000000000 = .error := by
  decide +kernel
theorem test_home : homeOf 0 0x200001F7 0x30000000000 = .mem 0 0 0 ∧ homeOf 0 0x200001F7 0x30000000100 = .mem 0 0 1 := by decide +kernel
-- interleaved: the granule 0x13 of the page lies in die 3 xor 1
theorem test_home_interleaved : homeOf 0 0x3F 0x13A00 = .mem 0 2 10 := by decide +kernel
/-- Every table above the leaf of that example, each with its entry clean. -/
theorem witness_walk : let s := tables 0x200001F7 tableEntry
    let va := 0x30000000000
    let t : Nat → Nat := fun j => [0x10003000, 0x10002000, 0x10001000, 0x10000000].getD j 0
    let dpa (j : Nat) : Nat := t j + 8 * natBits va (12 + 9 * j) 9
    let e (j : Nat) : Nat := (s.dramWord 0 (dpa j)).toNat
    va < 2 ^ 48 ∧ t 3 = (s.partWord 0 0 11).toNat ∧ (∀ j, j < 4 → s.dramOk 0 (s.partNs 0 0) (dpa j) = true ∧
    dramKey 0 (dpa j) / 8 ∉ s.dramBad) ∧
    (∀ j, j < 4 → 0 < j → natBit (e j) 0 = true ∧ natBit (e j) 63 = true ∧ natBits (e j) 1 11 = 0 ∧ natBits (e j) 37 15 = 0 ∧
      natBits (e j) 52 11 = 0 ∧ t (j - 1) = natBits (e j) 12 25 * 4096) ∧
    natBit (e 0) 0 = true ∧ natBit (e 0) 63 = false := by decide +kernel
/-- A leaf of each placement, and a leaf of records. -/
theorem witness_leaves : natBits 0x3F 8 2 = 0 ∧ natBits 0x13F 8 2 = 1 ∧ natBits 0x23F 8 2 = 2 ∧ natBits 0x33F 8 2 = 3 ∧
    natBits 0x200001F7 6 2 = 3 ∧ pageCheck (needRec true true 2) true true 0x200001F7 = none ∧
    pageCheck .load true true 0x200001F7 = some .kind ∧ pageCheck .store true true 0x3B = some .permission ∧
    pageCheck .atomic true true 0x33F = some .kind := by decide +kernel
/-- An access that finds: nothing, another core, the own core, the page at 0 and no page. -/
theorem witness_places_found : let s := withCode 1
    let i : Inst := ⟨0, .main⟩
    s.locate 0 .loc 0x90000 = none ∧ s.locate 0 .as (absCoord 5 0x40).toNat = some (.far 5 0x40) ∧
    s.locate 0 .loc 0x40 = some (.own 0x40) ∧ (s.live 0).regionKind true (s.node 0).ns (s.node 0).ns .load 0x40 8 = some 1 ∧
    s.locate 0 .as 0x40 = some .virt ∧ s.cachedPage 0 (s.partOf i) 0x40 = none ∧
    (∃ leaf size, s.walk 0 (s.partOf i) 0x40 = .leaf leaf size ∧ pageCheck .load (!(s.ctx i).priv) (s.node 0).ns leaf = none) ∧
    s.locate 0 .as 0x80000000 = some .virt ∧ s.walk 0 (s.partOf i) 0x80000000 = .absent := by
  refine ⟨by decide +kernel, by decide +kernel, by decide +kernel, by decide +kernel, by decide +kernel, by decide +kernel, ?_,
    by decide +kernel, by decide +kernel⟩
  exact ⟨0x97F, 2 ^ 30, by decide +kernel, by decide +kernel⟩

theorem found_error {s : State} {i : Inst} {n : Need} {m : Mode} {k v : Nat} {e : Cause × Nat} (h : (match s.find1 i n m k v with
    | (_, .error x) => x == e
    | (_, .ok _) => false) = true) : ∃ t, s.find1 i n m k v = (t, .error e) := by
  split at h
  · rename_i t x heq
    exact ⟨t, by rw [heq, beq_iff_eq.mp h]⟩
  · nomatch h
/-- LD to an address that is no multiple of 8, and to one of no page; NSYM to one that is no multiple of 64. -/
theorem witness_mem_traps : let o : LdOp := ⟨3, 1, .as, .short 0, none⟩
    let s (v : Word) : State := (withCode 1).modCtx ⟨0, .main⟩ fun c => { c with s := [(1, v)] }
    (s 0x41).ready (ldUse o) ∧ (s 0x41).acqOpen (s 0x41).cur = false ∧ (ldMem o (s 0x41).now).size = 8 ∧
    (ldMem o (s 0x41).now).lanes.map (fun a => a.v) = [0x41] ∧
    (s 0x80000000).ready (ldUse o) ∧ (ldMem o (s 0x80000000).now).lanes.map (fun a => a.v) = [0x80000000] ∧
    (∃ t, (s 0x80000000).find1 (s 0x80000000).cur (ldMem o (s 0x80000000).now).need .as 8 0x80000000 = (t, .error (.pageNotPresent, 0))) ∧
    (ports 0x48 0).ready (netUse (ports 0x48 0) [.s 1] [.s 5] allCtxs) ∧ ((ports 0x48 0).now.sr 1).toNat % 64 ≠ 0 :=
  ⟨ready_of (by decide +kernel), by decide +kernel, by decide +kernel, by decide +kernel, ready_of (by decide +kernel), by decide +kernel,
    found_error (by decide +kernel), ready_of (by decide +kernel), by decide +kernel⟩
def ldFrom (v : Word) : State := after (.ld ⟨3, 1, .as, .short 0, none⟩) ((withCode 1).modCtx ⟨0, .main⟩ fun c => { c with s := [(1, v)] })
theorem test_page_trap : (ldFrom 0x80000000).now.ecause = 11 ∧ (ldFrom 0x80000000).now.eaddr = 0x80000000 ∧
    (ldFrom 0xC000000000000000).now.ecause = 10 ∧ (ldFrom 0x41).now.ecause = 8 := by decide +kernel

/-! ### Units, rules and images -/

/-- WORK of the record's home running the dispatched rule, its PRST #1 made or not. -/
def ruleRuns (made : Bool) : State :=
  let t := got (execRecordRuleStart home dispatched)
  { t.modCtx ⟨home, .work⟩ (fun c => { c with act := .rule (3 * 2 ^ 35) made }) with cur := ⟨home, .work⟩ }
theorem witness_done_rule : (ruleRuns true).ready (doneUse (ruleRuns true) []) ∧ (ruleRuns true).now.act = .rule (3 * 2 ^ 35) true ∧
    (ruleRuns false).ready (doneUse (ruleRuns false) []) ∧ (ruleRuns false).cur.ctx = .work ∧
    (ruleRuns false).now.act = .rule (3 * 2 ^ 35) false ∧ (ruleRuns false).heldUpdates (ruleRuns false).cur.node = [] :=
  ⟨ready_of (by decide +kernel), by decide +kernel, ready_of (by decide +kernel), by decide +kernel, by decide +kernel, by decide +kernel⟩
theorem test_done_rule : (after .done (ruleRuns false)).epoch (3 * 2 ^ 35) = 1 ∧ (after .done (ruleRuns false)).busy (3 * 2 ^ 35) = false ∧
    (after .done (ruleRuns true)).epoch (3 * 2 ^ 35) = 0 ∧ (after .done (ruleRuns true)).now.act = .idle := by decide +kernel
/-- A context of messages lacks s16, v and h registers; a use below its level, one in a slot, and one that writes a bound register. -/
theorem witness_any_use : ¬hasReg .msgL (.s 16) ∧ ¬hasReg .msgH (.v 0) ∧ ¬hasReg .work (.h 0) ∧ hasReg .work (.v 15) ∧
    hasReg .main (.s 63) ∧
    (inCtx .main fun c => { c with priv := false }).now.priv = false ∧
    (inCtx .main fun c => { c with dslot := some 0 }).now.dslot.isSome = true ∧
    ∃ j, j < 16 ∧ (bound.now.slot j).valid = true ∧ (bound.now.slot j).dest = 2 := by
  simp only [hasReg]
  exact ⟨by decide, by decide, by decide, by decide, by decide, by decide +kernel, by decide +kernel, 0, by decide +kernel⟩
/-- A handler of a Wedge8 parcel whose context has the other form of the top code: format-mode at its entry (R170). -/
def wedged (w : Bool) : State := (withCode 1).modLive 0 fun m => { m with qL := [{ parcelOf (some 0) 3 with w8 := true, wtop := w }] }
theorem test_handler_format : let t := after (.handlerStart 0) (wedged true)
    (t.ctx ⟨0, .msgL⟩).ecause = 14 ∧ (t.ctx ⟨0, .msgL⟩).epc = 0x100 ∧ (t.ctx ⟨0, .msgL⟩).priv = true ∧
    (t.ctx ⟨0, .msgL⟩).act = .handler { parcelOf (some 0) 3 with w8 := true, wtop := true } := by decide +kernel
theorem witness_handler_format : (∃ k q m, ((wedged true).live 0).nextHandler = some (k, q, m)) ∧ (wedged true).up 0 = true ∧
    (wedged true).handlersHeld 0 .msgL = false ∧ (((wedged true).live 0).ctx .msgL).wtop = false :=
  ⟨next_of (by decide +kernel), by decide +kernel, by decide +kernel, by decide +kernel⟩

/-- Ring 3 of MAIN, tied to channel 0, with 40 of the 64 bytes of its next tile written. -/
def tiedRing (s : State) (tie : Nat) : State :=
  s.modCtx ⟨0, .main⟩ fun c => { c with h := [(3, mkHandle tie 2 6 0)], part := [(3, 40)] }
theorem test_fill : let m := (after (.channelGroup 0 0) (tiedRing copyRead 4)).live 0
    natBits (m.main.hr 3).toNat 102 16 = 1 ∧ Table.get 0 m.main.part 3 = 12 := by decide +kernel
theorem witness_tied : let v := (((tiedRing copyRead 4).live 0).main.hr 3).toNat
    natBit v 121 = true ∧ natBits v 118 3 = 4 ∧ Table.get 0 ((tiedRing copyRead 4).live 0).main.part 3 < 2 ^ natBits v 73 4 ∧
    (natBits v 102 16 + 2 ^ 16 - natBits v 86 16) % 2 ^ 16 ≤ natBits v 77 9 ∧
    natBits (((tiedRing copyRead 5).live 0).main.hr 3).toNat 118 3 ≠ 4 ∧ (∃ t, (tiedRing copyRead 4).nextGroup 0 0 = .moved t) ∧
    (∃ t, (tiedRing copyRead 5).nextGroup 0 0 = .moved t) := by
  refine ⟨by decide +kernel, by decide +kernel, by decide +kernel, by decide +kernel, by decide +kernel, moved_of (by decide +kernel),
    moved_of (by decide +kernel)⟩

/-- A gang of two cores, whose second member has this pair of formats; both run grains of a launch, or neither does. -/
def chord2 (q : DotPair) (grains : Bool) : State :=
  let s := (withCode 1).modLive 0 fun m => { m with gmma := some { gm .arrived with gangw := 1 } }
  let s := s.modLive 1 fun m => { m with part := (s.live 0).part, gmma := some { gm .arrived with gangw := 1, pair := q } }
  if grains then [0, 1].foldl (fun s g => s.modCtx ⟨g, .main⟩ fun c => { c with act := .grain 1 g }) s
  else [0, 1].foldl (fun s g => s.modCtx ⟨g, .main⟩ fun c => { c with act := .idle }) s
theorem test_chord_mismatch : let t := after (.chordClose 0) (chord2 (.f16 .rne) true)
    (t.live 0).gmma = none ∧ (t.live 1).gmma = none ∧
    (t.ctx ⟨1, .main⟩).deferred.map (fun x => (x.cause, x.code)) = [(.operandFormat, 1)] := by
  decide +kernel
theorem test_chord_grainless : let t := after (.chordClose 0) (chord2 (.bf16 .rne) false)
    (t.live 0).gmma = none ∧ (t.ctx ⟨1, .main⟩).deferred.map (fun x => (x.cause, x.code)) = [(.illegalSequence, 5)] := by decide +kernel
theorem witness_chord_fails : let s := chord2 (.f16 .rne) true
    gangOf 0 1 = [0, 1] ∧ s.strays 0 [0, 1] = false ∧ s.up 0 = true ∧ (s.live 0).gmma = some { gm .arrived with gangw := 1 } ∧
    [0, 1].all (fun n => (s.node n).stop.isNone && (s.chordOf 0 1 n).any fun y => y.phase == .arrived) = true ∧
    ((s.chordOf 0 1 1).map (·.pair)) = some (.f16 .rne) ∧ (chord2 (.bf16 .rne) false |>.live 0).main.act = .idle := by decide +kernel

/-- A command on partition 1 whose descriptor is not well formed, and one whose clusters partition 0 has in part. -/
def badDesc : State := (commanded 1 false).setDramWord 0 272 1
def overlap : State := ((commanded 1 false).setDramWord 0 0 3).setDramWord 0 16 0x8000000000000000
theorem witness_refused : (commanded 1 true).partValid 0 1 = true ∧ badDesc.partValid 0 1 = false ∧ badDesc.descOk 0 1 = false ∧
    overlap.partValid 0 1 = false ∧ overlap.descOk 0 1 = true ∧ overlap.overlapped 0 1 = true ∧
    (commanded 2 false).partValid 0 1 = false ∧ ((commanded 2 false).pkg 0).partBusy = some (2, 1) := by decide +kernel
theorem test_refused : ((after (.alloc 0 1) (commanded 1 true)).pkg 0).partResult = 5 ∧
    ((after (.alloc 0 1) badDesc).pkg 0).partResult = 1 ∧
    ((after (.alloc 0 1) overlap).pkg 0).partResult = 2 ∧ ((after (.free 0 1) (commanded 2 false)).pkg 0).partResult = 1 ∧
    ((after (.reside 0 1) (commanded 3 false)).pkg 0).partResult = 1 := by decide +kernel
/-- A queue of partition 1 that is enabled: FREE is refused. -/
def queued1 : State := ((commanded 2 true).modPkg 0 fun k => { k with qtbase := 0x100000 }).setDramWord 0 0x100008
  (BitVec.ofNat 64 (2 ^ 63 + 2 ^ 52 + 4 * 2 ^ 15))
theorem witness_free_refused : queued1.partValid 0 1 = true ∧ (queued1.pkg 0).partBusy = some (2, 1) ∧ queued1.queuesOn 0 1 = true :=
  ⟨by decide +kernel, by decide +kernel, List.any_eq_true.mpr ⟨0, List.mem_range.mpr (by decide), by decide +kernel⟩⟩

/-- An image of partition 1 with dirty region 5; the descriptor's base of its area has no byte of zeros. -/
def anImg : Img := { part := some 1, dirty := [5], spm := [(5 * 4096 + 3, 9)], fe := [] }
def areas : State := (commanded 4 true).setDramWord 0 (256 + 80) 0x0101010101010101
theorem witness_images_return : anImg.part = some 1 ∧ (areas.pkg 0).partBusy = some (4, 1) ∧ areas.partValid 0 1 = true ∧
    (areas.streamOut 8 anImg).imageAt 8 1 = areas.imageAt 8 1 := by decide +kernel

/-! ### Formulas at a boundary, scheduling, telemetry -/

/-- Slot 3 makes s2 of VENTN + 4, and slot 1 the running sum s6 of s2. -/
def ventSlots (c : Ctx) : Ctx :=
  { c with
    s := [(4, 20)], changed := [.ventn]
    slots := [(1, { desc := BitVec.ofNat 256 (2 + 0x7F * 2 ^ 7 + 0x7F * 2 ^ 14 + fop 0x10 1 0 0 * 2 ^ 24), dest := 6, valid := true, accum := 5 }),
      (3, { desc := BitVec.ofNat 256 (68 + 4 * 2 ^ 7 + 0x7F * 2 ^ 14 + fop 1 1 2 0 * 2 ^ 24), dest := 2, valid := true })] }
def ventSt : State := ((withCode 1).modCtx ⟨0, .main⟩ ventSlots).modLive 0 fun m => { m with vent := [aTask, aPair] }
-- VENTN is 2: s2 = 2 + 20, s6 = 5 + 22
theorem test_boundary : let c := (after (.boundaryEvaluation ⟨0, .main⟩) ventSt).ctx ⟨0, .main⟩
    c.sr 2 = 22 ∧ c.sr 6 = 27 ∧ c.changed = [] := by decide +kernel
theorem witness_boundary_chain : let c := ventSt.ctx ⟨0, .main⟩
    c.atBoundary = true ∧ c.changed ≠ [] ∧ ventSt.up 0 = true ∧ inOrder c [3, 1] ∧ [3, 1].Nodup ∧
    ∀ k, k < 16 → (k ∈ [3, 1] ↔ (c.slot k).valid = true ∧ (c.slot k).held = false) := by
  refine ⟨by decide +kernel, by decide +kernel, by decide +kernel, by unfold inOrder inOrder inOrder; decide +kernel, by decide, by decide +kernel⟩
-- R409: at 1.5 L/min the envelope is 1,300 W; a partition's cap may be lower
theorem test_limits : let f (cap : Nat) : State := (withCode 1).modPkg 0 fun k => { k with coolFlow := 150, pcap := [(0, (cap, 2400))] }
    (f 2000).limitOf 0 0 = (1300, 2400) ∧ (f 900).limitOf 0 0 = (900, 2400) ∧
    ((f 2000).modPkg 0 fun k => { k with coolIn := 451 }).limitOf 0 0 =
      (600, 2400) := by decide +kernel
theorem test_telemetry : let s := State.reset.modPkg 0 fun k => { k with links := [(3, { spareIn := 1, spareOut := 2 })], spares := [16, 18] }
    let x (n u : Nat) : Nat := Table.get 0 ((after (.telemetryRefresh 0 n u 0) s).pkg 0).telem (n * 256 + u)
    x 11 6 = 1 ∧ x 11 7 = 2 ∧ x 12 1 = 0xFFFA ∧ x 12 0 = 0xFFFF := by decide +kernel
theorem witness_telemetry : (State.reset.pkg 0).mcDown = false ∧ 11 ∉ [8, 9, 10] := by decide +kernel
theorem witness_yields : let s := qring 1 [0] inSlot
    s.partPrio 0 5 = none ∧ (s.partPrio 0 0).isSome = true := by decide +kernel
/-- The own scratchpad's word that NSYM reads. -/
theorem witness_nsym_own : let f := ownFound 0x40
    f.own = some 0x40 ∧ (nodeAt40 0xFFFFC123).split = false ∧ (5 : Nat) ≠ 0 ∧
    (nodeAt40 0xFFFFC123).now.boundSlot 5 = none := by decide +kernel

end Sys2Proof.Tests
end

section
/-! R14: what an instruction that writes s0 or p0 does. -/

namespace Sys2Proof.Machine

/-! ### Two updates of one context -/

theorem Table.put_put_same {α : Type} (t : Table α) (k : Nat) (u v : α) : (t.put k u).put k v = t.put k v := by
  induction t with
  | nil => simp [Table.put]
  | cons c t ih =>
    obtain ⟨j, w⟩ := c
    simp only [Table.put]
    split
    · simp [Table.put]
    · rename_i hlt
      split
      · simp [Table.put]
      · rename_i hne
        simp [Table.put, hlt, hne, ih]

theorem State.setNode_setNode_same (s : State) (g : Nat) (n m : Node) : (s.setNode g n).setNode g m = s.setNode g m := by
  simp [State.setNode, Table.put_put_same]

theorem Img.setCtx_setCtx_same (m : Img) (k : CtxId) (c d : Ctx) : (m.setCtx k c).setCtx k d = m.setCtx k d := by
  cases k <;> rfl

theorem Img.setCtx_ctx_self (m : Img) (k : CtxId) : m.setCtx k (m.ctx k) = m := by
  cases k <;> rfl

theorem State.setLive_setLive_same (s : State) (g : Nat) (m n : Img) : (s.setLive g m).setLive g n = s.setLive g n := by
  simp [State.setLive, State.modNode, State.setNode_setNode_same]

theorem State.setCtx_setCtx_same (s : State) (i : Inst) (c d : Ctx) : (s.setCtx i c).setCtx i d = s.setCtx i d := by
  simp [State.setCtx, State.setLive_setLive_same, Img.setCtx_setCtx_same]

theorem State.modCtx_modCtx_same (s : State) (i : Inst) (f h : Ctx → Ctx) :
    (s.modCtx i f).modCtx i h = s.modCtx i fun c => h (f c) := by
  simp only [State.modCtx, State.setCtx_setCtx_same, State.ctx_setCtx_same]

/-- A change that leaves the context as it is leaves the image of its node as it is. -/
theorem State.live_modCtx_of_fixed {s : State} {i : Inst} {f : Ctx → Ctx} (h : f (s.ctx i) = s.ctx i) :
    (s.modCtx i f).live i.node = s.live i.node := by
  simp only [State.modCtx, h, State.setCtx, State.live_setLive_same]
  exact (s.live i.node).setCtx_ctx_self i.ctx

/-- An instruction whose write changes nothing retires as one that only names the written registers. -/
theorem State.modCtx_retire_of_fixed {s : State} {f : Ctx → Ctx} (h : f (s.ctx s.cur) = s.ctx s.cur) (len : Nat)
    (ws : List Reg) (fl : Flow) : (s.modCtx s.cur f).retire len ws fl = s.retire len ws fl := by
  have hlive := State.live_modCtx_of_fixed h
  simp only [State.retire, State.modCtx_cur, hlive, State.modCtx_modCtx_same]
  simp only [State.modCtx, h]

/-! ### Evaluation of one formula -/

theorem srcVal_unpoison (m : Img) (c : Ctx) (rs : List Reg) (code : Nat) :
    srcVal m (c.unpoison rs) code = srcVal m c code := rfl

theorem runOps_unpoison (m : Img) (c : Ctx) (ws : List Reg) (d n k : Nat) (rs : List Word) (acc : Word) (bad : Bool) :
    runOps m (c.unpoison ws) d n k rs acc bad = runOps m c d n k rs acc bad := by
  induction n generalizing k rs acc bad with
  | zero => rfl
  | succ n ih => simp only [runOps, srcVal_unpoison, ih]

/-- A formula is evaluated with the values held, poisoned or not (log 27). -/
theorem Slot.eval_unpoison (sl : Slot) (m : Img) (c : Ctx) (ws : List Reg) : sl.eval m (c.unpoison ws) = sl.eval m c :=
  runOps_unpoison m c ws _ _ _ _ _ _

theorem Ctx.active_unpoison (c : Ctx) (ws : List Reg) : (c.unpoison ws).active = c.active := rfl

/-- The one slot that takes part in evaluation. -/
theorem Ctx.active_eq_singleton {c : Ctx} {k : Nat} (hk : k < 16) (hv : (c.slot k).valid = true)
    (hh : (c.slot k).held = false)
    (hu : ∀ j, j < 16 → ((c.slot j).valid && !(c.slot j).held) = true → j = k) : c.active = [k] := by
  have hp : ∀ j ∈ List.range 16, ((c.slot j).valid && !(c.slot j).held) = (j == k) := by
    intro j hj
    rw [Bool.eq_iff_iff, beq_iff_eq]
    refine ⟨hu j (List.mem_range.mp hj), ?_⟩
    rintro rfl
    simp [hv, hh]
  rw [Ctx.active, List.filter_congr hp, List.filter_beq,
    List.count_eq_one_of_mem List.nodup_range (List.mem_range.mpr hk)]
  rfl

theorem Ctx.firstReady_singleton (c : Ctx) (k : Nat) : c.firstReady [k] = some k := by
  simp [Ctx.firstReady]

theorem Eval.go_nil (m : Img) (xs : List Src) (n : Nat) (v : Eval) : Eval.go m xs n [] v = v := by
  cases n <;> rfl

theorem Eval.go_singleton (m : Img) (xs : List Src) (n k : Nat) (v : Eval) :
    Eval.go m xs (n + 1) [k] v = v.visit m xs k := by
  simp [Eval.go, Ctx.firstReady_singleton, Eval.go_nil]

/-- A slot with a dirty source writes its value. -/
theorem Eval.visit_sr_dest {v : Eval} {m : Img} {xs : List Src} {k : Nat}
    (hd : (v.ctx.slot k).srcs.any (srcDirty v.dirty xs) = true) (hn : (v.ctx.slot k).dest ≠ 0) :
    (v.visit m xs k).ctx.sr (v.ctx.slot k).dest = ((v.ctx.slot k).eval m v.ctx).1 := by
  simp [Eval.visit, hd, Ctx.sr_setS, hn]

/-! ### Retirement and the s registers -/

/-- The s registers after an evaluation are those that its visits leave. -/
theorem evalBindings_sr (m : Img) (c : Ctx) {regs : List Nat} (h : regs ≠ []) (xs : List Src) (t : Option Word) (n : Nat) :
    (evalBindings m c regs xs t).sr n = (Eval.go m xs 16 c.active ⟨c, regs, none⟩).ctx.sr n := by
  have hne : ¬(regs.isEmpty && xs.isEmpty) = true := by simp [h]
  unfold evalBindings
  rw [if_neg hne]
  simp only
  split <;> rfl

theorem Ctx.advance_sr (c : Ctx) (len : Nat) (f : Flow) (n : Nat) : (c.advance len f).sr n = c.sr n := by
  rw [Ctx.advance_keeps]
  rfl

/-- What retirement leaves in the s registers is what the evaluation of formulas leaves there. -/
theorem Ctx.retire_sr (c : Ctx) (m : Img) (len : Nat) (ws : List Reg) (f : Flow) (n : Nat) :
    (c.retire m len ws f).sr n = (evalBindings m (c.unpoison ws) (sNums ws) [] (some c.pc)).sr n := by
  unfold Ctx.retire
  exact Ctx.advance_sr _ len f n

/-- R14: the write of s0 makes it dirty, so a formula that reads it is evaluated at retirement. -/
theorem Ctx.retire_sr_dest_of_s0_source {c : Ctx} {k : Nat} (ha : c.active = [k]) (h0 : 0 ∈ (c.slot k).srcs)
    (hd : (c.slot k).dest ≠ 0) (m : Img) (len : Nat) (f : Flow) :
    (c.retire m len [.s 0] f).sr (c.slot k).dest = ((c.slot k).eval m c).1 := by
  have hdirty : (c.slot k).srcs.any (srcDirty [0] []) = true := List.any_eq_true.mpr ⟨0, h0, rfl⟩
  calc (c.retire m len [.s 0] f).sr (c.slot k).dest
    _ = (Eval.go m [] 16 (c.unpoison [.s 0]).active ⟨c.unpoison [.s 0], [0], none⟩).ctx.sr (c.slot k).dest :=
        (Ctx.retire_sr c m len [.s 0] f _).trans (evalBindings_sr m _ (List.cons_ne_nil 0 []) [] _ _)
    _ = (Eval.visit ⟨c.unpoison [.s 0], [0], none⟩ m [] k).ctx.sr (c.slot k).dest := by
        rw [Ctx.active_unpoison, ha, Eval.go_singleton]
    _ = ((c.slot k).eval m (c.unpoison [.s 0])).1 :=
        Eval.visit_sr_dest (v := ⟨c.unpoison [.s 0], [0], none⟩) hdirty hd
    _ = ((c.slot k).eval m c).1 := by rw [Slot.eval_unpoison]

/-! ### Next states of instructions that write s0 or p0 -/

theorem State.putS_zero (s : State) (len : Nat) (x : Word) : s.putS len 0 x = s.retire len [.s 0] .seq :=
  State.modCtx_retire_of_fixed (Ctx.setS_zero _ x) len _ _

theorem State.putP_zero (s : State) (len : Nat) (y : BitVec 16) : s.putP len 0 y = s.retire len [.p 0] .seq :=
  State.modCtx_retire_of_fixed (Ctx.setP_zero _ y) len _ _

theorem State.putF_zero (s : State) (len : Nat) (r : Rounded) :
    s.putF len 0 r = (s.modCtx s.cur fun c => c.raise r.flags).retire len [.s 0] .seq := by
  simp only [State.putF, Ctx.setS_zero]

/-- Settles O56: s0 and p0 discard what is written, and everything else that follows a write is in `retire`, which names
s0 as written, so that a formula with s0 as a source finds it dirty. -/
theorem zeroRegisters : Obligations.ZeroRegisters := by
  unfold Obligations.ZeroRegisters
  refine ⟨fun c x y n => ⟨c.sr_zero, c.pr_zero, by rw [Ctx.setS_zero], by rw [Ctx.setP_zero]⟩,
    fun s len x y r => ⟨s.putS_zero len x, s.putP_zero len y, s.putF_zero len r⟩, ?_⟩
  intro c m k len f hk hu hv hh h0 hd
  exact Ctx.retire_sr_dest_of_s0_source (Ctx.active_eq_singleton hk hv hh hu) h0 hd m len f

end Sys2Proof.Machine
end

section
/-! R43: what the machine reads as at `State.reset`. -/

namespace Sys2Proof.Machine

/-! ### The parts of the state at reset -/

theorem State.node_reset (g : Nat) : State.reset.node g = {} := rfl
theorem State.live_reset (g : Nat) : State.reset.live g = {} := rfl
theorem Img.ctx_default (k : CtxId) : ({} : Img).ctx k = {} := by cases k <;> rfl
theorem State.ctx_reset (i : Inst) : State.reset.ctx i = {} := Img.ctx_default i.ctx

theorem Img.chan_default (k : Nat) : ({} : Img).chan k = {} := by
  unfold Img.chan
  split <;> rfl

/-- Every node holds the image of R43 for every partition. -/
theorem State.img_reset (g : Nat) (part : Option Nat) : State.reset.img g part = {} := by
  unfold State.img
  rw [State.node_reset]
  simp only
  split <;> rfl

/-- Package 0 alone is present at reset; another number reads as a default package (log 8). -/
theorem State.pkg_reset (p : Nat) : State.reset.pkg p = Pkg.reset ∨ State.reset.pkg p = {} := by
  by_cases h : 0 = p
  · left; subst h; rfl
  · right; exact if_neg h

@[simp] theorem State.tloss_reset (p : Nat) : (State.reset.pkg p).tephra.tloss = 0 := by
  rcases State.pkg_reset p with h | h
  · rw [h]; rfl
  · rw [h]

@[simp] theorem State.gt_reset (p : Nat) : (State.reset.pkg p).gt = 0 := by
  rcases State.pkg_reset p with h | h
  · rw [h]; rfl
  · rw [h]

@[simp] theorem Memory.readNat_nil (a n : Nat) : Memory.readNat [] a n = 0 := by
  induction n generalizing a with
  | zero => rfl
  | succ n ih => simp [Memory.readNat, ih, Memory.read, Table.get, Memory.blank]

/-! ### Control registers at reset -/

/-- R18: the numbers beyond the loop registers belong to WPk, PRBn and PRLn. -/
theorem csrRead_beyond_loops (s : State) (i : Inst) {n : Nat} (h : 0x086 ≤ n) :
    csrRead s i n =
      if 0x090 ≤ n && n < 0x094 then some ((s.live i.node).chan (n - 0x090)).wp
      else if 0x100 ≤ n && n < 0x110 then some (Table.get 0 (s.live i.node).prb (n - 0x100))
      else if 0x110 ≤ n && n < 0x120 then some (Table.get 0 (s.live i.node).prl (n - 0x110))
      else none := by
  unfold csrRead
  split
  case h_34 => rfl
  all_goals omega

theorem csrRead_reset_wp (i : Inst) {n : Nat} (h : 0x090 ≤ n) (h' : n ≤ 0x093) : csrRead State.reset i n = some 0 := by
  have hn : (0x090 ≤ n && n < 0x094) = true := by simp only [Bool.and_eq_true, decide_eq_true_eq]; omega
  rw [csrRead_beyond_loops _ _ (by omega), if_pos hn, State.live_reset, Img.chan_default]

/-- R18, R40: PRBn and PRLn. -/
theorem csrRead_reset_pr (i : Inst) {n : Nat} (h : 0x100 ≤ n) (h' : n ≤ 0x11F) : csrRead State.reset i n = some 0 := by
  have hw : ¬(0x090 ≤ n && n < 0x094) = true := by simp only [Bool.and_eq_true, decide_eq_true_eq]; omega
  rw [csrRead_beyond_loops _ _ (by omega), if_neg hw, State.live_reset]
  by_cases hb : n < 0x110
  · rw [if_pos (by simp [h, hb])]
    rfl
  · rw [if_neg (by simp [hb]), if_pos (by simp only [Bool.and_eq_true, decide_eq_true_eq]; omega)]
    rfl

/-- R19: the loop registers of MAIN and WORK. -/
theorem csrRead_reset_loop {i : Inst} (hi : i.ctx.isMsg = false) {n : Nat} (h : 0x080 ≤ n) (h' : n ≤ 0x085) :
    csrRead State.reset i n = some 0 := by
  interval_cases n <;> simp only [csrRead, hi, State.live_reset, Img.ctx_default] <;> rfl

/-- Clearing NS leaves the PSTAT of a secure context at S level as it is. -/
theorem pstat_clear_ns (k : CtxId) : BitVec.ofNat 64 (k.code * 16 + 1) &&& ~~~2 = BitVec.ofNat 64 (k.code * 16 + 1) := by
  cases k <;> decide

/-- R22: at reset a context is at S level, takes no interrupt and runs no upcall. -/
theorem csrRead_reset_pstat (i : Inst) :
    (csrRead State.reset i 0x006).map (· &&& ~~~2) = some (BitVec.ofNat 64 (i.ctx.code * 16 + 1)) := by
  simp only [csrRead, State.live_reset, State.node_reset, Img.ctx_default]
  exact congrArg some (pstat_clear_ns i.ctx)

/-- R18: the registers below the loop registers whose reset value is 0. -/
theorem csrRead_reset_zero (i : Inst) {n : Nat}
    (h : n ∈ [0x001, 0x002, 0x003, 0x004, 0x005, 0x010, 0x011, 0x020, 0x021, 0x030, 0x031, 0x032, 0x033, 0x034, 0x040, 0x041,
      0x042, 0x043, 0x050, 0x051, 0x060, 0x070, 0x071]) : csrRead State.reset i n = some 0 := by
  fin_cases h <;>
    simp only [csrRead, State.live_reset, State.node_reset, Img.ctx_default, State.tloss_reset, State.gt_reset] <;> rfl

/-! ### Storage at reset -/

theorem Ctx.hr_default (n : Nat) : hValid (({} : Ctx).hr n) = false := by
  change hValid 0 = false
  decide
theorem Ctx.slot_default (k : Nat) : (({} : Ctx).slot k).valid = false := rfl

theorem State.readPlace_reset_spm (g : Nat) (part : Option Nat) (a n : Nat) :
    State.reset.readPlace (.spm g part a) n = 0 := by
  rw [State.readPlace, State.img_reset]
  exact Memory.readNat_nil a n

theorem State.full_reset_spm (g : Nat) (part : Option Nat) (a : Nat) : State.reset.full (.spm g part a) = false := by
  rw [State.full, State.img_reset]
  rfl

/-- Settles O55: every part of the state at reset is the default one, whose registers and storage read as R43 says. -/
theorem reset : Obligations.Reset := by
  unfold Obligations.Reset
  intro i
  dsimp only
  rw [State.ctx_reset, State.live_reset]
  refine ⟨?zero, fun hi n h h' => csrRead_reset_loop hi h h', fun n h h' => csrRead_reset_pr i h h', rfl, rfl, rfl,
    csrRead_reset_pstat i, Ctx.hr_default, Ctx.slot_default,
    fun part a n => ⟨State.readPlace_reset_spm _ part a n, State.full_reset_spm _ part a⟩, rfl, rfl, rfl, rfl,
    fun k => by rw [Img.chan_default]⟩
  case zero =>
    intro n hn
    simp only [List.mem_cons, List.not_mem_nil, or_false] at hn
    by_cases hw : 0x090 ≤ n
    · exact csrRead_reset_wp i hw (by omega)
    · refine csrRead_reset_zero i ?_
      simp only [List.mem_cons, List.not_mem_nil, or_false]
      omega

end Sys2Proof.Machine
end

section
/-! How a scalar instruction that only writes one s register completes (R90, R92, R230). -/

namespace Sys2Proof.Machine

/-- An instruction that is ready and writes one s register completes with that write. -/
theorem run_writeS {x : Instr} {u : Use} {s : State} {d : Nat} {v : State → Word} (h : s.ready u) :
    run x u s (fun s => writeS s d (v s)) = .next (s.putS x.len d (v s)) :=
  run_done h rfl

/-- A two-operand instruction that is ready writes the value of its two operands. -/
theorem alu_ready {x : Instr} {o : Rrr} {s : State} (f : Word → Word → Word) (h : s.ready (useRrr o)) :
    alu x o s f = .next (s.putS x.len o.d (f (s.now.sr o.a) (s.now.opnd o.b))) :=
  run_writeS h

/-- The context after such a completion: the register is written, then the instruction retires. -/
theorem State.putS_now (s : State) (len d : Nat) (x : Word) :
    (s.putS len d x).now =
      (s.now.setS d x).retire ((s.modCtx s.cur fun c => c.setS d x).live s.cur.node) len [.s d] .seq := by
  simp [State.putS, State.now, State.retire]

/-- R21: writing an s register raises no floating-point flag. -/
theorem State.putS_fstat (s : State) (len d : Nat) (x : Word) : (s.putS len d x).now.fstat = s.now.fstat := by
  obtain ⟨_, _, _, _, _, hfstat, _⟩ := Ctx.retire_keeps (s.now.setS d x)
    ((s.modCtx s.cur fun c => c.setS d x).live s.cur.node) len [.s d] .seq
  rw [State.putS_now, hfstat, Ctx.setS_fstat]

end Sys2Proof.Machine
end

section
/-! R95: the bits of a bit field. A field `(lo, w)` of `a` is `a.extractLsb' lo w`, and the results are its extensions. -/

namespace Sys2Proof.Machine

theorem natBits_toNat {n : Nat} (x : BitVec n) (lo w : Nat) : natBits x.toNat lo w = (x.extractLsb' lo w).toNat := by
  rw [BitVec.extractLsb'_toNat, Nat.shiftRight_eq_div_pow]
  rfl

/-- The two's complement reading of a number of `w` bits. -/
theorem natSigned_toNat {w : Nat} (hw : 0 < w) (y : BitVec w) : natSigned w y.toNat = y.toInt := by
  have hpow : 2 ^ (w - 1) * 2 = 2 ^ w := Nat.two_pow_pred_mul_two hw
  have hhalf : y.toNat < 2 ^ (w - 1) ↔ 2 * y.toNat < 2 ^ w := by omega
  simp only [natSigned, Nat.mod_eq_of_lt y.isLt, BitVec.toInt_eq_toNat_cond, hhalf]

/-- The first bit of the field and its width, cut so that the field ends at bit 63. -/
theorem fieldOf_eq (b : Word) : fieldOf b = (b.toNat % 64, min (b.toNat / 64 % 64 + 1) (64 - b.toNat % 64)) := rfl

theorem fieldOf_width_pos (b : Word) : 0 < (fieldOf b).2 := by
  rw [fieldOf_eq]
  omega

theorem bfxW_eq (a b : Word) : bfxW a b = (a.extractLsb' (fieldOf b).1 (fieldOf b).2).signExtend 64 := by
  simp only [bfxW, natBits_toNat, natSigned_toNat (fieldOf_width_pos b)]
  rfl

theorem bfxuW_eq (a b : Word) : bfxuW a b = (a.extractLsb' (fieldOf b).1 (fieldOf b).2).setWidth 64 := by
  simp only [bfxuW, natBits_toNat, BitVec.ofNat_toNat]

theorem bfxW_getLsbD (a b : Word) {k : Nat} (hk : k < 64) :
    (bfxW a b).getLsbD k =
      if k < (fieldOf b).2 then a.getLsbD ((fieldOf b).1 + k) else a.getLsbD ((fieldOf b).1 + (fieldOf b).2 - 1) := by
  have hw := fieldOf_width_pos b
  rw [bfxW_eq, BitVec.getLsbD_signExtend, BitVec.msb_eq_getLsbD_last, BitVec.getLsbD_extractLsb', BitVec.getLsbD_extractLsb',
    ← Nat.add_sub_assoc hw]
  by_cases hin : k < (fieldOf b).2
  · simp [hk, hin]
  · simp [hk, hin, hw]

theorem bfxuW_getLsbD (a b : Word) {k : Nat} (hk : k < 64) :
    (bfxuW a b).getLsbD k = (decide (k < (fieldOf b).2) && a.getLsbD ((fieldOf b).1 + k)) := by
  simp [bfxuW_eq, BitVec.getLsbD_extractLsb', hk]

/-- The mask of a field has one bits at the field alone. -/
theorem fieldMask_getLsbD (lo w : Nat) {k : Nat} (hk : k < 64) :
    (BitVec.ofNat 64 ((2 ^ w - 1) * 2 ^ lo)).getLsbD k = decide (lo ≤ k ∧ k < lo + w) := by
  rw [BitVec.getLsbD_ofNat, Nat.testBit_mul_two_pow, Nat.testBit_two_pow_sub_one, decide_eq_true hk, Bool.true_and,
    ← Bool.decide_and, decide_eq_decide]
  omega

theorem bfiW_getLsbD (d a b : Word) {k : Nat} (hk : k < 64) :
    (bfiW d a b).getLsbD k =
      if (fieldOf b).1 ≤ k ∧ k < (fieldOf b).1 + (fieldOf b).2 then a.getLsbD (k - (fieldOf b).1) else d.getLsbD k := by
  simp only [bfiW, BitVec.getLsbD_or, BitVec.getLsbD_and, BitVec.getLsbD_not, BitVec.getLsbD_shiftLeft,
    fieldMask_getLsbD _ _ hk, hk]
  split
  case isTrue hin => simp [hin]
  case isFalse hout => simp [hout]

theorem exec_bfx {s : State} {o : Rrr} (h : s.ready (useRrr o)) :
    exec (.bfx o) s = .next (s.putS (Instr.bfx o).len o.d (bfxW (s.now.sr o.a) (s.now.opnd o.b))) := alu_ready bfxW h

theorem exec_bfxu {s : State} {o : Rrr} (h : s.ready (useRrr o)) :
    exec (.bfxu o) s = .next (s.putS (Instr.bfxu o).len o.d (bfxuW (s.now.sr o.a) (s.now.opnd o.b))) := alu_ready bfxuW h

/-- BFI has rd as a third source. -/
theorem exec_bfi {s : State} {o : Rrr} (h : s.ready { useRrr o with reads := .s o.d :: (useRrr o).reads }) :
    exec (.bfi o) s =
      .next (s.putS (Instr.bfi o).len o.d (bfiW (s.now.sr o.d) (s.now.sr o.a) (s.now.opnd o.b))) := run_writeS h

theorem bitFields : BitFields := by
  intro s o
  refine ⟨fun h => ⟨⟨_, exec_bfx h, fun k hk => ?_⟩, ⟨_, exec_bfxu h, fun k hk => ?_⟩⟩,
    fun h => ⟨_, exec_bfi h, fun k hk => ?_⟩⟩
  · exact bfxW_getLsbD _ _ hk
  · exact bfxuW_getLsbD _ _ hk
  · exact bfiW_getLsbD _ _ _ hk

/-- Settles O2: BFX and BFXU sign- and zero-extend the field, and BFI takes the field's bits from ra by the field's mask. -/
theorem bitResults : Obligations.BitResults := ⟨bitFields, by decide⟩

end Sys2Proof.Machine
end

section
/-! R100: division completes for all operands, and its results for the borderline ones. -/

namespace Sys2Proof.Machine

theorem exec_div {s : State} {o : Rrr} (h : s.ready (useRrr o)) :
    exec (.div o) s = .next (s.putS (Instr.div o).len o.d (divW (s.now.sr o.a) (s.now.opnd o.b))) := alu_ready divW h

theorem exec_divu {s : State} {o : Rrr} (h : s.ready (useRrr o)) :
    exec (.divu o) s = .next (s.putS (Instr.divu o).len o.d (divuW (s.now.sr o.a) (s.now.opnd o.b))) := alu_ready divuW h

theorem exec_rem {s : State} {o : Rrr} (h : s.ready (useRrr o)) :
    exec (.rem o) s = .next (s.putS (Instr.rem o).len o.d (remW (s.now.sr o.a) (s.now.opnd o.b))) := alu_ready remW h

theorem exec_remu {s : State} {o : Rrr} (h : s.ready (useRrr o)) :
    exec (.remu o) s = .next (s.putS (Instr.remu o).len o.d (remuW (s.now.sr o.a) (s.now.opnd o.b))) := alu_ready remuW h

theorem divW_zero (a : Word) : divW a 0 = -1 := by
  rw [divW, if_pos rfl]
  rfl

theorem divuW_zero (a : Word) : divuW a 0 = BitVec.ofNat 64 (2 ^ 64 - 1) := by
  rw [divuW, if_pos rfl]
  rfl

theorem remW_zero (a : Word) : remW a 0 = a := if_pos rfl

theorem remuW_zero (a : Word) : remuW a 0 = a := if_pos rfl

theorem ne_zero_of_toInt_eq_neg_one {b : Word} (hb : b.toInt = -1) : b ≠ 0 := by
  rintro rfl
  exact absurd hb (by decide)

/-- The quotient 2^63 is no signed word: it wraps to -2^63. -/
theorem divW_overflow {a b : Word} (ha : a.toInt = -2 ^ 63) (hb : b.toInt = -1) :
    divW a b = BitVec.ofInt 64 (-2 ^ 63) := by
  rw [divW, if_neg (ne_zero_of_toInt_eq_neg_one hb), ha, hb]
  decide

theorem remW_overflow {a b : Word} (ha : a.toInt = -2 ^ 63) (hb : b.toInt = -1) : remW a b = 0 := by
  rw [remW, if_neg (ne_zero_of_toInt_eq_neg_one hb), ha, hb]
  decide

/-- Settles O4: the four instructions end with one write of an s register, whose value is the total function that gives the
borderline results, and such a write leaves FSTAT. -/
theorem divisionBorderlines : Obligations.DivisionBorderlines := by
  refine ⟨fun s o h => ?_, by decide⟩
  have hdiv := exec_div h
  have hdivu := exec_divu h
  have hrem := exec_rem h
  have hremu := exec_remu h
  refine ⟨⟨_, _, _, _, ⟨hdiv, s.putS_fstat ..⟩, ⟨hrem, s.putS_fstat ..⟩, ⟨hdivu, s.putS_fstat ..⟩, ⟨hremu, s.putS_fstat ..⟩⟩,
    fun hb => ?zero, fun ha hb => ?overflow⟩
  case zero =>
    rw [hb, divW_zero] at hdiv
    rw [hb, divuW_zero] at hdivu
    rw [hb, remW_zero] at hrem
    rw [hb, remuW_zero] at hremu
    exact ⟨⟨hdiv, s.putS_fstat ..⟩, ⟨hdivu, s.putS_fstat ..⟩, ⟨hrem, s.putS_fstat ..⟩, ⟨hremu, s.putS_fstat ..⟩⟩
  case overflow =>
    rw [divW_overflow ha hb] at hdiv
    rw [remW_overflow ha hb] at hrem
    exact ⟨⟨hdiv, s.putS_fstat ..⟩, ⟨hrem, s.putS_fstat ..⟩⟩

end Sys2Proof.Machine
end

section
/-! R127: the word that BINDQ writes, field by field, and the check of its destination (R122). -/

namespace Sys2Proof.Machine

/-- The low byte of the binding state of a bound register: HELD, DEPTH and the slot number. -/
def bindLow (sl : Slot) (k : Nat) : Nat := (if sl.held then 128 else 0) + (sl.depth % 8 * 16 + k)

theorem Ctx.boundSlot_lt {c : Ctx} {n k : Nat} (h : c.boundSlot n = some k) : k < 16 :=
  List.mem_range.mp (List.mem_of_find?_eq_some h)

theorem bindState_unbound {c : Ctx} {n : Nat} (h : c.boundSlot n = none) : bindState c n = 0 := by
  rw [bindState, h]

theorem bindState_bound {c : Ctx} {n k : Nat} (h : c.boundSlot n = some k) :
    bindState c n = BitVec.ofNat 64 (2 ^ 63 + bindLow (c.slot k) k) := by
  simp only [bindState, h, bindLow, Nat.add_assoc]

theorem bindLow_lt (sl : Slot) {k : Nat} (hk : k < 16) : bindLow sl k < 2 ^ 8 := by
  unfold bindLow
  split <;> omega

theorem bindLow_depth (sl : Slot) {k : Nat} (hk : k < 16) : bindLow sl k / 16 % 8 = sl.depth % 8 := by
  unfold bindLow
  split <;> omega

theorem bindLow_slot (sl : Slot) {k : Nat} (hk : k < 16) : bindLow sl k % 16 = k := by
  unfold bindLow
  split <;> omega

theorem bindLow_testBit_held (sl : Slot) {k : Nat} (hk : k < 16) : (bindLow sl k).testBit 7 = sl.held := by
  have hlow : (sl.depth % 8 * 16 + k).testBit 7 = false := Nat.testBit_lt_two_pow (by omega)
  cases hheld : sl.held with
  | false => simp [bindLow, hheld, hlow]
  | true => simp [bindLow, hheld, hlow, Nat.testBit_two_pow_add_eq _ 7]

/-- R127: bit 63, HELD, DEPTH and the slot number of a bound register, and zero elsewhere. -/
theorem bindState_fields {c : Ctx} {n k : Nat} (h : c.boundSlot n = some k) :
    (bindState c n).getLsbD 63 = true ∧ (∀ j, 8 ≤ j → j < 63 → (bindState c n).getLsbD j = false) ∧
      (bindState c n).getLsbD 7 = (c.slot k).held ∧ (bindState c n).toNat / 16 % 8 = (c.slot k).depth % 8 ∧
      (bindState c n).toNat % 16 = k := by
  have hk := Ctx.boundSlot_lt h
  have hlt := bindLow_lt (c.slot k) hk
  have hnat : (bindState c n).toNat = 2 ^ 63 + bindLow (c.slot k) k := by
    rw [bindState_bound h, BitVec.toNat_ofNat]
    omega
  have hbelow : ∀ j, j < 63 → (bindState c n).getLsbD j = (bindLow (c.slot k) k).testBit j := fun j hj => by
    rw [← BitVec.testBit_toNat, hnat, Nat.testBit_two_pow_add_gt hj]
  refine ⟨?top, fun j h8 hj => ?zero, ?held, ?depth, ?slot⟩
  case top =>
    rw [← BitVec.testBit_toNat, hnat, Nat.testBit_two_pow_add_eq, Nat.testBit_lt_two_pow (hlt.trans (by decide))]
    rfl
  case zero => rw [hbelow j hj, Nat.testBit_lt_two_pow (hlt.trans_le (Nat.pow_le_pow_right (by decide) h8))]
  case held => rw [hbelow 7 (by decide), bindLow_testBit_held _ hk]
  case depth => rw [← bindLow_depth (c.slot k) hk, hnat]; omega
  case slot => rw [hnat]; have := bindLow_slot (c.slot k) hk; omega

/-- What BINDQ uses when the register that ra names exists: ra is not among the registers it reads. -/
theorem exec_bindq {s : State} {d a : SReg} (ha : regOk s.cur.ctx (.s a) = true) :
    exec (.bindq d a) s =
      run (.bindq d a) (formUse s 0 [] [.s d]) s fun s => writeS s d (bindState (s.ctx s.cur) a) := by
  change execBindq d a s = _
  simp only [execBindq, ha, Bool.not_true, Bool.or_false]

/-- R122: a formula instruction of MAIN or WORK that reads no register and writes a bound one fails its check. -/
theorem State.precheck_bound {s : State} {d : Nat} (hctx : s.cur.ctx = .main ∨ s.cur.ctx = .work)
    (hd : regOk s.cur.ctx (.s d) = true) (hslot : s.now.dslot = none) (hbound : (s.now.boundSlot d).isSome = true) :
    s.precheck (formUse s 0 [] [.s d]) = some { cause := .boundWrite } := by
  have hcount : 0 < slotCount s.cur.ctx := by
    rcases hctx with h | h <;> rw [h] <;> decide
  have hctxs : s.cur.ctx ≠ .main → s.cur.ctx = .work := hctx.resolve_left
  simpa [State.precheck, formUse, Nat.not_le.mpr hcount, hd, hslot, Ctx.isBound, hbound, trapped] using hctxs

/-- Settles O10: BINDQ's word is put together from disjoint fields, its meaning names `a` by number alone, and the check of
a bound destination stands before the effect. -/
theorem bindingQuery : Obligations.BindingQuery := by
  intro s d a ha
  rw [exec_bindq ha]
  refine ⟨fun h => ⟨_, run_writeS h, bindState_unbound, fun k => bindState_fields⟩, fun hctx hd hslot hbound => ?_⟩
  rw [run_next, State.issue_checked (State.precheck_bound hctx hd hslot hbound)]

end Sys2Proof.Machine
end
